-- ==== Sys2Proof/Word.lean ====
section
/-! DEFINITION. Bytes, words, endpoint indices and the sixteen-slot tables that are indexed by an endpoint. -/

namespace Sys2Proof

/-- A byte of host memory or of a FIFO queue. -/
abbrev Byte := BitVec 8

/-- A value on the bus, in the widest unit it moves (R51). -/
abbrev Word := BitVec 32

/-- An endpoint index 0..15 (the `ep` field of a command word, R60; `NUM_EPS` is at most 16, R3). -/
abbrev EpIdx := Fin 16

/-- Entry `e` of a table with one slot per endpoint index. -/
def tget {α : Type} (v : Vector α 16) (e : EpIdx) : α := v[e.val]

/-- The table `v` with `x` in slot `e`. -/
def tset {α : Type} (v : Vector α 16) (e : EpIdx) (x : α) : Vector α 16 := v.set e.val x e.isLt

end Sys2Proof
end

