-- ==== Sys2Proof/Config.lean ====
section
/-! DEFINITION. The implementation parameters of 00_scope.md rule R3 as plain data (`Params`, with the register map
`RegMap` among them), the document's fixed literals, the parameter values the worked examples of spec/95 use, and the
free value. A state carries its parameters in `dev.cfg`, so statements quantify over every choice of them. -/

namespace Sys2Proof

/-- The free value: what bits `k` of draw number `n` hold. The spec leaves them open ("unspecified", "a draw"),
so nothing is known of them. A draw number is used once (`Dev.draws`). -/
opaque Config.free (n k : Nat) : BitVec 32

/-! ## Enumerations of the parameters (R3, R72) -/

/-- A configured role: `HostOnly`, `PeripheralOnly`, `OTG` (R3, R9). -/
inductive Role where
  | hostOnly
  | peripheralOnly
  | otg
  deriving DecidableEq, Repr

/-- "Host-capable" is `HostOnly` or `OTG` (R144, R203). -/
def Role.hostCapable : Role → Bool
  | .hostOnly => true
  | .peripheralOnly => false
  | .otg => true

/-- `ALLOC_MODE`: the allocator's algorithm (R3, R130). -/
inductive AllocMode where
  | table
  | discovered
  deriving DecidableEq, Repr

/-- `SHIM_MODE`: how an endpoint-scoped register is reached (R3, R98, R99). -/
inductive ShimMode where
  | direct
  | indexed
  deriving DecidableEq, Repr

/-- `FIFO_VARIANT`: which silicon (R3, R113, R116). -/
inductive FifoVariant where
  | directBurst
  | bridgeWord
  deriving DecidableEq, Repr

/-- Directionality style of a FIFO configuration entry (R72). -/
inductive Style where
  | rxtx
  | tx
  | rx
  deriving DecidableEq, Repr

/-- Buffering depth of a FIFO configuration entry (R72). -/
inductive Depth where
  | single
  | double
  deriving DecidableEq, Repr

/-- A FIFO configuration entry (R72). -/
structure FifoEntry where
  ep        : EpIdx
  style     : Style
  depth     : Depth
  maxpacket : BitVec 16
  deriving DecidableEq, Repr

/-- A point of a delivery at which `SITE_A_EXTRA_TRIGGERS` may invoke overlay site A: right after the step of the
named global event ran (R3, R221). DESIGN CHOICE (log 24): the spec does not list the possible points. -/
inductive TriggerPoint where
  | resume
  | sessReq
  | vbusErr
  | connect
  | reset
  | suspend
  deriving DecidableEq, Repr

/-! ## The register map `REGMAP` (R64 to R71) -/

/-- Where an endpoint-scoped register lies: its offset in the indexed window and, if the map has flat aliases of it,
the alias of each endpoint (R98, R99). -/
structure EpRegOff where
  window : Nat
  flat   : Option (Vector Nat 16)
  deriving DecidableEq, Repr

/-- A field of a register: its lowest bit and how many bits it has. -/
structure BitField where
  low   : Nat
  width : Nat
  deriving DecidableEq, Repr

/-- Bit positions in `INTRUSB` and `INTRUSBE` (R65). The eighth bit has no name. -/
structure UsbBits where
  suspend    : Nat
  resume     : Nat
  reset      : Nat
  connect    : Nat
  disconnect : Nat
  sessReq    : Nat
  vbusErr    : Nat
  deriving DecidableEq, Repr

/-- Bit positions in `DEVCTL` (R66); `VBUS` has two bits. -/
structure DevctlBits where
  session : Nat
  hostreq : Nat
  hm      : Nat
  vbusLo  : Nat
  vbusHi  : Nat
  lsdev   : Nat
  fsdev   : Nat
  bdevice : Nat
  deriving DecidableEq, Repr

/-- Bit positions in `POWER` (R66). -/
structure PowerBits where
  ensuspend : Nat
  suspendm  : Nat
  resume    : Nat
  reset     : Nat
  hsmode    : Nat
  hsenab    : Nat
  softconn  : Nat
  isoupdate : Nat
  deriving DecidableEq, Repr

/-- Bit positions in the port-status word (R71). -/
structure PortBits where
  connection  : Nat
  enable      : Nat
  lowSpeed    : Nat
  highSpeed   : Nat
  cConnection : Nat
  deriving DecidableEq, Repr

/-- The register map: offsets, one an endpoint where a register has one port or alias an endpoint (R64), bit positions
(R65, R66, R71), and the fields of the size, offset and length registers (R67, R68, R70; D23, D26). -/
structure RegMap where
  power      : Nat
  intrtx     : Nat
  intrrx     : Nat
  intrtxe    : Nat
  intrrxe    : Nat
  intrusb    : Nat
  intrusbe   : Nat
  index      : Nat
  testmode   : Nat
  devctl     : Nat
  /-- the port `FIFO(e)` on the direct variant -/
  fifo       : Vector Nat 16
  txfifosz   : EpRegOff
  rxfifosz   : EpRegOff
  txfifoadd  : EpRegOff
  rxfifoadd  : EpRegOff
  fifosize   : EpRegOff
  brEp0Conf  : Nat
  brTxConf   : Vector Nat 16
  brRxConf   : Vector Nat 16
  brFifoSync : Vector Nat 16
  brFifoAsync : Vector Nat 16
  usb        : UsbBits
  dc         : DevctlBits
  pw         : PowerBits
  port       : PortBits
  /-- `SZ` of `TXFIFOSZ` and `RXFIFOSZ` (R67). -/
  szCode       : BitField
  /-- `DPB` of `TXFIFOSZ` and `RXFIFOSZ` (R67). -/
  szDouble     : Nat
  /-- The offset in units of 8 bytes in `TXFIFOADD` and `RXFIFOADD` (R68). -/
  addOff       : BitField
  /-- `XFR_SIZE` of `BR_TX_CONF(e)` and `BR_RX_CONF(e)` (R70). -/
  brLen        : BitField
  /-- `XFR_SIZE` of `BR_EP0_CONF` (R70). -/
  brEp0Len     : BitField
  /-- `DIR_TX` of `BR_EP0_CONF` (R70). -/
  brEp0DirBit  : Nat
  deriving DecidableEq, Repr

/-- The default map of R64 to R71. UNVERIFIED (log 26): the spec marks these numbers as general knowledge about this
core; the bridge addresses have no default at all, and the ones here are a DESIGN CHOICE. -/
def RegMap.default : RegMap where
  power := 0x01
  intrtx := 0x02
  intrrx := 0x04
  intrtxe := 0x06
  intrrxe := 0x08
  intrusb := 0x0A
  intrusbe := 0x0B
  index := 0x0E
  testmode := 0x0F
  devctl := 0x60
  fifo := #v[0x20, 0x24, 0x28, 0x2C, 0x30, 0x34, 0x38, 0x3C,
             0x40, 0x44, 0x48, 0x4C, 0x50, 0x54, 0x58, 0x5C]
  txfifosz := ⟨0x62, none⟩
  rxfifosz := ⟨0x63, none⟩
  txfifoadd := ⟨0x64, none⟩
  rxfifoadd := ⟨0x66, none⟩
  fifosize := ⟨0x1F, some #v[0x10F, 0x11F, 0x12F, 0x13F, 0x14F, 0x15F, 0x16F, 0x17F,
                             0x18F, 0x19F, 0x1AF, 0x1BF, 0x1CF, 0x1DF, 0x1EF, 0x1FF]⟩
  brEp0Conf := 0x400
  brTxConf := #v[0x400, 0x404, 0x408, 0x40C, 0x410, 0x414, 0x418, 0x41C,
                 0x420, 0x424, 0x428, 0x42C, 0x430, 0x434, 0x438, 0x43C]
  brRxConf := #v[0x440, 0x444, 0x448, 0x44C, 0x450, 0x454, 0x458, 0x45C,
                 0x460, 0x464, 0x468, 0x46C, 0x470, 0x474, 0x478, 0x47C]
  brFifoSync := #v[0x480, 0x484, 0x488, 0x48C, 0x490, 0x494, 0x498, 0x49C,
                   0x4A0, 0x4A4, 0x4A8, 0x4AC, 0x4B0, 0x4B4, 0x4B8, 0x4BC]
  brFifoAsync := #v[0x4C0, 0x4C4, 0x4C8, 0x4CC, 0x4D0, 0x4D4, 0x4D8, 0x4DC,
                    0x4E0, 0x4E4, 0x4E8, 0x4EC, 0x4F0, 0x4F4, 0x4F8, 0x4FC]
  usb := { suspend := 0, resume := 1, reset := 2, connect := 4, disconnect := 5, sessReq := 6, vbusErr := 7 }
  dc := { session := 0, hostreq := 1, hm := 2, vbusLo := 3, vbusHi := 4, lsdev := 5, fsdev := 6, bdevice := 7 }
  pw := { ensuspend := 0, suspendm := 1, resume := 2, reset := 3, hsmode := 4, hsenab := 5, softconn := 6,
          isoupdate := 7 }
  port := { connection := 0, enable := 1, lowSpeed := 9, highSpeed := 10, cConnection := 16 }
  szCode := ⟨0, 4⟩
  szDouble := 4
  addOff := ⟨0, 16⟩
  brLen := ⟨0, 11⟩
  brEp0Len := ⟨0, 7⟩
  brEp0DirBit := 7

/-! ## The parameters (R3) -/

/-- The parameters of 00_scope.md rule R3. They are arguments of the model, never written by a step (R39; log 1). -/
structure Params where
  numEps            : Nat
  fifoRamBytes      : Nat
  cfgRole           : Role
  rolesCompiled     : List Role
  hwDynFifo         : Bool
  allocMode         : AllocMode
  fifoTable         : List FifoEntry
  /-- `HW_SIZE_DESC[e]`; the spec gives entries 1..N-1 only, and slot 0 is never read (log 18). -/
  hwSizeDesc        : Vector Byte 16
  shimMode          : ShimMode
  fifoVariant       : FifoVariant
  otgOverlayPresent : Bool
  idleDelay         : Nat
  /-- `BASE_ADDR`, "any" (R3). DESIGN CHOICE (log 42): the spec gives no width; a bus address has 32 bits here. -/
  baseAddr          : BitVec 32
  regMap            : RegMap
  defaultUsbIntr    : BitVec 8
  siteAExtra        : List TriggerPoint
  deriving DecidableEq, Repr

/-- `VBUSERR_RETRY_INIT` (R3, FIXED). -/
def vbuserrRetryInit : Nat := 2
/-- `EP0_FIFO_BYTES` (R3, FIXED). -/
def ep0FifoBytes : BitVec 16 := 64
/-- `MIN_FIFO_BYTES` (R3, FIXED). -/
def minFifoBytes : Nat := 8
/-- `BULK_MIN_BYTES` (R3, FIXED). -/
def bulkMinBytes : Nat := 512

/-- The §8 table (R72, spec/95 S6): `[(ep1,TX,512),(ep1,RX,512),(ep2,RXTX,512),(ep3,RXTX,256),(ep4,RXTX,256)]`. -/
def sectionEightTable : List FifoEntry :=
  [⟨1, .tx, .single, 512⟩, ⟨1, .rx, .single, 512⟩, ⟨2, .rxtx, .single, 512⟩,
   ⟨3, .rxtx, .single, 256⟩, ⟨4, .rxtx, .single, 256⟩]

/-- The parameter values of spec/95's conventions, used by `State.reset`. DESIGN CHOICE (log 2): the spec leaves
the OPEN parameters open; no statement rests on these values. -/
def Params.default : Params where
  numEps := 5
  fifoRamBytes := 4096
  cfgRole := .otg
  rolesCompiled := [.hostOnly, .peripheralOnly, .otg]
  hwDynFifo := true
  allocMode := .table
  fifoTable := sectionEightTable
  hwSizeDesc := Vector.replicate 16 0
  shimMode := .indexed
  fifoVariant := .directBurst
  otgOverlayPresent := true
  idleDelay := 3
  baseAddr := 0
  regMap := .default
  defaultUsbIntr := 0xF7
  siteAExtra := []

end Sys2Proof
end

