-- ==== Sys2Proof/Syntax.lean ====
section
/-! DEFINITION. The operations of the request port: one constructor for each row of spec/opcode_table.json (R61).
Operand fields are those of the command word (R60, R76). -/

namespace Sys2Proof

/-- The snapshot source of `IRQ`: live registers, or a synthetic record at a host address (R160, R73). -/
inductive SnapSource where
  | live
  | synthetic (addr : BitVec 32)
  deriving DecidableEq, Repr

/-- The 17 operations (R61). Offsets, counts and addresses are the bit fields of the command word; an endpoint is an
index. -/
inductive Instr where
  /-- `RD8 offset` (R91) -/
  | rd8 (off : BitVec 16)
  /-- `RD16 offset` (R92) -/
  | rd16 (off : BitVec 16)
  /-- `RD32 offset` (R93) -/
  | rd32 (off : BitVec 16)
  /-- `WR8 offset, value` (R94) -/
  | wr8 (off : BitVec 16) (v : BitVec 8)
  /-- `WR16 offset, value` (R95) -/
  | wr16 (off : BitVec 16) (v : BitVec 16)
  /-- `WR32 offset, value` (R96) -/
  | wr32 (off : BitVec 16) (v : BitVec 32)
  /-- `WRFIFO e, n, @src` (R114) -/
  | wrfifo (e : EpIdx) (n : BitVec 16) (src : BitVec 32)
  /-- `RDFIFO e, n, @dst` (R115) -/
  | rdfifo (e : EpIdx) (n : BitVec 16) (dst : BitVec 32)
  /-- `CONFIGURE` (R130) -/
  | configure
  /-- `IRQ` and `IRQ @addr` (R160) -/
  | irq (src : SnapSource)
  /-- `START` (R200) -/
  | start
  /-- `STOP` (R205) -/
  | stop
  /-- `GETMODE` (R210) -/
  | getmode
  /-- `GETCABLE` (R211) -/
  | getcable
  /-- `TRYIDLE` (R230) -/
  | tryidle
  /-- `ATTACH` (R300) -/
  | attach
  /-- `DETACH` (R305) -/
  | detach
  deriving DecidableEq, Repr

end Sys2Proof
end

