-- ==== Sys2Proof/WellFormed.lean ====
section
/-! DEFINITION. Which instruction terms are operations of a silicon with `NUM_EPS` endpoints (R62), and which
parameter values are parameters of the block at all (R3, R64, R149, U8). -/

namespace Sys2Proof

/-- The one check the types of `Instr` do not make: a FIFO operation names an endpoint below `NUM_EPS` (R62). -/
def Instr.wf (numEps : Nat) : Instr → Bool
  | .wrfifo e _ _ => decide (e.val < numEps)
  | .rdfifo e _ _ => decide (e.val < numEps)
  | .rd8 _ => true
  | .rd16 _ => true
  | .rd32 _ => true
  | .wr8 _ _ => true
  | .wr16 _ _ => true
  | .wr32 _ _ => true
  | .configure => true
  | .irq _ => true
  | .start => true
  | .stop => true
  | .getmode => true
  | .getcable => true
  | .tryidle => true
  | .attach => true
  | .detach => true

/-! ## Configuration tables (R149) -/

/-- A requested size the formula of R133 does not round: at most 8, or a power of two (R149). -/
def sizeOk (req : BitVec 16) : Bool :=
  decide (req.toNat ≤ minFifoBytes) || decide (req.toNat = 1 <<< req.toNat.log2)

/-- Two entries that name the same direction of the same endpoint (R149). -/
def FifoEntry.clash (a b : FifoEntry) : Bool :=
  decide (a.ep = b.ep) &&
    match a.style, b.style with
    | .tx, .rx => false
    | .rx, .tx => false
    | _, _ => true

/-- A well-formed table: endpoint 0 not named, no direction named twice, no size above 8 that is not a power of two
(R149). It may be out of order and leave gaps; an index at or above `NUM_EPS` is not ill-formed but an error (R134). -/
def tableWf : List FifoEntry → Bool
  | [] => true
  | c :: rest => decide (c.ep ≠ 0) && sizeOk c.maxpacket && rest.all (fun d => !c.clash d) && tableWf rest

/-! ## Parameter bounds (R3) -/

/-- Byte ranges `[off, off + size)` that share no byte. -/
def disjointRange (a b : Nat × Nat) : Bool := decide (a.1 + a.2 ≤ b.1) || decide (b.1 + b.2 ≤ a.1)

/-- Every two ranges of the list are disjoint. -/
def disjointRanges : List (Nat × Nat) → Bool
  | [] => true
  | r :: rest => rest.all (disjointRange r) && disjointRanges rest

/-- The endpoint indices of the silicon, ascending. -/
def allEps (p : Params) : List EpIdx := (List.finRange 16).filter (fun e => decide (e.val < p.numEps))

/-- The endpoint indices 1..N-1, ascending (R140, R182). -/
def epsFrom1 (p : Params) : List EpIdx := (allEps p).filter (fun e => decide (1 ≤ e.val))

/-- The offset and size in bytes of every register of the register space (R23, R29, R64): the four size and offset
registers only with `HW_DYNFIFO`, the ports on the direct variant (R40). -/
def RegMap.spaceRanges (p : Params) (m : RegMap) : List (Nat × Nat) :=
  [(m.power, 1), (m.intrtx, 2), (m.intrrx, 2), (m.intrtxe, 2), (m.intrrxe, 2), (m.intrusb, 1), (m.intrusbe, 1),
   (m.index, 1), (m.testmode, 1), (m.devctl, 1), (m.fifosize.window, 1)]
  ++ (if p.hwDynFifo then
        [(m.txfifosz.window, 1), (m.rxfifosz.window, 1), (m.txfifoadd.window, 2), (m.rxfifoadd.window, 2)]
        ++ (allEps p).flatMap (fun e =>
              (m.txfifosz.flat.toList.map fun f => (tget f e, 1)) ++ (m.rxfifosz.flat.toList.map fun f => (tget f e, 1))
              ++ (m.txfifoadd.flat.toList.map fun f => (tget f e, 2))
              ++ (m.rxfifoadd.flat.toList.map fun f => (tget f e, 2)))
      else [])
  ++ (allEps p).flatMap (fun e => m.fifosize.flat.toList.map fun f => (tget f e, 1))
  ++ (match p.fifoVariant with
      | .directBurst => (allEps p).map (fun e => (tget m.fifo e, 4))
      | .bridgeWord => [])

/-- The addresses and sizes of the bridge's length registers and windows, on the bridge variant (R3, R52). -/
def RegMap.bridgeRanges (p : Params) (m : RegMap) : List (Nat × Nat) :=
  match p.fifoVariant with
  | .directBurst => []
  | .bridgeWord =>
      [(m.brEp0Conf, 4)]
      ++ (epsFrom1 p).flatMap (fun e => [(tget m.brTxConf e, 4), (tget m.brRxConf e, 4)])
      ++ (allEps p).flatMap (fun e => [(tget m.brFifoSync e, 4), (tget m.brFifoAsync e, 4)])

/-- Every register of the active map. -/
def RegMap.ranges (p : Params) (m : RegMap) : List (Nat × Nat) := m.spaceRanges p ++ m.bridgeRanges p

/-- The named bits of a byte lie in it and are distinct. -/
def bitsWf (w : Nat) (l : List Nat) : Bool := l.all (fun b => decide (b < w)) && decide l.Nodup

/-- A field lies in a register of `w` bits. -/
def BitField.wf (w : Nat) (f : BitField) : Bool := decide (f.low + f.width ≤ w)

/-- A bit of a register of `w` bits that lies outside the field. -/
def BitField.leaves (w b : Nat) (f : BitField) : Bool :=
  decide (b < w) && (decide (b < f.low) || decide (f.low + f.width ≤ b))

/-- A legal register map: no two registers overlap (R64); those of the register space are naturally aligned (R49) and
inside the 16-bit offset space (R41), while the bridge's own addresses are any (R3); named bits are distinct and inside
their registers; each field lies in its register, apart from the flag beside it, and holds what the block puts in it: a
size code of 4 bits and an offset of 13 (R67, R68, R148). -/
def RegMap.wf (p : Params) (m : RegMap) : Bool :=
  disjointRanges (m.ranges p)
  && (m.spaceRanges p).all (fun r => decide (r.1 % r.2 = 0) && decide (r.1 + r.2 ≤ 65536))
  && bitsWf 8 [m.usb.suspend, m.usb.resume, m.usb.reset, m.usb.connect, m.usb.disconnect, m.usb.sessReq, m.usb.vbusErr]
  && bitsWf 8 [m.dc.session, m.dc.hostreq, m.dc.hm, m.dc.vbusLo, m.dc.vbusHi, m.dc.lsdev, m.dc.fsdev, m.dc.bdevice]
  && bitsWf 8 [m.pw.ensuspend, m.pw.suspendm, m.pw.resume, m.pw.reset, m.pw.hsmode, m.pw.hsenab, m.pw.softconn,
               m.pw.isoupdate]
  && bitsWf 32 [m.port.connection, m.port.enable, m.port.lowSpeed, m.port.highSpeed, m.port.cConnection]
  && m.szCode.wf 8 && decide (4 ≤ m.szCode.width) && m.szCode.leaves 8 m.szDouble
  && m.addOff.wf 16 && decide (13 ≤ m.addOff.width)
  && m.brLen.wf 32 && m.brEp0Len.wf 32 && m.brEp0Len.leaves 32 m.brEp0DirBit

/-! ## Size descriptors (U8) -/

/-- A usable size descriptor: absent, or with both nibbles non-zero (R140, R141, U8). -/
def descOk (d : Byte) : Bool :=
  decide (d = 0) || (decide (d.extractLsb' 0 4 ≠ 0) && decide (d.extractLsb' 4 4 ≠ 0))

/-- No size descriptor of the silicon is ill-formed (U8; log 22). -/
def descsWf (p : Params) : Bool := (epsFrom1 p).all fun e => descOk (tget p.hwSizeDesc e)

/-- The constraints R3 puts on the parameters, with the table or the size descriptors well formed where they are used
(R149, U8). -/
def Params.wf (p : Params) : Bool :=
  decide (1 ≤ p.numEps) && decide (p.numEps ≤ 16)
  && decide (64 ≤ p.fifoRamBytes) && decide (p.fifoRamBytes ≤ 65536) && decide (p.fifoRamBytes % 8 = 0)
  && !p.rolesCompiled.isEmpty
  && (match p.allocMode with
      | .table => tableWf p.fifoTable
      | .discovered => descsWf p)
  && decide (1 ≤ p.idleDelay)
  && p.regMap.wf p

end Sys2Proof
end

