-- ==== Sys2Proof/Decode.lean ====
section
/-! DEFINITION. The 64-bit command word F-CMD (R60): its fields, the decoder with the rejections of R62, the encoder
written from the same table (R61), the pseudo-operations and the textual form (R63). -/

namespace Sys2Proof

/-- The fields of a command word (R60). -/
structure Fields where
  opcode : BitVec 8
  ep     : BitVec 4
  zero   : BitVec 4
  arg    : BitVec 16
  data   : BitVec 32
  deriving DecidableEq, Repr

/-- Why a command word is illegal (R62). -/
inductive Illegal where
  /-- the opcode is not in R61's table -/
  | opcode
  /-- the `zero` field is non-zero -/
  | zeroField
  /-- the `ep` field is non-zero where R61 shows 0 -/
  | epField
  /-- the `arg` field is non-zero where R61 shows 0 -/
  | argField
  /-- the `data` field is non-zero where R61 shows 0 -/
  | dataField
  /-- `data` has bits above the width of a `WR8` or `WR16` value -/
  | valueWidth
  /-- `ep >= NUM_EPS` in a FIFO operation -/
  | endpoint
  /-- `IRQ` with `arg` above 1 -/
  | irqSelector
  /-- `IRQ` with `arg = 0` and `data` non-zero -/
  | irqData
  deriving DecidableEq, Repr

/-- What the decoder answers: an operation, or the reason the word is none. -/
inductive Decoded where
  | ok (i : Instr)
  | illegal (r : Illegal)
  deriving DecidableEq, Repr

/-- Bits 63:56, 55:52, 51:48, 47:32, 31:0 (R60). -/
def splitWord (w : BitVec 64) : Fields where
  opcode := w.extractLsb' 56 8
  ep := w.extractLsb' 52 4
  zero := w.extractLsb' 48 4
  arg := w.extractLsb' 32 16
  data := w.extractLsb' 0 32

/-- The word with the given fields (R60). -/
def joinWord (f : Fields) : BitVec 64 := f.opcode ++ f.ep ++ f.zero ++ f.arg ++ f.data

/-- Continue unless the check `bad` holds. -/
def rejectIf (bad : Bool) (r : Illegal) (k : Decoded) : Decoded := if bad then .illegal r else k

/-- A shim read: `ep` and `data` must be 0 (R61). -/
def decodeRead (f : Fields) (mk : BitVec 16 → Instr) : Decoded :=
  rejectIf (f.ep != 0) .epField <| rejectIf (f.data != 0) .dataField <| .ok (mk f.arg)

/-- A shim write of `n` value bits: `ep` must be 0 and `data` fits `n` bits (R62, R76). -/
def decodeWrite (f : Fields) (n : Nat) (i : Instr) : Decoded :=
  rejectIf (f.ep != 0) .epField <| rejectIf (decide (2 ^ n ≤ f.data.toNat)) .valueWidth <| .ok i

/-- A FIFO operation: the endpoint is below `NUM_EPS` (R62). -/
def decodeFifo (numEps : Nat) (f : Fields) (mk : EpIdx → BitVec 16 → BitVec 32 → Instr) : Decoded :=
  rejectIf (decide (numEps ≤ f.ep.toNat)) .endpoint <| .ok (mk f.ep.toFin f.arg f.data)

/-- An operation without operands: `ep`, `arg`, `data` must be 0 (R61). -/
def decodeNone (f : Fields) (i : Instr) : Decoded :=
  rejectIf (f.ep != 0) .epField <| rejectIf (f.arg != 0) .argField <| rejectIf (f.data != 0) .dataField <| .ok i

/-- `IRQ`: `arg` 0 with `data` 0 is the live source, `arg` 1 a synthetic record at `data` (R61, R62). -/
def decodeIrq (f : Fields) : Decoded :=
  rejectIf (f.ep != 0) .epField <|
    if f.arg = 0 then rejectIf (f.data != 0) .irqData <| .ok (.irq .live)
    else if f.arg = 1 then .ok (.irq (.synthetic f.data))
    else .illegal .irqSelector

/-- The operation a command word requests of a silicon with `numEps` endpoints, or why it requests none
(R60 to R62, R76). Total: every other word is rejected by name. -/
def decode (numEps : Nat) (w : BitVec 64) : Decoded :=
  let f := splitWord w
  rejectIf (f.zero != 0) .zeroField <|
    match f.opcode.toNat with
    | 0x01 => decodeRead f .rd8
    | 0x02 => decodeRead f .rd16
    | 0x03 => decodeRead f .rd32
    | 0x04 => decodeWrite f 8 (.wr8 f.arg (f.data.setWidth 8))
    | 0x05 => decodeWrite f 16 (.wr16 f.arg (f.data.setWidth 16))
    | 0x06 => decodeWrite f 32 (.wr32 f.arg f.data)
    | 0x10 => decodeFifo numEps f .wrfifo
    | 0x11 => decodeFifo numEps f .rdfifo
    | 0x20 => decodeNone f .configure
    | 0x30 => decodeIrq f
    | 0x40 => decodeNone f .start
    | 0x41 => decodeNone f .stop
    | 0x42 => decodeNone f .getmode
    | 0x43 => decodeNone f .getcable
    | 0x50 => decodeNone f .tryidle
    | 0x60 => decodeNone f .attach
    | 0x61 => decodeNone f .detach
    | _ => .illegal .opcode

/-- The host's reading of one table row: bit 0 is the least significant bit of the command word, which is `nbits`
bits of `w` with zeros above. The table bounds no endpoint, so the widest silicon of R3 reads it. -/
def decodeTableWord (nbits w : Nat) : Option Instr :=
  match decode 16 (BitVec.ofNat 64 (w % 2 ^ nbits)) with
  | .ok i => some i
  | .illegal _ => none

/-! ## Encoder (R60, R61) -/

/-- A word of the given opcode with `ep` and `zero` 0. -/
def fieldsOf (op : BitVec 8) (arg : BitVec 16) (data : BitVec 32) : Fields := ⟨op, 0, 0, arg, data⟩

/-- The fields of an operation's command word (R61, R76). -/
def Instr.fields : Instr → Fields
  | .rd8 off => fieldsOf 0x01 off 0
  | .rd16 off => fieldsOf 0x02 off 0
  | .rd32 off => fieldsOf 0x03 off 0
  | .wr8 off v => fieldsOf 0x04 off (v.setWidth 32)
  | .wr16 off v => fieldsOf 0x05 off (v.setWidth 32)
  | .wr32 off v => fieldsOf 0x06 off v
  | .wrfifo e n src => ⟨0x10, BitVec.ofFin e, 0, n, src⟩
  | .rdfifo e n dst => ⟨0x11, BitVec.ofFin e, 0, n, dst⟩
  | .configure => fieldsOf 0x20 0 0
  | .irq .live => fieldsOf 0x30 0 0
  | .irq (.synthetic a) => fieldsOf 0x30 1 a
  | .start => fieldsOf 0x40 0 0
  | .stop => fieldsOf 0x41 0 0
  | .getmode => fieldsOf 0x42 0 0
  | .getcable => fieldsOf 0x43 0 0
  | .tryidle => fieldsOf 0x50 0 0
  | .attach => fieldsOf 0x60 0 0
  | .detach => fieldsOf 0x61 0 0

/-- The command word of an operation (R60, R61). -/
def encode (i : Instr) : BitVec 64 := joinWord i.fields

/-! ## Textual form (R63) -/

/-- The operation as text, numbers in decimal, buffer addresses prefixed `@` (R63). -/
def Instr.text : Instr → String
  | .rd8 off => "RD8 " ++ toString off.toNat
  | .rd16 off => "RD16 " ++ toString off.toNat
  | .rd32 off => "RD32 " ++ toString off.toNat
  | .wr8 off v => "WR8 " ++ toString off.toNat ++ ", " ++ toString v.toNat
  | .wr16 off v => "WR16 " ++ toString off.toNat ++ ", " ++ toString v.toNat
  | .wr32 off v => "WR32 " ++ toString off.toNat ++ ", " ++ toString v.toNat
  | .wrfifo e n src => "WRFIFO " ++ toString e.val ++ ", " ++ toString n.toNat ++ ", @" ++ toString src.toNat
  | .rdfifo e n dst => "RDFIFO " ++ toString e.val ++ ", " ++ toString n.toNat ++ ", @" ++ toString dst.toNat
  | .configure => "CONFIGURE"
  | .irq .live => "IRQ"
  | .irq (.synthetic a) => "IRQ @" ++ toString a.toNat
  | .start => "START"
  | .stop => "STOP"
  | .getmode => "GETMODE"
  | .getcable => "GETCABLE"
  | .tryidle => "TRYIDLE"
  | .attach => "ATTACH"
  | .detach => "DETACH"

end Sys2Proof
end

