-- ==== Sys2Proof/Machine/State.lean ====
section
/-! DEFINITION. The state of the machine as plain data (10_state.md), the reasons it refuses a request, and the state
after reset. -/

namespace Sys2Proof.Machine

/-! ## Enumerations -/

/-- The ten link states, in the order of their codes 0 to 9 (R11, R74). -/
inductive LinkState where
  | aIdle
  | aWaitVrise
  | aWaitBcon
  | aHost
  | aSuspend
  | bIdle
  | bPeripheral
  | bHost
  | bWaitAcon
  | error
  deriving DecidableEq, Repr

/-- The control-transfer sub-state: `CTRL_IDLE`, or one of the values of the upper layers, which the spec does not
name (R16; log 36). -/
inductive CtrlSubstate where
  | idle
  | other (n : Nat)
  deriving DecidableEq, Repr

/-- The exclusive-access lock (R19). -/
inductive Lock where
  | free
  | held
  deriving DecidableEq, Repr

/-- The four wake-up sources (R32, R75). -/
inductive WakeSource where
  | hostDisconnect
  | busActivity
  | vbusChange
  | linkDisconnect
  deriving DecidableEq, Repr

/-- The set of enabled wake-up sources (R32, R234). -/
structure WakeSet where
  hostDisconnect : Bool
  busActivity    : Bool
  vbusChange     : Bool
  linkDisconnect : Bool
  deriving DecidableEq, Repr

def WakeSet.empty : WakeSet := ⟨false, false, false, false⟩

/-- The owning controller instance of an endpoint record: there is exactly one per silicon block (R10, R20). -/
inductive InstRef where
  | theInstance
  deriving DecidableEq, Repr

/-! ## Endpoint records and the controller instance -/

/-- An endpoint record (R20). -/
structure EpRec where
  maxPacketTx : BitVec 16
  maxPacketRx : BitVec 16
  sharedFifo  : Bool
  txDouble    : Bool
  rxDouble    : Bool
  fifoOffTx   : BitVec 16
  fifoOffRx   : BitVec 16
  owner       : InstRef
  brFifoSync  : Nat
  brFifoAsync : Nat
  /-- `BR_TX_CONF(e)`, or `BR_EP0_CONF` for endpoint 0 -/
  brConfTx    : Nat
  /-- `BR_RX_CONF(e)`, or `BR_EP0_CONF` for endpoint 0 -/
  brConfRx    : Nat
  deriving DecidableEq, Repr

/-- The endpoint record after creation: the reset column of R20. -/
def EpRec.reset (p : Params) (e : EpIdx) : EpRec where
  maxPacketTx := 0
  maxPacketRx := 0
  sharedFifo := false
  txDouble := false
  rxDouble := false
  fifoOffTx := 0
  fifoOffRx := 0
  owner := .theInstance
  brFifoSync := tget p.regMap.brFifoSync e
  brFifoAsync := tget p.regMap.brFifoAsync e
  brConfTx := if e = 0 then p.regMap.brEp0Conf else tget p.regMap.brTxConf e
  brConfRx := if e = 0 then p.regMap.brEp0Conf else tget p.regMap.brRxConf e

/-- The endpoint table after creation (R20, R146). -/
def epTableReset (p : Params) : Vector EpRec 16 :=
  #v[EpRec.reset p 0, EpRec.reset p 1, EpRec.reset p 2, EpRec.reset p 3, EpRec.reset p 4, EpRec.reset p 5,
     EpRec.reset p 6, EpRec.reset p 7, EpRec.reset p 8, EpRec.reset p 9, EpRec.reset p 10, EpRec.reset p 11,
     EpRec.reset p 12, EpRec.reset p 13, EpRec.reset p 14, EpRec.reset p 15]

/-- The controller instance (R10 to R17, R19, R31, R32). -/
structure Inst where
  /-- the base register address; DESIGN CHOICE (log 42): R10 gives no width, 32 bits here -/
  base                : BitVec 32
  cfgRole             : Role
  linkState           : LinkState
  ep                  : Vector EpRec 16
  epMask              : BitVec 16
  nrEndpoints         : Nat
  bulkEp              : Option EpIdx
  configured          : Bool
  isActive            : Bool
  hostActive          : Bool
  vbuserrRetry        : Nat
  ignoreDisconnect    : Bool
  ctrlSubstate        : CtrlSubstate
  portStatus          : BitVec 32
  provisionalLowSpeed : Bool
  hnpPermitted        : Bool
  otgOverlayActive    : Bool
  lock                : Lock
  /-- none, or armed with a delay -/
  idleTimer           : Option Nat
  lowPower            : Bool
  wakeEnables         : WakeSet
  started             : Bool
  deriving DecidableEq, Repr

/-- The instance at creation: the reset columns of R10 and R20 (R11, R13, R31, R303). -/
def Inst.reset (p : Params) : Inst where
  base := p.baseAddr
  cfgRole := p.cfgRole
  linkState := if p.cfgRole = .hostOnly then .aIdle else .bIdle
  ep := epTableReset p
  epMask := 0
  nrEndpoints := 0
  bulkEp := none
  configured := false
  isActive := false
  hostActive := decide (p.cfgRole = .hostOnly)
  vbuserrRetry := vbuserrRetryInit
  ignoreDisconnect := false
  ctrlSubstate := .idle
  portStatus := 0
  provisionalLowSpeed := false
  hnpPermitted := false
  otgOverlayActive := p.otgOverlayPresent && decide (p.cfgRole = .otg)
  lock := .free
  idleTimer := none
  lowPower := false
  wakeEnables := .empty
  started := false

/-! ## Memory-mapped registers -/

/-- The stored values `R[NAME]` of the register file (R23 to R29). `FIFOSIZE` is hard-wired to a parameter and the
FIFO ports reach the queues, so neither is stored here. -/
structure Regs where
  intrusb   : BitVec 8
  intrtx    : BitVec 16
  intrrx    : BitVec 16
  intrusbe  : BitVec 8
  intrtxe   : BitVec 16
  intrrxe   : BitVec 16
  devctl    : BitVec 8
  power     : BitVec 8
  testmode  : BitVec 8
  index     : BitVec 8
  txfifosz  : Vector (BitVec 8) 16
  rxfifosz  : Vector (BitVec 8) 16
  txfifoadd : Vector (BitVec 16) 16
  rxfifoadd : Vector (BitVec 16) 16
  brEp0Conf : BitVec 32
  brTxConf  : Vector (BitVec 32) 16
  brRxConf  : Vector (BitVec 32) 16
  deriving DecidableEq, Repr

/-- Every register 0. DESIGN CHOICE (log 3): the spec gives no reset value of any register. -/
def Regs.zero : Regs where
  intrusb := 0
  intrtx := 0
  intrrx := 0
  intrusbe := 0
  intrtxe := 0
  intrrxe := 0
  devctl := 0
  power := 0
  testmode := 0
  index := 0
  txfifosz := Vector.replicate 16 0
  rxfifosz := Vector.replicate 16 0
  txfifoadd := Vector.replicate 16 0
  rxfifoadd := Vector.replicate 16 0
  brEp0Conf := 0
  brTxConf := Vector.replicate 16 0
  brRxConf := Vector.replicate 16 0

/-! ## Host memory -/

/-- Host buffer memory: the listed bytes (R40, R44). An unlisted byte reads 0 (DESIGN CHOICE, log 4). -/
abbrev Memory := List Host.Cell

/-- Canonical form: addresses strictly rising above `lo`, inside the 32-bit space, no entry equal to what an
unlisted address reads as. -/
def Memory.wfFrom : Nat → Memory → Bool
  | _, [] => true
  | lo, (a, v) :: rest => decide (lo ≤ a) && decide (a < 2 ^ 32) && decide (v ≠ 0) && Memory.wfFrom (a + 1) rest

/-- The memory is in its canonical form. -/
def Memory.wf (m : Memory) : Bool := Memory.wfFrom 0 m

/-- A stretch of allocated host memory (R44). -/
structure Region where
  base : Nat
  size : Nat
  deriving DecidableEq, Repr

/-! ## Outputs -/

/-- The six booleans of `negotiation.inputs_changed` (R220, R253). -/
structure OverlayInputs where
  session      : Bool
  connectorIsB : Bool
  reset        : Bool
  suspended    : Bool
  connected    : Bool
  vbusError    : Bool
  deriving DecidableEq, Repr

/-- The callbacks the block makes (R251 to R254, R302). -/
inductive Callback where
  | periphReset
  | periphSuspend
  | periphResume
  | periphDisconnect
  | periphEp0
  | periphEpRx (e : EpIdx)
  | periphEpTx (e : EpIdx)
  | hostEp0
  | hostEpRx (e : EpIdx)
  | hostEpTx (e : EpIdx)
  | hostRootPort
  | hostDisconnect
  | inputsChanged (i : OverlayInputs)
  | boardEnable
  | boardDisable
  | requestMemmap
  | requestIrq
  | releaseIrq
  | releaseMemmap
  deriving DecidableEq, Repr

/-- The "queryable role/state" (R192): what an instrumented collaborator sees when it is called. -/
structure RoleView where
  linkState  : LinkState
  hostActive : Bool
  isActive   : Bool
  portStatus : BitVec 32
  deriving DecidableEq, Repr

/-- An entry of the callback trace (R35, R250), with what could be queried at that moment (none while no instance
exists; log 8). -/
structure CallRecord where
  call : Callback
  seen : Option RoleView
  deriving DecidableEq, Repr

/-- The three kinds of diagnostic (R292). -/
inductive Diag where
  /-- "connect in unexpected state" (R176) -/
  | connectUnexpected
  /-- "babble" (R177) -/
  | babble
  /-- "spurious interrupt" (R162) -/
  | spurious
  deriving DecidableEq, Repr

/-- Where a bus transaction goes: the offset in the register space, and the bus address, which is the offset added to
`inst.base` (R76, R90). -/
structure BusAt where
  off  : Nat
  addr : BitVec 32
  deriving DecidableEq, Repr

/-- An entry of the bus trace (R35): where the transaction goes, its width in bytes and its value; a transaction of the
FIFO engine also names its endpoint, and on the bridge variant goes to one of the endpoint's two windows, which the spec
does not choose (none here; D48, log 31). -/
inductive BusEvent where
  | regRead (p : BusAt) (width : Nat) (v : Word)
  | regWrite (p : BusAt) (width : Nat) (v : Word)
  | fifoPush (e : EpIdx) (p : Option BusAt) (width : Nat) (v : Word)
  | fifoPop (e : EpIdx) (p : Option BusAt) (width : Nat) (v : Word)
  deriving DecidableEq, Repr

/-- The cause `ResourceExhausted` records (R271). -/
inductive ExhaustCause where
  | tableOverflow
  | invalidIndex
  | noBulkEndpoint
  deriving DecidableEq, Repr

/-- Why a configuration is unsupported (R273, R301). -/
inductive UnsupportedCause where
  | roleNotCompiled
  | allocatorMismatch
  deriving DecidableEq, Repr

/-- The statuses an operation can end with (R75, R276). -/
inductive Status where
  | ok
  | resourceExhausted (c : ExhaustCause)
  | unsupportedConfiguration (c : UnsupportedCause)
  | resourceUnavailable
  deriving DecidableEq, Repr

/-- The result returned beside a command (R76): nothing, a value, the boolean of `IRQ`, a status, or the text of
`GETCABLE`. -/
inductive Result where
  | none
  | value (v : Word)
  | handled (b : Bool)
  | status (s : Status)
  | text (t : String)
  deriving DecidableEq, Repr

/-! ## Inputs -/

/-- What a collaborator may do to the block, between operations or inside one of its callbacks (R256 to R261). -/
inductive CollabMove where
  | setLinkState (l : LinkState)
  | setHostActive (b : Bool)
  | setIgnoreDisconnect (b : Bool)
  | setHnpPermitted (b : Bool)
  | setCtrlSubstate (c : CtrlSubstate)
  /-- the read-modify-write of `POWER` that clears `RESUME` (R261) -/
  | clearResume
  | setPortStatus (v : BitVec 32)
  deriving DecidableEq, Repr

/-- A step of an agent other than the requester, between two operations (R54, R233, R237, R256 to R263, R302, R305). -/
inductive EnvMove where
  | collab (m : CollabMove)
  /-- what collaborators will do inside their next callbacks, one list a callback (log 7) -/
  | script (l : List (List CollabMove))
  | latchUsb (bits : BitVec 8)
  | latchTx (bits : BitVec 16)
  | latchRx (bits : BitVec 16)
  /-- the hardware-driven bits of `DEVCTL` take those of `v` -/
  | driveDevctl (v : BitVec 8)
  /-- the link hardware clears `DEVCTL.SESSION` -/
  | dropSession
  /-- `RESET`, `HSMODE` and `SUSPENDM` of `POWER` take those of `v` -/
  | drivePower (v : BitVec 8)
  /-- the link hardware takes `n` bytes from the head of `txq[e]` -/
  | drainTx (e : EpIdx) (n : Nat)
  /-- the link hardware appends bytes to `rxq[e]` -/
  | fillRx (e : EpIdx) (bytes : List Byte)
  /-- the loopback environment moves `txq[e]` to the tail of `rxq[e]` (R263) -/
  | loopback (e : EpIdx)
  | wakeEvent (w : WakeSource)
  | timerExpiry
  /-- the caller of `STOP` takes or releases the lock (R19, R207) -/
  | callerLock (l : Lock)
  | platform (memmapOk irqOk : Bool)
  | setMidTransfer (b : Bool)
  /-- the host stores a byte of its own memory -/
  | hostStore (a : BitVec 32) (v : Byte)
  | allocate (r : List Region)
  deriving DecidableEq, Repr

/-- What the step reads next: a command word on the request port, or a move of the environment (R54, R264). -/
inductive Input where
  | command (w : BitVec 64)
  | env (m : EnvMove)
  deriving DecidableEq, Repr

/-! ## The state -/

/-- Everything but the controller instance: silicon, host memory, platform, observer and inputs. -/
structure Dev where
  cfg         : Params
  regs        : Regs
  txq         : Vector (List Byte) 16
  rxq         : Vector (List Byte) 16
  /-- bytes the programmed `XFR_SIZE` still allows into `txq[e]` (bridge; R111, R117; log 16) -/
  brTxLeft    : Vector Nat 16
  /-- bytes the programmed `XFR_SIZE` still allows out of `rxq[e]` (bridge; R118; log 16) -/
  brRxLeft    : Vector Nat 16
  mem         : Memory
  regions     : List Region
  memmapOk    : Bool
  irqOk       : Bool
  midTransfer : Bool
  cbScript    : List (List CollabMove)
  inbox       : List Input
  calls       : List CallRecord
  diags       : List Diag
  bus         : List BusEvent
  result      : Result
  draws       : Nat
  deriving DecidableEq, Repr

/-- The machine's state: the controller instance, if one exists (R10, R300, R305), and everything else. -/
structure State where
  inst : Option Inst
  dev  : Dev
  deriving DecidableEq, Repr

/-- A state in which the instance exists: what the operations of an attached controller work on. -/
structure Ctl where
  inst : Inst
  dev  : Dev
  deriving DecidableEq, Repr

/-- A controller as a state of the machine. -/
def Ctl.toState (c : Ctl) : State := ⟨some c.inst, c.dev⟩

/-! ## Stops -/

/-- What stops the machine with a fault: nothing. Every error of the block is a returned status and never a transfer
of control (R270), and every request the spec gives no behaviour is refused (R277); so no constructor. -/
inductive Fault where
  deriving DecidableEq, Repr

/-- Why an access to the register space is refused (R41, R49, R103). -/
inductive BadAccess where
  /-- the offset is no multiple of the access width -/
  | misaligned
  /-- no register of the active map starts at the offset -/
  | noRegister
  /-- the register has another width -/
  | width
  /-- `INDEX` selects an endpoint at or above `NUM_EPS` (R100's corner case (a), U20) -/
  | selector
  deriving DecidableEq, Repr

/-- Requests the spec gives no behaviour (R277). All are safe: the model stops where nothing is specified. -/
inductive Refusal where
  /-- raised by an arm of `exec` whose instruction has no meaning in the model -/
  | notModelled (mnemonic : String)
  /-- an illegal command word (R62); raised by the step. Safe. -/
  | illegalCommand (r : Illegal)
  /-- any operation but `ATTACH` while no instance exists (R277, R311). Safe. -/
  | noInstance
  /-- `ATTACH` while an instance exists (R300). Safe. -/
  | instanceExists
  /-- any operation but `DETACH` on an instance that is not configured (R311). Safe. -/
  | notConfigured
  /-- `CONFIGURE` on a started controller (R311). Safe. -/
  | startedConfigure
  /-- a shim access that names no register, is misaligned or has the wrong width (R41, R49, R103). Safe. -/
  | badAccess (b : BadAccess)
  /-- a bare access to a FIFO port of the bridge variant with no length programmed (R323, U23). Safe. -/
  | lengthNotProgrammed
  /-- a FIFO transfer of an endpoint at or above `NUM_EPS` (R114, R115). Safe. -/
  | noEndpoint
  /-- `byte_count` above the direction's max-packet size (R110). Safe. -/
  | countTooLarge
  /-- the buffer, or the snapshot record, is not wholly inside allocated host memory (R44). Safe. -/
  | notAllocated
  /-- a byte count that does not fit the `XFR_SIZE` field (R116). Safe. -/
  | sizeFieldOverflow
  /-- `CONFIGURE` or `ATTACH` with an ill-formed configuration table (R149) or size descriptor (U8). Safe. -/
  | illFormedLayout
  /-- `DETACH` while an endpoint is mid-transfer (R305). Safe. -/
  | midTransfer
  /-- an operation that takes the lock while another party holds it (R19, R265, U21). Safe. -/
  | lockHeld
  deriving DecidableEq, Repr

/-! ## Reset -/

/-- The two bus transactions of one endpoint-scoped register write under the indexed shim (R98). -/
def resetWrite (e off width : Nat) (v : Word) : List BusEvent :=
  [.regWrite ⟨0x0E, 0x0E⟩ 1 (BitVec.ofNat 32 e), .regWrite ⟨off, BitVec.ofNat 32 off⟩ width v]

/-- The transmit half of a placed entry: size, then offset (R135). -/
def resetTx (e : Nat) (sz add : Word) : List BusEvent := resetWrite e 0x62 1 sz ++ resetWrite e 0x64 2 add

/-- The receive half of a placed entry. -/
def resetRx (e : Nat) (sz add : Word) : List BusEvent := resetWrite e 0x63 1 sz ++ resetWrite e 0x66 2 add

/-- The instance `ATTACH` leaves with the default parameters: the reset values, then configure's table
(R38, R303, R304, spec/95 T-A1 and T-X6). -/
def Inst.afterAttach : Inst :=
  { Inst.reset .default with
    ep := #v[{ EpRec.reset .default 0 with maxPacketTx := 64, maxPacketRx := 64, sharedFifo := true },
             { EpRec.reset .default 1 with maxPacketTx := 512, maxPacketRx := 512, fifoOffTx := 64, fifoOffRx := 576 },
             { EpRec.reset .default 2 with maxPacketTx := 512, maxPacketRx := 512, sharedFifo := true,
                                           fifoOffTx := 1088, fifoOffRx := 1088 },
             { EpRec.reset .default 3 with maxPacketTx := 256, maxPacketRx := 256, sharedFifo := true,
                                           fifoOffTx := 1600, fifoOffRx := 1600 },
             { EpRec.reset .default 4 with maxPacketTx := 256, maxPacketRx := 256, sharedFifo := true,
                                           fifoOffTx := 1856, fifoOffRx := 1856 },
             EpRec.reset .default 5, EpRec.reset .default 6, EpRec.reset .default 7, EpRec.reset .default 8,
             EpRec.reset .default 9, EpRec.reset .default 10, EpRec.reset .default 11, EpRec.reset .default 12,
             EpRec.reset .default 13, EpRec.reset .default 14, EpRec.reset .default 15]
    epMask := 0x001F
    nrEndpoints := 5
    bulkEp := some 1
    configured := true }

/-- The registers after that attach: what configure wrote (T-A1), and 0 elsewhere (DESIGN CHOICE, log 3). -/
def Regs.afterAttach : Regs :=
  { Regs.zero with
    index := 4
    txfifosz := #v[0x03, 0x06, 0x06, 0x05, 0x05, 0, 0, 0, 0, 0, 0, 0, 0, 0, 0, 0]
    rxfifosz := #v[0x03, 0x06, 0x06, 0x05, 0x05, 0, 0, 0, 0, 0, 0, 0, 0, 0, 0, 0]
    txfifoadd := #v[0, 8, 136, 200, 232, 0, 0, 0, 0, 0, 0, 0, 0, 0, 0, 0]
    rxfifoadd := #v[0, 72, 136, 200, 232, 0, 0, 0, 0, 0, 0, 0, 0, 0, 0, 0] }

/-- The machine before any attach, with the parameters `p`: no instance, empty traces, registers 0 (log 2, log 3). -/
def State.unattached (p : Params) : State where
  inst := none
  dev :=
    { cfg := p
      regs := .zero
      txq := Vector.replicate 16 []
      rxq := Vector.replicate 16 []
      brTxLeft := Vector.replicate 16 0
      brRxLeft := Vector.replicate 16 0
      mem := []
      regions := [⟨0, 2 ^ 32⟩]
      memmapOk := true
      irqOk := true
      midTransfer := false
      cbScript := []
      inbox := []
      calls := []
      diags := []
      bus := []
      result := .none
      draws := 0 }

/-- The machine right after reset. The block's only reset is its creation (R300, R306), so this is the state a
successful `ATTACH` leaves (R38, T-A1, T-X6), begun with empty traces (R35) and the default parameters (log 2). -/
def State.reset : State where
  inst := some .afterAttach
  dev :=
    { (State.unattached .default).dev with
      regs := .afterAttach
      calls := [⟨.requestMemmap, none⟩, ⟨.requestIrq, none⟩]
      bus := resetTx 0 0x03 0 ++ resetRx 0 0x03 0 ++ resetTx 1 0x06 8 ++ resetRx 1 0x06 72
             ++ resetTx 2 0x06 136 ++ resetRx 2 0x06 136 ++ resetTx 3 0x05 200 ++ resetRx 3 0x05 200
             ++ resetTx 4 0x05 232 ++ resetRx 4 0x05 232
      result := .status .ok }

end Sys2Proof.Machine
end

