-- ==== Sys2Proof/Machine/Flags.lean ====
section
/-! DEFINITION. The named bits of the status, control, power and port-status words, the tests the rules make on them,
and the interrupt line. The block has no condition codes (R36, R37): these are its flags. -/

namespace Sys2Proof.Machine

/-- The word with bit `k` set and no other (R8). -/
def bit (w k : Nat) : BitVec w := 1#w <<< k

/-- `old` with the bits of `mask` taken from `v`. -/
def mergeBits {w : Nat} (mask old v : BitVec w) : BitVec w := (old &&& ~~~mask) ||| (v &&& mask)

/-- The word that holds `n` in a field of a register and 0 elsewhere (R67, R68, R70). -/
def putField (f : BitField) (n : Nat) : BitVec 32 := BitVec.ofNat 32 n <<< f.low

/-- What a field of a register holds. -/
def getField (f : BitField) (v : BitVec 32) : Nat := (v.toNat >>> f.low) % 2 ^ f.width

/-! ## `DEVCTL` and `POWER` (R66) -/

/-- The bits of `DEVCTL` software writes: `SESSION` and `HOSTREQ` (R26, R66; spec/95 T-R6). -/
def devctlSoft (m : RegMap) : BitVec 8 := bit 8 m.dc.session ||| bit 8 m.dc.hostreq

/-- The bits of `DEVCTL` the link hardware drives (R66, R262). -/
def devctlHard (m : RegMap) : BitVec 8 := ~~~(devctlSoft m)

/-- The bits of `POWER` a software write leaves alone: `RESET` and `HSMODE`, driven by hardware (R66). DEDUCED
(log 13): R94 says so of `DEVCTL` only. -/
def powerHard (m : RegMap) : BitVec 8 := bit 8 m.pw.reset ||| bit 8 m.pw.hsmode

/-- The bits of `POWER` the link hardware may change: `RESET`, `HSMODE`, `SUSPENDM` (R262). -/
def powerDriven (m : RegMap) : BitVec 8 := powerHard m ||| bit 8 m.pw.suspendm

/-- What a software write of `v` leaves in `DEVCTL` (R94, T-R6). -/
def devctlAfter (m : RegMap) (old v : BitVec 8) : BitVec 8 := mergeBits (devctlSoft m) old v

/-- What a software write of `v` leaves in `POWER` (R94, R66). -/
def powerAfter (m : RegMap) (old v : BitVec 8) : BitVec 8 := mergeBits (~~~(powerHard m)) old v

/-- The value the host-role resume writes to `POWER`: the snapshot's byte, suspend clear, resume set (R164). -/
def resumePower (m : RegMap) (p : BitVec 8) : BitVec 8 := (p &&& ~~~(bit 8 m.pw.suspendm)) ||| bit 8 m.pw.resume

/-- The value `START` writes to `POWER` (R202). -/
def startPower (m : RegMap) (p : BitVec 8) : BitVec 8 := p ||| bit 8 m.pw.softconn ||| bit 8 m.pw.hsenab

/-- The value `START` writes to `DEVCTL` for the configured role (R203). -/
def startDevctl (m : RegMap) (r : Role) (d : BitVec 8) : BitVec 8 :=
  if r.hostCapable then d ||| bit 8 m.dc.session else d &&& ~~~(bit 8 m.dc.session)

/-! ## The interrupt snapshot and `INTRUSB` (R30, R65) -/

/-- The interrupt snapshot, transient (R30). -/
structure Snapshot where
  usb    : BitVec 8
  tx     : BitVec 16
  rx     : BitVec 16
  devctl : BitVec 8
  power  : BitVec 8
  deriving DecidableEq, Repr

/-- `snap_host`: the snapshot's host-mode bit (R191). -/
def Snapshot.host (m : RegMap) (s : Snapshot) : Bool := s.devctl.getLsbD m.dc.hm

/-- `NAMED_USB_BITS`: the seven named bits (R65). -/
def namedUsb (m : RegMap) : BitVec 8 :=
  bit 8 m.usb.suspend ||| bit 8 m.usb.resume ||| bit 8 m.usb.reset ||| bit 8 m.usb.connect
  ||| bit 8 m.usb.disconnect ||| bit 8 m.usb.sessReq ||| bit 8 m.usb.vbusErr

/-- "Any other global event": a named bit other than VBUS-error is set (R180). -/
def otherNamed (m : RegMap) (usb : BitVec 8) : Bool := (usb &&& namedUsb m &&& ~~~(bit 8 m.usb.vbusErr)) != 0

/-! ## The port-status word (R71) -/

/-- `SPEED_ENABLE_MASK` (R71). -/
def speedEnableMask (m : RegMap) : BitVec 32 :=
  bit 32 m.port.enable ||| bit 32 m.port.lowSpeed ||| bit 32 m.port.highSpeed

/-- The port-status word after a connect (R172). -/
def connectPort (m : RegMap) (p : BitVec 32) : BitVec 32 :=
  (p &&& ~~~(speedEnableMask m)) ||| bit 32 m.port.connection ||| bit 32 m.port.cConnection

/-! ## The interrupt line (R281) -/

/-- The interrupt line is asserted (R281). -/
def irqLine (r : Regs) : Bool :=
  (r.intrusb &&& r.intrusbe) != 0 || (r.intrtx &&& r.intrtxe) != 0 || (r.intrrx &&& r.intrrxe) != 0

/-! ## Codes and names (R74, R75) -/

/-- The code of a link state (R74). -/
def LinkState.code : LinkState → Nat
  | .aIdle => 0
  | .aWaitVrise => 1
  | .aWaitBcon => 2
  | .aHost => 3
  | .aSuspend => 4
  | .bIdle => 5
  | .bPeripheral => 6
  | .bHost => 7
  | .bWaitAcon => 8
  | .error => 9

/-- The name of a link state (R11, R211). -/
def LinkState.name : LinkState → String
  | .aIdle => "A-IDLE"
  | .aWaitVrise => "A-WAIT-VRISE"
  | .aWaitBcon => "A-WAIT-BCON"
  | .aHost => "A-HOST"
  | .aSuspend => "A-SUSPEND"
  | .bIdle => "B-IDLE"
  | .bPeripheral => "B-PERIPHERAL"
  | .bHost => "B-HOST"
  | .bWaitAcon => "B-WAIT-ACON"
  | .error => "ERROR"

/-- The code of a configured role (R75). -/
def roleCode : Role → Word
  | .hostOnly => 0
  | .peripheralOnly => 1
  | .otg => 2

/-- The five error kinds and `Ok`, with their codes (R75, R270). `TransientLinkFault` is a classification of
VBUS-error and babble and `SpuriousInterrupt` a diagnostic: neither is ever a returned status (R272, R274). -/
inductive ErrorKind where
  | ok
  | resourceExhausted
  | transientLinkFault
  | unsupportedConfiguration
  | spuriousInterrupt
  | resourceUnavailable
  deriving DecidableEq, Repr

def ErrorKind.code : ErrorKind → Nat
  | .ok => 0
  | .resourceExhausted => 1
  | .transientLinkFault => 2
  | .unsupportedConfiguration => 3
  | .spuriousInterrupt => 4
  | .resourceUnavailable => 5

/-- The kind of a returned status (R276). -/
def Status.kind : Status → ErrorKind
  | .ok => .ok
  | .resourceExhausted _ => .resourceExhausted
  | .unsupportedConfiguration _ => .unsupportedConfiguration
  | .resourceUnavailable => .resourceUnavailable

/-- The code of a wake-up source (R75). -/
def WakeSource.code : WakeSource → Nat
  | .hostDisconnect => 0
  | .busActivity => 1
  | .vbusChange => 2
  | .linkDisconnect => 3

/-- Membership in the set of enabled wake-up sources (R237). -/
def WakeSet.has (s : WakeSet) : WakeSource → Bool
  | .hostDisconnect => s.hostDisconnect
  | .busActivity => s.busActivity
  | .vbusChange => s.vbusChange
  | .linkDisconnect => s.linkDisconnect

/-- The wake-up sources the timer's expiry enables (R234). -/
def wakeFor (r : Role) : WakeSet := ⟨true, true, true, decide (r = .otg)⟩

end Sys2Proof.Machine
end

