-- ==== Sys2Proof/Machine/Ops.lean ====
section
/-! DEFINITION. The shared operations over memory, registers, FIFO ports and collaborators: byte order, host memory,
one bus transaction, endpoint-scoped access, callbacks and diagnostics, the lifecycle and lock checks every operation
starts with, and the two ways an operation ends (a result, or a raised error). -/

namespace Sys2Proof.Machine

/-- What an operation answers. -/
abbrev Out := Host.Outcome State Fault Refusal

/-! ## Byte order (R45) -/

/-- The `n` low bytes of a value, least significant first (R45). -/
def bytesOf : Nat → Word → List Byte
  | 0, _ => []
  | n + 1, v => v.setWidth 8 :: bytesOf n (v >>> 8)

/-- The value whose bytes these are, the first least significant (R45). -/
def wordOf : List Byte → Word
  | [] => 0
  | b :: rest => b.setWidth 32 ||| (wordOf rest <<< 8)

/-! ## Host memory (R44, R45) -/

/-- What an unlisted byte of host memory reads as. DESIGN CHOICE (log 4). -/
def Memory.unwritten : Byte := 0

/-- The byte at address `a` (`MemRead(a, 1)`, R8). -/
def Memory.read : Memory → Nat → Byte
  | [], _ => Memory.unwritten
  | (b, w) :: rest, a => if a = b then w else if a < b then Memory.unwritten else Memory.read rest a

/-- The memory with `v` at address `a` (`MemWrite(a, 1, v)`, R8), canonical when `m` is. -/
def Memory.write : Memory → Nat → Byte → Memory
  | [], a, v => if v = Memory.unwritten then [] else [(a, v)]
  | (b, w) :: rest, a, v =>
    if a < b then (if v = Memory.unwritten then (b, w) :: rest else (a, v) :: (b, w) :: rest)
    else if a = b then (if v = Memory.unwritten then rest else (a, v) :: rest)
    else (b, w) :: Memory.write rest a v

/-- The `n` bytes from address `a` upward, in ascending order. -/
def Memory.readBytes (m : Memory) (a : Nat) : Nat → List Byte
  | 0 => []
  | n + 1 => m.read a :: m.readBytes (a + 1) n

/-- The bytes stored from address `a` upward, in ascending order. -/
def Memory.writeBytes (m : Memory) (a : Nat) : List Byte → Memory
  | [] => m
  | b :: rest => (m.write a b).writeBytes (a + 1) rest

/-- Address `a` is allocated host memory: a 32-bit address inside a region (R44). -/
def allocatedAt (rs : List Region) (a : Nat) : Bool :=
  decide (a < 2 ^ 32) && rs.any (fun r => decide (r.base ≤ a) && decide (a < r.base + r.size))

/-- The `n` bytes from `a` are wholly inside allocated memory (R44). -/
def allocated (rs : List Region) (a : Nat) : Nat → Bool
  | 0 => true
  | n + 1 => allocatedAt rs a && allocated rs (a + 1) n

/-! ## Free values -/

/-- `m` bytes of which nothing is known, from draw `d` (R112). -/
def freeBytes (d m : Nat) : List Byte := (List.range m).map (fun k => (Config.free d k).setWidth 8)

/-! ## Registers (R23) -/

/-- The endpoint-scoped registers (R29). -/
inductive EpReg where
  | txfifosz
  | rxfifosz
  | txfifoadd
  | rxfifoadd
  | fifosize
  deriving DecidableEq, Repr

/-- The registers and ports a bus transaction can reach (R23). -/
inductive Reg where
  | intrusb
  | intrtx
  | intrrx
  | intrusbe
  | intrtxe
  | intrrxe
  | devctl
  | power
  | testmode
  | index
  | epReg (k : EpReg) (e : EpIdx)
  | brEp0Conf
  | brTxConf (e : EpIdx)
  | brRxConf (e : EpIdx)
  | fifo (e : EpIdx)
  deriving DecidableEq, Repr

/-- The width in bytes of an endpoint-scoped register (R29, R64). -/
def EpReg.width : EpReg → Nat
  | .txfifosz => 1
  | .rxfifosz => 1
  | .txfifoadd => 2
  | .rxfifoadd => 2
  | .fifosize => 1

/-- Where the map puts an endpoint-scoped register (R64). -/
def EpReg.off (m : RegMap) : EpReg → EpRegOff
  | .txfifosz => m.txfifosz
  | .rxfifosz => m.rxfifosz
  | .txfifoadd => m.txfifoadd
  | .rxfifoadd => m.rxfifoadd
  | .fifosize => m.fifosize

/-- The width in bytes of a register (R24 to R29, R64); a FIFO port's widest unit. -/
def Reg.width : Reg → Nat
  | .intrusb => 1
  | .intrtx => 2
  | .intrrx => 2
  | .intrusbe => 1
  | .intrtxe => 2
  | .intrrxe => 2
  | .devctl => 1
  | .power => 1
  | .testmode => 1
  | .index => 1
  | .epReg k _ => k.width
  | .brEp0Conf => 4
  | .brTxConf _ => 4
  | .brRxConf _ => 4
  | .fifo _ => 4

/-- A register accepts an access of `n` bytes: its own width, or for a FIFO port any width of the variant
(R43, R103). -/
def Reg.accepts (v : FifoVariant) (r : Reg) (n : Nat) : Bool :=
  match r, v with
  | .fifo _, .directBurst => decide (n = 1 ∨ n = 2 ∨ n = 4)
  | .fifo _, .bridgeWord => decide (n = 4)
  | r, _ => decide (n = r.width)

/-! ## FIFO ports (R43, R111, R112) -/

/-- How many of the `n` bytes of a push enter `txq[e]`: all on the direct variant, what the programmed length still
allows on the bridge (R111, R117). -/
def pushAllow (d : Dev) (e : EpIdx) (n : Nat) : Nat :=
  match d.cfg.fifoVariant with
  | .directBurst => n
  | .bridgeWord => min n (tget d.brTxLeft e)

/-- How many bytes a pop of `n` may take from `rxq[e]` (R112, R118). -/
def popAllow (d : Dev) (e : EpIdx) (n : Nat) : Nat :=
  match d.cfg.fifoVariant with
  | .directBurst => n
  | .bridgeWord => min n (tget d.brRxLeft e)

/-- A write of the `n` low bytes of `v` to the port of endpoint `e` (R43, R111). -/
def pushFifo (e : EpIdx) (n : Nat) (v : Word) (d : Dev) : Dev :=
  { d with
    txq := tset d.txq e (tget d.txq e ++ (bytesOf n v).take (pushAllow d e n))
    brTxLeft := tset d.brTxLeft e (tget d.brTxLeft e - pushAllow d e n) }

/-- The bytes a pop of `n` takes from the head of `rxq[e]`. -/
def popped (e : EpIdx) (n : Nat) (d : Dev) : List Byte := (tget d.rxq e).take (popAllow d e n)

/-- The value a read of `n` bytes from the port of endpoint `e` returns: the bytes taken, then free values for the
missing ones (R112). -/
def popValue (e : EpIdx) (n : Nat) (d : Dev) : Word :=
  wordOf (popped e n d ++ freeBytes d.draws (n - (popped e n d).length))

/-- A read of `n` bytes from the port of endpoint `e` (R43, R112). On the bridge an underflow, where the queue holds
fewer bytes than the length still allows, lowers that length by the missing bytes too: DESIGN CHOICE (log 16), the spec
is silent (N25). -/
def popFifo (e : EpIdx) (n : Nat) (d : Dev) : Dev :=
  { d with
    rxq := tset d.rxq e ((tget d.rxq e).drop (popAllow d e n))
    brRxLeft := tset d.brRxLeft e (tget d.brRxLeft e - popAllow d e n)
    draws := if (popped e n d).length < n then d.draws + 1 else d.draws }

/-! ## Stored register values (R24 to R29, R46 to R48) -/

/-- What programming endpoint 0's length register allows, by direction: `DIR_TX` set allows bytes out, clear allows
bytes in (R70, R116). -/
def ep0Program (v : Word) (d : Dev) : Dev :=
  let n := getField d.cfg.regMap.brEp0Len v
  let tx := v.getLsbD d.cfg.regMap.brEp0DirBit
  { d with
    regs := { d.regs with brEp0Conf := v }
    brTxLeft := tset d.brTxLeft 0 (if tx then n else 0)
    brRxLeft := tset d.brRxLeft 0 (if tx then 0 else n) }

/-- The value a bus read of `n` bytes returns (R45 to R47, R91 to R93). -/
def regValue (r : Reg) (n : Nat) (d : Dev) : Word :=
  match r with
  | .intrusb => d.regs.intrusb.setWidth 32
  | .intrtx => d.regs.intrtx.setWidth 32
  | .intrrx => d.regs.intrrx.setWidth 32
  | .intrusbe => d.regs.intrusbe.setWidth 32
  | .intrtxe => d.regs.intrtxe.setWidth 32
  | .intrrxe => d.regs.intrrxe.setWidth 32
  | .devctl => d.regs.devctl.setWidth 32
  | .power => d.regs.power.setWidth 32
  | .testmode => d.regs.testmode.setWidth 32
  | .index => d.regs.index.setWidth 32
  | .epReg .txfifosz e => (tget d.regs.txfifosz e).setWidth 32
  | .epReg .rxfifosz e => (tget d.regs.rxfifosz e).setWidth 32
  | .epReg .txfifoadd e => (tget d.regs.txfifoadd e).setWidth 32
  | .epReg .rxfifoadd e => (tget d.regs.rxfifoadd e).setWidth 32
  | .epReg .fifosize e =>
      if e = 0 then ((Config.free d.draws 0).setWidth 8).setWidth 32 else (tget d.cfg.hwSizeDesc e).setWidth 32
  | .brEp0Conf => d.regs.brEp0Conf
  | .brTxConf e => tget d.regs.brTxConf e
  | .brRxConf e => tget d.regs.brRxConf e
  | .fifo e => popValue e n d

/-- The side effect of a bus read: the status registers clear what they returned (R46), a port pops (R47), a free
value is used up (log 18); every other register has none (R47). -/
def regReadEffect (r : Reg) (n : Nat) (d : Dev) : Dev :=
  match r with
  | .intrusb => { d with regs := { d.regs with intrusb := 0 } }
  | .intrtx => { d with regs := { d.regs with intrtx := 0 } }
  | .intrrx => { d with regs := { d.regs with intrrx := 0 } }
  | .epReg .fifosize e => if e = 0 then { d with draws := d.draws + 1 } else d
  | .fifo e => popFifo e n d
  | _ => d

/-- What a bus write of `n` bytes leaves: the register for a read-write one, nothing for a status or read-only one,
hardware-driven bits unchanged (R24, R94 to R96, R48). -/
def regWriteEffect (r : Reg) (n : Nat) (v : Word) (d : Dev) : Dev :=
  match r with
  | .intrusb => d
  | .intrtx => d
  | .intrrx => d
  | .intrusbe => { d with regs := { d.regs with intrusbe := v.setWidth 8 } }
  | .intrtxe => { d with regs := { d.regs with intrtxe := v.setWidth 16 } }
  | .intrrxe => { d with regs := { d.regs with intrrxe := v.setWidth 16 } }
  | .devctl => { d with regs := { d.regs with devctl := devctlAfter d.cfg.regMap d.regs.devctl (v.setWidth 8) } }
  | .power => { d with regs := { d.regs with power := powerAfter d.cfg.regMap d.regs.power (v.setWidth 8) } }
  | .testmode => { d with regs := { d.regs with testmode := v.setWidth 8 } }
  | .index => { d with regs := { d.regs with index := v.setWidth 8 } }
  | .epReg .txfifosz e => { d with regs := { d.regs with txfifosz := tset d.regs.txfifosz e (v.setWidth 8) } }
  | .epReg .rxfifosz e => { d with regs := { d.regs with rxfifosz := tset d.regs.rxfifosz e (v.setWidth 8) } }
  | .epReg .txfifoadd e => { d with regs := { d.regs with txfifoadd := tset d.regs.txfifoadd e (v.setWidth 16) } }
  | .epReg .rxfifoadd e => { d with regs := { d.regs with rxfifoadd := tset d.regs.rxfifoadd e (v.setWidth 16) } }
  | .epReg .fifosize _ => d
  | .brEp0Conf => ep0Program v d
  | .brTxConf e =>
      { d with
        regs := { d.regs with brTxConf := tset d.regs.brTxConf e v }
        brTxLeft := tset d.brTxLeft e (getField d.cfg.regMap.brLen v) }
  | .brRxConf e =>
      { d with
        regs := { d.regs with brRxConf := tset d.regs.brRxConf e v }
        brRxLeft := tset d.brRxLeft e (getField d.cfg.regMap.brLen v) }
  | .fifo e => pushFifo e n v d

/-! ## Bus transactions (R8, R90, R238) -/

/-- The low-power mode after a register bus access: any access wakes a controller of the bridge variant (R238); the
direct variant has no such mode (R239). -/
def lowPowerAfter (v : FifoVariant) (lp : Bool) : Bool :=
  match v with
  | .directBurst => lp
  | .bridgeWord => false

/-- The controller after the wake every register bus access begins with (R238). -/
def Ctl.wake (c : Ctl) : Ctl :=
  { c with inst := { c.inst with lowPower := lowPowerAfter c.dev.cfg.fifoVariant c.inst.lowPower } }

/-- Where a transaction at an offset goes: the offset, zero-extended and added to `inst.base` (R76, R90; the sum has 32
bits, log 42). -/
def Inst.busAt (i : Inst) (off : Nat) : BusAt := ⟨off, i.base + BitVec.ofNat 32 off⟩

/-- The bus trace gains an entry (R35). -/
def Dev.logBus (ev : BusEvent) (d : Dev) : Dev := { d with bus := d.bus ++ [ev] }

/-- The value `RegRead(off, n)` returns when register `r` lies at `off`. The access is not lost by a wake (R238). -/
def busValue (r : Reg) (n : Nat) (c : Ctl) : Word := regValue r n c.dev

/-- `RegRead(off, n)`, where register `r` lies at `off` (R8, R90, R238): what it leaves. -/
def busRead (off n : Nat) (r : Reg) (c : Ctl) : Ctl :=
  { c.wake with dev := (regReadEffect r n c.dev).logBus (.regRead (c.inst.busAt off) n (busValue r n c)) }

/-- `RegWrite(off, n, v)`, where register `r` lies at `off` (R8, R90, R238). -/
def busWrite (off n : Nat) (r : Reg) (v : Word) (c : Ctl) : Ctl :=
  { c.wake with dev := (regWriteEffect r n v c.dev).logBus (.regWrite (c.inst.busAt off) n v) }

/-- The offset of a register that is not endpoint-scoped (R64); endpoint-scoped ones go through `epRead`, `epWrite`. -/
def Reg.offset (m : RegMap) : Reg → Nat
  | .intrusb => m.intrusb
  | .intrtx => m.intrtx
  | .intrrx => m.intrrx
  | .intrusbe => m.intrusbe
  | .intrtxe => m.intrtxe
  | .intrrxe => m.intrrxe
  | .devctl => m.devctl
  | .power => m.power
  | .testmode => m.testmode
  | .index => m.index
  | .epReg k _ => (k.off m).window
  | .brEp0Conf => m.brEp0Conf
  | .brTxConf e => tget m.brTxConf e
  | .brRxConf e => tget m.brRxConf e
  | .fifo e => tget m.fifo e

/-- `RegRead(NAME, width)` by name, as the rules of files 43 to 46 write it: what it leaves. -/
def Ctl.read (r : Reg) (c : Ctl) : Ctl := busRead (r.offset c.dev.cfg.regMap) r.width r c

/-- `RegWrite(NAME, width, v)` by name. -/
def Ctl.write (r : Reg) (v : Word) (c : Ctl) : Ctl := busWrite (r.offset c.dev.cfg.regMap) r.width r v c

/-- The flat alias the shim uses for an endpoint-scoped register: in `Direct` mode, if the map has one (R99). -/
def flatAlias (p : Params) (k : EpReg) : Option (Vector Nat 16) :=
  match p.shimMode with
  | .direct => (k.off p.regMap).flat
  | .indexed => none

/-- The select transaction of an indexed access, `SELEP e` (R98). -/
def Ctl.selectEp (e : EpIdx) (c : Ctl) : Ctl := c.write .index (BitVec.ofNat 32 e.val)

/-- `EpRegWrite(e, NAME, width, v)` (R98, R99). -/
def epWrite (k : EpReg) (e : EpIdx) (v : Word) (c : Ctl) : Ctl :=
  match flatAlias c.dev.cfg k with
  | some f => busWrite (tget f e) k.width (.epReg k e) v c
  | none => (c.selectEp e).write (.epReg k e) v

/-- `EpRegRead(e, NAME, width)`: the value (R98, R99). -/
def epValue (k : EpReg) (e : EpIdx) (c : Ctl) : Word := busValue (.epReg k e) k.width c

/-- `EpRegRead(e, NAME, width)`: what it leaves (R98, R99). -/
def epRead (k : EpReg) (e : EpIdx) (c : Ctl) : Ctl :=
  match flatAlias c.dev.cfg k with
  | some f => busRead (tget f e) k.width (.epReg k e) c
  | none => (c.selectEp e).read (.epReg k e)

/-- Where the FIFO engine's transactions of endpoint `e` go: to the port `FIFO(e)` inside the register space on the
direct variant; on the bridge variant to one of the two windows, and which one is not modelled (R43, D48). -/
def portAt (e : EpIdx) (c : Ctl) : Option BusAt :=
  match c.dev.cfg.fifoVariant with
  | .directBurst => some (c.inst.busAt (tget c.dev.cfg.regMap.fifo e))
  | .bridgeWord => none

/-- `FifoPush(e, n, v)` of the FIFO engine (R111). -/
def fifoPush (e : EpIdx) (n : Nat) (v : Word) (c : Ctl) : Ctl :=
  { c with dev := (pushFifo e n v c.dev).logBus (.fifoPush e (portAt e c) n v) }

/-- `FifoPop(e, n)` of the FIFO engine: what it leaves (R112). -/
def fifoPop (e : EpIdx) (n : Nat) (c : Ctl) : Ctl :=
  { c with dev := (popFifo e n c.dev).logBus (.fifoPop e (portAt e c) n (popValue e n c.dev)) }

/-! ## Collaborators (R250, R256 to R261) -/

/-- What a collaborator can query of the instance (R192). -/
def Inst.view (i : Inst) : RoleView := ⟨i.linkState, i.hostActive, i.isActive, i.portStatus⟩

/-- A collaborator's move (R256 to R261). -/
def collabMove (m : CollabMove) (c : Ctl) : Ctl :=
  match m with
  | .setLinkState l => { c with inst := { c.inst with linkState := l } }
  | .setHostActive b => { c with inst := { c.inst with hostActive := b } }
  | .setIgnoreDisconnect b => { c with inst := { c.inst with ignoreDisconnect := b } }
  | .setHnpPermitted b => { c with inst := { c.inst with hnpPermitted := b } }
  | .setCtrlSubstate x => { c with inst := { c.inst with ctrlSubstate := x } }
  | .setPortStatus v => { c with inst := { c.inst with portStatus := v } }
  | .clearResume =>
      let p : BitVec 8 := (busValue .power 1 c).setWidth 8
      (c.read .power).write .power ((p &&& ~~~(bit 8 c.dev.cfg.regMap.pw.resume)).setWidth 32)

/-- Several moves, in order. -/
def collabMoves : List CollabMove → Ctl → Ctl
  | [], c => c
  | m :: rest, c => collabMoves rest (collabMove m c)

/-- The callback trace gains an entry (R35, R250). -/
def Dev.logCall (cb : Callback) (seen : Option RoleView) (d : Dev) : Dev := { d with calls := d.calls ++ [⟨cb, seen⟩] }

/-- The callback is one of a collaborator whose role is not configured, a stub (R266): the peripheral collaborator of a
`HostOnly` controller, the host collaborator of a `PeripheralOnly` one (R251, R252). -/
def stubCall (r : Role) : Callback → Bool
  | .periphReset => decide (r = .hostOnly)
  | .periphSuspend => decide (r = .hostOnly)
  | .periphResume => decide (r = .hostOnly)
  | .periphDisconnect => decide (r = .hostOnly)
  | .periphEp0 => decide (r = .hostOnly)
  | .periphEpRx _ => decide (r = .hostOnly)
  | .periphEpTx _ => decide (r = .hostOnly)
  | .hostEp0 => decide (r = .peripheralOnly)
  | .hostEpRx _ => decide (r = .peripheralOnly)
  | .hostEpTx _ => decide (r = .peripheralOnly)
  | .hostRootPort => decide (r = .peripheralOnly)
  | .hostDisconnect => decide (r = .peripheralOnly)
  | .inputsChanged _ => false
  | .boardEnable => false
  | .boardDisable => false
  | .requestMemmap => false
  | .requestIrq => false
  | .releaseIrq => false
  | .releaseMemmap => false

/-- `call C.f(args)`: the trace gains the entry (R250). A stub does nothing else (R266); any other collaborator makes
the moves the script holds for this callback before it returns (R256's heading; log 7). -/
def Ctl.call (cb : Callback) (c : Ctl) : Ctl :=
  let c1 : Ctl := { c with dev := c.dev.logCall cb (some c.inst.view) }
  if stubCall c.inst.cfgRole cb then c1
  else collabMoves (c.dev.cbScript.head?.getD []) { c1 with dev := { c1.dev with cbScript := c.dev.cbScript.tail } }

/-- `diag(text)` (R8). -/
def Ctl.diag (t : Diag) (c : Ctl) : Ctl := { c with dev := { c.dev with diags := c.dev.diags ++ [t] } }

/-! ## How an operation begins (R19, R277, R311) -/

/-- The operation needs an instance (R277, R311). -/
def withInst (s : State) (k : Ctl → Out) : Out :=
  match s.inst with
  | none => .refused .noInstance
  | some i => k ⟨i, s.dev⟩

/-- The operation needs a configured instance (R311); it takes no lock (the shim, R97; `STOP`, R207). -/
def whenConfigured (s : State) (k : Ctl → Out) : Out :=
  withInst s fun c => if c.inst.configured then k c else .refused .notConfigured

/-- The lock taken at entry (R19). -/
def Ctl.takeLock (c : Ctl) : Ctl := { c with inst := { c.inst with lock := .held } }

/-- The operation takes the lock; a request while another party holds it is the re-entrant use the source rules out
(R19, R265, U21; log 9). -/
def underLock (c : Ctl) (k : Ctl → Out) : Out :=
  match c.inst.lock with
  | .held => .refused .lockHeld
  | .free => k c.takeLock

/-- The beginning of every locked operation of a configured instance. -/
def whenReady (s : State) (k : Ctl → Out) : Out := whenConfigured s fun c => underLock c k

/-! ## How an operation ends (R76, R270) -/

/-- The result is returned beside the command (R76). -/
def Ctl.withResult (r : Result) (c : Ctl) : Ctl := { c with dev := { c.dev with result := r } }

/-- An operation that took no lock ends with result `r`. -/
def finishUnlocked (r : Result) (c : Ctl) : Out := .next (c.withResult r).toState

/-- The lock released before returning (R19). -/
def Ctl.dropLock (c : Ctl) : Ctl := { c with inst := { c.inst with lock := .free } }

/-- A locked operation ends with result `r`: the lock is released (R19). -/
def finish (r : Result) (c : Ctl) : Out := .next (c.dropLock.withResult r).toState

/-- `raise E(info)` of an operation that leaves state `s`: the operation ends at that point with status `E`. It is a
returned status and never a transfer of control: nothing is saved, no handler runs, and there is nothing to return
from (R8, R270). The one place where the block takes what the checklist calls an exception (60_exceptions.md). -/
def raiseError (e : Status) (s : State) : Out := .next { s with dev := { s.dev with result := .status e } }

/-- A request that ends normally with status `Ok` (R75, R276). -/
def Result.okStatus : Result := .status .ok

/-! ## The next input (R54) -/

/-- The machine with its first input taken off the inbox. -/
def State.popInput (s : State) : State := { s with dev := { s.dev with inbox := s.dev.inbox.tail } }

end Sys2Proof.Machine
end

