-- ==== Sys2Proof/Machine/Operands.lean ====
section
/-! DEFINITION. What an operand names: the register at an offset (R41, R49, R103), the buffer of a FIFO transfer and
the units it moves in (R113, R116), the length field of the bridge (R70), the interrupt snapshot (R161, R73), and the
pseudo-operations (R63). -/

namespace Sys2Proof.Machine

/-! ## The register at an offset (R41, R64, R103) -/

/-- What lies at an offset of the register space: a register, or the indexed window of an endpoint-scoped one. -/
inductive Loc where
  | reg (r : Reg)
  | window (k : EpReg)
  deriving DecidableEq, Repr

/-- The flat alias of an endpoint-scoped register, one entry an endpoint, if the map has one (R99). -/
def flatLocs (p : Params) (k : EpReg) : List (Nat × Loc) :=
  match (k.off p.regMap).flat with
  | none => []
  | some f => (allEps p).map fun e => (tget f e, .reg (.epReg k e))

/-- The global registers (R23, R64). -/
def globalLocs (m : RegMap) : List (Nat × Loc) :=
  [(m.power, .reg .power), (m.intrtx, .reg .intrtx), (m.intrrx, .reg .intrrx), (m.intrtxe, .reg .intrtxe),
   (m.intrrxe, .reg .intrrxe), (m.intrusb, .reg .intrusb), (m.intrusbe, .reg .intrusbe), (m.index, .reg .index),
   (m.testmode, .reg .testmode), (m.devctl, .reg .devctl)]

/-- The endpoint-scoped registers the silicon has: `FIFOSIZE` always, the size and offset registers only with
`HW_DYNFIFO` (R29). -/
def epRegs (p : Params) : List EpReg :=
  if p.hwDynFifo then [.fifosize, .txfifosz, .rxfifosz, .txfifoadd, .rxfifoadd] else [.fifosize]

/-- The FIFO ports and length registers of the variant: offsets inside the register space on the direct variant; on
the bridge variant the synchronous and asynchronous windows, which reach the same port (R43), and the length
registers (R23, R64; log 14). -/
def variantLocs (p : Params) : List (Nat × Loc) :=
  match p.fifoVariant with
  | .directBurst => (allEps p).map fun e => (tget p.regMap.fifo e, .reg (.fifo e))
  | .bridgeWord =>
      ((allEps p).map fun e => (tget p.regMap.brFifoSync e, .reg (.fifo e)))
      ++ ((allEps p).map fun e => (tget p.regMap.brFifoAsync e, .reg (.fifo e)))
      ++ [(p.regMap.brEp0Conf, .reg .brEp0Conf)]
      ++ ((epsFrom1 p).map fun e => (tget p.regMap.brTxConf e, .reg (.brTxConf e)))
      ++ ((epsFrom1 p).map fun e => (tget p.regMap.brRxConf e, .reg (.brRxConf e)))

/-- Every offset at which a register of the active map starts (R41). -/
def locs (p : Params) : List (Nat × Loc) :=
  globalLocs p.regMap ++ ((epRegs p).map fun k => ((k.off p.regMap).window, .window k))
  ++ (epRegs p).flatMap (flatLocs p) ++ variantLocs p

/-- The endpoint `INDEX` selects: its low four bits (R28; log 17). -/
def selectedEp (index : BitVec 8) : EpIdx := (index.setWidth 4).toFin

/-- An access, or why it is refused. -/
inductive Access where
  | ok (r : Reg)
  | bad (b : BadAccess)
  deriving DecidableEq, Repr

/-- The register an access of `n` bytes at `off` reaches, or why it reaches none: the offset must be a multiple of the
width, name a register, and the width must be the register's (R49, R103); an indexed access needs a selector below
`NUM_EPS` (U20). -/
def resolve (p : Params) (index : BitVec 8) (off n : Nat) : Access :=
  if off % n ≠ 0 then .bad .misaligned
  else match (locs p).find? (fun x => decide (x.1 = off)) with
    | none => .bad .noRegister
    | some (_, .reg r) => if r.accepts p.fifoVariant n then .ok r else .bad .width
    | some (_, .window k) =>
        if n = k.width then
          if (selectedEp index).val < p.numEps then .ok (.epReg k (selectedEp index)) else .bad .selector
        else .bad .width

/-! ## FIFO transfers (R110, R113, R116) -/

/-- The units of a direct transfer of `n` bytes whose buffer starts at `a` (R113). -/
def directUnits (a n : Nat) : List Nat :=
  if a % 2 = 1 then List.replicate n 1
  else if a % 4 = 2 then List.replicate (n / 2) 2 ++ (if n % 2 = 1 then [1] else [])
  else List.replicate (n / 4) 4 ++ (if n / 2 % 2 = 1 then [2] else []) ++ (if n % 2 = 1 then [1] else [])

/-- The units of a bridge transfer: `ceil(n/4)` words, whatever the alignment (R117, R118). -/
def bridgeUnits (n : Nat) : List Nat := List.replicate ((n + 3) / 4) 4

/-- The units of a transfer on the active variant. -/
def fifoUnits (v : FifoVariant) (a n : Nat) : List Nat :=
  match v with
  | .directBurst => directUnits a n
  | .bridgeWord => bridgeUnits n

/-- `XFR_SIZE` of endpoint `e`'s length register (R70). -/
def lenField (m : RegMap) (e : EpIdx) : BitField := if e = 0 then m.brEp0Len else m.brLen

/-- A byte count fits the length field, where there is one (R116). -/
def countFits (p : Params) (e : EpIdx) (n : Nat) : Bool :=
  match p.fifoVariant with
  | .directBurst => true
  | .bridgeWord => decide (n < 2 ^ (lenField p.regMap e).width)

/-- The length register a transmit transfer programs, and its value (R70, R116). -/
def txProgram (m : RegMap) (e : EpIdx) (n : Nat) : Reg × Word :=
  if e = 0 then (.brEp0Conf, bit 32 m.brEp0DirBit ||| putField m.brEp0Len n) else (.brTxConf e, putField m.brLen n)

/-- The length register a receive transfer programs, and its value (R70, R116). -/
def rxProgram (m : RegMap) (e : EpIdx) (n : Nat) : Reg × Word :=
  if e = 0 then (.brEp0Conf, putField m.brEp0Len n) else (.brRxConf e, putField m.brLen n)

/-! ## The interrupt snapshot (R161, R73) -/

/-- The snapshot in an 8-byte record at host address `a`: usb, devctl, power, zero, tx and rx little-endian (R73).
The zero byte is not looked at (log 19). -/
def recordSnapshot (m : Memory) (a : Nat) : Snapshot where
  usb := m.read a
  devctl := m.read (a + 1)
  power := m.read (a + 2)
  tx := m.read (a + 5) ++ m.read (a + 4)
  rx := m.read (a + 7) ++ m.read (a + 6)

/-- The snapshot the live registers give (R161). -/
def liveSnapshot (r : Regs) : Snapshot := ⟨r.intrusb, r.intrtx, r.intrrx, r.devctl, r.power⟩

/-- The five capture reads, in order: `INTRUSB`, `INTRTX`, `INTRRX`, `DEVCTL`, `POWER` (R161). -/
def captureReads (c : Ctl) : Ctl := ((((c.read .intrusb).read .intrtx).read .intrrx).read .devctl).read .power

/-! ## Pseudo-operations (R63, R98, R99) -/

/-- `SELEP e` = `WR8 INDEX, e`. -/
def selep (p : Params) (e : EpIdx) : Instr := .wr8 (BitVec.ofNat 16 p.regMap.index) (BitVec.ofNat 8 e.val)

/-- The operations of an endpoint-scoped access whose transaction at an offset is `op`. -/
def epExpansion (p : Params) (k : EpReg) (e : EpIdx) (op : BitVec 16 → Instr) : List Instr :=
  match flatAlias p k with
  | some f => [op (BitVec.ofNat 16 (tget f e))]
  | none => [selep p e, op (BitVec.ofNat 16 (k.off p.regMap).window)]

/-- `EPRD8 e, NAME`. -/
def eprd8 (p : Params) (e : EpIdx) (k : EpReg) : List Instr := epExpansion p k e .rd8

/-- `EPRD16 e, NAME`. -/
def eprd16 (p : Params) (e : EpIdx) (k : EpReg) : List Instr := epExpansion p k e .rd16

/-- `EPWR8 e, NAME, v`. -/
def epwr8 (p : Params) (e : EpIdx) (k : EpReg) (v : BitVec 8) : List Instr := epExpansion p k e (.wr8 · v)

/-- `EPWR16 e, NAME, v`. -/
def epwr16 (p : Params) (e : EpIdx) (k : EpReg) (v : BitVec 16) : List Instr := epExpansion p k e (.wr16 · v)

end Sys2Proof.Machine
end

