-- ==== Sys2Proof/Machine/Fifo.lean ====
section
/-! DEFINITION. The FIFO transfer engine: `WRFIFO` and `RDFIFO` on both variants (41_fifo_engine.md). -/

namespace Sys2Proof.Machine

/-- The unit a push of width `w` moves when `left` bytes remain: the buffer's bytes, and zeros beyond them in the
bridge variant's last scratch word (R114, R117). -/
def unitValue (m : Memory) (a w left : Nat) : Word := wordOf (m.readBytes a (min w left))

/-- The pushes of a write transfer, unit by unit: `left` bytes remain from address `a` on (R114, R117). -/
def pushUnits (e : EpIdx) : List Nat → Nat → Nat → Ctl → Ctl
  | [], _, _, c => c
  | w :: ws, a, left, c => pushUnits e ws (a + w) (left - w) (fifoPush e w (unitValue c.dev.mem a w left) c)

/-- One unit of a read transfer: a pop of width `w`, of which the first `min w left` bytes are stored from `a` on
(R115, R118). -/
def popUnit (e : EpIdx) (w a left : Nat) (c : Ctl) : Ctl :=
  let v := popValue e w c.dev
  let c1 := fifoPop e w c
  { c1 with dev := { c1.dev with mem := c1.dev.mem.writeBytes a (bytesOf (min w left) v) } }

/-- The pops of a read transfer, unit by unit. -/
def popUnits (e : EpIdx) : List Nat → Nat → Nat → Ctl → Ctl
  | [], _, _, c => c
  | w :: ws, a, left, c => popUnits e ws (a + w) (left - w) (popUnit e w a left c)

/-- The side channel of a write transfer: on the bridge the length is programmed before the first word (R116). -/
def programTx (e : EpIdx) (n : Nat) (c : Ctl) : Ctl :=
  match c.dev.cfg.fifoVariant with
  | .directBurst => c
  | .bridgeWord =>
      busWrite (tget c.inst.ep e).brConfTx 4 (txProgram c.dev.cfg.regMap e n).1 (txProgram c.dev.cfg.regMap e n).2 c

/-- The side channel of a read transfer (R116). -/
def programRx (e : EpIdx) (n : Nat) (c : Ctl) : Ctl :=
  match c.dev.cfg.fifoVariant with
  | .directBurst => c
  | .bridgeWord =>
      busWrite (tget c.inst.ep e).brConfRx 4 (rxProgram c.dev.cfg.regMap e n).1 (rxProgram c.dev.cfg.regMap e n).2 c

/-- The preconditions of a transfer of `n` bytes at `a` in a direction of max-packet size `mps`: the endpoint exists,
the count fits the direction (R110) and the length field (R116), the buffer is allocated (R44). -/
def transferCheck (c : Ctl) (e : EpIdx) (mps : BitVec 16) (n a : Nat) : Option Refusal :=
  if ¬ e.val < c.dev.cfg.numEps then some .noEndpoint
  else if ¬ n ≤ mps.toNat then some .countTooLarge
  else if ¬ countFits c.dev.cfg e n then some .sizeFieldOverflow
  else if ¬ allocated c.dev.regions a n then some .notAllocated
  else none

/-- The body of `write_fifo(e, n, src)` (R114, R116, R117). -/
def writeFifo (e : EpIdx) (n a : Nat) (c : Ctl) : Ctl :=
  pushUnits e (fifoUnits c.dev.cfg.fifoVariant a n) a n (programTx e n c)

/-- The body of `read_fifo(e, n, dst)` (R115, R116, R118). -/
def readFifo (e : EpIdx) (n a : Nat) (c : Ctl) : Ctl :=
  popUnits e (fifoUnits c.dev.cfg.fifoVariant a n) a n (programRx e n c)

/-- `WRFIFO e, n, @src` (R114). -/
def execWrfifo (e : EpIdx) (n : BitVec 16) (src : BitVec 32) (s : State) : Out :=
  whenReady s fun c =>
    match transferCheck c e (tget c.inst.ep e).maxPacketTx n.toNat src.toNat with
    | some r => .refused r
    | none => finish .none (writeFifo e n.toNat src.toNat c)

/-- `RDFIFO e, n, @dst` (R115). -/
def execRdfifo (e : EpIdx) (n : BitVec 16) (dst : BitVec 32) (s : State) : Out :=
  whenReady s fun c =>
    match transferCheck c e (tget c.inst.ep e).maxPacketRx n.toNat dst.toNat with
    | some r => .refused r
    | none => finish .none (readFifo e n.toNat dst.toNat c)

end Sys2Proof.Machine
end

