-- ==== Sys2Proof/Machine/Alloc.lean ====
section
/-! DEFINITION. The endpoint and FIFO resource allocator: `CONFIGURE`, table-driven and discovered
(42_fifo_allocator.md). -/

namespace Sys2Proof.Machine

/-! ## Sizes (R133 to R136) -/

/-- `eff_size(req) = 1 << floor_log2(max(req, 8))` (R133). -/
def effSize (req : Nat) : Nat := 1 <<< (max req minFifoBytes).log2

/-- The footprint of an entry: twice its size when double-buffered (R134). -/
def footprint (c : FifoEntry) : Nat :=
  match c.depth with
  | .single => effSize c.maxpacket.toNat
  | .double => effSize c.maxpacket.toNat * 2

/-- The value of `TXFIFOSZ` and `RXFIFOSZ` for an entry: `floor_log2(size) - 3` in the field `SZ`, and the flag `DPB`
of a double-buffered one (R67, R135). -/
def sizeCode (m : RegMap) (c : FifoEntry) : Word :=
  putField m.szCode ((effSize c.maxpacket.toNat).log2 - 3) ||| (if c.depth = .double then bit 32 m.szDouble else 0)

/-- The value of `TXFIFOADD` and `RXFIFOADD` for a byte offset, in units of 8 bytes (R68). -/
def addCode (m : RegMap) (off : Nat) : Word := putField m.addOff (off >>> 3)

/-- Whether a style has a transmit direction. -/
def Style.hasTx : Style → Bool
  | .rxtx => true
  | .tx => true
  | .rx => false

/-- Whether a style has a receive direction. -/
def Style.hasRx : Style → Bool
  | .rxtx => true
  | .tx => false
  | .rx => true

/-! ## Placing an entry (R134, R135) -/

/-- The placement check: the index before the footprint (R134). -/
def placeCheck (p : Params) (c : FifoEntry) (off : Nat) : Option ExhaustCause :=
  if p.numEps ≤ c.ep.val then some .invalidIndex
  else if p.fifoRamBytes < off + footprint c then some .tableOverflow
  else none

/-- The endpoint record after an entry is placed at `off` (R135). -/
def placedRec (c : FifoEntry) (off : Nat) (r : EpRec) : EpRec :=
  let size := BitVec.ofNat 16 (effSize c.maxpacket.toNat)
  let dbl := decide (c.depth = .double)
  let o := BitVec.ofNat 16 off
  let r1 := if Style.hasTx c.style then { r with maxPacketTx := size, txDouble := dbl, fifoOffTx := o } else r
  let r2 := if Style.hasRx c.style then { r1 with maxPacketRx := size, rxDouble := dbl, fifoOffRx := o } else r1
  if c.style = .rxtx then { r2 with sharedFifo := true } else r2

/-- The register writes of a placed entry: size before offset, transmit before receive (R135). -/
def placeWrites (e : FifoEntry) (off : Nat) (c : Ctl) : Ctl :=
  let m := c.dev.cfg.regMap
  let c1 := if Style.hasTx e.style then
      epWrite .txfifoadd e.ep (addCode m off) (epWrite .txfifosz e.ep (sizeCode m e) c) else c
  if Style.hasRx e.style then
    epWrite .rxfifoadd e.ep (addCode m off) (epWrite .rxfifosz e.ep (sizeCode m e) c1) else c1

/-- The register and record writes of a placed entry (R135). -/
def placeEntry (e : FifoEntry) (off : Nat) (c : Ctl) : Ctl :=
  let c1 := placeWrites e off c
  { c1 with inst := { c1.inst with
      ep := tset c1.inst.ep e.ep (placedRec e off (tget c1.inst.ep e.ep))
      epMask := c1.inst.epMask ||| bit 16 e.ep.val } }

/-! ## The two passes (R139, R140) -/

/-- How a pass ends: with a configured controller, or with a cause and the entries whose registers are already
written. -/
inductive Pass where
  | done (c : Ctl)
  | failed (cause : ExhaustCause) (written : List FifoEntry) (c : Ctl)
  deriving DecidableEq, Repr

/-- The implicit entry `(ep0, RXTX, 64, SINGLE)` (R132). -/
def ep0Entry : FifoEntry := ⟨0, .rxtx, .single, ep0FifoBytes⟩

/-- The rest of the table-driven pass: entries still to place, running offset, count so far, entries placed
(R139, R138). -/
def placeAll : List FifoEntry → Nat → Nat → List FifoEntry → Ctl → Pass
  | [], _, nr, _, c => .done { c with inst := { c.inst with nrEndpoints := nr } }
  | e :: rest, off, nr, written, c =>
    match placeCheck c.dev.cfg e off with
    | some cause => .failed cause written c
    | none => placeAll rest (off + footprint e) (max nr (e.ep.val + 1)) (e :: written) (placeEntry e off c)

/-- The table-driven pass: endpoint 0 first, unconditionally, then the table in order (R132, R139). -/
def configureTable (c : Ctl) : Pass := placeAll (ep0Entry :: c.dev.cfg.fifoTable) 0 1 [] c

/-- The endpoint record a size descriptor gives (R69, R141). A zero nibble never reaches this: such descriptors are
refused (U8; log 22). -/
def discoveredRec (d : Byte) (r : EpRec) : EpRec :=
  let lo := 1 <<< (d.extractLsb' 0 4).toNat
  let hi := (d.extractLsb' 4 4).toNat
  if hi = 0xF then
    { r with maxPacketTx := BitVec.ofNat 16 lo, maxPacketRx := BitVec.ofNat 16 lo, sharedFifo := true }
  else { r with maxPacketTx := BitVec.ofNat 16 lo, maxPacketRx := BitVec.ofNat 16 (1 <<< hi), sharedFifo := false }

/-- Endpoint 0 of the discovered pass: set from the invariant, no register access (R142). -/
def discoverEp0 (c : Ctl) : Ctl :=
  { c with inst := { c.inst with
      ep := tset c.inst.ep 0 { tget c.inst.ep 0 with
        maxPacketTx := ep0FifoBytes, maxPacketRx := ep0FifoBytes, sharedFifo := true }
      epMask := c.inst.epMask ||| bit 16 0 } }

/-- One discovered endpoint: its descriptor has been read (R141). -/
def discoverEp (e : EpIdx) (d : Byte) (c : Ctl) : Ctl :=
  { c with inst := { c.inst with
      ep := tset c.inst.ep e (discoveredRec d (tget c.inst.ep e))
      epMask := c.inst.epMask ||| bit 16 e.val } }

/-- The rest of the discovered pass: indices in ascending order until a zero descriptor (R140). -/
def discoverAll : List EpIdx → Nat → Ctl → Ctl
  | [], nr, c => { c with inst := { c.inst with nrEndpoints := nr } }
  | e :: rest, nr, c =>
    let d : Byte := (epValue .fifosize e c).setWidth 8
    let c1 := epRead .fifosize e c
    if d = 0 then { c1 with inst := { c1.inst with nrEndpoints := nr } }
    else discoverAll rest (e.val + 1) (discoverEp e d c1)

/-- The hardware-discovered pass (R140, R142). -/
def configureDiscovered (c : Ctl) : Pass := .done (discoverAll (epsFrom1 c.dev.cfg) 1 (discoverEp0 c))

/-! ## The whole of configure (R130, R144 to R146) -/

/-- `clear_endpoint_table()` (R146). -/
def clearTable (c : Ctl) : Ctl :=
  { c with inst := { c.inst with
      ep := epTableReset c.dev.cfg, epMask := 0, nrEndpoints := 0, bulkEp := none, configured := false } }

/-- An endpoint usable for bulk: both directions at least 512 bytes (R144). -/
def bulkOk (r : EpRec) : Bool :=
  decide (bulkMinBytes ≤ r.maxPacketTx.toNat) && decide (bulkMinBytes ≤ r.maxPacketRx.toNat)

/-- The lowest index in 1..nr-1 usable for bulk (R144). -/
def firstBulk (i : Inst) : Option EpIdx :=
  (List.finRange 16).find? fun e => decide (1 ≤ e.val) && decide (e.val < i.nrEndpoints) && bulkOk (tget i.ep e)

/-- `bulk_check()` (R144). -/
def bulkCheck (written : List FifoEntry) (c : Ctl) : Pass :=
  if c.inst.cfgRole.hostCapable then
    match firstBulk c.inst with
    | some e => .done { c with inst := { c.inst with bulkEp := some e } }
    | none => .failed .noBulkEndpoint written c
  else .done { c with inst := { c.inst with bulkEp := none } }

/-- The pass `ALLOC_MODE` selects (R130, R131). -/
def configurePass (c : Ctl) : Pass :=
  match c.dev.cfg.allocMode with
  | .table => configureTable c
  | .discovered => configureDiscovered c

/-- The entries whose registers a whole table-driven pass has written. -/
def writtenEntries (p : Params) : List FifoEntry :=
  match p.allocMode with
  | .table => ep0Entry :: p.fifoTable
  | .discovered => []

/-- The pass and the bulk check, from a cleared table (R130). -/
def configureBody (c : Ctl) : Pass :=
  match configurePass (clearTable c) with
  | .failed cause w c1 => .failed cause w c1
  | .done c1 => bulkCheck (writtenEntries c.dev.cfg) c1

/-! ## After a failure (R145) -/

/-- An endpoint record with free sizes, flags and offsets (R145; log 20). -/
def freeRec (d : Nat) (e : EpIdx) (r : EpRec) : EpRec :=
  { r with
    maxPacketTx := (Config.free d (8 * e.val)).setWidth 16
    maxPacketRx := (Config.free d (8 * e.val + 1)).setWidth 16
    sharedFifo := (Config.free d (8 * e.val + 2)).getLsbD 0
    txDouble := (Config.free d (8 * e.val + 3)).getLsbD 0
    rxDouble := (Config.free d (8 * e.val + 4)).getLsbD 0
    fifoOffTx := (Config.free d (8 * e.val + 5)).setWidth 16
    fifoOffRx := (Config.free d (8 * e.val + 6)).setWidth 16 }

/-- The endpoint table with free values in the records of the indices listed. -/
def freeTable (d : Nat) : List EpIdx → Vector EpRec 16 → Vector EpRec 16
  | [], t => t
  | e :: rest, t => freeTable d rest (tset t e (freeRec d e (tget t e)))

/-- The size and offset registers an entry wrote hold free values (R145). -/
def freeEntryRegs (d : Nat) (e : FifoEntry) (r : Regs) : Regs :=
  let k := 128 + 4 * e.ep.val
  let r1 := if Style.hasTx e.style then
      { r with txfifosz := tset r.txfifosz e.ep ((Config.free d k).setWidth 8)
               txfifoadd := tset r.txfifoadd e.ep ((Config.free d (k + 1)).setWidth 16) } else r
  if Style.hasRx e.style then
    { r1 with rxfifosz := tset r1.rxfifosz e.ep ((Config.free d (k + 2)).setWidth 8)
              rxfifoadd := tset r1.rxfifoadd e.ep ((Config.free d (k + 3)).setWidth 16) } else r1

/-- The registers after a failed pass that had placed these entries. -/
def freeRegs (d : Nat) : List FifoEntry → Regs → Regs
  | [], r => r
  | e :: rest, r => freeRegs d rest (freeEntryRegs d e r)

/-- What a failed configure leaves: not configured, and free values in the endpoint table and in the registers already
written (R145; log 20). -/
def afterFailure (written : List FifoEntry) (c : Ctl) : Ctl where
  inst := { c.inst with configured := false, ep := freeTable c.dev.draws (List.finRange 16) c.inst.ep }
  dev := { c.dev with regs := freeRegs c.dev.draws written c.dev.regs, draws := c.dev.draws + 1 }

/-- The layout is a parameter the block has: the table, or the size descriptors, whichever the pass consumes, are well
formed (R149, U8; log 21, log 22). -/
def layoutUsable (p : Params) : Bool :=
  match p.allocMode with
  | .table => tableWf p.fifoTable
  | .discovered => descsWf p

/-- `CONFIGURE` (R130). -/
def execConfigure (s : State) : Out :=
  whenReady s fun c =>
    if c.inst.started then .refused .startedConfigure
    else if ¬ layoutUsable c.dev.cfg then .refused .illFormedLayout
    else match configureBody c with
      | .done c1 => finish .okStatus { c1 with inst := { c1.inst with configured := true } }
      | .failed cause w c1 => raiseError (.resourceExhausted cause) (afterFailure w c1).dropLock.toState

end Sys2Proof.Machine
end

