-- ==== Sys2Proof/Machine/Lifecycle.lean ====
section
/-! DEFINITION. Start, stop and the queries (44_lifecycle.md), `TRYIDLE` (46_idle_power.md), and attach and detach
(70_reset_and_hazards.md). -/

namespace Sys2Proof.Machine

/-! ## START (R200 to R204) -/

/-- The interrupt enables (R201). -/
def programEnables (c : Ctl) : Ctl :=
  ((c.write .intrtxe (c.inst.epMask.setWidth 32)).write .intrrxe ((c.inst.epMask &&& 0xFFFE#16).setWidth 32)).write
    .intrusbe (c.dev.cfg.defaultUsbIntr.setWidth 32)

/-- Soft-connect and high-speed in `POWER`, a read-modify-write (R202). -/
def enablePower (c : Ctl) : Ctl :=
  let p : BitVec 8 := (busValue .power 1 c).setWidth 8
  (c.read .power).write .power ((startPower c.dev.cfg.regMap p).setWidth 32)

/-- The session by configured role, a read-modify-write (R203). -/
def sessionByRole (c : Ctl) : Ctl :=
  let d : BitVec 8 := (busValue .devctl 1 c).setWidth 8
  (c.read .devctl).write .devctl ((startDevctl c.dev.cfg.regMap c.inst.cfgRole d).setWidth 32)

/-- Overlay and bookkeeping (R204). -/
def markStarted (c : Ctl) : Ctl :=
  { c with inst := { c.inst with
      otgOverlayActive := c.dev.cfg.otgOverlayPresent && decide (c.inst.cfgRole = .otg), started := true } }

/-- The body of `start()` (R200). -/
def startBody (c : Ctl) : Ctl :=
  markStarted (sessionByRole (enablePower (((programEnables c).call .boardEnable).write .testmode 0)))

/-- `START` (R200). -/
def execStart (s : State) : Out := whenReady s fun c => finish .none (startBody c)

/-! ## STOP (R205 to R207) -/

/-- The body of `stop()` (R205). -/
def stopBody (c : Ctl) : Ctl :=
  let c1 := ((((c.call .boardDisable).write .intrusbe 0).write .intrtxe 0).write .intrrxe 0).write .devctl 0
  let c2 := ((c1.read .intrusb).read .intrtx).read .intrrx
  { c2 with inst := { c2.inst with otgOverlayActive := false, started := false } }

/-- `STOP`: it takes no lock, its caller may hold it (R205, R207). -/
def execStop (s : State) : Out := whenConfigured s fun c => finishUnlocked .none (stopBody c)

/-! ## Queries (R210, R211) -/

/-- `GETMODE`: the configured role's code (R210). -/
def execGetmode (s : State) : Out := whenReady s fun c => finish (.value (roleCode c.inst.cfgRole)) c

/-- `GETCABLE`: the name of the link state (R211). -/
def execGetcable (s : State) : Out := whenReady s fun c => finish (.text c.inst.linkState.name) c

/-! ## TRYIDLE (R230 to R232, R239) -/

/-- The delay the timer is armed with: none while host-active (R232). -/
def idleDelayOf (c : Ctl) : Nat := if c.inst.hostActive then 0 else c.dev.cfg.idleDelay

/-- `try_idle()` (R230). -/
def tryIdle (c : Ctl) : Ctl :=
  match c.dev.cfg.fifoVariant with
  | .directBurst => c
  | .bridgeWord =>
      { c with inst := { c.inst with idleTimer := if c.inst.isActive then none else some (idleDelayOf c) } }

/-- `TRYIDLE` (R230). -/
def execTryidle (s : State) : Out := whenReady s fun c => finish .none (tryIdle c)

/-! ## ATTACH (R300 to R304) -/

/-- `check_supported()`: the role first (R301). -/
def checkSupported (p : Params) : Option UnsupportedCause :=
  if ¬ p.cfgRole ∈ p.rolesCompiled then some .roleNotCompiled
  else match p.allocMode, p.hwDynFifo with
    | .table, false => some .allocatorMismatch
    | .discovered, true => some .allocatorMismatch
    | _, _ => none

/-- A table of free values, from draw `d`, item `k` on. -/
def freeVec (w d k : Nat) : Vector (BitVec w) 16 := Vector.ofFn fun e : Fin 16 => (Config.free d (k + e.val)).setWidth w

/-- Every memory-mapped register holds an unspecified value (R303). -/
def drawnRegs (d : Nat) : Regs where
  intrusb := (Config.free d 0).setWidth 8
  intrtx := (Config.free d 1).setWidth 16
  intrrx := (Config.free d 2).setWidth 16
  intrusbe := (Config.free d 3).setWidth 8
  intrtxe := (Config.free d 4).setWidth 16
  intrrxe := (Config.free d 5).setWidth 16
  devctl := (Config.free d 6).setWidth 8
  power := (Config.free d 7).setWidth 8
  testmode := (Config.free d 8).setWidth 8
  index := (Config.free d 9).setWidth 8
  txfifosz := freeVec 8 d 16
  rxfifosz := freeVec 8 d 32
  txfifoadd := freeVec 16 d 48
  rxfifoadd := freeVec 16 d 64
  brEp0Conf := Config.free d 10
  brTxConf := freeVec 32 d 80
  brRxConf := freeVec 32 d 96

/-- The instance created with the reset state: the registers drawn, the queues empty, no length programmed (R303;
log 16). -/
def createInst (d : Dev) : Ctl where
  inst := Inst.reset d.cfg
  dev := { d with
    regs := drawnRegs d.draws
    draws := d.draws + 1
    txq := Vector.replicate 16 []
    rxq := Vector.replicate 16 []
    brTxLeft := Vector.replicate 16 0
    brRxLeft := Vector.replicate 16 0 }

/-- `release_resources()`: the interrupt line, then the memory map, while the instance still exists (R302). -/
def releaseAll (c : Ctl) : Dev :=
  (c.dev.logCall .releaseIrq (some c.inst.view)).logCall .releaseMemmap (some c.inst.view)

/-- The rest of `ATTACH` once both resources are held: create, configure, and on a failure release in reverse and
destroy (R300, R304). An ill-formed table is refused where configure would consume it (R149). -/
def attachConfigure (d : Dev) : Out :=
  if ¬ layoutUsable d.cfg then .refused .illFormedLayout
  else match configureBody (createInst d).takeLock with
    | .done c => finish .okStatus { c with inst := { c.inst with configured := true } }
    | .failed cause w c => raiseError (.resourceExhausted cause) ⟨none, releaseAll (afterFailure w c)⟩

/-- `acquire_resources()` and what follows: the memory map, then the interrupt line; a failure releases what was
acquired (R302). -/
def attachAcquire (d : Dev) : Out :=
  let d1 := d.logCall .requestMemmap none
  if ¬ d.memmapOk then raiseError .resourceUnavailable ⟨none, d1⟩
  else
    let d2 := d1.logCall .requestIrq none
    if ¬ d.irqOk then raiseError .resourceUnavailable ⟨none, d2.logCall .releaseMemmap none⟩
    else attachConfigure d2

/-- `ATTACH` (R300). -/
def execAttach (s : State) : Out :=
  match s.inst with
  | some _ => .refused .instanceExists
  | none =>
    match checkSupported s.dev.cfg with
    | some cause => raiseError (.unsupportedConfiguration cause) s
    | none => attachAcquire s.dev

/-! ## DETACH (R305) -/

/-- No endpoint is mid-transfer: the environment says so, and every queue is empty (R305). -/
def idleEndpoints (d : Dev) : Bool :=
  !d.midTransfer && d.txq.toList.all List.isEmpty && d.rxq.toList.all List.isEmpty

/-- `DETACH`: legal on an unconfigured instance too (R305, R311). The timer goes with the instance. -/
def execDetach (s : State) : Out :=
  withInst s fun c => underLock c fun c1 =>
    if idleEndpoints c1.dev then .next ⟨none, { releaseAll c1 with result := .none }⟩
    else .refused .midTransfer

end Sys2Proof.Machine
end

