-- ==== Sys2Proof/Machine/Link.lean ====
section
/-! DEFINITION. The link/session state machine: `IRQ`, one interrupt delivery in its three stages
(43_link_state_machine.md), with the OTG overlay's signal translation (45_otg_overlay.md). -/

namespace Sys2Proof.Machine

/-! ## Small writes of the instance -/

def Ctl.setLink (l : LinkState) (c : Ctl) : Ctl := { c with inst := { c.inst with linkState := l } }
def Ctl.setActive (b : Bool) (c : Ctl) : Ctl := { c with inst := { c.inst with isActive := b } }
def Ctl.setRetry (n : Nat) (c : Ctl) : Ctl := { c with inst := { c.inst with vbuserrRetry := n } }

/-- "Force host mode": the latch is set, no register is written (R190). -/
def Ctl.forceHost (c : Ctl) : Ctl := { c with inst := { c.inst with hostActive := true } }

/-- "Reset control-transfer sub-state" (R16, R166, R171). -/
def Ctl.resetCtrl (c : Ctl) : Ctl := { c with inst := { c.inst with ctrlSubstate := .idle } }

/-- `start_session()`: a whole-register write with only the session bit set (R195). -/
def Ctl.startSession (c : Ctl) : Ctl := c.write .devctl ((bit 8 c.dev.cfg.regMap.dc.session).setWidth 32)

/-! ## The overlay (R220 to R224) -/

/-- The six inputs site A observes: the registers read live, connect and VBUS-error cleared (R221). -/
def siteAInputs (m : RegMap) (d p : BitVec 8) : OverlayInputs :=
  ⟨d.getLsbD m.dc.session, d.getLsbD m.dc.bdevice, p.getLsbD m.pw.reset, p.getLsbD m.pw.suspendm, false, false⟩

/-- `otg_site_A()` (R221). -/
def siteA (c : Ctl) : Ctl :=
  let d : BitVec 8 := (busValue .devctl 1 c).setWidth 8
  let c1 := c.read .devctl
  let p : BitVec 8 := (busValue .power 1 c1).setWidth 8
  (c1.read .power).call (.inputsChanged (siteAInputs c.dev.cfg.regMap d p))

/-- `otg_site_B(...)`: no register access (R222). -/
def siteB (devctl : BitVec 8) (reset suspended connected vbusError : Bool) (c : Ctl) : Ctl :=
  let m := c.dev.cfg.regMap
  c.call (.inputsChanged
    ⟨devctl.getLsbD m.dc.session, devctl.getLsbD m.dc.bdevice, reset, suspended, connected, vbusError⟩)

/-- Site A, while the overlay is active (R220, R224). -/
def siteAIfActive (c : Ctl) : Ctl := if c.inst.otgOverlayActive then siteA c else c

/-- Site A at a further point, if `SITE_A_EXTRA_TRIGGERS` names it (R221). -/
def siteAExtra (t : TriggerPoint) (c : Ctl) : Ctl := if t ∈ c.dev.cfg.siteAExtra then siteAIfActive c else c

/-! ## Stage 0: global and session events, in the fixed order (R163 to R180)

Each step is the effect of its event; `stage0` makes the tests. -/

/-- Resume (R163, R164, R165, R179). -/
def resumeStep (snap : Snapshot) (c : Ctl) : Ctl :=
  let m := c.dev.cfg.regMap
  let c1 := c.setActive true
  siteAExtra .resume <|
    if snap.host m then (c1.forceHost.write .power ((resumePower m snap.power).setWidth 32)).setLink .aHost
    else c1.call .periphResume

/-- Session-request: the session write is the first action (R166, R167, R325). -/
def sessReqStep (c : Ctl) : Ctl := siteAExtra .sessReq ((c.startSession.resetCtrl.setLink .aIdle).forceHost)

/-- VBUS-error: the state, then the retry decision with the budget as it stands (R169, R168). -/
def vbusErrStep (c : Ctl) : Ctl :=
  siteAExtra .vbusErr <|
    if c.inst.vbuserrRetry ≠ 0 then (((c.setLink .aIdle).setRetry (c.inst.vbuserrRetry - 1)).startSession)
    else c.setLink .aIdle

/-- The connect transition, exactly one row (R174, R175, R176). -/
def connectTransition (c : Ctl) : Ctl :=
  match c.inst.linkState with
  | .bWaitAcon => c.setLink .bHost
  | .aWaitBcon => c.setLink .aHost
  | .aWaitVrise => c.setLink .aHost
  | .aIdle => (c.diag .connectUnexpected).setLink .aHost
  | .aHost => (c.diag .connectUnexpected).setLink .aHost
  | .aSuspend => (c.diag .connectUnexpected).setLink .aHost
  | .bIdle => (c.diag .connectUnexpected).setLink .aHost
  | .bPeripheral => (c.diag .connectUnexpected).setLink .aHost
  | .bHost => (c.diag .connectUnexpected).setLink .aHost
  | .error => (c.diag .connectUnexpected).setLink .aHost

/-- The provisional speed and the port-status word of a connect (R172). -/
def connectPortStep (snap : Snapshot) (c : Ctl) : Ctl :=
  { c with inst := { c.inst with
      provisionalLowSpeed := snap.devctl.getLsbD c.dev.cfg.regMap.dc.lsdev
      portStatus := connectPort c.dev.cfg.regMap c.inst.portStatus } }

/-- Connect (R170 to R176). -/
def connectStep (snap : Snapshot) (c : Ctl) : Ctl :=
  siteAExtra .connect <|
    connectTransition ((connectPortStep snap (c.setActive true).resetCtrl).call .hostRootPort).forceHost

/-- Reset/babble: babble while host, a bus reset while peripheral (R177, R178). -/
def resetStep (snap : Snapshot) (c : Ctl) : Ctl :=
  let m := c.dev.cfg.regMap
  siteAExtra .reset <|
    if snap.host m then c.diag .babble
    else
      let c1 := c.call .periphReset
      if c1.inst.otgOverlayActive then
        siteB snap.devctl true (snap.power.getLsbD m.pw.suspendm) (snap.usb.getLsbD m.usb.connect)
          (snap.usb.getLsbD m.usb.vbusErr) c1
      else c1

/-- The retry-budget reset (R180). -/
def budgetReset (snap : Snapshot) (c : Ctl) : Ctl :=
  if otherNamed c.dev.cfg.regMap snap.usb then c.setRetry vbuserrRetryInit else c

/-- Run a step if its condition holds. -/
def stepIf (b : Bool) (f : Ctl → Ctl) (c : Ctl) : Ctl := if b then f c else c

/-- The session-request condition: the bit, in a host-capable role (R166). -/
def sessReqCond (snap : Snapshot) (m : RegMap) (r : Role) : Bool := snap.usb.getLsbD m.usb.sessReq && r.hostCapable

/-- Stage 0 (R160, R320), the budget reset with it. -/
def stage0 (snap : Snapshot) (c : Ctl) : Ctl :=
  let m := c.dev.cfg.regMap
  let c1 := stepIf (snap.usb.getLsbD m.usb.resume) (resumeStep snap) c
  let c2 := stepIf (sessReqCond snap m c.inst.cfgRole) sessReqStep c1
  let c3 := stepIf (snap.usb.getLsbD m.usb.vbusErr) vbusErrStep c2
  let c4 := stepIf (snap.usb.getLsbD m.usb.connect) (connectStep snap) c3
  let c5 := stepIf (snap.usb.getLsbD m.usb.reset) (resetStep snap) c4
  budgetReset snap c5

/-! ## Stage 1: endpoint I/O, always run (R181, R182) -/

/-- The receive callback of the snapshot's role. -/
def rxCallback (host : Bool) (e : EpIdx) : Callback := if host then .hostEpRx e else .periphEpRx e

/-- The transmit callback of the snapshot's role. -/
def txCallback (host : Bool) (e : EpIdx) : Callback := if host then .hostEpTx e else .periphEpTx e

/-- Endpoint 0's callback (R181). -/
def ep0Callback (host : Bool) : Callback := if host then .hostEp0 else .periphEp0

/-- The callbacks of endpoints `es`, in order: receive before transmit of each (R182). -/
def epCallbacks (snap : Snapshot) (host : Bool) : List EpIdx → List Callback
  | [] => []
  | e :: rest =>
    (if snap.rx.getLsbD e.val then [rxCallback host e] else [])
    ++ (if snap.tx.getLsbD e.val then [txCallback host e] else []) ++ epCallbacks snap host rest

/-- The callbacks stage 1 makes, in order: endpoint 0, then 1..N-1 (R181, R182, R284). -/
def stage1Callbacks (p : Params) (snap : Snapshot) : List Callback :=
  let host := snap.host p.regMap
  (if snap.tx.getLsbD 0 then [ep0Callback host] else []) ++ epCallbacks snap host (epsFrom1 p)

/-- Several calls, in order. -/
def Ctl.callAll : List Callback → Ctl → Ctl
  | [], c => c
  | cb :: rest, c => (c.call cb).callAll rest

/-- Stage 1 (R181, R182). -/
def stage1 (snap : Snapshot) (c : Ctl) : Ctl := c.callAll (stage1Callbacks c.dev.cfg snap)

/-! ## Stage 2: deferred disconnect and suspend (R193, R183 to R189) -/

/-- Disconnect: activity, dispatch by the latch, overlay (R185, R184, R186). -/
def disconnectStep (c : Ctl) : Ctl :=
  let c1 := c.setActive false
  siteAIfActive (c1.call (if c1.inst.hostActive then .hostDisconnect else .periphDisconnect))

/-- Suspend: by the latch (R187, R188, R189). -/
def suspendStep (c : Ctl) : Ctl :=
  siteAExtra .suspend <|
    if c.inst.hostActive then c.setActive false
    else
      let c1 := c.call .periphSuspend
      c1.setActive (decide (c1.inst.cfgRole = .otg) && c1.inst.hnpPermitted)

/-- The disconnect condition, tested when stage 2 is reached (R183, R193). -/
def disconnectCond (snap : Snapshot) (c : Ctl) : Bool :=
  decide (snap.usb ≠ 0) && snap.usb.getLsbD c.dev.cfg.regMap.usb.disconnect && !c.inst.ignoreDisconnect

/-- The suspend condition (R187, R193). -/
def suspendCond (snap : Snapshot) (m : RegMap) : Bool := decide (snap.usb ≠ 0) && snap.usb.getLsbD m.usb.suspend

/-- Stage 2 (R193). -/
def stage2 (snap : Snapshot) (c : Ctl) : Ctl :=
  stepIf (suspendCond snap c.dev.cfg.regMap) suspendStep (stepIf (disconnectCond snap c) disconnectStep c)

/-! ## The whole delivery (R160 to R162) -/

/-- Some stage-0 step matched (R162 to R178). -/
def stage0Handled (snap : Snapshot) (m : RegMap) (r : Role) : Bool :=
  snap.usb.getLsbD m.usb.resume || sessReqCond snap m r || snap.usb.getLsbD m.usb.vbusErr
  || snap.usb.getLsbD m.usb.connect || snap.usb.getLsbD m.usb.reset

/-- `handled`: some step of some stage matched (R162). The disconnect test is made on the state stage 2 starts from. -/
def handledBy (snap : Snapshot) (c c1 : Ctl) : Bool :=
  stage0Handled snap c.dev.cfg.regMap c.inst.cfgRole || !(stage1Callbacks c.dev.cfg snap).isEmpty
  || disconnectCond snap c1 || suspendCond snap c.dev.cfg.regMap

/-- The state stage 2 starts from. -/
def beforeStage2 (snap : Snapshot) (c : Ctl) : Ctl := stage1 snap (stage0 snap c)

/-- The three stages on a captured snapshot, and the diagnostic of a spurious delivery (R160, R162). -/
def deliver (snap : Snapshot) (c : Ctl) : Ctl :=
  let c2 := stage2 snap (beforeStage2 snap c)
  if handledBy snap c (beforeStage2 snap c) then c2 else c2.diag .spurious

/-- `IRQ` with the live source: the capture reads, then the stages (R160, R161). -/
def irqLive (c : Ctl) : Out :=
  let snap := liveSnapshot c.dev.regs
  let c1 := captureReads c
  finish (.handled (handledBy snap c1 (beforeStage2 snap c1))) (deliver snap c1)

/-- `IRQ` with a synthetic record: no register is touched by the capture (R161, R73). The record must lie in allocated
host memory (R44; log 19). -/
def irqSynthetic (a : BitVec 32) (c : Ctl) : Out :=
  if allocated c.dev.regions a.toNat 8 then
    let snap := recordSnapshot c.dev.mem a.toNat
    finish (.handled (handledBy snap c (beforeStage2 snap c))) (deliver snap c)
  else .refused .notAllocated

/-- `IRQ` (R160). -/
def execIrq (src : SnapSource) (s : State) : Out :=
  whenReady s fun c =>
    match src with
    | .live => irqLive c
    | .synthetic a => irqSynthetic a c

end Sys2Proof.Machine
end

