-- ==== Sys2Proof/Machine/Shim.lean ====
section
/-! DEFINITION. The register access shim: `RD8`, `RD16`, `RD32`, `WR8`, `WR16`, `WR32` (40_register_shim.md). -/

namespace Sys2Proof.Machine

/-- A bare read of a FIFO port of the bridge variant with no receive length programmed, which is outside the source
(R323, U23; log 16). -/
def unprogrammedRead (d : Dev) : Reg → Bool
  | .fifo e => decide (d.cfg.fifoVariant = .bridgeWord) && decide (tget d.brRxLeft e = 0)
  | _ => false

/-- A bare write of a FIFO port of the bridge variant with no transmit length programmed (R323, U23; log 16). -/
def unprogrammedWrite (d : Dev) : Reg → Bool
  | .fifo e => decide (d.cfg.fifoVariant = .bridgeWord) && decide (tget d.brTxLeft e = 0)
  | _ => false

/-- `result <- zext(RegRead(offset, n))`: one bus transaction, no lock (R90, R97). -/
def shimRead (n : Nat) (off : BitVec 16) (s : State) : Out :=
  whenConfigured s fun c =>
    match resolve c.dev.cfg c.dev.regs.index off.toNat n with
    | .bad b => .refused (.badAccess b)
    | .ok r =>
      if unprogrammedRead c.dev r then .refused .lengthNotProgrammed
      else finishUnlocked (.value (busValue r n c)) (busRead off.toNat n r c)

/-- `RegWrite(offset, n, value)`: one bus transaction, no lock (R90, R97). -/
def shimWrite (n : Nat) (off : BitVec 16) (v : Word) (s : State) : Out :=
  whenConfigured s fun c =>
    match resolve c.dev.cfg c.dev.regs.index off.toNat n with
    | .bad b => .refused (.badAccess b)
    | .ok r =>
      if unprogrammedWrite c.dev r then .refused .lengthNotProgrammed
      else finishUnlocked .none (busWrite off.toNat n r v c)

/-- `RD8 offset` (R91). -/
def execRd8 (off : BitVec 16) (s : State) : Out := shimRead 1 off s

/-- `RD16 offset` (R92). -/
def execRd16 (off : BitVec 16) (s : State) : Out := shimRead 2 off s

/-- `RD32 offset` (R93). -/
def execRd32 (off : BitVec 16) (s : State) : Out := shimRead 4 off s

/-- `WR8 offset, value` (R94). -/
def execWr8 (off : BitVec 16) (v : BitVec 8) (s : State) : Out := shimWrite 1 off (v.setWidth 32) s

/-- `WR16 offset, value` (R95). -/
def execWr16 (off : BitVec 16) (v : BitVec 16) (s : State) : Out := shimWrite 2 off (v.setWidth 32) s

/-- `WR32 offset, value` (R96). -/
def execWr32 (off : BitVec 16) (v : BitVec 32) (s : State) : Out := shimWrite 4 off v s

end Sys2Proof.Machine
end

