-- ==== Sys2Proof/Machine/Dispatch.lean ====
section
/-! DEFINITION. One arm for each operation of the request port (R61). -/

namespace Sys2Proof.Machine

def exec (i : Instr) (s : State) : Host.Outcome State Fault Refusal :=
  match i with
  | .rd8 off => Sys2Proof.Machine.execRd8 off s
  | .rd16 off => Sys2Proof.Machine.execRd16 off s
  | .rd32 off => Sys2Proof.Machine.execRd32 off s
  | .wr8 off v => Sys2Proof.Machine.execWr8 off v s
  | .wr16 off v => Sys2Proof.Machine.execWr16 off v s
  | .wr32 off v => Sys2Proof.Machine.execWr32 off v s
  | .wrfifo e n src => Sys2Proof.Machine.execWrfifo e n src s
  | .rdfifo e n dst => Sys2Proof.Machine.execRdfifo e n dst s
  | .configure => Sys2Proof.Machine.execConfigure s
  | .irq src => Sys2Proof.Machine.execIrq src s
  | .start => Sys2Proof.Machine.execStart s
  | .stop => Sys2Proof.Machine.execStop s
  | .getmode => Sys2Proof.Machine.execGetmode s
  | .getcable => Sys2Proof.Machine.execGetcable s
  | .tryidle => Sys2Proof.Machine.execTryidle s
  | .attach => Sys2Proof.Machine.execAttach s
  | .detach => Sys2Proof.Machine.execDetach s

end Sys2Proof.Machine
end

