-- ==== Sys2Proof/Machine/Env.lean ====
section
/-! DEFINITION. The moves of the other agents, which happen between two operations: the collaborators (R256 to R261),
the link hardware (R262, R263), the idle timer (R233 to R235), wake-up events (R237), the caller of `STOP` (R207), the
platform and the owner of host memory (R44, R302, R305). A move that does not apply leaves the state as it is
(log 28). -/

namespace Sys2Proof.Machine

/-- A move of the instance, if there is one. -/
def onInst (f : Ctl → Ctl) (s : State) : State :=
  match s.inst with
  | none => s
  | some i => (f ⟨i, s.dev⟩).toState

/-- A move of everything but the instance. -/
def onDev (f : Dev → Dev) (s : State) : State := { s with dev := f s.dev }

/-- The idle timer's expiry, enabled while the timer is armed and the lock free, on the bridge variant (R233, R32):
the wake-up sources are enabled (R234) and the controller enters the low-power mode (R235). The link's activity is not
tested again (R233, R329); the model has no clock, so the delay does not delay it (log 25). -/
def timerExpiry (c : Ctl) : Ctl :=
  match c.dev.cfg.fifoVariant, c.inst.idleTimer, c.inst.lock with
  | .bridgeWord, some _, .free =>
      { c with inst := { c.inst with idleTimer := none, wakeEnables := wakeFor c.inst.cfgRole, lowPower := true } }
  | _, _, _ => c

/-- A wake-up source event: an enabled source ends the low-power mode (R237); the direct variant has none (R239). That it
changes nothing else (no status bit, no wake-up source disabled) is a DESIGN CHOICE (log 43): what a wake also causes is
not in the source. -/
def wakeEvent (w : WakeSource) (c : Ctl) : Ctl :=
  match c.dev.cfg.fifoVariant with
  | .directBurst => c
  | .bridgeWord => if c.inst.wakeEnables.has w then { c with inst := { c.inst with lowPower := false } } else c

/-- A move of the environment (R54, R256 to R263). -/
def envMove (m : EnvMove) (s : State) : State :=
  match m with
  | .collab m => onInst (collabMove m) s
  | .script l => onDev (fun d => { d with cbScript := l }) s
  | .latchUsb b => onDev (fun d => { d with regs := { d.regs with intrusb := d.regs.intrusb ||| b } }) s
  | .latchTx b => onDev (fun d => { d with regs := { d.regs with intrtx := d.regs.intrtx ||| b } }) s
  | .latchRx b => onDev (fun d => { d with regs := { d.regs with intrrx := d.regs.intrrx ||| b } }) s
  | .driveDevctl v =>
      onDev (fun d => { d with regs := { d.regs with devctl := mergeBits (devctlHard d.cfg.regMap) d.regs.devctl v } }) s
  | .dropSession =>
      onDev (fun d => { d with regs :=
        { d.regs with devctl := d.regs.devctl &&& ~~~(bit 8 d.cfg.regMap.dc.session) } }) s
  | .drivePower v =>
      onDev (fun d => { d with regs := { d.regs with power := mergeBits (powerDriven d.cfg.regMap) d.regs.power v } }) s
  | .drainTx e n => onDev (fun d => { d with txq := tset d.txq e ((tget d.txq e).drop n) }) s
  | .fillRx e b => onDev (fun d => { d with rxq := tset d.rxq e (tget d.rxq e ++ b) }) s
  | .loopback e =>
      onDev (fun d => { d with rxq := tset d.rxq e (tget d.rxq e ++ tget d.txq e), txq := tset d.txq e [] }) s
  | .wakeEvent w => onInst (wakeEvent w) s
  | .timerExpiry => onInst timerExpiry s
  | .callerLock l => onInst (fun c => { c with inst := { c.inst with lock := l } }) s
  | .platform a b => onDev (fun d => { d with memmapOk := a, irqOk := b }) s
  | .setMidTransfer b => onDev (fun d => { d with midTransfer := b }) s
  | .hostStore a v => onDev (fun d => { d with mem := d.mem.write a.toNat v }) s
  | .allocate r => onDev (fun d => { d with regions := r }) s

end Sys2Proof.Machine
end

