-- ==== Sys2Proof/Machine/Step.lean ====
section
/-! DEFINITION. One step: the next input is a command word, which is decoded and run, or a move of the environment
(R54, R62, R264). The block fetches no instructions and has no program counter (R36): its program is what the
requester puts on the request port (spec/95 Part 3). -/

namespace Sys2Proof.Machine

/-- One step of the machine. With no input left nothing happens (log 6). An illegal command is no operation and is
refused (R62). -/
def step (s : State) : Host.Outcome State Fault Refusal :=
  match s.dev.inbox.head? with
  | none => .next s
  | some (.env m) => .next (envMove m s.popInput)
  | some (.command w) =>
    match decode s.dev.cfg.numEps w with
    | .illegal r => .refused (.illegalCommand r)
    | .ok i => exec i s.popInput

/-- The machine with the command word `w` (zeros above `nbits`) as its next input. -/
def State.withFetchWord (s : State) (nbits w : Nat) : State :=
  { s with dev := { s.dev with inbox := .command (BitVec.ofNat 64 (w % 2 ^ nbits)) :: s.dev.inbox } }

end Sys2Proof.Machine
end

