-- ==== Sys2Proof/Safety.lean ====
section
/-! DEFINITION. The terms statements are made in: a controller that is ready for an operation, the invariant of the
machine, the access an operation of the shim makes, what a snapshot says a delivery does (the closed form of the table
of R194), and when a configuration fits (R134, R144). None of these is called by the machine. -/

namespace Sys2Proof.Machine

/-! ## Ready controllers -/

/-- The instance `i` exists, is configured, and no other operation holds its lock: what the locked operations require
(R19, R311). -/
def Ready (s : State) (i : Inst) : Prop := s.inst = some i ∧ i.configured = true ∧ i.lock = .free

/-- No collaborator writes anything inside its next callbacks (R256 to R261; log 7). -/
def Quiet (s : State) : Prop := s.dev.cbScript = []

/-- An access of `n` bytes at `off` reaches register `r` (R41, R49, R103). -/
def Reaches (s : State) (off : BitVec 16) (n : Nat) (r : Reg) : Prop :=
  resolve s.dev.cfg s.dev.regs.index off.toNat n = .ok r

/-! ## The invariant -/

/-- The byte range of a direction in FIFO RAM: its start and its length (R22). -/
def txRange (r : EpRec) : Nat × Nat := (r.fifoOffTx.toNat, r.maxPacketTx.toNat * (if r.txDouble then 2 else 1))

/-- The byte range of the receive direction (R22). -/
def rxRange (r : EpRec) : Nat × Nat := (r.fifoOffRx.toNat, r.maxPacketRx.toNat * (if r.rxDouble then 2 else 1))

/-- The invariant of FIFO RAM (R22): the ranges of all directions lie in it and no two overlap; a shared FIFO is one
range. -/
def RangesInv (p : Params) (ep : Vector EpRec 16) : Prop :=
  ∀ e : EpIdx,
    (txRange (tget ep e)).1 + (txRange (tget ep e)).2 ≤ p.fifoRamBytes
    ∧ (rxRange (tget ep e)).1 + (rxRange (tget ep e)).2 ≤ p.fifoRamBytes
    ∧ ((tget ep e).sharedFifo = true → txRange (tget ep e) = rxRange (tget ep e))
    ∧ ((tget ep e).sharedFifo = false → disjointRange (txRange (tget ep e)) (rxRange (tget ep e)) = true)
    ∧ ∀ f, f ≠ e → disjointRange (txRange (tget ep e)) (txRange (tget ep f)) = true
        ∧ disjointRange (txRange (tget ep e)) (rxRange (tget ep f)) = true
        ∧ disjointRange (rxRange (tget ep e)) (rxRange (tget ep f)) = true

/-- What configure leaves and nothing else changes: endpoint 0 is always control with the fixed size (R21), the count
and the bitmask of configured endpoints agree (R138, R140), a bulk endpoint is recorded exactly in a host-capable
role (R144), and after a table-driven configure the FIFO RAM is partitioned (R22). -/
def TableInv (p : Params) (i : Inst) : Prop :=
  (tget i.ep 0).maxPacketTx = 64 ∧ (tget i.ep 0).maxPacketRx = 64 ∧ (tget i.ep 0).sharedFifo = true
  ∧ i.epMask.getLsbD 0 = true ∧ 1 ≤ i.nrEndpoints ∧ i.nrEndpoints ≤ max 1 p.numEps
  ∧ (∀ e : EpIdx, i.nrEndpoints ≤ e.val → i.epMask.getLsbD e.val = false)
  ∧ (i.cfgRole.hostCapable = false → i.bulkEp = none)
  ∧ (i.cfgRole.hostCapable = true → ∃ e : EpIdx, i.bulkEp = some e ∧ 1 ≤ e.val ∧ e.val < i.nrEndpoints
      ∧ 512 ≤ (tget i.ep e).maxPacketTx.toNat ∧ 512 ≤ (tget i.ep e).maxPacketRx.toNat)
  ∧ (p.allocMode = .table → RangesInv p i.ep)

/-- The invariant of a controller instance: it is the one its parameters describe (R10), the retry budget is in its
range (R14), the bridge fields never move on the direct variant (R32, R239), link disconnect is a wake-up source only
of an OTG controller (R234), the overlay is active only where it is present (R31), and a configured instance has the
table configure leaves. -/
def Inst.Inv (p : Params) (i : Inst) : Prop :=
  i.base = p.baseAddr ∧ i.cfgRole = p.cfgRole ∧ i.vbuserrRetry ≤ 2
  ∧ (p.fifoVariant = .directBurst → i.idleTimer = none ∧ i.lowPower = false ∧ i.wakeEnables = .empty)
  ∧ (i.wakeEnables.linkDisconnect = true → p.cfgRole = .otg)
  ∧ (i.otgOverlayActive = true → p.otgOverlayPresent = true ∧ p.cfgRole = .otg)
  ∧ (i.configured = true → TableInv p i)

/-- The invariant of the machine: host memory is in its canonical form, and the instance, if there is one, is legal. -/
def State.Inv (s : State) : Prop := s.dev.mem.wf = true ∧ ∀ i, s.inst = some i → i.Inv s.dev.cfg

/-! ## Where the registers lie (R41, R64) -/

/-- The register exists on the silicon: an endpoint below `NUM_EPS`, the size and offset registers only with
`HW_DYNFIFO` (R29), the length registers only on the bridge variant (R23). -/
def Reg.present (p : Params) : Reg → Bool
  | .epReg k e => decide (e.val < p.numEps) && (decide (k = .fifosize) || p.hwDynFifo)
  | .brEp0Conf => decide (p.fifoVariant = .bridgeWord)
  | .brTxConf e => decide (p.fifoVariant = .bridgeWord) && decide (1 ≤ e.val) && decide (e.val < p.numEps)
  | .brRxConf e => decide (p.fifoVariant = .bridgeWord) && decide (1 ≤ e.val) && decide (e.val < p.numEps)
  | .fifo e => decide (e.val < p.numEps)
  | _ => true

/-- The offsets at which a register is reached while `INDEX` holds `index`: a global register at its own; an
endpoint-scoped one in the indexed window while it is selected, and at its flat alias if the map has one (R98, R99); a
port inside the register space on the direct variant, and at its two windows on the bridge variant (R43). -/
def homeOffsets (p : Params) (index : BitVec 8) (r : Reg) : List Nat :=
  match r with
  | .epReg k e =>
      (if index.toNat % 16 = e.val then [(k.off p.regMap).window] else [])
      ++ (k.off p.regMap).flat.toList.map fun f => tget f e
  | .fifo e =>
      match p.fifoVariant with
      | .directBurst => [tget p.regMap.fifo e]
      | .bridgeWord => [tget p.regMap.brFifoSync e, tget p.regMap.brFifoAsync e]
  | r => [r.offset p.regMap]

/-- An access of `n` bytes at `off` is a valid access to `r` (R103): `r` is there, it lies at that offset, the offset is
a multiple of the width, and the width is the register's, or for a port one of its listed widths. -/
def ValidAccess (s : State) (off n : Nat) (r : Reg) : Prop :=
  r.present s.dev.cfg = true ∧ off ∈ homeOffsets s.dev.cfg s.dev.regs.index r ∧ off % n = 0
  ∧ (match r with
     | .fifo _ => if s.dev.cfg.fifoVariant = .bridgeWord then n = 4 else n = 1 ∨ n = 2 ∨ n = 4
     | r => n = r.width)

/-! ## What one access of the shim leaves -/

/-- The state after an access that leaves the device `d`: the wake of R238, one more entry in the bus trace, and the
result beside the command; everything else is `d` and `i`. -/
def accessDone (i : Inst) (d : Dev) (ev : BusEvent) (r : Result) : State where
  inst := some { i with lowPower := lowPowerAfter d.cfg.fifoVariant i.lowPower }
  dev := { d with bus := d.bus ++ [ev], result := r }

/-- The content `R[r]` of a register whose read has no side effect (R47); none for the status registers, the ports, and
endpoint 0's `FIFOSIZE`, whose content the spec does not give (log 18). -/
def plainValue (d : Dev) : Reg → Option Word
  | .intrusb => none
  | .intrtx => none
  | .intrrx => none
  | .intrusbe => some (d.regs.intrusbe.setWidth 32)
  | .intrtxe => some (d.regs.intrtxe.setWidth 32)
  | .intrrxe => some (d.regs.intrrxe.setWidth 32)
  | .devctl => some (d.regs.devctl.setWidth 32)
  | .power => some (d.regs.power.setWidth 32)
  | .testmode => some (d.regs.testmode.setWidth 32)
  | .index => some (d.regs.index.setWidth 32)
  | .epReg .txfifosz e => some ((tget d.regs.txfifosz e).setWidth 32)
  | .epReg .rxfifosz e => some ((tget d.regs.rxfifosz e).setWidth 32)
  | .epReg .txfifoadd e => some ((tget d.regs.txfifoadd e).setWidth 32)
  | .epReg .rxfifoadd e => some ((tget d.regs.rxfifoadd e).setWidth 32)
  | .epReg .fifosize e => if e = 0 then none else some ((tget d.cfg.hwSizeDesc e).setWidth 32)
  | .brEp0Conf => some d.regs.brEp0Conf
  | .brTxConf e => some (tget d.regs.brTxConf e)
  | .brRxConf e => some (tget d.regs.brRxConf e)
  | .fifo _ => none

/-- How many bytes of an `n`-byte access the port of endpoint `e` still lets in (R43, R111, R117). -/
def txRoom (d : Dev) (e : EpIdx) (n : Nat) : Nat :=
  if d.cfg.fifoVariant = .bridgeWord then min n (tget d.brTxLeft e) else n

/-- How many bytes of an `n`-byte access the port of endpoint `e` still hands out (R43, R112, R118). -/
def rxRoom (d : Dev) (e : EpIdx) (n : Nat) : Nat :=
  if d.cfg.fifoVariant = .bridgeWord then min n (tget d.brRxLeft e) else n

/-- The width of a transaction of the FIFO engine. -/
def BusEvent.engineWidth : BusEvent → Option Nat
  | .regRead _ _ _ => none
  | .regWrite _ _ _ => none
  | .fifoPush _ _ w _ => some w
  | .fifoPop _ _ w _ => some w

/-- Where a transaction goes, as far as the spec says (D48). -/
def BusEvent.place : BusEvent → Option BusAt
  | .regRead p _ _ => some p
  | .regWrite p _ _ => some p
  | .fifoPush _ p _ _ => p
  | .fifoPop _ p _ _ => p

/-- A register write. -/
def BusEvent.isWrite : BusEvent → Bool
  | .regRead _ _ _ => false
  | .regWrite _ _ _ => true
  | .fifoPush _ _ _ _ => false
  | .fifoPop _ _ _ _ => false

/-- The units of the direct variant by the buffer's alignment, as R113 words them. -/
def unitsByAlignment (a n : Nat) : List Nat :=
  match a % 4 with
  | 0 => List.replicate (n >>> 2) 4 ++ (if n.testBit 1 then [2] else []) ++ (if n.testBit 0 then [1] else [])
  | 2 => List.replicate (n >>> 1) 2 ++ (if n.testBit 0 then [1] else [])
  | _ => List.replicate n 1

/-! ## Illegal command words (R62) -/

/-- The opcodes of R61. -/
def opcodeTable : List Nat :=
  [0x01, 0x02, 0x03, 0x04, 0x05, 0x06, 0x10, 0x11, 0x20, 0x30, 0x40, 0x41, 0x42, 0x43, 0x50, 0x60, 0x61]

/-- R62's list, written on the bits of the word: opcode 63:56, ep 55:52, zero 51:48, arg 47:32, data 31:0 (R60). -/
def illegalWord (numEps : Nat) (w : BitVec 64) : Bool :=
  let op := (w.extractLsb' 56 8).toNat
  let ep := (w.extractLsb' 52 4).toNat
  let arg := (w.extractLsb' 32 16).toNat
  let data := (w.extractLsb' 0 32).toNat
  decide (op ∉ opcodeTable) || (w.extractLsb' 48 4).toNat != 0
  || (decide (op ∉ [0x10, 0x11]) && ep != 0)
  || (decide (op ∈ [0x20, 0x40, 0x41, 0x42, 0x43, 0x50, 0x60, 0x61]) && arg != 0)
  || (decide (op ∈ [0x01, 0x02, 0x03, 0x20, 0x40, 0x41, 0x42, 0x43, 0x50, 0x60, 0x61]) && data != 0)
  || (decide (op ∈ [0x10, 0x11]) && decide (numEps ≤ ep))
  || (op == 0x04 && decide (2 ^ 8 ≤ data)) || (op == 0x05 && decide (2 ^ 16 ≤ data))
  || (op == 0x30 && (decide (1 < arg) || (arg == 0 && data != 0)))

/-! ## Configuration (R134, R144) -/

/-- The bytes of FIFO RAM a table takes: endpoint 0's 64, then every footprint (R132, R136). -/
def tableBytes (t : List FifoEntry) : Nat := 64 + (t.map footprint).sum

/-- A table gives endpoint `e` a direction of at least 512 bytes. -/
def tableGives (t : List FifoEntry) (dir : Style → Bool) (e : EpIdx) : Bool :=
  t.any fun c => decide (c.ep = e) && dir c.style && decide (512 ≤ effSize c.maxpacket.toNat)

/-- A size descriptor gives both directions at least 512 bytes (R141, R144). -/
def descBulk (d : Byte) : Bool :=
  decide (9 ≤ (d.extractLsb' 0 4).toNat) && decide (9 ≤ (d.extractLsb' 4 4).toNat)

/-- Every entry names an endpoint the silicon has, and all of them fit the FIFO RAM (R134, R136). -/
def tableFits (p : Params) : Bool :=
  decide (1 ≤ p.numEps) && p.fifoTable.all (fun c => decide (c.ep.val < p.numEps))
  && decide (tableBytes p.fifoTable ≤ p.fifoRamBytes)

/-- Endpoint `e` is found by the discovered pass: no descriptor from 1 to `e` is zero (R140). -/
def discovered (p : Params) (e : EpIdx) : Bool :=
  decide (1 ≤ e.val) && decide (e.val < p.numEps)
  && (epsFrom1 p).all fun f => !decide (f.val ≤ e.val) || decide (tget p.hwSizeDesc f ≠ 0)

/-- Some endpoint but 0 has both directions at least 512 bytes (R144). -/
def hasBulk (p : Params) : Bool :=
  match p.allocMode with
  | .table => (List.finRange 16).any fun e =>
      tableGives p.fifoTable Style.hasTx e && tableGives p.fifoTable Style.hasRx e
  | .discovered => (List.finRange 16).any fun e => discovered p e && descBulk (tget p.hwSizeDesc e)

/-- Configure succeeds with these parameters (R134, R140, R144). -/
def configurable (p : Params) : Bool :=
  (match p.allocMode with
   | .table => tableFits p
   | .discovered => true)
  && (!p.cfgRole.hostCapable || hasBulk p)

/-! ## What a delivery does, by its snapshot (R194) -/

/-- The snapshot an `IRQ` captures: the live registers, or the record at a host address (R161, R73); none where the
record is not in allocated memory (R44). -/
def snapshotOf (s : State) : SnapSource → Option Snapshot
  | .live => some ⟨s.dev.regs.intrusb, s.dev.regs.intrtx, s.dev.regs.intrrx, s.dev.regs.devctl, s.dev.regs.power⟩
  | .synthetic a => if allocated s.dev.regions a.toNat 8 then some (recordSnapshot s.dev.mem a.toNat) else none

/-- What the capture leaves (R161, R46, R238): with the live source the three status registers read and cleared, five
bus reads in the trace and a woken bridge; with a synthetic record nothing. -/
def captureDone (s : State) (i : Inst) : SnapSource → State
  | .live =>
      { inst := some { i with lowPower := lowPowerAfter s.dev.cfg.fifoVariant i.lowPower }
        dev := { s.dev with
          regs := { s.dev.regs with intrusb := 0, intrtx := 0, intrrx := 0 }
          bus := s.dev.bus ++
            [.regRead (i.busAt s.dev.cfg.regMap.intrusb) 1 (s.dev.regs.intrusb.setWidth 32),
             .regRead (i.busAt s.dev.cfg.regMap.intrtx) 2 (s.dev.regs.intrtx.setWidth 32),
             .regRead (i.busAt s.dev.cfg.regMap.intrrx) 2 (s.dev.regs.intrrx.setWidth 32),
             .regRead (i.busAt s.dev.cfg.regMap.devctl) 1 (s.dev.regs.devctl.setWidth 32),
             .regRead (i.busAt s.dev.cfg.regMap.power) 1 (s.dev.regs.power.setWidth 32)] } }
  | .synthetic _ => s

/-- A global event bit of the snapshot. -/
def Snapshot.has (snap : Snapshot) (k : Nat) : Bool := snap.usb.getLsbD k

/-- The session-request step runs (R166). -/
def sessionRequested (m : RegMap) (i : Inst) (snap : Snapshot) : Bool :=
  snap.has m.usb.sessReq && i.cfgRole.hostCapable

/-- The resume step runs in host role (R164). -/
def hostResumed (m : RegMap) (snap : Snapshot) : Bool := snap.has m.usb.resume && snap.host m

/-- The disconnect step runs (R183). -/
def disconnected (m : RegMap) (i : Inst) (snap : Snapshot) : Bool :=
  snap.has m.usb.disconnect && !i.ignoreDisconnect

/-- `link_state` after a delivery: the last of the stage-0 steps that write it wins (R194). -/
def linkAfter (m : RegMap) (i : Inst) (snap : Snapshot) : LinkState :=
  let l := if snap.has m.usb.vbusErr || sessionRequested m i snap then .aIdle
    else if hostResumed m snap then .aHost else i.linkState
  if snap.has m.usb.connect then (if l = .bWaitAcon then .bHost else .aHost) else l

/-- `host_active` after a delivery (R164, R167, R173). -/
def hostAfter (m : RegMap) (i : Inst) (snap : Snapshot) : Bool :=
  i.hostActive || hostResumed m snap || sessionRequested m i snap || snap.has m.usb.connect

/-- `is_active` after stage 0 (R163, R171). -/
def activeAfterStage0 (m : RegMap) (i : Inst) (snap : Snapshot) : Bool :=
  i.isActive || snap.has m.usb.resume || snap.has m.usb.connect

/-- `is_active` after a delivery (R163, R171, R185, R188, R189). -/
def activeAfter (m : RegMap) (i : Inst) (snap : Snapshot) : Bool :=
  if snap.has m.usb.suspend then !hostAfter m i snap && decide (i.cfgRole = .otg) && i.hnpPermitted
  else if disconnected m i snap then false else activeAfterStage0 m i snap

/-- The state machine writes the session bit (R166, R168). -/
def sessionWritten (m : RegMap) (i : Inst) (snap : Snapshot) : Bool :=
  sessionRequested m i snap || (snap.has m.usb.vbusErr && decide (i.vbuserrRetry ≠ 0))

/-- Another named global event than VBUS-error is in the snapshot (R180). -/
def otherEvent (m : RegMap) (snap : Snapshot) : Bool :=
  snap.has m.usb.resume || snap.has m.usb.sessReq || snap.has m.usb.connect || snap.has m.usb.disconnect
  || snap.has m.usb.suspend || snap.has m.usb.reset

/-- The retry budget after a delivery (R168, R180). -/
def retryAfter (m : RegMap) (i : Inst) (snap : Snapshot) : Nat :=
  if otherEvent m snap then 2
  else if snap.has m.usb.vbusErr then i.vbuserrRetry - 1 else i.vbuserrRetry

/-- The endpoint of a receive callback (R182). -/
def Callback.rxOf : Callback → Option EpIdx
  | .periphEpRx e => some e
  | .hostEpRx e => some e
  | _ => none

/-- The endpoint of a transmit callback (R182). -/
def Callback.txOf : Callback → Option EpIdx
  | .periphEpTx e => some e
  | .hostEpTx e => some e
  | _ => none

/-- What R181 and R182 say of the callbacks of endpoints 1 to N-1 that a model may rely on: they are exactly the receive
callbacks of the endpoints whose receive bit is set and the transmit callbacks of those whose transmit bit is set, each
kind once an endpoint and ascending, to the role of the snapshot; and of one endpoint, receive comes before transmit.
Nothing is said of a receive and a transmit callback of two different endpoints (R182, D12). -/
def EndpointCallsOf (p : Params) (snap : Snapshot) (l : List Callback) : Prop :=
  (∀ cb ∈ l, ∃ e : EpIdx, 1 ≤ e.val ∧ e.val < p.numEps
    ∧ cb ∈ (if snap.host p.regMap then [.hostEpRx e, .hostEpTx e] else [.periphEpRx e, .periphEpTx e] : List Callback))
  ∧ l.filterMap Callback.rxOf = (epsFrom1 p).filter (fun e => snap.rx.getLsbD e.val)
  ∧ l.filterMap Callback.txOf = (epsFrom1 p).filter (fun e => snap.tx.getLsbD e.val)
  ∧ ∀ pre cb post, l = pre ++ cb :: post → ∀ e, cb.rxOf = some e → ∀ d ∈ pre, d.txOf ≠ some e

/-- Some step of the delivery matches: the event is recognised (R162, R274). -/
def recognised (p : Params) (i : Inst) (snap : Snapshot) : Bool :=
  let m := p.regMap
  snap.has m.usb.resume || sessionRequested m i snap || snap.has m.usb.vbusErr || snap.has m.usb.connect
  || snap.has m.usb.reset || snap.tx.getLsbD 0
  || (epsFrom1 p).any (fun e => snap.rx.getLsbD e.val || snap.tx.getLsbD e.val)
  || disconnected m i snap || snap.has m.usb.suspend

/-- The callbacks of a delivery up to endpoint 0's, in their fixed order (R284). -/
def callsBefore (p : Params) (i : Inst) (snap : Snapshot) : List Callback :=
  let m := p.regMap
  (if snap.has m.usb.resume && !snap.host m then [.periphResume] else [])
  ++ (if snap.has m.usb.connect then [.hostRootPort] else [])
  ++ (if snap.has m.usb.reset && !snap.host m then
        .periphReset :: (if i.otgOverlayActive then
          [.inputsChanged ⟨snap.devctl.getLsbD m.dc.session, snap.devctl.getLsbD m.dc.bdevice, true,
            snap.power.getLsbD m.pw.suspendm, snap.has m.usb.connect, snap.has m.usb.vbusErr⟩] else [])
      else [])
  ++ (if snap.tx.getLsbD 0 then [if snap.host m then .hostEp0 else .periphEp0] else [])

/-- The callbacks of a delivery after those of endpoints 1 to N-1, in their fixed order (R284), where `d` and `w` are
the `DEVCTL` and `POWER` that overlay site A reads live (R221). -/
def callsAfter (p : Params) (i : Inst) (snap : Snapshot) (d w : BitVec 8) : List Callback :=
  let m := p.regMap
  (if disconnected m i snap then
      (if hostAfter m i snap then .hostDisconnect else .periphDisconnect)
      :: (if i.otgOverlayActive then
        [.inputsChanged ⟨d.getLsbD m.dc.session, d.getLsbD m.dc.bdevice, w.getLsbD m.pw.reset,
          w.getLsbD m.pw.suspendm, false, false⟩] else [])
    else [])
  ++ (if snap.has m.usb.suspend && !hostAfter m i snap then [.periphSuspend] else [])

/-- The diagnostics of a delivery (R292): `l` is the link state connect finds. -/
def deliveryDiags (p : Params) (i : Inst) (snap : Snapshot) : List Diag :=
  let m := p.regMap
  let l : LinkState := if snap.has m.usb.vbusErr || sessionRequested m i snap then .aIdle
    else if hostResumed m snap then .aHost else i.linkState
  (if snap.has m.usb.connect && decide (l ∉ [.bWaitAcon, .aWaitBcon, .aWaitVrise]) then [.connectUnexpected] else [])
  ++ (if snap.has m.usb.reset && snap.host m then [.babble] else [])
  ++ (if recognised p i snap then [] else [.spurious])

/-- The callback of an endpoint (R181, R182). -/
def Callback.isEndpoint : Callback → Bool
  | .periphEp0 => true
  | .periphEpRx _ => true
  | .periphEpTx _ => true
  | .hostEp0 => true
  | .hostEpRx _ => true
  | .hostEpTx _ => true
  | _ => false

/-- The three enable registers replaced (R25). -/
def State.withEnables (s : State) (a : BitVec 8) (b c : BitVec 16) : State :=
  { s with dev := { s.dev with regs := { s.dev.regs with intrusbe := a, intrtxe := b, intrrxe := c } } }

/-! ## Sequences of operations -/

/-- Operations one after another, until one is not carried out. -/
def runOps : List Instr → State → Host.Outcome State Fault Refusal
  | [], s => .next s
  | i :: rest, s =>
    match exec i s with
    | .next t => runOps rest t
    | .fault f => .fault f
    | .refused r => .refused r

/-- The content of an endpoint-scoped register (R29). -/
def scopedContent (d : Dev) (k : EpReg) (e : EpIdx) : Option Word := plainValue d (.epReg k e)

end Sys2Proof.Machine
end

