-- ==== Sys2Proof/Certificates/Slice0/Obligations.lean ====
section
/-! DEFINITION. The statements about the model, one `Obligations.<Name>` each (OBLIGATIONS.json lists them). They are
about the machine: no program stands in them. "Log n" names an entry of notes/assumptions. -/

section ObligationsOfSliceZero

open Sys2Proof Sys2Proof.Machine Host

/-! ## Command words (R60 to R62, R76) -/

/-- Decoding the command word of a well-formed operation gives the operation, with every operand, and no other word
decodes to it (R60, R61, R76). -/
def Obligations.DecodeAndEncodeAgree : Prop :=
  ∀ (n : Nat) (w : BitVec 64) (i : Instr), decode n w = .ok i ↔ i.wf n = true ∧ encode i = w

/-- A few command words written out from R60 and R61 (spec/95 T-E1, T-E4, T-E6, T-E8, T-E12, T-E16). -/
def Obligations.SpecWordsDecode : Prop :=
  decode 5 0x0100006000000000 = .ok (.rd8 0x60) ∧ decode 5 0x0300002400000000 = .ok (.rd32 0x24)
  ∧ decode 5 0x050000060000001F = .ok (.wr16 0x06 0x1F)
  ∧ decode 5 0x1010000500001001 = .ok (.wrfifo 1 5 0x1001)
  ∧ decode 5 0x3000000100003000 = .ok (.irq (.synthetic 0x3000)) ∧ decode 5 0x6000000000000000 = .ok .attach
  ∧ decode 5 0x6100000000000000 = .ok .detach

/-- R62: a command word is refused as illegal exactly when one of R62's clauses holds, and changes no state then; every
other word is some operation. -/
def Obligations.IllegalCommandsRefused : Prop :=
  ∀ (s : State) (w : BitVec 64) (rest : List Input), s.dev.inbox = .command w :: rest →
    (illegalWord s.dev.cfg.numEps w = true ↔ ∃ r, step s = .refused (.illegalCommand r))
    ∧ (illegalWord s.dev.cfg.numEps w = false ↔ ∃ i, decode s.dev.cfg.numEps w = .ok i)

/-! ## One step (R54, R264) -/

/-- A step whose next input is a command word runs the operation it decodes to, with the word taken off the inbox, and
so it does from `withFetchWord`; one whose next input is a move of the environment makes it; with no input nothing
happens (R54; log 6). -/
def Obligations.StepRunsDecodedOperation : Prop :=
  (∀ (s : State) (w : BitVec 64) (rest : List Input) (i : Instr),
    s.dev.inbox = .command w :: rest → decode s.dev.cfg.numEps w = .ok i →
      step s = exec i { s with dev := { s.dev with inbox := rest } })
  ∧ (∀ (s : State) (nbits w : Nat) (i : Instr),
      decode s.dev.cfg.numEps (BitVec.ofNat 64 (w % 2 ^ nbits)) = .ok i → step (s.withFetchWord nbits w) = exec i s)
  ∧ (∀ (s : State) (m : EnvMove) (rest : List Input), s.dev.inbox = .env m :: rest →
      step s = .next (envMove m { s with dev := { s.dev with inbox := rest } }))
  ∧ ∀ s : State, s.dev.inbox = [] → step s = .next s

/-! ## Invariants -/

/-- The invariant holds after reset (log 2). -/
def Obligations.InvAtReset : Prop := State.reset.Inv

/-- Every step keeps the invariant: memory canonical (log 4), the instance the one its parameters describe (R10), the
retry budget in 0..2 (R14), the bridge fields untouched on the direct variant (R32, R239), the overlay only where it is
present (R31), endpoint 0 always control with 64 bytes each way (R21), a bulk endpoint exactly in a host-capable role
(R144), and with the table-driven allocator the ranges of all directions inside the FIFO RAM and disjoint (R22). -/
def Obligations.StepKeepsInvariant : Prop :=
  ∀ s t : State, s.dev.cfg.wf = true → s.Inv → step s = .next t → t.Inv

/-- No step writes a parameter, the configuration table among them (R58, R72), and none changes the configured role or
the base of an instance that stays (R10). -/
def Obligations.StepKeepsParameters : Prop :=
  ∀ s t : State, step s = .next t →
    t.dev.cfg = s.dev.cfg
    ∧ ∀ i j, s.inst = some i → t.inst = some j → j.base = i.base ∧ j.cfgRole = i.cfgRole

/-- The endpoint table, its bitmask, its count and the bulk endpoint stay as they are in every step but a `CONFIGURE`
command (R21, R328): `ATTACH` finds no instance, `DETACH` leaves none. -/
def Obligations.OnlyConfigureWritesEndpointTable : Prop :=
  ∀ (s t : State) (i j : Inst), step s = .next t → s.inst = some i → t.inst = some j →
    (∀ w rest, s.dev.inbox = .command w :: rest → decode s.dev.cfg.numEps w ≠ .ok .configure) →
    j.ep = i.ep ∧ j.epMask = i.epMask ∧ j.nrEndpoints = i.nrEndpoints ∧ j.bulkEp = i.bulkEp

/-- Of all operations only `RDFIFO` changes a byte of host memory (R40, R44). -/
def Obligations.OnlyReadFifoWritesMemory : Prop :=
  ∀ (i : Instr) (s t : State), exec i s = .next t → (∀ e n a, i ≠ .rdfifo e n a) →
    ∀ a, t.dev.mem.read a = s.dev.mem.read a

/-- The link state is written only by a delivery, by a collaborator, and by the creation of the instance (R11, R194). -/
def Obligations.OnlyDeliveriesMoveTheLinkState : Prop :=
  ∀ (i : Instr) (s t : State) (a b : Inst), exec i s = .next t → s.inst = some a → t.inst = some b → Quiet s →
    (∀ src, i ≠ .irq src) → b.linkState = a.linkState ∧ b.vbuserrRetry = a.vbuserrRetry ∧ b.isActive = a.isActive
      ∧ b.hostActive = a.hostActive ∧ b.portStatus = a.portStatus ∧ b.ctrlSubstate = a.ctrlSubstate

/-- No operation but a shim write, and `ATTACH` (whose registers are unspecified), clears `POWER.RESUME` once it is set
(R324). -/
def Obligations.OnlySoftwareClearsResume : Prop :=
  ∀ (i : Instr) (s t : State), s.dev.cfg.wf = true → exec i s = .next t → Quiet s →
    (∀ off v, i ≠ .wr8 off v) → i ≠ .attach → s.dev.regs.power.getLsbD s.dev.cfg.regMap.pw.resume = true →
    t.dev.regs.power.getLsbD s.dev.cfg.regMap.pw.resume = true

/-- Every operation that takes the lock begins with it free and ends with it free (R19); `STOP` and the six shim
primitives leave it as they find it (R97, R207). -/
def Obligations.LockFreeAfterOperation : Prop :=
  ∀ (i : Instr) (s t : State) (b : Inst), exec i s = .next t → t.inst = some b →
    match i with
    | .rd8 _ | .rd16 _ | .rd32 _ | .wr8 _ _ | .wr16 _ _ | .wr32 _ _ | .stop =>
        ∃ a, s.inst = some a ∧ b.lock = a.lock
    | .attach => s.inst = none ∧ b.lock = .free
    | _ => ∃ a, s.inst = some a ∧ a.lock = .free ∧ b.lock = .free

/-- On the bridge variant any register bus access, of any operation, ends the low-power mode, and an operation that
makes none leaves the mode as it is (R238, R235). -/
def Obligations.RegisterAccessWakes : Prop :=
  ∀ (i : Instr) (s t : State) (a b : Inst), exec i s = .next t → s.inst = some a → t.inst = some b →
    s.dev.cfg.fifoVariant = .bridgeWord →
    ∃ new, t.dev.bus = s.dev.bus ++ new
      ∧ b.lowPower = (a.lowPower && new.all fun ev => ev.engineWidth.isSome)

/-- The result each operation returns (R76, R276): a value for reads and `GETMODE`, text for `GETCABLE`, `handled` for
`IRQ`, a status for `CONFIGURE` (`Ok` or `ResourceExhausted`) and `ATTACH` (any but the two classifications), nothing
for the others. -/
def Obligations.ResultOfEachOperation : Prop :=
  ∀ (i : Instr) (s t : State), exec i s = .next t →
    match i with
    | .rd8 _ | .rd16 _ | .rd32 _ | .getmode => ∃ v, t.dev.result = .value v
    | .getcable => ∃ x, t.dev.result = .text x
    | .irq _ => ∃ b, t.dev.result = .handled b
    | .configure => ∃ st, t.dev.result = .status st ∧ st.kind ∈ [ErrorKind.ok, .resourceExhausted]
    | .attach => ∃ st, t.dev.result = .status st
        ∧ st.kind ∈ [ErrorKind.ok, .resourceExhausted, .unsupportedConfiguration, .resourceUnavailable]
    | _ => t.dev.result = .none

/-! ## Lifecycle phases (R277, R311) -/

/-- A request outside its phase is refused (R311): without an instance all but `ATTACH`; with an instance `ATTACH`; on
a started one `CONFIGURE`; on one that is not configured all but `DETACH`. -/
def Obligations.RequestsOutsideTheirPhaseRefused : Prop :=
  ∀ (i : Instr) (s : State),
    (s.inst = none → i ≠ .attach → exec i s = .refused .noInstance)
    ∧ (∀ a, s.inst = some a → i = .attach → exec i s = .refused .instanceExists)
    ∧ (∀ a, Ready s a → a.started = true → i = .configure → exec i s = .refused .startedConfigure)
    ∧ (∀ a, s.inst = some a → a.configured = false → i ≠ .detach → i ≠ .attach →
        exec i s = .refused .notConfigured)

/-! ## The register access shim (R90 to R103) -/

/-- A valid access (R103) reaches the register, and an access reaches a register only if it is valid (R41, R49, R64),
under every legal register map and every value of `INDEX`. -/
def Obligations.RegistersLieAtTheirOffsets : Prop :=
  ∀ (s : State) (off : BitVec 16) (n : Nat) (r : Reg), s.dev.cfg.wf = true →
    (Reaches s off n r ↔ ValidAccess s off.toNat n r)

/-- An access that is not valid is refused by all six primitives (R103). -/
def Obligations.InvalidAccessRefused : Prop :=
  ∀ (s : State) (i : Inst) (off : BitVec 16), s.dev.cfg.wf = true → s.inst = some i → i.configured = true →
    ((∀ r, ¬ ValidAccess s off.toNat 1 r) →
      (∃ b, exec (.rd8 off) s = .refused (.badAccess b))
      ∧ ∀ v, ∃ b, exec (.wr8 off v) s = .refused (.badAccess b))
    ∧ ((∀ r, ¬ ValidAccess s off.toNat 2 r) →
      (∃ b, exec (.rd16 off) s = .refused (.badAccess b))
      ∧ ∀ v, ∃ b, exec (.wr16 off v) s = .refused (.badAccess b))
    ∧ ((∀ r, ¬ ValidAccess s off.toNat 4 r) →
      (∃ b, exec (.rd32 off) s = .refused (.badAccess b))
      ∧ ∀ v, ∃ b, exec (.wr32 off v) s = .refused (.badAccess b))

/-- A read of a register without a read side effect returns its content, zero-extended, in one transaction at the offset
added to the base, and changes nothing but the bus trace, the result, and the low-power mode on the bridge (R47, R76, R90
to R93, R238). That the bridge's length registers read back what was written is the model's reading (log 15). `FIFOSIZE`
of endpoint 0, whose content the spec does not give, reads as a free byte (log 18). -/
def Obligations.ReadReturnsContent : Prop :=
  ∀ (s : State) (i : Inst) (off : BitVec 16), s.inst = some i → i.configured = true →
    (∀ r v, plainValue s.dev r = some v →
      (Reaches s off 1 r →
        exec (.rd8 off) s = .next (accessDone i s.dev (.regRead (i.busAt off.toNat) 1 v) (.value v)))
      ∧ (Reaches s off 2 r →
        exec (.rd16 off) s = .next (accessDone i s.dev (.regRead (i.busAt off.toNat) 2 v) (.value v)))
      ∧ (Reaches s off 4 r →
        exec (.rd32 off) s = .next (accessDone i s.dev (.regRead (i.busAt off.toNat) 4 v) (.value v))))
    ∧ (Reaches s off 1 (.epReg .fifosize 0) → ∃ v : BitVec 8,
        exec (.rd8 off) s = .next (accessDone i { s.dev with draws := s.dev.draws + 1 }
          (.regRead (i.busAt off.toNat) 1 (v.setWidth 32)) (.value (v.setWidth 32))))

/-- R46 (which the spec marks as its own reading of `stop`'s drain, D21): a bus read of a status register returns the
latched value and clears it, and changes nothing else. -/
def Obligations.StatusReadClears : Prop :=
  ∀ (s : State) (i : Inst) (off : BitVec 16), s.inst = some i → i.configured = true →
    (Reaches s off 1 .intrusb →
      exec (.rd8 off) s = .next (accessDone i { s.dev with regs := { s.dev.regs with intrusb := 0 } }
        (.regRead (i.busAt off.toNat) 1 (s.dev.regs.intrusb.setWidth 32)) (.value (s.dev.regs.intrusb.setWidth 32))))
    ∧ (Reaches s off 2 .intrtx →
      exec (.rd16 off) s = .next (accessDone i { s.dev with regs := { s.dev.regs with intrtx := 0 } }
        (.regRead (i.busAt off.toNat) 2 (s.dev.regs.intrtx.setWidth 32)) (.value (s.dev.regs.intrtx.setWidth 32))))
    ∧ (Reaches s off 2 .intrrx →
      exec (.rd16 off) s = .next (accessDone i { s.dev with regs := { s.dev.regs with intrrx := 0 } }
        (.regRead (i.busAt off.toNat) 2 (s.dev.regs.intrrx.setWidth 32)) (.value (s.dev.regs.intrrx.setWidth 32))))

/-- A write of a read-write register leaves the written value in it, of the register's width; a write of a read-only or
read-to-clear register is ignored; neither changes anything else but the bus trace, the result, and the low-power mode
on the bridge (R94, R95, R24, R25, R28, R29, R238). -/
def Obligations.WriteLeavesValue : Prop :=
  ∀ (s : State) (i : Inst) (off : BitVec 16) (e : EpIdx), s.inst = some i → i.configured = true →
    (∀ v : BitVec 8,
      let done := fun r : Regs =>
        Outcome.next (accessDone i { s.dev with regs := r } (.regWrite (i.busAt off.toNat) 1 (v.setWidth 32)) .none)
      (Reaches s off 1 .intrusb ∨ Reaches s off 1 (.epReg .fifosize e) → exec (.wr8 off v) s = done s.dev.regs)
      ∧ (Reaches s off 1 .intrusbe → exec (.wr8 off v) s = done { s.dev.regs with intrusbe := v })
      ∧ (Reaches s off 1 .testmode → exec (.wr8 off v) s = done { s.dev.regs with testmode := v })
      ∧ (Reaches s off 1 .index → exec (.wr8 off v) s = done { s.dev.regs with index := v })
      ∧ (Reaches s off 1 (.epReg .txfifosz e) →
          exec (.wr8 off v) s = done { s.dev.regs with txfifosz := tset s.dev.regs.txfifosz e v })
      ∧ (Reaches s off 1 (.epReg .rxfifosz e) →
          exec (.wr8 off v) s = done { s.dev.regs with rxfifosz := tset s.dev.regs.rxfifosz e v }))
    ∧ (∀ v : BitVec 16,
      let done := fun r : Regs =>
        Outcome.next (accessDone i { s.dev with regs := r } (.regWrite (i.busAt off.toNat) 2 (v.setWidth 32)) .none)
      (Reaches s off 2 .intrtx ∨ Reaches s off 2 .intrrx → exec (.wr16 off v) s = done s.dev.regs)
      ∧ (Reaches s off 2 .intrtxe → exec (.wr16 off v) s = done { s.dev.regs with intrtxe := v })
      ∧ (Reaches s off 2 .intrrxe → exec (.wr16 off v) s = done { s.dev.regs with intrrxe := v })
      ∧ (Reaches s off 2 (.epReg .txfifoadd e) →
          exec (.wr16 off v) s = done { s.dev.regs with txfifoadd := tset s.dev.regs.txfifoadd e v })
      ∧ (Reaches s off 2 (.epReg .rxfifoadd e) →
          exec (.wr16 off v) s = done { s.dev.regs with rxfifoadd := tset s.dev.regs.rxfifoadd e v }))

/-- A write of `DEVCTL` sets the two software bits, `SESSION` and `HOSTREQ`, and leaves the hardware-driven bits (R94,
R66); a write of `POWER` likewise leaves `RESET` and `HSMODE` (log 13) and sets the rest. Nothing else changes. -/
def Obligations.HardwareBitsSurviveWrites : Prop :=
  ∀ (s : State) (i : Inst) (off : BitVec 16) (v : BitVec 8), s.inst = some i → i.configured = true →
    (Reaches s off 1 .devctl → ∃ x : BitVec 8,
      exec (.wr8 off v) s = .next (accessDone i { s.dev with regs := { s.dev.regs with devctl := x } }
        (.regWrite (i.busAt off.toNat) 1 (v.setWidth 32)) .none)
      ∧ ∀ k < 8, x.getLsbD k =
          if k = s.dev.cfg.regMap.dc.session ∨ k = s.dev.cfg.regMap.dc.hostreq then v.getLsbD k
          else s.dev.regs.devctl.getLsbD k)
    ∧ (Reaches s off 1 .power → ∃ x : BitVec 8,
      exec (.wr8 off v) s = .next (accessDone i { s.dev with regs := { s.dev.regs with power := x } }
        (.regWrite (i.busAt off.toNat) 1 (v.setWidth 32)) .none)
      ∧ ∀ k < 8, x.getLsbD k =
          if k = s.dev.cfg.regMap.pw.reset ∨ k = s.dev.cfg.regMap.pw.hsmode then s.dev.regs.power.getLsbD k
          else v.getLsbD k)

/-- A 32-bit write of a bridge configuration register leaves the value in that register and the length in its `XFR_SIZE`
field in force for that direction; nothing else changes (R96, R70, R323; log 16). -/
def Obligations.LengthRegisterWrites : Prop :=
  ∀ (s : State) (i : Inst) (off : BitVec 16) (e : EpIdx) (v : BitVec 32), s.inst = some i → i.configured = true →
    let m := s.dev.cfg.regMap
    let len := (v.toNat >>> m.brLen.low) % 2 ^ m.brLen.width
    let len0 := (v.toNat >>> m.brEp0Len.low) % 2 ^ m.brEp0Len.width
    (Reaches s off 4 (.brTxConf e) →
      exec (.wr32 off v) s = .next (accessDone i { s.dev with
          regs := { s.dev.regs with brTxConf := tset s.dev.regs.brTxConf e v }
          brTxLeft := tset s.dev.brTxLeft e len }
        (.regWrite (i.busAt off.toNat) 4 v) .none))
    ∧ (Reaches s off 4 (.brRxConf e) →
      exec (.wr32 off v) s = .next (accessDone i { s.dev with
          regs := { s.dev.regs with brRxConf := tset s.dev.regs.brRxConf e v }
          brRxLeft := tset s.dev.brRxLeft e len }
        (.regWrite (i.busAt off.toNat) 4 v) .none))
    ∧ (Reaches s off 4 .brEp0Conf →
      exec (.wr32 off v) s = .next (accessDone i { s.dev with
          regs := { s.dev.regs with brEp0Conf := v }
          brTxLeft := tset s.dev.brTxLeft 0 (if v.getLsbD m.brEp0DirBit then len0 else 0)
          brRxLeft := tset s.dev.brRxLeft 0 (if v.getLsbD m.brEp0DirBit then 0 else len0) }
        (.regWrite (i.busAt off.toNat) 4 v) .none))

/-- A bare write of a FIFO port appends the bytes of the value, least significant first, to the endpoint's transmit
queue: all of them on the direct variant, as many as the programmed length still allows on the bridge variant, where a
port with no length programmed is refused (R43, R96, R111, R323; log 16). No other queue changes. -/
def Obligations.PortWriteAppends : Prop :=
  ∀ (s : State) (i : Inst) (off : BitVec 16) (e : EpIdx) (n : Nat) (v : BitVec 32),
    s.inst = some i → i.configured = true → Reaches s off n (.fifo e) →
    let op : Option Instr := match n with
      | 1 => some (.wr8 off (v.setWidth 8))
      | 2 => some (.wr16 off (v.setWidth 16))
      | 4 => some (.wr32 off v)
      | _ => none
    ∃ o, op = some o
      ∧ (txRoom s.dev e n = 0 → exec o s = .refused .lengthNotProgrammed)
      ∧ (0 < txRoom s.dev e n → ∃ t, exec o s = .next t
          ∧ t.inst = some { i with lowPower := lowPowerAfter s.dev.cfg.fifoVariant i.lowPower }
          ∧ tget t.dev.txq e = tget s.dev.txq e
              ++ ([v.setWidth 8, (v >>> 8).setWidth 8, (v >>> 16).setWidth 8, (v >>> 24).setWidth 8] : List Byte).take
                  (txRoom s.dev e n)
          ∧ (∀ f, f ≠ e → tget t.dev.txq f = tget s.dev.txq f)
          ∧ t.dev.rxq = s.dev.rxq ∧ t.dev.regs = s.dev.regs ∧ t.dev.mem = s.dev.mem ∧ t.dev.calls = s.dev.calls)

/-- A bare read of a FIFO port takes bytes off the head of the endpoint's receive queue and returns them assembled
least significant first; bytes the queue does not hold are free (R43, R93, R112, R323); how many the bridge still hands
out is the model's count (log 16). -/
def Obligations.PortReadTakes : Prop :=
  ∀ (s : State) (i : Inst) (off : BitVec 16) (e : EpIdx) (n : Nat),
    s.inst = some i → i.configured = true → Reaches s off n (.fifo e) →
    let op : Option Instr := match n with
      | 1 => some (.rd8 off)
      | 2 => some (.rd16 off)
      | 4 => some (.rd32 off)
      | _ => none
    ∃ o, op = some o
      ∧ (rxRoom s.dev e n = 0 → exec o s = .refused .lengthNotProgrammed)
      ∧ (0 < rxRoom s.dev e n → ∃ t v, exec o s = .next t ∧ t.dev.result = .value v ∧ v.toNat < 2 ^ (8 * n)
          ∧ (∀ k b, k < rxRoom s.dev e n → (tget s.dev.rxq e)[k]? = some b → (v >>> (8 * k)).setWidth 8 = b)
          ∧ t.inst = some { i with lowPower := lowPowerAfter s.dev.cfg.fifoVariant i.lowPower }
          ∧ tget t.dev.rxq e = (tget s.dev.rxq e).drop (rxRoom s.dev e n)
          ∧ (∀ f, f ≠ e → tget t.dev.rxq f = tget s.dev.rxq f)
          ∧ t.dev.txq = s.dev.txq ∧ t.dev.regs = s.dev.regs ∧ t.dev.mem = s.dev.mem ∧ t.dev.calls = s.dev.calls)

/-- The pseudo-operations reach the endpoint's register under both shim modes: what `EPWR` writes is the register's
content, what `EPRD` returns is the register's content, and only the sequence through `INDEX` leaves the endpoint there
(R63, R98 to R100). -/
def Obligations.EndpointAccessIsModeIndependent : Prop :=
  ∀ (s : State) (i : Inst) (k : EpReg) (e : EpIdx), s.dev.cfg.wf = true → s.inst = some i → i.configured = true →
    (Reg.epReg k e).present s.dev.cfg = true →
    let ix := if (flatAlias s.dev.cfg k).isSome then s.dev.regs.index else BitVec.ofNat 8 e.val
    (∀ v : BitVec 8, k = .txfifosz ∨ k = .rxfifosz → ∃ t, runOps (epwr8 s.dev.cfg e k v) s = .next t
        ∧ scopedContent t.dev k e = some (v.setWidth 32) ∧ t.dev.regs.index = ix)
    ∧ (∀ v : BitVec 16, k = .txfifoadd ∨ k = .rxfifoadd → ∃ t, runOps (epwr16 s.dev.cfg e k v) s = .next t
        ∧ scopedContent t.dev k e = some (v.setWidth 32) ∧ t.dev.regs.index = ix)
    ∧ (∀ v, scopedContent s.dev k e = some v →
        ∃ t, runOps (if k.width = 1 then eprd8 s.dev.cfg e k else eprd16 s.dev.cfg e k) s = .next t
          ∧ t.dev.result = .value v ∧ scopedContent t.dev k e = some v ∧ t.dev.regs.index = ix)

/-! ## The FIFO transfer engine (R110 to R121) -/

/-- R119: `WRFIFO` appends exactly the buffer's bytes to the endpoint's transmit queue and leaves host memory; `RDFIFO`
takes the first bytes off the receive queue and stores them in order, and no other byte of memory changes. On both
variants, for every buffer alignment. Where the queue holds fewer bytes, the ones it holds arrive in place and the
others are free (R112). -/
def Obligations.TransfersMoveExactlyTheBytes : Prop :=
  ∀ (s : State) (i : Inst) (e : EpIdx) (n : BitVec 16) (a : BitVec 32),
    s.dev.cfg.wf = true → s.dev.mem.wf = true → Ready s i → e.val < s.dev.cfg.numEps →
    countFits s.dev.cfg e n.toNat = true → allocated s.dev.regions a.toNat n.toNat = true →
    (n.toNat ≤ (tget i.ep e).maxPacketTx.toNat → ∃ t, exec (.wrfifo e n a) s = .next t
      ∧ tget t.dev.txq e = tget s.dev.txq e ++ (List.range n.toNat).map (fun k => s.dev.mem.read (a.toNat + k))
      ∧ (∀ f, f ≠ e → tget t.dev.txq f = tget s.dev.txq f) ∧ t.dev.rxq = s.dev.rxq
      ∧ ∀ x, t.dev.mem.read x = s.dev.mem.read x)
    ∧ (n.toNat ≤ (tget i.ep e).maxPacketRx.toNat → ∃ t, exec (.rdfifo e n a) s = .next t
      ∧ (∀ k b, k < n.toNat → (tget s.dev.rxq e)[k]? = some b → t.dev.mem.read (a.toNat + k) = b)
      ∧ (∀ x, ¬ (a.toNat ≤ x ∧ x < a.toNat + n.toNat) → t.dev.mem.read x = s.dev.mem.read x)
      ∧ tget t.dev.rxq e = (tget s.dev.rxq e).drop n.toNat
      ∧ (∀ f, f ≠ e → tget t.dev.rxq f = tget s.dev.rxq f) ∧ t.dev.txq = s.dev.txq)

/-- The frame of the engine (R121): no field of the instance or of an endpoint record changes but the low-power mode
(R238); of the registers only the side channel's, and that only on the bridge variant (R116); no callback, no
diagnostic. -/
def Obligations.FifoEngineFrame : Prop :=
  ∀ (s t : State) (i : Inst) (e : EpIdx) (n : BitVec 16) (a : BitVec 32), s.inst = some i →
    (exec (.wrfifo e n a) s = .next t →
      t.inst = some { i with lowPower := lowPowerAfter s.dev.cfg.fifoVariant i.lowPower }
      ∧ t.dev.calls = s.dev.calls ∧ t.dev.diags = s.dev.diags
      ∧ (s.dev.cfg.fifoVariant = .directBurst → t.dev.regs = s.dev.regs)
      ∧ (s.dev.cfg.fifoVariant = .bridgeWord → t.dev.regs =
          if e = 0 then { s.dev.regs with
            brEp0Conf := bit 32 s.dev.cfg.regMap.brEp0DirBit ||| n.setWidth 32 <<< s.dev.cfg.regMap.brEp0Len.low }
          else { s.dev.regs with
            brTxConf := tset s.dev.regs.brTxConf e (n.setWidth 32 <<< s.dev.cfg.regMap.brLen.low) }))
    ∧ (exec (.rdfifo e n a) s = .next t →
      t.inst = some { i with lowPower := lowPowerAfter s.dev.cfg.fifoVariant i.lowPower }
      ∧ t.dev.calls = s.dev.calls ∧ t.dev.diags = s.dev.diags
      ∧ (s.dev.cfg.fifoVariant = .directBurst → t.dev.regs = s.dev.regs)
      ∧ (s.dev.cfg.fifoVariant = .bridgeWord → t.dev.regs =
          if e = 0 then { s.dev.regs with brEp0Conf := n.setWidth 32 <<< s.dev.cfg.regMap.brEp0Len.low }
          else { s.dev.regs with
            brRxConf := tset s.dev.regs.brRxConf e (n.setWidth 32 <<< s.dev.cfg.regMap.brLen.low) }))

/-- On the direct variant the bus transactions of a transfer are the engine's alone, all of them go to the endpoint's
port (R35, R43), and their widths follow from the buffer's alignment (R113, whose exact counts the spec marks as its own
reading, D22). -/
def Obligations.DirectUnitsFollowAlignment : Prop :=
  ∀ (s t : State) (e : EpIdx) (n : BitVec 16) (a : BitVec 32), s.dev.cfg.fifoVariant = .directBurst →
    exec (.wrfifo e n a) s = .next t ∨ exec (.rdfifo e n a) s = .next t →
    ∃ new, t.dev.bus = s.dev.bus ++ new
      ∧ new.map BusEvent.engineWidth = (unitsByAlignment a.toNat n.toNat).map some
      ∧ ∀ i, s.inst = some i → ∀ ev ∈ new, ev.place = some (i.busAt (tget s.dev.cfg.regMap.fifo e))

/-- On the bridge variant the length is programmed once, first, into the record's configuration register, for endpoint
0 with the direction in the same register; then `ceil(n/4)` transactions of 32 bits follow, whatever the alignment
(R116 to R118). That the register's address is relative to the base is the model's reading (log 14). -/
def Obligations.BridgeProgramsLengthFirst : Prop :=
  ∀ (s t : State) (i : Inst) (e : EpIdx) (n : BitVec 16) (a : BitVec 32), s.inst = some i →
    s.dev.cfg.fifoVariant = .bridgeWord →
    (exec (.wrfifo e n a) s = .next t → ∃ new,
      t.dev.bus = s.dev.bus ++ .regWrite (i.busAt (tget i.ep e).brConfTx) 4
        (if e = 0 then bit 32 s.dev.cfg.regMap.brEp0DirBit ||| n.setWidth 32 <<< s.dev.cfg.regMap.brEp0Len.low
          else n.setWidth 32 <<< s.dev.cfg.regMap.brLen.low) :: new
      ∧ new.map BusEvent.engineWidth = List.replicate ((n.toNat + 3) / 4) (some 4))
    ∧ (exec (.rdfifo e n a) s = .next t → ∃ new,
      t.dev.bus = s.dev.bus ++ .regWrite (i.busAt (tget i.ep e).brConfRx) 4
        (n.setWidth 32 <<< (if e = 0 then s.dev.cfg.regMap.brEp0Len.low else s.dev.cfg.regMap.brLen.low)) :: new
      ∧ new.map BusEvent.engineWidth = List.replicate ((n.toNat + 3) / 4) (some 4))

/-- A transfer that violates a precondition is refused: the endpoint (R114, R115), the direction's max-packet size
(R110), the length field (R116), the buffer (R44). -/
def Obligations.TransferPreconditions : Prop :=
  ∀ (s : State) (i : Inst) (e : EpIdx) (n : BitVec 16) (a : BitVec 32), Ready s i →
    (s.dev.cfg.numEps ≤ e.val ∨ (tget i.ep e).maxPacketTx.toNat < n.toNat
      ∨ countFits s.dev.cfg e n.toNat = false ∨ allocated s.dev.regions a.toNat n.toNat = false →
        ∃ r, exec (.wrfifo e n a) s = .refused r)
    ∧ (s.dev.cfg.numEps ≤ e.val ∨ (tget i.ep e).maxPacketRx.toNat < n.toNat
      ∨ countFits s.dev.cfg e n.toNat = false ∨ allocated s.dev.regions a.toNat n.toNat = false →
        ∃ r, exec (.rdfifo e n a) s = .refused r)

/-- R120: with both queues empty and a loopback between them, writing and reading back returns the original bytes, for
every count up to the max-packet sizes, every pair of alignments, and both variants, and both queues end empty (the spec
derives R120 from R119; the loopback is R263's). -/
def Obligations.LoopbackReturnsTheBytes : Prop :=
  ∀ (s : State) (i : Inst) (e : EpIdx) (n : BitVec 16) (a b : BitVec 32),
    s.dev.cfg.wf = true → s.dev.mem.wf = true → Ready s i → e.val < s.dev.cfg.numEps →
    countFits s.dev.cfg e n.toNat = true →
    n.toNat ≤ (tget i.ep e).maxPacketTx.toNat → n.toNat ≤ (tget i.ep e).maxPacketRx.toNat →
    allocated s.dev.regions a.toNat n.toNat = true → allocated s.dev.regions b.toNat n.toNat = true →
    tget s.dev.txq e = [] → tget s.dev.rxq e = [] →
    ∃ t u, exec (.wrfifo e n a) s = .next t ∧ exec (.rdfifo e n b) (envMove (.loopback e) t) = .next u
      ∧ tget u.dev.txq e = [] ∧ tget u.dev.rxq e = []
      ∧ ∀ k < n.toNat, u.dev.mem.read (b.toNat + k) = s.dev.mem.read (a.toNat + k)

/-! ## The allocator (R130 to R149) -/

/-- R133, R148: the effective size is the highest power of two not above the request raised to 8; it is the request
itself for a power of two of at least 8, and 8 below that; any other request is ill-formed (R149). For requests above 8
that are no power of two the bounds rest on decision D25 (U1, conflict C1). -/
def Obligations.EffectiveSize : Prop :=
  ∀ req : BitVec 16,
    (∃ k, 3 ≤ k ∧ k ≤ 15 ∧ effSize req.toNat = 2 ^ k)
    ∧ effSize req.toNat ≤ max req.toNat 8 ∧ max req.toNat 8 < 2 * effSize req.toNat
    ∧ (∀ k, 3 ≤ k → req.toNat = 2 ^ k → effSize req.toNat = req.toNat)
    ∧ (req.toNat < 8 → effSize req.toNat = 8)
    ∧ (sizeOk req = false ↔ 8 < req.toNat ∧ ∀ k, req.toNat ≠ 2 ^ k)

/-- `CONFIGURE` on a ready controller that is not started completes wherever the parameters are well formed: with `Ok`
and a configured instance exactly when they fit, else with `ResourceExhausted` and an instance that is not configured;
the lock is released in both cases (R130, R134, R144, R145). An ill-formed table (R149) and a non-zero size descriptor
with a zero nibble (U8; log 22) are refused. -/
def Obligations.ConfigureSucceedsWhenItFits : Prop :=
  ∀ (s : State) (i : Inst), Ready s i → i.started = false →
    (s.dev.cfg.wf = true → i.cfgRole = s.dev.cfg.cfgRole →
      ∃ t j, exec .configure s = .next t ∧ t.inst = some j ∧ j.lock = .free
        ∧ (configurable s.dev.cfg = true → t.dev.result = .status .ok ∧ j.configured = true)
        ∧ (configurable s.dev.cfg = false →
            (∃ c, t.dev.result = .status (.resourceExhausted c)) ∧ j.configured = false))
    ∧ (s.dev.cfg.allocMode = .table → tableWf s.dev.cfg.fifoTable = false →
        exec .configure s = .refused .illFormedLayout)
    ∧ ∀ e : EpIdx, s.dev.cfg.allocMode = .discovered → 1 ≤ e.val → e.val < s.dev.cfg.numEps →
        let d := (tget s.dev.cfg.hwSizeDesc e).toNat
        d ≠ 0 → d % 16 = 0 ∨ d / 16 = 0 → exec .configure s = .refused .illFormedLayout

/-- A table-driven configure reports the first failing entry, the index before the footprint, and the bulk endpoint
only after the whole pass (R134, R139, R284). -/
def Obligations.ConfigureReportsFirstFailure : Prop :=
  ∀ (s t : State), s.dev.cfg.wf = true → s.dev.cfg.allocMode = .table → exec .configure s = .next t →
    (∀ pre c post, s.dev.cfg.fifoTable = pre ++ c :: post →
      (∀ d ∈ pre, d.ep.val < s.dev.cfg.numEps) → tableBytes pre ≤ s.dev.cfg.fifoRamBytes →
      (s.dev.cfg.numEps ≤ c.ep.val → t.dev.result = .status (.resourceExhausted .invalidIndex))
      ∧ (c.ep.val < s.dev.cfg.numEps → s.dev.cfg.fifoRamBytes < tableBytes (pre ++ [c]) →
          t.dev.result = .status (.resourceExhausted .tableOverflow)))
    ∧ (tableFits s.dev.cfg = true → (∃ i, s.inst = some i ∧ i.cfgRole.hostCapable = true) →
        hasBulk s.dev.cfg = false → t.dev.result = .status (.resourceExhausted .noBulkEndpoint))

/-- After a successful table-driven configure every entry is where it was placed: its size and offset are in the
endpoint record and, coded into the fields of the register map, in the size and offset registers, for the directions of
its style; the offset is the sum of the footprints before it (R132, R134 to R136, R138, R67, R68). -/
def Obligations.ConfigurePlacesEveryEntry : Prop :=
  ∀ (s t : State) (j : Inst), s.dev.cfg.wf = true → s.dev.cfg.allocMode = .table →
    exec .configure s = .next t → t.dev.result = .status .ok → t.inst = some j →
    (∀ pre c post, ep0Entry :: s.dev.cfg.fifoTable = pre ++ c :: post →
      let off := (pre.map footprint).sum
      let size := effSize c.maxpacket.toNat
      let m := s.dev.cfg.regMap
      let code := (size.log2 - 3) * 2 ^ m.szCode.low + (if c.depth = .double then 2 ^ m.szDouble else 0)
      let add := off / 8 * 2 ^ m.addOff.low
      j.epMask.getLsbD c.ep.val = true ∧ c.ep.val < j.nrEndpoints ∧ off % 8 = 0
      ∧ (c.style = .rxtx → (tget j.ep c.ep).sharedFifo = true)
      ∧ (c.style = .rxtx ∨ c.style = .tx →
          (tget j.ep c.ep).maxPacketTx.toNat = size ∧ (tget j.ep c.ep).txDouble = decide (c.depth = .double)
          ∧ (tget j.ep c.ep).fifoOffTx.toNat = off
          ∧ (tget t.dev.regs.txfifosz c.ep).toNat = code ∧ (tget t.dev.regs.txfifoadd c.ep).toNat = add)
      ∧ (c.style = .rxtx ∨ c.style = .rx →
          (tget j.ep c.ep).maxPacketRx.toNat = size ∧ (tget j.ep c.ep).rxDouble = decide (c.depth = .double)
          ∧ (tget j.ep c.ep).fifoOffRx.toNat = off
          ∧ (tget t.dev.regs.rxfifosz c.ep).toNat = code ∧ (tget t.dev.regs.rxfifoadd c.ep).toNat = add))
    ∧ (∀ e : EpIdx, e ≠ 0 → (∀ c ∈ s.dev.cfg.fifoTable, c.ep ≠ e) →
        tget j.ep e = EpRec.reset s.dev.cfg e ∧ j.epMask.getLsbD e.val = false)
    ∧ (∃ c ∈ ep0Entry :: s.dev.cfg.fifoTable, j.nrEndpoints = c.ep.val + 1)

/-- R22, R147: after a successful table-driven configure the byte ranges of all endpoint directions lie in the FIFO RAM
and no two overlap; the two directions of a shared FIFO are one range. -/
def Obligations.ConfiguredRangesAreDisjoint : Prop :=
  ∀ (s t : State) (j : Inst), s.dev.cfg.wf = true → s.dev.cfg.allocMode = .table →
    exec .configure s = .next t → t.dev.result = .status .ok → t.inst = some j →
    RangesInv s.dev.cfg j.ep

/-- R144: in a host-capable role a successful configure records the lowest endpoint whose two directions have at least
512 bytes; in `PeripheralOnly` none. -/
def Obligations.BulkEndpointIsTheFirst : Prop :=
  ∀ (s t : State) (j : Inst), exec .configure s = .next t → t.dev.result = .status .ok → t.inst = some j →
    (j.cfgRole.hostCapable = false → j.bulkEp = none)
    ∧ (j.cfgRole.hostCapable = true → ∃ e : EpIdx, j.bulkEp = some e ∧ 1 ≤ e.val ∧ e.val < j.nrEndpoints
        ∧ 512 ≤ (tget j.ep e).maxPacketTx.toNat ∧ 512 ≤ (tget j.ep e).maxPacketRx.toNat
        ∧ ∀ f : EpIdx, 1 ≤ f.val → f.val < e.val →
            ¬ (512 ≤ (tget j.ep f).maxPacketTx.toNat ∧ 512 ≤ (tget j.ep f).maxPacketRx.toNat))

/-- R140 to R142: the discovered pass finds the endpoints up to the first zero descriptor, decodes each one's sizes
from its nibbles (the nibble-to-bytes function is the spec's own choice, D27), leaves its double-buffer flags and offsets
clear, leaves the other endpoints absent, sets endpoint 0 from the invariant, and writes no size or offset register.
Descriptors with a zero nibble are no parameters (`Params.wf`, U8; log 22). -/
def Obligations.DiscoveryStopsAtZero : Prop :=
  ∀ (s t : State) (j : Inst), s.dev.cfg.wf = true → s.dev.cfg.allocMode = .discovered →
    exec .configure s = .next t → t.dev.result = .status .ok → t.inst = some j →
    (∀ e : EpIdx, 1 ≤ e.val → (e.val < j.nrEndpoints ↔ discovered s.dev.cfg e = true))
    ∧ (∀ e : EpIdx, discovered s.dev.cfg e = true →
        let d := tget s.dev.cfg.hwSizeDesc e
        let lo := 2 ^ (d.toNat % 16)
        let hi := d.toNat / 16
        j.epMask.getLsbD e.val = true
        ∧ (tget j.ep e).maxPacketTx.toNat = lo
        ∧ (tget j.ep e).maxPacketRx.toNat = (if hi = 15 then lo else 2 ^ hi)
        ∧ (tget j.ep e).sharedFifo = decide (hi = 15)
        ∧ (tget j.ep e).fifoOffTx = 0 ∧ (tget j.ep e).fifoOffRx = 0
        ∧ (tget j.ep e).txDouble = false ∧ (tget j.ep e).rxDouble = false)
    ∧ (∀ e : EpIdx, 1 ≤ e.val → discovered s.dev.cfg e = false →
        tget j.ep e = EpRec.reset s.dev.cfg e ∧ j.epMask.getLsbD e.val = false)
    ∧ (tget j.ep 0).maxPacketTx = 64 ∧ (tget j.ep 0).maxPacketRx = 64 ∧ (tget j.ep 0).sharedFifo = true
    ∧ t.dev.regs = { s.dev.regs with index := t.dev.regs.index }

/-- R146: a second `CONFIGURE` after a successful one completes and reproduces the same instance and the same
registers. -/
def Obligations.ConfigureTwiceIsTheSame : Prop :=
  ∀ s t : State, exec .configure s = .next t → t.dev.result = .status .ok →
    ∃ u, exec .configure t = .next u ∧ u.dev.result = .status .ok ∧ u.inst = t.inst ∧ u.dev.regs = t.dev.regs

/-- The frame of `CONFIGURE` (R130): of the instance only the endpoint table, its bitmask, count, bulk endpoint and
`configured` change (and the low-power mode, R238); of the registers only the four size and offset registers and
`INDEX`; no queue, no memory, no callback. -/
def Obligations.ConfigureFrame : Prop :=
  ∀ (s t : State) (i : Inst), exec .configure s = .next t → s.inst = some i →
    (∃ j : Inst, t.inst = some { i with
      ep := j.ep, epMask := j.epMask, nrEndpoints := j.nrEndpoints, bulkEp := j.bulkEp, configured := j.configured,
      lowPower := j.lowPower })
    ∧ t.dev.regs = { s.dev.regs with
        index := t.dev.regs.index, txfifosz := t.dev.regs.txfifosz, rxfifosz := t.dev.regs.rxfifosz,
        txfifoadd := t.dev.regs.txfifoadd, rxfifoadd := t.dev.regs.rxfifoadd }
    ∧ t.dev.txq = s.dev.txq ∧ t.dev.rxq = s.dev.rxq ∧ t.dev.mem = s.dev.mem ∧ t.dev.calls = s.dev.calls
    ∧ t.dev.diags = s.dev.diags

/-! ## Interrupt delivery (R160 to R195) -/

/-- A delivery on a ready controller always completes, with the lock free and a boolean result, whatever collaborators
do in their callbacks; it depletes and resets the retry budget as R168 and R180 say, where VBUS-error comes together with
another named event by decision D10 (U2; log 23); it leaves the endpoint table, the lifecycle flags, the enables, the
endpoint-scoped registers, the queues and host memory. A synthetic record outside allocated memory is refused (R44;
log 19). -/
def Obligations.DeliveryCompletes : Prop :=
  ∀ (s : State) (i : Inst) (src : SnapSource), s.dev.cfg.wf = true → Ready s i →
    (snapshotOf s src = none → exec (.irq src) s = .refused .notAllocated)
    ∧ (∀ snap, snapshotOf s src = some snap → ∃ t j b, exec (.irq src) s = .next t ∧ t.inst = some j
        ∧ t.dev.result = .handled b ∧ j.lock = .free
        ∧ j.vbuserrRetry = retryAfter s.dev.cfg.regMap i snap
        ∧ j.ep = i.ep ∧ j.epMask = i.epMask ∧ j.nrEndpoints = i.nrEndpoints ∧ j.bulkEp = i.bulkEp
        ∧ j.configured = i.configured ∧ j.started = i.started ∧ j.otgOverlayActive = i.otgOverlayActive
        ∧ j.idleTimer = i.idleTimer ∧ j.wakeEnables = i.wakeEnables
        ∧ t.dev.regs = { (captureDone s i src).dev.regs with
            power := t.dev.regs.power, devctl := t.dev.regs.devctl }
        ∧ t.dev.txq = s.dev.txq ∧ t.dev.rxq = s.dev.rxq ∧ t.dev.mem = s.dev.mem)

/-- The link state, the activity flag and the role latch after a delivery (R163 to R176, R185, R188, R189, R194): of
the stage-0 steps that write the link state the last wins; the latch is only ever set; suspend is decided after
disconnect, by the latch. Where the snapshot's role and the latch disagree this rests on decision D7 (U7; log 23). -/
def Obligations.DeliveryLinkStateAndRole : Prop :=
  ∀ (s : State) (i : Inst) (src : SnapSource) (snap : Snapshot), Ready s i → Quiet s → snapshotOf s src = some snap →
    ∃ t j, exec (.irq src) s = .next t ∧ t.inst = some j ∧ j.linkState = linkAfter s.dev.cfg.regMap i snap
      ∧ j.isActive = activeAfter s.dev.cfg.regMap i snap ∧ j.hostActive = hostAfter s.dev.cfg.regMap i snap

/-- The port-status word, the provisional speed and the control sub-state after a delivery: connect sets CONNECTION
and C_CONNECTION, clears the enable and speed bits and leaves the others, and takes the speed guess from the snapshot
(R172); session-request and connect reset the sub-state (R166, R171); the suppression flag and the permission are not
written (R183). -/
def Obligations.DeliveryPortStatus : Prop :=
  ∀ (s : State) (i : Inst) (src : SnapSource) (snap : Snapshot), s.dev.cfg.wf = true → Ready s i → Quiet s →
    snapshotOf s src = some snap →
    let m := s.dev.cfg.regMap
    ∃ t j, exec (.irq src) s = .next t ∧ t.inst = some j
      ∧ (∀ k < 32, j.portStatus.getLsbD k =
          if snap.has m.usb.connect then
            if k = m.port.connection ∨ k = m.port.cConnection then true
            else if k = m.port.enable ∨ k = m.port.lowSpeed ∨ k = m.port.highSpeed then false
            else i.portStatus.getLsbD k
          else i.portStatus.getLsbD k)
      ∧ j.provisionalLowSpeed = (if snap.has m.usb.connect then snap.devctl.getLsbD m.dc.lsdev
          else i.provisionalLowSpeed)
      ∧ j.ctrlSubstate = (if snap.has m.usb.connect || sessionRequested m i snap then .idle else i.ctrlSubstate)
      ∧ j.ignoreDisconnect = i.ignoreDisconnect ∧ j.hnpPermitted = i.hnpPermitted

/-- The registers after a delivery (R161, R164, R195): the capture's read-to-clear with the live source; `POWER` written
by a host-role resume from the snapshot's power byte, suspend clear and resume set; `DEVCTL` written with only the
session bit set when a session is started; hardware-driven bits survive both (of `POWER`: log 13). Nothing else. The
session write of a VBUS-error beside another named event rests on D10 (U2), the role of a resume in deliveries whose latch
disagrees on D7 (U7; log 23). -/
def Obligations.DeliveryRegisters : Prop :=
  ∀ (s : State) (i : Inst) (src : SnapSource) (snap : Snapshot), s.dev.cfg.wf = true → Ready s i → Quiet s →
    snapshotOf s src = some snap →
    let m := s.dev.cfg.regMap
    ∃ t, exec (.irq src) s = .next t
      ∧ t.dev.regs = { (captureDone s i src).dev.regs with power := t.dev.regs.power, devctl := t.dev.regs.devctl }
      ∧ (∀ k < 8, t.dev.regs.power.getLsbD k =
          if hostResumed m snap then
            if k = m.pw.reset ∨ k = m.pw.hsmode then s.dev.regs.power.getLsbD k
            else if k = m.pw.resume then true
            else if k = m.pw.suspendm then false
            else snap.power.getLsbD k
          else s.dev.regs.power.getLsbD k)
      ∧ (∀ k < 8, t.dev.regs.devctl.getLsbD k =
          if sessionWritten m i snap then
            if k = m.dc.session then true
            else if k = m.dc.hostreq then false
            else s.dev.regs.devctl.getLsbD k
          else s.dev.regs.devctl.getLsbD k)

/-- The callbacks of a delivery, in their fixed order (R284): resume; connect; bus reset and overlay site B; endpoint 0;
endpoints 1 to N-1; disconnect by the latch and overlay site A; suspend (R173, R178, R179, R181, R182, R184, R186, R188,
R221, R222). No other callback is made. Of endpoints 1 to N-1 each kind comes in ascending order and receive before
transmit of one endpoint; nothing is said of a receive and a transmit callback of two endpoints (D12). Deliveries that
select a stub (U6) or whose role and latch disagree (U7, D7) follow the rules (log 23). -/
def Obligations.DeliveryCallbacks : Prop :=
  ∀ (s : State) (i : Inst) (src : SnapSource) (snap : Snapshot), s.dev.cfg.wf = true → Ready s i → Quiet s →
    s.dev.cfg.siteAExtra = [] → snapshotOf s src = some snap →
    ∃ t eps, exec (.irq src) s = .next t ∧ EndpointCallsOf s.dev.cfg snap eps
      ∧ t.dev.calls.map CallRecord.call = s.dev.calls.map CallRecord.call ++ callsBefore s.dev.cfg i snap ++ eps
          ++ callsAfter s.dev.cfg i snap t.dev.regs.devctl t.dev.regs.power

/-- The diagnostics and the result of a delivery (R162, R176, R177, R274, R292): connect in an unexpected state, babble,
spurious when no step matched; `handled` exactly when some step matched. Babble by the snapshot's role where the latch
disagrees rests on D7 (U7), and bits of no endpoint and the unnamed global bit count as unmatched by D11 and D12 (U5;
log 23). -/
def Obligations.DeliveryDiagnostics : Prop :=
  ∀ (s : State) (i : Inst) (src : SnapSource) (snap : Snapshot), Ready s i → Quiet s → snapshotOf s src = some snap →
    ∃ t, exec (.irq src) s = .next t
      ∧ t.dev.result = .handled (recognised s.dev.cfg i snap)
      ∧ t.dev.diags = s.dev.diags ++ deliveryDiags s.dev.cfg i snap

/-- R192 (which the spec derives from R160 and R170 to R176): when an endpoint callback of a delivery is appended to the
trace, the link state, the role latch, the activity flag and the port status already hold their post-stage-0 values, and
a connect's root-port callback is earlier in the trace. The values of a host resume whose latch disagrees with the
snapshot rest on D7 (U7; log 23). -/
def Obligations.RoleIsAppliedBeforeEndpointDispatch : Prop :=
  ∀ (s t : State) (i : Inst) (src : SnapSource) (snap : Snapshot), Ready s i → Quiet s → snapshotOf s src = some snap →
    exec (.irq src) s = .next t →
    ∀ pre r post, t.dev.calls = s.dev.calls ++ pre ++ r :: post → r.call.isEndpoint = true →
      (∃ v, r.seen = some v ∧ v.linkState = linkAfter s.dev.cfg.regMap i snap
        ∧ v.hostActive = hostAfter s.dev.cfg.regMap i snap
        ∧ v.isActive = activeAfterStage0 s.dev.cfg.regMap i snap
        ∧ v.portStatus = (if snap.has s.dev.cfg.regMap.usb.connect then connectPort s.dev.cfg.regMap i.portStatus
            else i.portStatus))
      ∧ (snap.has s.dev.cfg.regMap.usb.connect = true → Callback.hostRootPort ∈ pre.map CallRecord.call)

/-- From §8 (R168): three consecutive VBUS-error-only snapshots deplete a budget of 2: the first two each make exactly
one register write, of `DEVCTL` with the session bit alone, and the third makes none; and each leaves the link in
A-IDLE. -/
def Obligations.ThreeVbusErrorsDepleteTheBudget : Prop :=
  ∀ (s : State) (i : Inst) (a : BitVec 32) (snap : Snapshot), s.dev.cfg.wf = true → Ready s i → Quiet s →
    snapshotOf s (.synthetic a) = some snap → snap.usb = bit 8 s.dev.cfg.regMap.usb.vbusErr → i.vbuserrRetry = 2 →
    let start := BusEvent.regWrite (i.busAt s.dev.cfg.regMap.devctl) 1
      ((bit 8 s.dev.cfg.regMap.dc.session).setWidth 32)
    ∃ t u v i1 i2 i3 bt bu bv, exec (.irq (.synthetic a)) s = .next t ∧ exec (.irq (.synthetic a)) t = .next u
      ∧ exec (.irq (.synthetic a)) u = .next v
      ∧ t.dev.bus = s.dev.bus ++ bt ∧ bt.filter BusEvent.isWrite = [start]
      ∧ u.dev.bus = t.dev.bus ++ bu ∧ bu.filter BusEvent.isWrite = [start]
      ∧ v.dev.bus = u.dev.bus ++ bv ∧ bv.filter BusEvent.isWrite = []
      ∧ t.inst = some i1 ∧ i1.vbuserrRetry = 1 ∧ i1.linkState = .aIdle
      ∧ t.dev.regs.devctl.getLsbD s.dev.cfg.regMap.dc.session = true
      ∧ u.inst = some i2 ∧ i2.vbuserrRetry = 0 ∧ i2.linkState = .aIdle
      ∧ u.dev.regs.devctl.getLsbD s.dev.cfg.regMap.dc.session = true
      ∧ v.inst = some i3 ∧ i3.vbuserrRetry = 0 ∧ i3.linkState = .aIdle
      ∧ v.dev.regs = u.dev.regs

/-- R177, R337: a babble (reset bit alone, in host role) is logged and handled, and changes nothing else: the state is
what the capture leaves, with the diagnostic and the result. It does reset the budget (R180). Where the latch disagrees
with the snapshot's host bit, that it is a babble and no bus reset rests on D7 (U7; log 23). -/
def Obligations.BabbleIsOnlyLogged : Prop :=
  ∀ (s : State) (i : Inst) (src : SnapSource) (snap : Snapshot), s.dev.cfg.wf = true → Ready s i →
    snapshotOf s src = some snap → snap.usb = bit 8 s.dev.cfg.regMap.usb.reset → snap.tx = 0 → snap.rx = 0 →
    snap.host s.dev.cfg.regMap = true → s.dev.cfg.siteAExtra = [] → i.vbuserrRetry = 2 →
    exec (.irq src) s = .next { captureDone s i src with dev := { (captureDone s i src).dev with
      diags := s.dev.diags ++ [.babble], result := .handled true } }

/-- R162, R274: a delivery no step of which matches is reported as spurious and otherwise ignored: the state is what the
capture leaves, with the diagnostic, the result 0, and the budget R180 gives. -/
def Obligations.SpuriousDeliveryIsIgnored : Prop :=
  ∀ (s : State) (i : Inst) (src : SnapSource) (snap : Snapshot), s.dev.cfg.wf = true → Ready s i →
    snapshotOf s src = some snap → recognised s.dev.cfg i snap = false →
    ∃ j, (captureDone s i src).inst = some j
      ∧ exec (.irq src) s = .next
          { inst := some { j with vbuserrRetry := retryAfter s.dev.cfg.regMap i snap }
            dev := { (captureDone s i src).dev with
              diags := s.dev.diags ++ [.spurious], result := .handled false } }

/-- R283 (decision D37): a delivery does not look at the enable registers: with other enables it does the same and leaves them. -/
def Obligations.DeliveryIgnoresEnables : Prop :=
  ∀ (s t : State) (src : SnapSource) (a : BitVec 8) (b c : BitVec 16), exec (.irq src) s = .next t →
    exec (.irq src) (s.withEnables a b c) = .next (t.withEnables a b c)

/-! ## Start, stop, queries (R200 to R211) -/

/-- `START` always completes on a ready controller: the transmit enables are the endpoint bitmask, the receive enables
the same without bit 0, the global enables the default set (R201); test mode is cleared (R202); `SESSION` is set in a
host-capable role and cleared otherwise, every other bit of `DEVCTL` as it was (R203); soft-connect and the high-speed
bit of `POWER` are set, the others as they were (R202; unless a collaborator clears resume signalling inside
`board.enable()`, R261); of the instance only the overlay flag and `started` are written (R200, R204; and the bridge's
mode, R238); the one callback is `board.enable()`; status registers, endpoint-scoped registers, queues and memory
stay. -/
def Obligations.StartProgramsTheController : Prop :=
  ∀ (s : State) (i : Inst), s.dev.cfg.wf = true → Ready s i →
    ∃ t j, exec .start s = .next t ∧ t.inst = some j
      ∧ t.dev.regs = { s.dev.regs with
          intrtxe := i.epMask, intrrxe := i.epMask &&& 0xFFFE#16, intrusbe := s.dev.cfg.defaultUsbIntr, testmode := 0,
          power := t.dev.regs.power, devctl := t.dev.regs.devctl }
      ∧ (∀ k < 8, t.dev.regs.devctl.getLsbD k =
          if k = s.dev.cfg.regMap.dc.session then i.cfgRole.hostCapable else s.dev.regs.devctl.getLsbD k)
      ∧ (Quiet s → (∀ k < 8, t.dev.regs.power.getLsbD k =
            if k = s.dev.cfg.regMap.pw.softconn ∨ k = s.dev.cfg.regMap.pw.hsenab then true
            else s.dev.regs.power.getLsbD k)
          ∧ j = { i with
            otgOverlayActive := s.dev.cfg.otgOverlayPresent && decide (i.cfgRole = .otg), started := true,
            lowPower := lowPowerAfter s.dev.cfg.fifoVariant i.lowPower })
      ∧ j.started = true ∧ j.otgOverlayActive = (s.dev.cfg.otgOverlayPresent && decide (i.cfgRole = .otg))
      ∧ j.lock = .free ∧ j.isActive = i.isActive ∧ j.vbuserrRetry = i.vbuserrRetry ∧ j.ep = i.ep
      ∧ t.dev.calls.map CallRecord.call = s.dev.calls.map CallRecord.call ++ [.boardEnable]
      ∧ t.dev.txq = s.dev.txq ∧ t.dev.rxq = s.dev.rxq ∧ t.dev.mem = s.dev.mem ∧ t.dev.result = .none

/-- `STOP` always completes on a configured controller, whoever holds the lock (R207): the three enables and the
software bits of `DEVCTL` are 0, the three status registers are drained, so the interrupt line is not asserted (R205,
R206); the overlay and `started` are cleared; the one callback is `board.disable()`; the rest stays. The line, as R281
reconstructs its equation (D39), is asserted exactly while some latched status bit has its enable bit set. -/
def Obligations.StopQuietsTheController : Prop :=
  (∀ r : Regs, irqLine r = true ↔ ∃ k,
    (r.intrusb.getLsbD k = true ∧ r.intrusbe.getLsbD k = true)
    ∨ (r.intrtx.getLsbD k = true ∧ r.intrtxe.getLsbD k = true)
    ∨ (r.intrrx.getLsbD k = true ∧ r.intrrxe.getLsbD k = true))
  ∧ ∀ (s : State) (i : Inst), s.inst = some i → i.configured = true →
    ∃ t j, exec .stop s = .next t ∧ t.inst = some j
      ∧ t.dev.regs = { s.dev.regs with
          intrusbe := 0, intrtxe := 0, intrrxe := 0, intrusb := 0, intrtx := 0, intrrx := 0,
          power := t.dev.regs.power, devctl := t.dev.regs.devctl }
      ∧ (∀ k < 8, t.dev.regs.devctl.getLsbD k =
          if k = s.dev.cfg.regMap.dc.session ∨ k = s.dev.cfg.regMap.dc.hostreq then false
          else s.dev.regs.devctl.getLsbD k)
      ∧ irqLine t.dev.regs = false
      ∧ (Quiet s → t.dev.regs.power = s.dev.regs.power ∧ j = { i with
          otgOverlayActive := false, started := false, lowPower := lowPowerAfter s.dev.cfg.fifoVariant i.lowPower })
      ∧ j.started = false ∧ j.otgOverlayActive = false ∧ j.lock = i.lock ∧ j.ep = i.ep
      ∧ t.dev.calls.map CallRecord.call = s.dev.calls.map CallRecord.call ++ [.boardDisable]
      ∧ t.dev.txq = s.dev.txq ∧ t.dev.rxq = s.dev.rxq ∧ t.dev.mem = s.dev.mem ∧ t.dev.result = .none

/-- R210, R211: `GETMODE` returns the configured role's code, `GETCABLE` the name of the link state; neither changes
anything else. -/
def Obligations.QueriesReturnRoleAndState : Prop :=
  ∀ (s : State) (i : Inst), Ready s i →
    (∃ v : Word, exec .getmode s = .next { s with dev := { s.dev with result := .value v } }
      ∧ (i.cfgRole, v) ∈ [(Role.hostOnly, 0), (.peripheralOnly, 1), (.otg, 2)])
    ∧ ∃ x : String, exec .getcable s = .next { s with dev := { s.dev with result := .text x } }
      ∧ (i.linkState, x) ∈ [(LinkState.aIdle, "A-IDLE"), (.aWaitVrise, "A-WAIT-VRISE"), (.aWaitBcon, "A-WAIT-BCON"),
          (.aHost, "A-HOST"), (.aSuspend, "A-SUSPEND"), (.bIdle, "B-IDLE"), (.bPeripheral, "B-PERIPHERAL"),
          (.bHost, "B-HOST"), (.bWaitAcon, "B-WAIT-ACON"), (.error, "ERROR")]

/-! ## Idle and power (R230 to R239) -/

/-- R230 to R232, R239: on the bridge variant `TRYIDLE` disarms the timer of an active link and arms that of an
inactive one, without delay while host-active and with `IDLE_DELAY` otherwise; on the direct variant it does nothing. It
changes nothing else. -/
def Obligations.TryIdleArmsTheTimer : Prop :=
  ∀ (s : State) (i : Inst), Ready s i →
    exec .tryidle s = .next
      { inst := some (if s.dev.cfg.fifoVariant = .directBurst then i
          else { i with idleTimer :=
            if i.isActive then none else if i.hostActive then some 0 else some s.dev.cfg.idleDelay })
        dev := { s.dev with result := .none } }

/-- R233 to R235: the expiry of an armed timer, with the lock free, disarms it, enables the wake-up sources (link
disconnect only for an OTG controller) and enters the low-power mode, whether or not the link is active (R329). R237: an
event of an enabled source ends the mode; one of a source that is not enabled does not. Neither changes anything
else (of the wake-up event that is the model's choice, log 43). -/
def Obligations.TimerExpiryAndWakeEvents : Prop :=
  ∀ (s : State) (i : Inst) (rest : List Input), s.inst = some i → s.dev.cfg.fifoVariant = .bridgeWord →
    (∀ d, i.idleTimer = some d → i.lock = .free → s.dev.inbox = .env .timerExpiry :: rest →
      step s = .next
        { inst := some { i with
            idleTimer := none, lowPower := true,
            wakeEnables := ⟨true, true, true, decide (i.cfgRole = .otg)⟩ }
          dev := { s.dev with inbox := rest } })
    ∧ (∀ w, s.dev.inbox = .env (.wakeEvent w) :: rest →
      step s = .next
        { inst := some { i with lowPower := i.lowPower && !(match w with
            | .hostDisconnect => i.wakeEnables.hostDisconnect
            | .busActivity => i.wakeEnables.busActivity
            | .vbusChange => i.wakeEnables.vbusChange
            | .linkDisconnect => i.wakeEnables.linkDisconnect) }
          dev := { s.dev with inbox := rest } })

/-! ## Attach and detach (R300 to R306) -/

/-- R301: a role that is not compiled in, then a mismatch of allocator and silicon, is `UnsupportedConfiguration`; no
instance exists and nothing has been acquired. -/
def Obligations.AttachChecksSupport : Prop :=
  ∀ s : State, s.inst = none →
    (s.dev.cfg.cfgRole ∉ s.dev.cfg.rolesCompiled →
      exec .attach s = .next { s with dev :=
        { s.dev with result := .status (.unsupportedConfiguration .roleNotCompiled) } })
    ∧ (s.dev.cfg.cfgRole ∈ s.dev.cfg.rolesCompiled →
        ((s.dev.cfg.allocMode = .table ∧ s.dev.cfg.hwDynFifo = false)
          ∨ (s.dev.cfg.allocMode = .discovered ∧ s.dev.cfg.hwDynFifo = true)) →
      exec .attach s = .next { s with dev :=
        { s.dev with result := .status (.unsupportedConfiguration .allocatorMismatch) } })

/-- A failed memory-map request releases nothing; a failed interrupt-line request is followed by the release of the
memory map; a failed configure step by the release of the interrupt line and then the memory map. The first two are
`ResourceUnavailable`, the last `ResourceExhausted`; where the interrupt line fails and configure would fail too, which of
the two is reported is left open (R300, D35). No instance exists afterwards (R300, R302, R271, R275). -/
def Obligations.AttachReleasesInReverse : Prop :=
  ∀ s : State, s.dev.cfg.wf = true → s.inst = none → s.dev.cfg.cfgRole ∈ s.dev.cfg.rolesCompiled →
    (s.dev.cfg.allocMode = .table ↔ s.dev.cfg.hwDynFifo = true) →
    (s.dev.memmapOk = false → exec .attach s = .next { s with dev := { s.dev with
      calls := s.dev.calls ++ [⟨.requestMemmap, none⟩], result := .status .resourceUnavailable } })
    ∧ (s.dev.memmapOk = true → s.dev.irqOk = false → configurable s.dev.cfg = true →
      exec .attach s = .next { s with dev := { s.dev with
        calls := s.dev.calls ++ [⟨.requestMemmap, none⟩, ⟨.requestIrq, none⟩, ⟨.releaseMemmap, none⟩],
        result := .status .resourceUnavailable } })
    ∧ (s.dev.memmapOk = true → s.dev.irqOk = false → configurable s.dev.cfg = false →
      ∃ t st, exec .attach s = .next t ∧ t.inst = none ∧ t.dev.result = .status st
        ∧ st.kind ∈ [ErrorKind.resourceUnavailable, .resourceExhausted]
        ∧ (t.dev.calls.map CallRecord.call).getLast? = some .releaseMemmap)
    ∧ (s.dev.memmapOk = true → s.dev.irqOk = true → configurable s.dev.cfg = false →
      ∃ t c, exec .attach s = .next t ∧ t.inst = none ∧ t.dev.result = .status (.resourceExhausted c)
        ∧ t.dev.calls.map CallRecord.call = s.dev.calls.map CallRecord.call
            ++ [.requestMemmap, .requestIrq, .releaseIrq, .releaseMemmap])

/-- `ATTACH` with supported parameters that fit, both requests granted, creates an instance with the reset state of
R303, configured by R130, with empty queues, the two requests in the callback trace, and every register but those that
configure writes unspecified (R300, R303, R38). A `CONFIGURE` on the state it leaves completes with `Ok` and the same
instance and registers, so what configure establishes holds after `ATTACH` too (R304). -/
def Obligations.AttachCreatesTheInstance : Prop :=
  ∀ s : State, s.dev.cfg.wf = true → s.inst = none → s.dev.cfg.cfgRole ∈ s.dev.cfg.rolesCompiled →
    (s.dev.cfg.allocMode = .table ↔ s.dev.cfg.hwDynFifo = true) → s.dev.memmapOk = true → s.dev.irqOk = true →
    configurable s.dev.cfg = true →
    ∃ t j, exec .attach s = .next t ∧ t.inst = some j ∧ t.dev.result = .status .ok
      ∧ j.configured = true ∧ j.base = s.dev.cfg.baseAddr ∧ j.cfgRole = s.dev.cfg.cfgRole
      ∧ j.linkState = (if s.dev.cfg.cfgRole = .hostOnly then .aIdle else .bIdle)
      ∧ j.isActive = false ∧ j.hostActive = decide (s.dev.cfg.cfgRole = .hostOnly) ∧ j.vbuserrRetry = 2
      ∧ j.ignoreDisconnect = false ∧ j.ctrlSubstate = .idle ∧ j.portStatus = 0 ∧ j.provisionalLowSpeed = false
      ∧ j.hnpPermitted = false
      ∧ j.otgOverlayActive = (s.dev.cfg.otgOverlayPresent && decide (s.dev.cfg.cfgRole = .otg))
      ∧ j.lock = .free ∧ j.idleTimer = none ∧ j.lowPower = false ∧ j.wakeEnables = .empty ∧ j.started = false
      ∧ TableInv s.dev.cfg j
      ∧ (∀ e, tget t.dev.txq e = [] ∧ tget t.dev.rxq e = [])
      ∧ t.dev.calls = s.dev.calls ++ [⟨.requestMemmap, none⟩, ⟨.requestIrq, none⟩]
      ∧ t.dev.mem = s.dev.mem ∧ t.dev.diags = s.dev.diags
      ∧ ∃ u, exec .configure t = .next u ∧ u.dev.result = .status .ok ∧ u.inst = t.inst ∧ u.dev.regs = t.dev.regs

/-- `DETACH` on an instance whose lock is free destroys it, releasing the interrupt line and then the memory map, and
changes nothing else; it is refused while an endpoint is mid-transfer, which it is at least whenever a queue is not
empty (R305). -/
def Obligations.DetachDestroysTheInstance : Prop :=
  ∀ (s : State) (i : Inst), s.inst = some i → i.lock = .free →
    (s.dev.midTransfer = false → (∀ e, tget s.dev.txq e = [] ∧ tget s.dev.rxq e = []) →
      ∃ t, exec .detach s = .next t
        ∧ t.dev.calls.map CallRecord.call = s.dev.calls.map CallRecord.call ++ [.releaseIrq, .releaseMemmap]
        ∧ t = { inst := none, dev := { s.dev with calls := t.dev.calls, result := .none } })
    ∧ (s.dev.midTransfer = true ∨ (∃ e, tget s.dev.txq e ≠ [] ∨ tget s.dev.rxq e ≠ []) →
        exec .detach s = .refused .midTransfer)

end ObligationsOfSliceZero
end

