-- ==== Sys2Proof/Laws/Memory.lean ====
section
/-! SUPPORT. The basic laws of the sixteen-slot tables, of host memory and of byte order. -/

namespace Sys2Proof

@[simp] theorem tget_tset_same {α : Type} (v : Vector α 16) (e : EpIdx) (x : α) : tget (tset v e x) e = x := by
  simp [tget, tset]

theorem tget_tset_ne {α : Type} (v : Vector α 16) {e f : EpIdx} (x : α) (h : f ≠ e) :
    tget (tset v e x) f = tget v f := by
  have : e.val ≠ f.val := fun hh => h (Fin.ext hh.symm)
  simp [tget, tset, this]

/-- Two tables with the same entries are equal. -/
theorem table_ext {α : Type} {v w : Vector α 16} (h : ∀ e, tget v e = tget w e) : v = w := by
  apply Vector.ext
  intro i hi
  exact h ⟨i, hi⟩

@[simp] theorem tset_tget_same {α : Type} (v : Vector α 16) (e : EpIdx) : tset v e (tget v e) = v := by
  apply table_ext
  intro f
  by_cases h : f = e
  · subst h; simp
  · rw [tget_tset_ne _ _ h]

@[simp] theorem tset_tset {α : Type} (v : Vector α 16) (e : EpIdx) (x y : α) : tset (tset v e x) e y = tset v e y := by
  apply table_ext
  intro f
  by_cases h : f = e
  · subst h; simp
  · rw [tget_tset_ne _ _ h, tget_tset_ne _ _ h, tget_tset_ne _ _ h]

namespace Machine

/-! ## One byte of host memory -/

theorem Memory.wfFrom_mono {m : Memory} {lo lo' : Nat} (h : lo' ≤ lo) (hm : Memory.wfFrom lo m = true) :
    Memory.wfFrom lo' m = true := by
  cases m with
  | nil => rfl
  | cons c rest =>
    obtain ⟨b, w⟩ := c
    simp only [Memory.wfFrom, Bool.and_eq_true, decide_eq_true_eq] at hm ⊢
    exact ⟨⟨⟨by omega, hm.1.1.2⟩, hm.1.2⟩, hm.2⟩

/-- Below the lowest listed address everything reads as unwritten. -/
theorem Memory.read_below {m : Memory} {lo a : Nat} (hm : Memory.wfFrom lo m = true) (h : a < lo) :
    m.read a = Memory.unwritten := by
  cases m with
  | nil => rfl
  | cons c rest =>
    obtain ⟨b, w⟩ := c
    simp only [Memory.wfFrom, Bool.and_eq_true, decide_eq_true_eq] at hm
    have h1 : a ≠ b := by omega
    have h2 : a < b := by omega
    simp [Memory.read, h1, h2]

/-- A write keeps the canonical form. -/
theorem Memory.write_wfFrom {m : Memory} {lo a : Nat} {v : Byte} (hm : Memory.wfFrom lo m = true) (hlo : lo ≤ a)
    (ha : a < 2 ^ 32) : Memory.wfFrom lo (m.write a v) = true := by
  induction m generalizing lo with
  | nil =>
    simp only [Memory.write]
    split
    · rfl
    · simp_all [Memory.wfFrom, Memory.unwritten]
  | cons c rest ih =>
    obtain ⟨b, w⟩ := c
    simp only [Memory.wfFrom, Bool.and_eq_true, decide_eq_true_eq] at hm
    obtain ⟨⟨⟨h1, h2⟩, h3⟩, h4⟩ := hm
    simp only [Memory.write]
    split
    · split
      · simp only [Memory.wfFrom, Bool.and_eq_true, decide_eq_true_eq]; exact ⟨⟨⟨h1, h2⟩, h3⟩, h4⟩
      · rename_i hlt hv
        simp only [Memory.wfFrom, Bool.and_eq_true, decide_eq_true_eq]
        exact ⟨⟨⟨hlo, ha⟩, hv⟩, ⟨⟨by omega, h2⟩, h3⟩, h4⟩
    · split
      · rename_i heq
        split
        · exact Memory.wfFrom_mono (by omega) h4
        · rename_i hv
          simp only [Memory.wfFrom, Bool.and_eq_true, decide_eq_true_eq]
          subst heq
          exact ⟨⟨⟨hlo, ha⟩, hv⟩, h4⟩
      · simp only [Memory.wfFrom, Bool.and_eq_true, decide_eq_true_eq]
        exact ⟨⟨⟨h1, h2⟩, h3⟩, ih h4 (by omega)⟩

theorem Memory.write_wf {m : Memory} {a : Nat} {v : Byte} (hm : m.wf = true) (ha : a < 2 ^ 32) :
    (m.write a v).wf = true := Memory.write_wfFrom hm (Nat.zero_le _) ha

theorem Memory.read_write_from {m : Memory} {lo a x : Nat} {v : Byte} (hm : Memory.wfFrom lo m = true) :
    (m.write a v).read x = if x = a then v else m.read x := by
  induction m generalizing lo with
  | nil =>
    simp only [Memory.write]
    split
    · rename_i h; subst h; simp [Memory.read]
    · simp [Memory.read]
  | cons c rest ih =>
    obtain ⟨b, w⟩ := c
    simp only [Memory.wfFrom, Bool.and_eq_true, decide_eq_true_eq] at hm
    obtain ⟨⟨⟨h1, h2⟩, h3⟩, h4⟩ := hm
    simp only [Memory.write]
    split
    · rename_i hlt
      split
      · rename_i hv
        by_cases hx : x = a
        · subst hx
          have h5 : x ≠ b := by omega
          simp [Memory.read, h5, hlt, hv]
        · simp [hx]
      · by_cases hx : x = a
        · simp [Memory.read, hx]
        · by_cases hx2 : x < a
          · have h5 : x ≠ b := by omega
            have h6 : x < b := by omega
            simp [Memory.read, hx, hx2, h5, h6]
          · simp [Memory.read, hx, hx2]
    · split
      · rename_i heq
        split
        · rename_i hv
          by_cases hx : x = a
          · subst hx
            simp [hv, Memory.read_below h4 (show x < b + 1 by omega)]
          · by_cases hx2 : x < b
            · have h5 : x ≠ b := by omega
              rw [Memory.read_below h4 (by omega)]
              simp [Memory.read, hx, hx2, h5]
            · have h5 : x ≠ b := by omega
              simp [Memory.read, hx, hx2, h5]
        · by_cases hx : x = a
          · simp [Memory.read, hx]
          · have h5 : x ≠ b := by omega
            subst heq
            simp [Memory.read, hx]
      · rename_i hnlt hne
        simp only [Memory.read, ih h4]
        by_cases hx : x = a
        · subst hx
          simp [hne, hnlt]
        · simp [hx]

/-- Reading any address after a write: the written byte there, the old byte elsewhere. -/
theorem Memory.read_write {m : Memory} {a x : Nat} {v : Byte} (hm : m.wf = true) :
    (m.write a v).read x = if x = a then v else m.read x := Memory.read_write_from hm

/-! ## Several bytes -/

@[simp] theorem Memory.readBytes_length (m : Memory) (a n : Nat) : (m.readBytes a n).length = n := by
  induction n generalizing a with
  | zero => rfl
  | succ n ih => simp [Memory.readBytes, ih]

theorem Memory.readBytes_getElem (m : Memory) (a n k : Nat) (h : k < (m.readBytes a n).length) :
    (m.readBytes a n)[k] = m.read (a + k) := by
  induction n generalizing a k with
  | zero => simp at h
  | succ n ih =>
    cases k with
    | zero => simp [Memory.readBytes]
    | succ k =>
      have h' : k < (m.readBytes (a + 1) n).length := by simp at h ⊢; omega
      simp only [Memory.readBytes, List.getElem_cons_succ]
      rw [ih _ _ h']
      congr 1; omega

theorem Memory.readBytes_add (m : Memory) (a j k : Nat) :
    m.readBytes a (j + k) = m.readBytes a j ++ m.readBytes (a + j) k := by
  induction j generalizing a with
  | zero => simp [Memory.readBytes]
  | succ j ih =>
    have h1 : j + 1 + k = (j + k) + 1 := by omega
    have h2 : a + (j + 1) = a + 1 + j := by omega
    rw [h1, h2]
    simp [Memory.readBytes, ih]

/-- Stores of allocated bytes keep the canonical form. -/
theorem Memory.writeBytes_wf {m : Memory} {a : Nat} {l : List Byte} (hm : m.wf = true)
    (ha : l ≠ [] → a + l.length ≤ 2 ^ 32) : (m.writeBytes a l).wf = true := by
  induction l generalizing m a with
  | nil => exact hm
  | cons b l ih =>
    have h := ha (by simp)
    simp only [List.length_cons] at h
    exact ih (Memory.write_wf hm (by omega)) (fun _ => by omega)

/-- Reading any address after a store of several bytes. -/
theorem Memory.read_writeBytes {m : Memory} {a x : Nat} {l : List Byte} (hm : m.wf = true)
    (ha : l ≠ [] → a + l.length ≤ 2 ^ 32) :
    (m.writeBytes a l).read x = if h : a ≤ x ∧ x < a + l.length then l[x - a] else m.read x := by
  induction l generalizing m a with
  | nil =>
    have : ¬ (a ≤ x ∧ x < a + ([] : List Byte).length) := by simp
    rw [dif_neg this]
    rfl
  | cons b l ih =>
    have ha := ha (by simp)
    simp only [List.length_cons] at ha
    have hw := Memory.write_wf (v := b) hm (show a < 2 ^ 32 by omega)
    simp only [Memory.writeBytes]
    rw [ih hw (fun _ => by omega), Memory.read_write hm]
    by_cases h1 : a + 1 ≤ x ∧ x < a + 1 + l.length
    · have h2 : a ≤ x ∧ x < a + (b :: l).length := by simp; omega
      simp only [h1, h2, and_self, dite_true]
      have : x - a = (x - (a + 1)) + 1 := by omega
      simp [this]
    · by_cases hx : x = a
      · subst hx
        simp
      · have h2 : ¬ (a ≤ x ∧ x < a + (b :: l).length) := by simp; omega
        rw [dif_neg h1, dif_neg h2, if_neg hx]

/-! ## Allocation (R44) -/

theorem allocated_bound {rs : List Region} {a n : Nat} (h : allocated rs a n = true) (hn : 0 < n) :
    a + n ≤ 2 ^ 32 := by
  induction n generalizing a with
  | zero => omega
  | succ n ih =>
    simp only [allocated, Bool.and_eq_true] at h
    obtain ⟨h1, h2⟩ := h
    simp only [allocatedAt, Bool.and_eq_true, decide_eq_true_eq] at h1
    cases n with
    | zero => omega
    | succ n => have := ih h2 (by omega); omega

theorem allocated_split {rs : List Region} {a j k : Nat} :
    allocated rs a (j + k) = (allocated rs a j && allocated rs (a + j) k) := by
  induction j generalizing a with
  | zero => simp [allocated]
  | succ j ih =>
    have h1 : j + 1 + k = (j + k) + 1 := by omega
    have h2 : a + (j + 1) = a + 1 + j := by omega
    rw [h1, h2]
    simp [allocated, ih, Bool.and_assoc]

/-! ## Byte order (R45) -/

@[simp] theorem bytesOf_length (n : Nat) (v : Word) : (bytesOf n v).length = n := by
  induction n generalizing v with
  | zero => rfl
  | succ n ih => simp [bytesOf, ih]

@[simp] theorem freeBytes_length (d m : Nat) : (freeBytes d m).length = m := by simp [freeBytes]

/-- Assembling up to four bytes and taking them apart again gives the bytes. -/
theorem bytesOf_wordOf (l : List Byte) (h : l.length ≤ 4) : bytesOf l.length (wordOf l) = l := by
  have step : ∀ (b : Byte) (w : Word), w.toNat < 2 ^ 24 →
      ((b.setWidth 32 ||| (w <<< 8)).setWidth 8 : Byte) = b ∧ (b.setWidth 32 ||| (w <<< 8)) >>> 8 = w := by
    intro b w hw
    constructor
    · apply BitVec.eq_of_getLsbD_eq
      intro i hi
      simp only [BitVec.getLsbD_setWidth, BitVec.getLsbD_or, BitVec.getLsbD_shiftLeft]
      simp [hi]
      omega
    · apply BitVec.eq_of_getLsbD_eq
      intro i hi
      simp only [BitVec.getLsbD_ushiftRight, BitVec.getLsbD_or, BitVec.getLsbD_setWidth, BitVec.getLsbD_shiftLeft]
      have h1 : b.getLsbD (8 + i) = false := BitVec.getLsbD_of_ge _ _ (by omega)
      simp only [h1, Bool.and_false, Bool.false_or]
      have h2 : 8 + i - 8 = i := by omega
      rw [h2]
      by_cases h3 : 8 + i < 32
      · simp [h3]
      · have h4 : w.getLsbD i = false := by
          rw [BitVec.getLsbD]
          apply Nat.testBit_eq_false_of_lt
          calc w.toNat < 2 ^ 24 := hw
            _ ≤ 2 ^ i := Nat.pow_le_pow_right (by omega) (by omega)
        simp [h3, h4]
  have bound : ∀ (l : List Byte) (k : Nat), l.length ≤ k → k ≤ 4 → (wordOf l).toNat < 2 ^ (8 * k) := by
    intro l
    induction l with
    | nil => intro k _ _; simp [wordOf]
    | cons b l ih =>
      intro k hk hk4
      cases k with
      | zero => simp at hk
      | succ k =>
        simp only [List.length_cons] at hk
        have h1 := ih k (by omega) (by omega)
        simp only [wordOf, BitVec.toNat_or, BitVec.toNat_setWidth, BitVec.toNat_shiftLeft]
        apply Nat.or_lt_two_pow
        · have := b.isLt
          have h2 : (2 : Nat) ^ 8 ≤ 2 ^ (8 * (k + 1)) := Nat.pow_le_pow_right (by omega) (by omega)
          have h3 : b.toNat % 2 ^ 32 ≤ b.toNat := Nat.mod_le _ _
          omega
        · have h2 : (wordOf l).toNat <<< 8 < 2 ^ (8 * (k + 1)) := by
            rw [Nat.shiftLeft_eq]
            have : (2 : Nat) ^ (8 * (k + 1)) = 2 ^ (8 * k) * 2 ^ 8 := by rw [← Nat.pow_add]; congr 1
            rw [this]
            exact Nat.mul_lt_mul_of_pos_right h1 (by decide)
          exact Nat.lt_of_le_of_lt (Nat.mod_le _ _) h2
  induction l with
  | nil => rfl
  | cons b l ih =>
    simp only [List.length_cons] at h
    have h1 := bound l 3 (by omega) (by omega)
    have h2 := step b (wordOf l) (by simpa using h1)
    simp only [List.length_cons, bytesOf, wordOf, h2.1, h2.2]
    rw [ih (by omega)]

/-- The `j` low bytes of a value are the first of its `n` low bytes. -/
theorem bytesOf_take (n j : Nat) (v : Word) (h : j ≤ n) : (bytesOf n v).take j = bytesOf j v := by
  induction n generalizing j v with
  | zero =>
    have : j = 0 := by omega
    subst this; rfl
  | succ n ih =>
    cases j with
    | zero => simp [bytesOf]
    | succ j => simp [bytesOf, ih j (v >>> 8) (by omega)]

/-- Zeros above the bytes do not change a value. -/
theorem wordOf_append_zeros (l : List Byte) (k : Nat) : wordOf (l ++ List.replicate k 0) = wordOf l := by
  induction l with
  | nil =>
    show wordOf (List.replicate k 0) = 0
    induction k with
    | zero => rfl
    | succ k ih =>
      show BitVec.setWidth 32 0 ||| wordOf (List.replicate k 0) <<< 8 = 0
      rw [ih]
      rfl
  | cons b l ih =>
    show BitVec.setWidth 32 b ||| wordOf (l ++ List.replicate k 0) <<< 8 = _
    rw [ih]
    rfl

end Machine
/-- Host memory is in its canonical form after reset. -/
theorem reset_mem_wf : Sys2Proof.Machine.State.reset.dev.mem.wf = true := rfl

end Sys2Proof
end

