-- ==== Sys2Proof/Laws/State.lean ====
section
/-! SUPPORT. The small lemmas of the state's updates: what each leaves in each field, so that no proof unfolds a record
update. -/

namespace Sys2Proof.Machine

/-! ## Controllers as states -/

@[simp] theorem Ctl.toState_inst (c : Ctl) : c.toState.inst = some c.inst := rfl
@[simp] theorem Ctl.toState_dev (c : Ctl) : c.toState.dev = c.dev := rfl

theorem State.eq_toState {s : State} {i : Inst} (h : s.inst = some i) : s = Ctl.toState ⟨i, s.dev⟩ := by
  cases s; simp_all [Ctl.toState]

/-! ## Updates of a controller -/

@[simp] theorem Ctl.setLink_inst (c : Ctl) (l : LinkState): (c.setLink l).inst = { c.inst with linkState := l } := rfl
@[simp] theorem Ctl.setLink_dev (c : Ctl) (l : LinkState): (c.setLink l).dev = c.dev := rfl
@[simp] theorem Ctl.setActive_inst (c : Ctl) (b : Bool): (c.setActive b).inst = { c.inst with isActive := b } := rfl
@[simp] theorem Ctl.setActive_dev (c : Ctl) (b : Bool): (c.setActive b).dev = c.dev := rfl
@[simp] theorem Ctl.setRetry_inst (c : Ctl) (n : Nat): (c.setRetry n).inst = { c.inst with vbuserrRetry := n } := rfl
@[simp] theorem Ctl.setRetry_dev (c : Ctl) (n : Nat): (c.setRetry n).dev = c.dev := rfl
@[simp] theorem Ctl.forceHost_inst (c : Ctl) : (c.forceHost).inst = { c.inst with hostActive := true } := rfl
@[simp] theorem Ctl.forceHost_dev (c : Ctl) : (c.forceHost).dev = c.dev := rfl
@[simp] theorem Ctl.resetCtrl_inst (c : Ctl) : (c.resetCtrl).inst = { c.inst with ctrlSubstate := .idle } := rfl
@[simp] theorem Ctl.resetCtrl_dev (c : Ctl) : (c.resetCtrl).dev = c.dev := rfl
@[simp] theorem Ctl.takeLock_inst (c : Ctl) : (c.takeLock).inst = { c.inst with lock := .held } := rfl
@[simp] theorem Ctl.takeLock_dev (c : Ctl) : (c.takeLock).dev = c.dev := rfl
@[simp] theorem Ctl.dropLock_inst (c : Ctl) : (c.dropLock).inst = { c.inst with lock := .free } := rfl
@[simp] theorem Ctl.dropLock_dev (c : Ctl) : (c.dropLock).dev = c.dev := rfl
@[simp] theorem Ctl.withResult_inst (c : Ctl) (r : Result) : (c.withResult r).inst = c.inst := rfl
@[simp] theorem Ctl.withResult_dev (c : Ctl) (r : Result) : (c.withResult r).dev = { c.dev with result := r } := rfl
@[simp] theorem Ctl.diag_inst (c : Ctl) (t : Diag) : (c.diag t).inst = c.inst := rfl
@[simp] theorem Ctl.diag_dev (c : Ctl) (t : Diag) : (c.diag t).dev = { c.dev with diags := c.dev.diags ++ [t] } := rfl

/-! ## The traces -/

@[simp] theorem Dev.logBus_cfg (d : Dev) (ev : BusEvent) : (d.logBus ev).cfg = d.cfg := rfl
@[simp] theorem Dev.logBus_regs (d : Dev) (ev : BusEvent) : (d.logBus ev).regs = d.regs := rfl
@[simp] theorem Dev.logBus_txq (d : Dev) (ev : BusEvent) : (d.logBus ev).txq = d.txq := rfl
@[simp] theorem Dev.logBus_rxq (d : Dev) (ev : BusEvent) : (d.logBus ev).rxq = d.rxq := rfl
@[simp] theorem Dev.logBus_brTxLeft (d : Dev) (ev : BusEvent) : (d.logBus ev).brTxLeft = d.brTxLeft := rfl
@[simp] theorem Dev.logBus_brRxLeft (d : Dev) (ev : BusEvent) : (d.logBus ev).brRxLeft = d.brRxLeft := rfl
@[simp] theorem Dev.logBus_mem (d : Dev) (ev : BusEvent) : (d.logBus ev).mem = d.mem := rfl
@[simp] theorem Dev.logBus_regions (d : Dev) (ev : BusEvent) : (d.logBus ev).regions = d.regions := rfl
@[simp] theorem Dev.logBus_memmapOk (d : Dev) (ev : BusEvent) : (d.logBus ev).memmapOk = d.memmapOk := rfl
@[simp] theorem Dev.logBus_irqOk (d : Dev) (ev : BusEvent) : (d.logBus ev).irqOk = d.irqOk := rfl
@[simp] theorem Dev.logBus_midTransfer (d : Dev) (ev : BusEvent) : (d.logBus ev).midTransfer = d.midTransfer := rfl
@[simp] theorem Dev.logBus_cbScript (d : Dev) (ev : BusEvent) : (d.logBus ev).cbScript = d.cbScript := rfl
@[simp] theorem Dev.logBus_inbox (d : Dev) (ev : BusEvent) : (d.logBus ev).inbox = d.inbox := rfl
@[simp] theorem Dev.logBus_calls (d : Dev) (ev : BusEvent) : (d.logBus ev).calls = d.calls := rfl
@[simp] theorem Dev.logBus_diags (d : Dev) (ev : BusEvent) : (d.logBus ev).diags = d.diags := rfl
@[simp] theorem Dev.logBus_bus (d : Dev) (ev : BusEvent) : (d.logBus ev).bus = d.bus ++ [ev] := rfl
@[simp] theorem Dev.logBus_result (d : Dev) (ev : BusEvent) : (d.logBus ev).result = d.result := rfl
@[simp] theorem Dev.logBus_draws (d : Dev) (ev : BusEvent) : (d.logBus ev).draws = d.draws := rfl
@[simp] theorem Dev.logCall_cfg (d : Dev) (cb : Callback) (v : Option RoleView) :
    (d.logCall cb v).cfg = d.cfg := rfl
@[simp] theorem Dev.logCall_regs (d : Dev) (cb : Callback) (v : Option RoleView) :
    (d.logCall cb v).regs = d.regs := rfl
@[simp] theorem Dev.logCall_txq (d : Dev) (cb : Callback) (v : Option RoleView) :
    (d.logCall cb v).txq = d.txq := rfl
@[simp] theorem Dev.logCall_rxq (d : Dev) (cb : Callback) (v : Option RoleView) :
    (d.logCall cb v).rxq = d.rxq := rfl
@[simp] theorem Dev.logCall_brTxLeft (d : Dev) (cb : Callback) (v : Option RoleView) :
    (d.logCall cb v).brTxLeft = d.brTxLeft := rfl
@[simp] theorem Dev.logCall_brRxLeft (d : Dev) (cb : Callback) (v : Option RoleView) :
    (d.logCall cb v).brRxLeft = d.brRxLeft := rfl
@[simp] theorem Dev.logCall_mem (d : Dev) (cb : Callback) (v : Option RoleView) :
    (d.logCall cb v).mem = d.mem := rfl
@[simp] theorem Dev.logCall_regions (d : Dev) (cb : Callback) (v : Option RoleView) :
    (d.logCall cb v).regions = d.regions := rfl
@[simp] theorem Dev.logCall_memmapOk (d : Dev) (cb : Callback) (v : Option RoleView) :
    (d.logCall cb v).memmapOk = d.memmapOk := rfl
@[simp] theorem Dev.logCall_irqOk (d : Dev) (cb : Callback) (v : Option RoleView) :
    (d.logCall cb v).irqOk = d.irqOk := rfl
@[simp] theorem Dev.logCall_midTransfer (d : Dev) (cb : Callback) (v : Option RoleView) :
    (d.logCall cb v).midTransfer = d.midTransfer := rfl
@[simp] theorem Dev.logCall_cbScript (d : Dev) (cb : Callback) (v : Option RoleView) :
    (d.logCall cb v).cbScript = d.cbScript := rfl
@[simp] theorem Dev.logCall_inbox (d : Dev) (cb : Callback) (v : Option RoleView) :
    (d.logCall cb v).inbox = d.inbox := rfl
@[simp] theorem Dev.logCall_calls (d : Dev) (cb : Callback) (v : Option RoleView) :
    (d.logCall cb v).calls = d.calls ++ [⟨cb, v⟩] := rfl
@[simp] theorem Dev.logCall_diags (d : Dev) (cb : Callback) (v : Option RoleView) :
    (d.logCall cb v).diags = d.diags := rfl
@[simp] theorem Dev.logCall_bus (d : Dev) (cb : Callback) (v : Option RoleView) :
    (d.logCall cb v).bus = d.bus := rfl
@[simp] theorem Dev.logCall_result (d : Dev) (cb : Callback) (v : Option RoleView) :
    (d.logCall cb v).result = d.result := rfl
@[simp] theorem Dev.logCall_draws (d : Dev) (cb : Callback) (v : Option RoleView) :
    (d.logCall cb v).draws = d.draws := rfl

/-! ## Waking (R238): only the low-power mode changes -/

@[simp] theorem Ctl.wake_dev (c : Ctl) : c.wake.dev = c.dev := rfl
@[simp] theorem Ctl.wake_inst (c : Ctl) :
    c.wake.inst = { c.inst with lowPower := lowPowerAfter c.dev.cfg.fifoVariant c.inst.lowPower } := rfl
@[simp] theorem lowPowerAfter_direct (b : Bool) : lowPowerAfter .directBurst b = b := rfl
@[simp] theorem lowPowerAfter_bridge (b : Bool) : lowPowerAfter .bridgeWord b = false := rfl
@[simp] theorem lowPowerAfter_twice (v : FifoVariant) (b : Bool) :
    lowPowerAfter v (lowPowerAfter v b) = lowPowerAfter v b := by cases v <;> rfl

/-- On the direct variant nothing wakes (R239). -/
theorem Ctl.wake_direct {c : Ctl} (h : c.dev.cfg.fifoVariant = .directBurst) : c.wake = c := by simp [Ctl.wake, h]


end Sys2Proof.Machine
end

