-- ==== Sys2Proof/Laws/Frames.lean ====
section
/-! SUPPORT. What each shared operation leaves alone: FIFO ports, register side effects, bus transactions,
collaborators' moves and callbacks, field by field. -/

namespace Sys2Proof.Machine

/-! ## FIFO ports (R43): a push changes the transmit queue and its length count, a pop the receive queue, its count and
the draw counter -/

@[simp] theorem pushFifo_cfg (e : EpIdx) (n : Nat) (v : Word) (d : Dev) : (pushFifo e n v d).cfg = d.cfg := rfl
@[simp] theorem pushFifo_regs (e : EpIdx) (n : Nat) (v : Word) (d : Dev) : (pushFifo e n v d).regs = d.regs := rfl
@[simp] theorem pushFifo_rxq (e : EpIdx) (n : Nat) (v : Word) (d : Dev) : (pushFifo e n v d).rxq = d.rxq := rfl
@[simp] theorem pushFifo_brRxLeft (e : EpIdx) (n : Nat) (v : Word) (d : Dev) : (pushFifo e n v d).brRxLeft = d.brRxLeft := rfl
@[simp] theorem pushFifo_mem (e : EpIdx) (n : Nat) (v : Word) (d : Dev) : (pushFifo e n v d).mem = d.mem := rfl
@[simp] theorem pushFifo_regions (e : EpIdx) (n : Nat) (v : Word) (d : Dev) : (pushFifo e n v d).regions = d.regions := rfl
@[simp] theorem pushFifo_memmapOk (e : EpIdx) (n : Nat) (v : Word) (d : Dev) : (pushFifo e n v d).memmapOk = d.memmapOk := rfl
@[simp] theorem pushFifo_irqOk (e : EpIdx) (n : Nat) (v : Word) (d : Dev) : (pushFifo e n v d).irqOk = d.irqOk := rfl
@[simp] theorem pushFifo_midTransfer (e : EpIdx) (n : Nat) (v : Word) (d : Dev) : (pushFifo e n v d).midTransfer = d.midTransfer := rfl
@[simp] theorem pushFifo_cbScript (e : EpIdx) (n : Nat) (v : Word) (d : Dev) : (pushFifo e n v d).cbScript = d.cbScript := rfl
@[simp] theorem pushFifo_inbox (e : EpIdx) (n : Nat) (v : Word) (d : Dev) : (pushFifo e n v d).inbox = d.inbox := rfl
@[simp] theorem pushFifo_calls (e : EpIdx) (n : Nat) (v : Word) (d : Dev) : (pushFifo e n v d).calls = d.calls := rfl
@[simp] theorem pushFifo_diags (e : EpIdx) (n : Nat) (v : Word) (d : Dev) : (pushFifo e n v d).diags = d.diags := rfl
@[simp] theorem pushFifo_bus (e : EpIdx) (n : Nat) (v : Word) (d : Dev) : (pushFifo e n v d).bus = d.bus := rfl
@[simp] theorem pushFifo_result (e : EpIdx) (n : Nat) (v : Word) (d : Dev) : (pushFifo e n v d).result = d.result := rfl
@[simp] theorem pushFifo_draws (e : EpIdx) (n : Nat) (v : Word) (d : Dev) : (pushFifo e n v d).draws = d.draws := rfl
@[simp] theorem popFifo_cfg (e : EpIdx) (n : Nat) (d : Dev) : (popFifo e n d).cfg = d.cfg := rfl
@[simp] theorem popFifo_regs (e : EpIdx) (n : Nat) (d : Dev) : (popFifo e n d).regs = d.regs := rfl
@[simp] theorem popFifo_txq (e : EpIdx) (n : Nat) (d : Dev) : (popFifo e n d).txq = d.txq := rfl
@[simp] theorem popFifo_brTxLeft (e : EpIdx) (n : Nat) (d : Dev) : (popFifo e n d).brTxLeft = d.brTxLeft := rfl
@[simp] theorem popFifo_mem (e : EpIdx) (n : Nat) (d : Dev) : (popFifo e n d).mem = d.mem := rfl
@[simp] theorem popFifo_regions (e : EpIdx) (n : Nat) (d : Dev) : (popFifo e n d).regions = d.regions := rfl
@[simp] theorem popFifo_memmapOk (e : EpIdx) (n : Nat) (d : Dev) : (popFifo e n d).memmapOk = d.memmapOk := rfl
@[simp] theorem popFifo_irqOk (e : EpIdx) (n : Nat) (d : Dev) : (popFifo e n d).irqOk = d.irqOk := rfl
@[simp] theorem popFifo_midTransfer (e : EpIdx) (n : Nat) (d : Dev) : (popFifo e n d).midTransfer = d.midTransfer := rfl
@[simp] theorem popFifo_cbScript (e : EpIdx) (n : Nat) (d : Dev) : (popFifo e n d).cbScript = d.cbScript := rfl
@[simp] theorem popFifo_inbox (e : EpIdx) (n : Nat) (d : Dev) : (popFifo e n d).inbox = d.inbox := rfl
@[simp] theorem popFifo_calls (e : EpIdx) (n : Nat) (d : Dev) : (popFifo e n d).calls = d.calls := rfl
@[simp] theorem popFifo_diags (e : EpIdx) (n : Nat) (d : Dev) : (popFifo e n d).diags = d.diags := rfl
@[simp] theorem popFifo_bus (e : EpIdx) (n : Nat) (d : Dev) : (popFifo e n d).bus = d.bus := rfl
@[simp] theorem popFifo_result (e : EpIdx) (n : Nat) (d : Dev) : (popFifo e n d).result = d.result := rfl

/-! ## Register side effects (R46 to R48) -/

@[simp] theorem regReadEffect_cfg (r : Reg) (n : Nat) (d : Dev) : (regReadEffect r n d).cfg = d.cfg := by
  unfold regReadEffect; split <;> first | rfl | (split <;> rfl)
@[simp] theorem regReadEffect_txq (r : Reg) (n : Nat) (d : Dev) : (regReadEffect r n d).txq = d.txq := by
  unfold regReadEffect; split <;> first | rfl | (split <;> rfl)
@[simp] theorem regReadEffect_brTxLeft (r : Reg) (n : Nat) (d : Dev) : (regReadEffect r n d).brTxLeft = d.brTxLeft := by
  unfold regReadEffect; split <;> first | rfl | (split <;> rfl)
@[simp] theorem regReadEffect_mem (r : Reg) (n : Nat) (d : Dev) : (regReadEffect r n d).mem = d.mem := by
  unfold regReadEffect; split <;> first | rfl | (split <;> rfl)
@[simp] theorem regReadEffect_regions (r : Reg) (n : Nat) (d : Dev) : (regReadEffect r n d).regions = d.regions := by
  unfold regReadEffect; split <;> first | rfl | (split <;> rfl)
@[simp] theorem regReadEffect_memmapOk (r : Reg) (n : Nat) (d : Dev) : (regReadEffect r n d).memmapOk = d.memmapOk := by
  unfold regReadEffect; split <;> first | rfl | (split <;> rfl)
@[simp] theorem regReadEffect_irqOk (r : Reg) (n : Nat) (d : Dev) : (regReadEffect r n d).irqOk = d.irqOk := by
  unfold regReadEffect; split <;> first | rfl | (split <;> rfl)
@[simp] theorem regReadEffect_midTransfer (r : Reg) (n : Nat) (d : Dev) : (regReadEffect r n d).midTransfer = d.midTransfer := by
  unfold regReadEffect; split <;> first | rfl | (split <;> rfl)
@[simp] theorem regReadEffect_cbScript (r : Reg) (n : Nat) (d : Dev) : (regReadEffect r n d).cbScript = d.cbScript := by
  unfold regReadEffect; split <;> first | rfl | (split <;> rfl)
@[simp] theorem regReadEffect_inbox (r : Reg) (n : Nat) (d : Dev) : (regReadEffect r n d).inbox = d.inbox := by
  unfold regReadEffect; split <;> first | rfl | (split <;> rfl)
@[simp] theorem regReadEffect_calls (r : Reg) (n : Nat) (d : Dev) : (regReadEffect r n d).calls = d.calls := by
  unfold regReadEffect; split <;> first | rfl | (split <;> rfl)
@[simp] theorem regReadEffect_diags (r : Reg) (n : Nat) (d : Dev) : (regReadEffect r n d).diags = d.diags := by
  unfold regReadEffect; split <;> first | rfl | (split <;> rfl)
@[simp] theorem regReadEffect_bus (r : Reg) (n : Nat) (d : Dev) : (regReadEffect r n d).bus = d.bus := by
  unfold regReadEffect; split <;> first | rfl | (split <;> rfl)
@[simp] theorem regReadEffect_result (r : Reg) (n : Nat) (d : Dev) : (regReadEffect r n d).result = d.result := by
  unfold regReadEffect; split <;> first | rfl | (split <;> rfl)
@[simp] theorem regWriteEffect_cfg (r : Reg) (n : Nat) (v : Word) (d : Dev) :
    (regWriteEffect r n v d).cfg = d.cfg := by unfold regWriteEffect; split <;> rfl
@[simp] theorem regWriteEffect_rxq (r : Reg) (n : Nat) (v : Word) (d : Dev) :
    (regWriteEffect r n v d).rxq = d.rxq := by unfold regWriteEffect; split <;> rfl
@[simp] theorem regWriteEffect_mem (r : Reg) (n : Nat) (v : Word) (d : Dev) :
    (regWriteEffect r n v d).mem = d.mem := by unfold regWriteEffect; split <;> rfl
@[simp] theorem regWriteEffect_regions (r : Reg) (n : Nat) (v : Word) (d : Dev) :
    (regWriteEffect r n v d).regions = d.regions := by unfold regWriteEffect; split <;> rfl
@[simp] theorem regWriteEffect_memmapOk (r : Reg) (n : Nat) (v : Word) (d : Dev) :
    (regWriteEffect r n v d).memmapOk = d.memmapOk := by unfold regWriteEffect; split <;> rfl
@[simp] theorem regWriteEffect_irqOk (r : Reg) (n : Nat) (v : Word) (d : Dev) :
    (regWriteEffect r n v d).irqOk = d.irqOk := by unfold regWriteEffect; split <;> rfl
@[simp] theorem regWriteEffect_midTransfer (r : Reg) (n : Nat) (v : Word) (d : Dev) :
    (regWriteEffect r n v d).midTransfer = d.midTransfer := by unfold regWriteEffect; split <;> rfl
@[simp] theorem regWriteEffect_cbScript (r : Reg) (n : Nat) (v : Word) (d : Dev) :
    (regWriteEffect r n v d).cbScript = d.cbScript := by unfold regWriteEffect; split <;> rfl
@[simp] theorem regWriteEffect_inbox (r : Reg) (n : Nat) (v : Word) (d : Dev) :
    (regWriteEffect r n v d).inbox = d.inbox := by unfold regWriteEffect; split <;> rfl
@[simp] theorem regWriteEffect_calls (r : Reg) (n : Nat) (v : Word) (d : Dev) :
    (regWriteEffect r n v d).calls = d.calls := by unfold regWriteEffect; split <;> rfl
@[simp] theorem regWriteEffect_diags (r : Reg) (n : Nat) (v : Word) (d : Dev) :
    (regWriteEffect r n v d).diags = d.diags := by unfold regWriteEffect; split <;> rfl
@[simp] theorem regWriteEffect_bus (r : Reg) (n : Nat) (v : Word) (d : Dev) :
    (regWriteEffect r n v d).bus = d.bus := by unfold regWriteEffect; split <;> rfl
@[simp] theorem regWriteEffect_result (r : Reg) (n : Nat) (v : Word) (d : Dev) :
    (regWriteEffect r n v d).result = d.result := by unfold regWriteEffect; split <;> rfl
@[simp] theorem regWriteEffect_draws (r : Reg) (n : Nat) (v : Word) (d : Dev) :
    (regWriteEffect r n v d).draws = d.draws := by unfold regWriteEffect; split <;> rfl

/-! ## Bus transactions -/

@[simp] theorem busRead_inst (off n : Nat) (r : Reg) (c : Ctl) : (busRead off n r c).inst = c.wake.inst := rfl
@[simp] theorem busRead_dev (off n : Nat) (r : Reg) (c : Ctl) :
    (busRead off n r c).dev = (regReadEffect r n c.dev).logBus (.regRead (c.inst.busAt off) n (busValue r n c)) := rfl
@[simp] theorem busWrite_inst (off n : Nat) (r : Reg) (v : Word) (c : Ctl) :
    (busWrite off n r v c).inst = c.wake.inst := rfl
@[simp] theorem busWrite_dev (off n : Nat) (r : Reg) (v : Word) (c : Ctl) :
    (busWrite off n r v c).dev = (regWriteEffect r n v c.dev).logBus (.regWrite (c.inst.busAt off) n v) := rfl
@[simp] theorem Ctl.read_inst (r : Reg) (c : Ctl) : (c.read r).inst = c.wake.inst := rfl
@[simp] theorem Ctl.read_dev (r : Reg) (c : Ctl) :
    (c.read r).dev = (regReadEffect r r.width c.dev).logBus
      (.regRead (c.inst.busAt (r.offset c.dev.cfg.regMap)) r.width (busValue r r.width c)) := rfl
@[simp] theorem Ctl.write_inst (r : Reg) (v : Word) (c : Ctl) : (c.write r v).inst = c.wake.inst := rfl
@[simp] theorem Ctl.write_dev (r : Reg) (v : Word) (c : Ctl) :
    (c.write r v).dev = (regWriteEffect r r.width v c.dev).logBus
      (.regWrite (c.inst.busAt (r.offset c.dev.cfg.regMap)) r.width v) := rfl


/-! ## Endpoint-scoped access (R98, R99) -/

@[simp] theorem epWrite_cfg (k : EpReg) (e : EpIdx) (v : Word) (c : Ctl) :
    (epWrite k e v c).dev.cfg = c.dev.cfg := by unfold epWrite; split <;> simp [Ctl.selectEp]
@[simp] theorem epRead_cfg (k : EpReg) (e : EpIdx) (c : Ctl) :
    (epRead k e c).dev.cfg = c.dev.cfg := by unfold epRead; split <;> simp [Ctl.selectEp]
@[simp] theorem epWrite_mem (k : EpReg) (e : EpIdx) (v : Word) (c : Ctl) :
    (epWrite k e v c).dev.mem = c.dev.mem := by unfold epWrite; split <;> simp [Ctl.selectEp]
@[simp] theorem epRead_mem (k : EpReg) (e : EpIdx) (c : Ctl) :
    (epRead k e c).dev.mem = c.dev.mem := by unfold epRead; split <;> simp [Ctl.selectEp]
@[simp] theorem epWrite_regions (k : EpReg) (e : EpIdx) (v : Word) (c : Ctl) :
    (epWrite k e v c).dev.regions = c.dev.regions := by unfold epWrite; split <;> simp [Ctl.selectEp]
@[simp] theorem epRead_regions (k : EpReg) (e : EpIdx) (c : Ctl) :
    (epRead k e c).dev.regions = c.dev.regions := by unfold epRead; split <;> simp [Ctl.selectEp]
@[simp] theorem epWrite_memmapOk (k : EpReg) (e : EpIdx) (v : Word) (c : Ctl) :
    (epWrite k e v c).dev.memmapOk = c.dev.memmapOk := by unfold epWrite; split <;> simp [Ctl.selectEp]
@[simp] theorem epRead_memmapOk (k : EpReg) (e : EpIdx) (c : Ctl) :
    (epRead k e c).dev.memmapOk = c.dev.memmapOk := by unfold epRead; split <;> simp [Ctl.selectEp]
@[simp] theorem epWrite_irqOk (k : EpReg) (e : EpIdx) (v : Word) (c : Ctl) :
    (epWrite k e v c).dev.irqOk = c.dev.irqOk := by unfold epWrite; split <;> simp [Ctl.selectEp]
@[simp] theorem epRead_irqOk (k : EpReg) (e : EpIdx) (c : Ctl) :
    (epRead k e c).dev.irqOk = c.dev.irqOk := by unfold epRead; split <;> simp [Ctl.selectEp]
@[simp] theorem epWrite_midTransfer (k : EpReg) (e : EpIdx) (v : Word) (c : Ctl) :
    (epWrite k e v c).dev.midTransfer = c.dev.midTransfer := by unfold epWrite; split <;> simp [Ctl.selectEp]
@[simp] theorem epRead_midTransfer (k : EpReg) (e : EpIdx) (c : Ctl) :
    (epRead k e c).dev.midTransfer = c.dev.midTransfer := by unfold epRead; split <;> simp [Ctl.selectEp]
@[simp] theorem epWrite_cbScript (k : EpReg) (e : EpIdx) (v : Word) (c : Ctl) :
    (epWrite k e v c).dev.cbScript = c.dev.cbScript := by unfold epWrite; split <;> simp [Ctl.selectEp]
@[simp] theorem epRead_cbScript (k : EpReg) (e : EpIdx) (c : Ctl) :
    (epRead k e c).dev.cbScript = c.dev.cbScript := by unfold epRead; split <;> simp [Ctl.selectEp]
@[simp] theorem epWrite_inbox (k : EpReg) (e : EpIdx) (v : Word) (c : Ctl) :
    (epWrite k e v c).dev.inbox = c.dev.inbox := by unfold epWrite; split <;> simp [Ctl.selectEp]
@[simp] theorem epRead_inbox (k : EpReg) (e : EpIdx) (c : Ctl) :
    (epRead k e c).dev.inbox = c.dev.inbox := by unfold epRead; split <;> simp [Ctl.selectEp]
@[simp] theorem epWrite_calls (k : EpReg) (e : EpIdx) (v : Word) (c : Ctl) :
    (epWrite k e v c).dev.calls = c.dev.calls := by unfold epWrite; split <;> simp [Ctl.selectEp]
@[simp] theorem epRead_calls (k : EpReg) (e : EpIdx) (c : Ctl) :
    (epRead k e c).dev.calls = c.dev.calls := by unfold epRead; split <;> simp [Ctl.selectEp]
@[simp] theorem epWrite_diags (k : EpReg) (e : EpIdx) (v : Word) (c : Ctl) :
    (epWrite k e v c).dev.diags = c.dev.diags := by unfold epWrite; split <;> simp [Ctl.selectEp]
@[simp] theorem epRead_diags (k : EpReg) (e : EpIdx) (c : Ctl) :
    (epRead k e c).dev.diags = c.dev.diags := by unfold epRead; split <;> simp [Ctl.selectEp]
@[simp] theorem epWrite_result (k : EpReg) (e : EpIdx) (v : Word) (c : Ctl) :
    (epWrite k e v c).dev.result = c.dev.result := by unfold epWrite; split <;> simp [Ctl.selectEp]
@[simp] theorem epRead_result (k : EpReg) (e : EpIdx) (c : Ctl) :
    (epRead k e c).dev.result = c.dev.result := by unfold epRead; split <;> simp [Ctl.selectEp]
@[simp] theorem epWrite_base (k : EpReg) (e : EpIdx) (v : Word) (c : Ctl) :
    (epWrite k e v c).inst.base = c.inst.base := by unfold epWrite; split <;> simp [Ctl.selectEp]
@[simp] theorem epRead_base (k : EpReg) (e : EpIdx) (c : Ctl) :
    (epRead k e c).inst.base = c.inst.base := by unfold epRead; split <;> simp [Ctl.selectEp]
@[simp] theorem epWrite_cfgRole (k : EpReg) (e : EpIdx) (v : Word) (c : Ctl) :
    (epWrite k e v c).inst.cfgRole = c.inst.cfgRole := by unfold epWrite; split <;> simp [Ctl.selectEp]
@[simp] theorem epRead_cfgRole (k : EpReg) (e : EpIdx) (c : Ctl) :
    (epRead k e c).inst.cfgRole = c.inst.cfgRole := by unfold epRead; split <;> simp [Ctl.selectEp]
@[simp] theorem epWrite_linkState (k : EpReg) (e : EpIdx) (v : Word) (c : Ctl) :
    (epWrite k e v c).inst.linkState = c.inst.linkState := by unfold epWrite; split <;> simp [Ctl.selectEp]
@[simp] theorem epRead_linkState (k : EpReg) (e : EpIdx) (c : Ctl) :
    (epRead k e c).inst.linkState = c.inst.linkState := by unfold epRead; split <;> simp [Ctl.selectEp]
@[simp] theorem epWrite_ep (k : EpReg) (e : EpIdx) (v : Word) (c : Ctl) :
    (epWrite k e v c).inst.ep = c.inst.ep := by unfold epWrite; split <;> simp [Ctl.selectEp]
@[simp] theorem epRead_ep (k : EpReg) (e : EpIdx) (c : Ctl) :
    (epRead k e c).inst.ep = c.inst.ep := by unfold epRead; split <;> simp [Ctl.selectEp]
@[simp] theorem epWrite_epMask (k : EpReg) (e : EpIdx) (v : Word) (c : Ctl) :
    (epWrite k e v c).inst.epMask = c.inst.epMask := by unfold epWrite; split <;> simp [Ctl.selectEp]
@[simp] theorem epRead_epMask (k : EpReg) (e : EpIdx) (c : Ctl) :
    (epRead k e c).inst.epMask = c.inst.epMask := by unfold epRead; split <;> simp [Ctl.selectEp]
@[simp] theorem epWrite_nrEndpoints (k : EpReg) (e : EpIdx) (v : Word) (c : Ctl) :
    (epWrite k e v c).inst.nrEndpoints = c.inst.nrEndpoints := by unfold epWrite; split <;> simp [Ctl.selectEp]
@[simp] theorem epRead_nrEndpoints (k : EpReg) (e : EpIdx) (c : Ctl) :
    (epRead k e c).inst.nrEndpoints = c.inst.nrEndpoints := by unfold epRead; split <;> simp [Ctl.selectEp]
@[simp] theorem epWrite_bulkEp (k : EpReg) (e : EpIdx) (v : Word) (c : Ctl) :
    (epWrite k e v c).inst.bulkEp = c.inst.bulkEp := by unfold epWrite; split <;> simp [Ctl.selectEp]
@[simp] theorem epRead_bulkEp (k : EpReg) (e : EpIdx) (c : Ctl) :
    (epRead k e c).inst.bulkEp = c.inst.bulkEp := by unfold epRead; split <;> simp [Ctl.selectEp]
@[simp] theorem epWrite_configured (k : EpReg) (e : EpIdx) (v : Word) (c : Ctl) :
    (epWrite k e v c).inst.configured = c.inst.configured := by unfold epWrite; split <;> simp [Ctl.selectEp]
@[simp] theorem epRead_configured (k : EpReg) (e : EpIdx) (c : Ctl) :
    (epRead k e c).inst.configured = c.inst.configured := by unfold epRead; split <;> simp [Ctl.selectEp]
@[simp] theorem epWrite_isActive (k : EpReg) (e : EpIdx) (v : Word) (c : Ctl) :
    (epWrite k e v c).inst.isActive = c.inst.isActive := by unfold epWrite; split <;> simp [Ctl.selectEp]
@[simp] theorem epRead_isActive (k : EpReg) (e : EpIdx) (c : Ctl) :
    (epRead k e c).inst.isActive = c.inst.isActive := by unfold epRead; split <;> simp [Ctl.selectEp]
@[simp] theorem epWrite_hostActive (k : EpReg) (e : EpIdx) (v : Word) (c : Ctl) :
    (epWrite k e v c).inst.hostActive = c.inst.hostActive := by unfold epWrite; split <;> simp [Ctl.selectEp]
@[simp] theorem epRead_hostActive (k : EpReg) (e : EpIdx) (c : Ctl) :
    (epRead k e c).inst.hostActive = c.inst.hostActive := by unfold epRead; split <;> simp [Ctl.selectEp]
@[simp] theorem epWrite_vbuserrRetry (k : EpReg) (e : EpIdx) (v : Word) (c : Ctl) :
    (epWrite k e v c).inst.vbuserrRetry = c.inst.vbuserrRetry := by unfold epWrite; split <;> simp [Ctl.selectEp]
@[simp] theorem epRead_vbuserrRetry (k : EpReg) (e : EpIdx) (c : Ctl) :
    (epRead k e c).inst.vbuserrRetry = c.inst.vbuserrRetry := by unfold epRead; split <;> simp [Ctl.selectEp]
@[simp] theorem epWrite_ignoreDisconnect (k : EpReg) (e : EpIdx) (v : Word) (c : Ctl) :
    (epWrite k e v c).inst.ignoreDisconnect = c.inst.ignoreDisconnect := by unfold epWrite; split <;> simp [Ctl.selectEp]
@[simp] theorem epRead_ignoreDisconnect (k : EpReg) (e : EpIdx) (c : Ctl) :
    (epRead k e c).inst.ignoreDisconnect = c.inst.ignoreDisconnect := by unfold epRead; split <;> simp [Ctl.selectEp]
@[simp] theorem epWrite_ctrlSubstate (k : EpReg) (e : EpIdx) (v : Word) (c : Ctl) :
    (epWrite k e v c).inst.ctrlSubstate = c.inst.ctrlSubstate := by unfold epWrite; split <;> simp [Ctl.selectEp]
@[simp] theorem epRead_ctrlSubstate (k : EpReg) (e : EpIdx) (c : Ctl) :
    (epRead k e c).inst.ctrlSubstate = c.inst.ctrlSubstate := by unfold epRead; split <;> simp [Ctl.selectEp]
@[simp] theorem epWrite_portStatus (k : EpReg) (e : EpIdx) (v : Word) (c : Ctl) :
    (epWrite k e v c).inst.portStatus = c.inst.portStatus := by unfold epWrite; split <;> simp [Ctl.selectEp]
@[simp] theorem epRead_portStatus (k : EpReg) (e : EpIdx) (c : Ctl) :
    (epRead k e c).inst.portStatus = c.inst.portStatus := by unfold epRead; split <;> simp [Ctl.selectEp]
@[simp] theorem epWrite_provisionalLowSpeed (k : EpReg) (e : EpIdx) (v : Word) (c : Ctl) :
    (epWrite k e v c).inst.provisionalLowSpeed = c.inst.provisionalLowSpeed := by unfold epWrite; split <;> simp [Ctl.selectEp]
@[simp] theorem epRead_provisionalLowSpeed (k : EpReg) (e : EpIdx) (c : Ctl) :
    (epRead k e c).inst.provisionalLowSpeed = c.inst.provisionalLowSpeed := by unfold epRead; split <;> simp [Ctl.selectEp]
@[simp] theorem epWrite_hnpPermitted (k : EpReg) (e : EpIdx) (v : Word) (c : Ctl) :
    (epWrite k e v c).inst.hnpPermitted = c.inst.hnpPermitted := by unfold epWrite; split <;> simp [Ctl.selectEp]
@[simp] theorem epRead_hnpPermitted (k : EpReg) (e : EpIdx) (c : Ctl) :
    (epRead k e c).inst.hnpPermitted = c.inst.hnpPermitted := by unfold epRead; split <;> simp [Ctl.selectEp]
@[simp] theorem epWrite_otgOverlayActive (k : EpReg) (e : EpIdx) (v : Word) (c : Ctl) :
    (epWrite k e v c).inst.otgOverlayActive = c.inst.otgOverlayActive := by unfold epWrite; split <;> simp [Ctl.selectEp]
@[simp] theorem epRead_otgOverlayActive (k : EpReg) (e : EpIdx) (c : Ctl) :
    (epRead k e c).inst.otgOverlayActive = c.inst.otgOverlayActive := by unfold epRead; split <;> simp [Ctl.selectEp]
@[simp] theorem epWrite_lock (k : EpReg) (e : EpIdx) (v : Word) (c : Ctl) :
    (epWrite k e v c).inst.lock = c.inst.lock := by unfold epWrite; split <;> simp [Ctl.selectEp]
@[simp] theorem epRead_lock (k : EpReg) (e : EpIdx) (c : Ctl) :
    (epRead k e c).inst.lock = c.inst.lock := by unfold epRead; split <;> simp [Ctl.selectEp]
@[simp] theorem epWrite_idleTimer (k : EpReg) (e : EpIdx) (v : Word) (c : Ctl) :
    (epWrite k e v c).inst.idleTimer = c.inst.idleTimer := by unfold epWrite; split <;> simp [Ctl.selectEp]
@[simp] theorem epRead_idleTimer (k : EpReg) (e : EpIdx) (c : Ctl) :
    (epRead k e c).inst.idleTimer = c.inst.idleTimer := by unfold epRead; split <;> simp [Ctl.selectEp]
@[simp] theorem epWrite_wakeEnables (k : EpReg) (e : EpIdx) (v : Word) (c : Ctl) :
    (epWrite k e v c).inst.wakeEnables = c.inst.wakeEnables := by unfold epWrite; split <;> simp [Ctl.selectEp]
@[simp] theorem epRead_wakeEnables (k : EpReg) (e : EpIdx) (c : Ctl) :
    (epRead k e c).inst.wakeEnables = c.inst.wakeEnables := by unfold epRead; split <;> simp [Ctl.selectEp]
@[simp] theorem epWrite_started (k : EpReg) (e : EpIdx) (v : Word) (c : Ctl) :
    (epWrite k e v c).inst.started = c.inst.started := by unfold epWrite; split <;> simp [Ctl.selectEp]
@[simp] theorem epRead_started (k : EpReg) (e : EpIdx) (c : Ctl) :
    (epRead k e c).inst.started = c.inst.started := by unfold epRead; split <;> simp [Ctl.selectEp]

/-! ## Collaborators: their moves reach six fields of the instance, `POWER`, the bus trace and the low-power mode
(R256 to R261, R238) -/

@[simp] theorem collabMove_base (m : CollabMove) (c : Ctl) : (collabMove m c).inst.base = c.inst.base := by
  cases m <;> simp [collabMove]
@[simp] theorem collabMove_cfgRole (m : CollabMove) (c : Ctl) : (collabMove m c).inst.cfgRole = c.inst.cfgRole := by
  cases m <;> simp [collabMove]
@[simp] theorem collabMove_ep (m : CollabMove) (c : Ctl) : (collabMove m c).inst.ep = c.inst.ep := by
  cases m <;> simp [collabMove]
@[simp] theorem collabMove_epMask (m : CollabMove) (c : Ctl) : (collabMove m c).inst.epMask = c.inst.epMask := by
  cases m <;> simp [collabMove]
@[simp] theorem collabMove_nrEndpoints (m : CollabMove) (c : Ctl) : (collabMove m c).inst.nrEndpoints = c.inst.nrEndpoints := by
  cases m <;> simp [collabMove]
@[simp] theorem collabMove_bulkEp (m : CollabMove) (c : Ctl) : (collabMove m c).inst.bulkEp = c.inst.bulkEp := by
  cases m <;> simp [collabMove]
@[simp] theorem collabMove_configured (m : CollabMove) (c : Ctl) : (collabMove m c).inst.configured = c.inst.configured := by
  cases m <;> simp [collabMove]
@[simp] theorem collabMove_isActive (m : CollabMove) (c : Ctl) : (collabMove m c).inst.isActive = c.inst.isActive := by
  cases m <;> simp [collabMove]
@[simp] theorem collabMove_vbuserrRetry (m : CollabMove) (c : Ctl) : (collabMove m c).inst.vbuserrRetry = c.inst.vbuserrRetry := by
  cases m <;> simp [collabMove]
@[simp] theorem collabMove_provisionalLowSpeed (m : CollabMove) (c : Ctl) : (collabMove m c).inst.provisionalLowSpeed = c.inst.provisionalLowSpeed := by
  cases m <;> simp [collabMove]
@[simp] theorem collabMove_otgOverlayActive (m : CollabMove) (c : Ctl) : (collabMove m c).inst.otgOverlayActive = c.inst.otgOverlayActive := by
  cases m <;> simp [collabMove]
@[simp] theorem collabMove_lock (m : CollabMove) (c : Ctl) : (collabMove m c).inst.lock = c.inst.lock := by
  cases m <;> simp [collabMove]
@[simp] theorem collabMove_idleTimer (m : CollabMove) (c : Ctl) : (collabMove m c).inst.idleTimer = c.inst.idleTimer := by
  cases m <;> simp [collabMove]
@[simp] theorem collabMove_wakeEnables (m : CollabMove) (c : Ctl) : (collabMove m c).inst.wakeEnables = c.inst.wakeEnables := by
  cases m <;> simp [collabMove]
@[simp] theorem collabMove_started (m : CollabMove) (c : Ctl) : (collabMove m c).inst.started = c.inst.started := by
  cases m <;> simp [collabMove]
@[simp] theorem collabMove_cfg (m : CollabMove) (c : Ctl) : (collabMove m c).dev.cfg = c.dev.cfg := by
  cases m <;> simp [collabMove, regReadEffect, regWriteEffect]
@[simp] theorem collabMove_txq (m : CollabMove) (c : Ctl) : (collabMove m c).dev.txq = c.dev.txq := by
  cases m <;> simp [collabMove, regReadEffect, regWriteEffect]
@[simp] theorem collabMove_rxq (m : CollabMove) (c : Ctl) : (collabMove m c).dev.rxq = c.dev.rxq := by
  cases m <;> simp [collabMove, regReadEffect, regWriteEffect]
@[simp] theorem collabMove_brTxLeft (m : CollabMove) (c : Ctl) : (collabMove m c).dev.brTxLeft = c.dev.brTxLeft := by
  cases m <;> simp [collabMove, regReadEffect, regWriteEffect]
@[simp] theorem collabMove_brRxLeft (m : CollabMove) (c : Ctl) : (collabMove m c).dev.brRxLeft = c.dev.brRxLeft := by
  cases m <;> simp [collabMove, regReadEffect, regWriteEffect]
@[simp] theorem collabMove_mem (m : CollabMove) (c : Ctl) : (collabMove m c).dev.mem = c.dev.mem := by
  cases m <;> simp [collabMove, regReadEffect, regWriteEffect]
@[simp] theorem collabMove_regions (m : CollabMove) (c : Ctl) : (collabMove m c).dev.regions = c.dev.regions := by
  cases m <;> simp [collabMove, regReadEffect, regWriteEffect]
@[simp] theorem collabMove_memmapOk (m : CollabMove) (c : Ctl) : (collabMove m c).dev.memmapOk = c.dev.memmapOk := by
  cases m <;> simp [collabMove, regReadEffect, regWriteEffect]
@[simp] theorem collabMove_irqOk (m : CollabMove) (c : Ctl) : (collabMove m c).dev.irqOk = c.dev.irqOk := by
  cases m <;> simp [collabMove, regReadEffect, regWriteEffect]
@[simp] theorem collabMove_midTransfer (m : CollabMove) (c : Ctl) : (collabMove m c).dev.midTransfer = c.dev.midTransfer := by
  cases m <;> simp [collabMove, regReadEffect, regWriteEffect]
@[simp] theorem collabMove_cbScript (m : CollabMove) (c : Ctl) : (collabMove m c).dev.cbScript = c.dev.cbScript := by
  cases m <;> simp [collabMove, regReadEffect, regWriteEffect]
@[simp] theorem collabMove_inbox (m : CollabMove) (c : Ctl) : (collabMove m c).dev.inbox = c.dev.inbox := by
  cases m <;> simp [collabMove, regReadEffect, regWriteEffect]
@[simp] theorem collabMove_calls (m : CollabMove) (c : Ctl) : (collabMove m c).dev.calls = c.dev.calls := by
  cases m <;> simp [collabMove, regReadEffect, regWriteEffect]
@[simp] theorem collabMove_diags (m : CollabMove) (c : Ctl) : (collabMove m c).dev.diags = c.dev.diags := by
  cases m <;> simp [collabMove, regReadEffect, regWriteEffect]
@[simp] theorem collabMove_result (m : CollabMove) (c : Ctl) : (collabMove m c).dev.result = c.dev.result := by
  cases m <;> simp [collabMove, regReadEffect, regWriteEffect]
@[simp] theorem collabMove_draws (m : CollabMove) (c : Ctl) : (collabMove m c).dev.draws = c.dev.draws := by
  cases m <;> simp [collabMove, regReadEffect, regWriteEffect]
@[simp] theorem collabMove_regs_intrusb (m : CollabMove) (c : Ctl) :
    (collabMove m c).dev.regs.intrusb = c.dev.regs.intrusb := by
  cases m <;> simp [collabMove, regReadEffect, regWriteEffect]
@[simp] theorem collabMove_regs_intrtx (m : CollabMove) (c : Ctl) :
    (collabMove m c).dev.regs.intrtx = c.dev.regs.intrtx := by
  cases m <;> simp [collabMove, regReadEffect, regWriteEffect]
@[simp] theorem collabMove_regs_intrrx (m : CollabMove) (c : Ctl) :
    (collabMove m c).dev.regs.intrrx = c.dev.regs.intrrx := by
  cases m <;> simp [collabMove, regReadEffect, regWriteEffect]
@[simp] theorem collabMove_regs_intrusbe (m : CollabMove) (c : Ctl) :
    (collabMove m c).dev.regs.intrusbe = c.dev.regs.intrusbe := by
  cases m <;> simp [collabMove, regReadEffect, regWriteEffect]
@[simp] theorem collabMove_regs_intrtxe (m : CollabMove) (c : Ctl) :
    (collabMove m c).dev.regs.intrtxe = c.dev.regs.intrtxe := by
  cases m <;> simp [collabMove, regReadEffect, regWriteEffect]
@[simp] theorem collabMove_regs_intrrxe (m : CollabMove) (c : Ctl) :
    (collabMove m c).dev.regs.intrrxe = c.dev.regs.intrrxe := by
  cases m <;> simp [collabMove, regReadEffect, regWriteEffect]
@[simp] theorem collabMove_regs_devctl (m : CollabMove) (c : Ctl) :
    (collabMove m c).dev.regs.devctl = c.dev.regs.devctl := by
  cases m <;> simp [collabMove, regReadEffect, regWriteEffect]
@[simp] theorem collabMove_regs_testmode (m : CollabMove) (c : Ctl) :
    (collabMove m c).dev.regs.testmode = c.dev.regs.testmode := by
  cases m <;> simp [collabMove, regReadEffect, regWriteEffect]
@[simp] theorem collabMove_regs_index (m : CollabMove) (c : Ctl) :
    (collabMove m c).dev.regs.index = c.dev.regs.index := by
  cases m <;> simp [collabMove, regReadEffect, regWriteEffect]
@[simp] theorem collabMove_regs_txfifosz (m : CollabMove) (c : Ctl) :
    (collabMove m c).dev.regs.txfifosz = c.dev.regs.txfifosz := by
  cases m <;> simp [collabMove, regReadEffect, regWriteEffect]
@[simp] theorem collabMove_regs_rxfifosz (m : CollabMove) (c : Ctl) :
    (collabMove m c).dev.regs.rxfifosz = c.dev.regs.rxfifosz := by
  cases m <;> simp [collabMove, regReadEffect, regWriteEffect]
@[simp] theorem collabMove_regs_txfifoadd (m : CollabMove) (c : Ctl) :
    (collabMove m c).dev.regs.txfifoadd = c.dev.regs.txfifoadd := by
  cases m <;> simp [collabMove, regReadEffect, regWriteEffect]
@[simp] theorem collabMove_regs_rxfifoadd (m : CollabMove) (c : Ctl) :
    (collabMove m c).dev.regs.rxfifoadd = c.dev.regs.rxfifoadd := by
  cases m <;> simp [collabMove, regReadEffect, regWriteEffect]
@[simp] theorem collabMove_regs_brEp0Conf (m : CollabMove) (c : Ctl) :
    (collabMove m c).dev.regs.brEp0Conf = c.dev.regs.brEp0Conf := by
  cases m <;> simp [collabMove, regReadEffect, regWriteEffect]
@[simp] theorem collabMove_regs_brTxConf (m : CollabMove) (c : Ctl) :
    (collabMove m c).dev.regs.brTxConf = c.dev.regs.brTxConf := by
  cases m <;> simp [collabMove, regReadEffect, regWriteEffect]
@[simp] theorem collabMove_regs_brRxConf (m : CollabMove) (c : Ctl) :
    (collabMove m c).dev.regs.brRxConf = c.dev.regs.brRxConf := by
  cases m <;> simp [collabMove, regReadEffect, regWriteEffect]
@[simp] theorem collabMoves_base (l : List CollabMove) (c : Ctl) : (collabMoves l c).inst.base = c.inst.base := by
  induction l generalizing c with
  | nil => rfl
  | cons m l ih => simp [collabMoves, ih]
@[simp] theorem collabMoves_cfgRole (l : List CollabMove) (c : Ctl) : (collabMoves l c).inst.cfgRole = c.inst.cfgRole := by
  induction l generalizing c with
  | nil => rfl
  | cons m l ih => simp [collabMoves, ih]
@[simp] theorem collabMoves_ep (l : List CollabMove) (c : Ctl) : (collabMoves l c).inst.ep = c.inst.ep := by
  induction l generalizing c with
  | nil => rfl
  | cons m l ih => simp [collabMoves, ih]
@[simp] theorem collabMoves_epMask (l : List CollabMove) (c : Ctl) : (collabMoves l c).inst.epMask = c.inst.epMask := by
  induction l generalizing c with
  | nil => rfl
  | cons m l ih => simp [collabMoves, ih]
@[simp] theorem collabMoves_nrEndpoints (l : List CollabMove) (c : Ctl) : (collabMoves l c).inst.nrEndpoints = c.inst.nrEndpoints := by
  induction l generalizing c with
  | nil => rfl
  | cons m l ih => simp [collabMoves, ih]
@[simp] theorem collabMoves_bulkEp (l : List CollabMove) (c : Ctl) : (collabMoves l c).inst.bulkEp = c.inst.bulkEp := by
  induction l generalizing c with
  | nil => rfl
  | cons m l ih => simp [collabMoves, ih]
@[simp] theorem collabMoves_configured (l : List CollabMove) (c : Ctl) : (collabMoves l c).inst.configured = c.inst.configured := by
  induction l generalizing c with
  | nil => rfl
  | cons m l ih => simp [collabMoves, ih]
@[simp] theorem collabMoves_isActive (l : List CollabMove) (c : Ctl) : (collabMoves l c).inst.isActive = c.inst.isActive := by
  induction l generalizing c with
  | nil => rfl
  | cons m l ih => simp [collabMoves, ih]
@[simp] theorem collabMoves_vbuserrRetry (l : List CollabMove) (c : Ctl) : (collabMoves l c).inst.vbuserrRetry = c.inst.vbuserrRetry := by
  induction l generalizing c with
  | nil => rfl
  | cons m l ih => simp [collabMoves, ih]
@[simp] theorem collabMoves_provisionalLowSpeed (l : List CollabMove) (c : Ctl) : (collabMoves l c).inst.provisionalLowSpeed = c.inst.provisionalLowSpeed := by
  induction l generalizing c with
  | nil => rfl
  | cons m l ih => simp [collabMoves, ih]
@[simp] theorem collabMoves_otgOverlayActive (l : List CollabMove) (c : Ctl) : (collabMoves l c).inst.otgOverlayActive = c.inst.otgOverlayActive := by
  induction l generalizing c with
  | nil => rfl
  | cons m l ih => simp [collabMoves, ih]
@[simp] theorem collabMoves_lock (l : List CollabMove) (c : Ctl) : (collabMoves l c).inst.lock = c.inst.lock := by
  induction l generalizing c with
  | nil => rfl
  | cons m l ih => simp [collabMoves, ih]
@[simp] theorem collabMoves_idleTimer (l : List CollabMove) (c : Ctl) : (collabMoves l c).inst.idleTimer = c.inst.idleTimer := by
  induction l generalizing c with
  | nil => rfl
  | cons m l ih => simp [collabMoves, ih]
@[simp] theorem collabMoves_wakeEnables (l : List CollabMove) (c : Ctl) : (collabMoves l c).inst.wakeEnables = c.inst.wakeEnables := by
  induction l generalizing c with
  | nil => rfl
  | cons m l ih => simp [collabMoves, ih]
@[simp] theorem collabMoves_started (l : List CollabMove) (c : Ctl) : (collabMoves l c).inst.started = c.inst.started := by
  induction l generalizing c with
  | nil => rfl
  | cons m l ih => simp [collabMoves, ih]
@[simp] theorem collabMoves_cfg (l : List CollabMove) (c : Ctl) : (collabMoves l c).dev.cfg = c.dev.cfg := by
  induction l generalizing c with
  | nil => rfl
  | cons m l ih => simp [collabMoves, ih]
@[simp] theorem collabMoves_txq (l : List CollabMove) (c : Ctl) : (collabMoves l c).dev.txq = c.dev.txq := by
  induction l generalizing c with
  | nil => rfl
  | cons m l ih => simp [collabMoves, ih]
@[simp] theorem collabMoves_rxq (l : List CollabMove) (c : Ctl) : (collabMoves l c).dev.rxq = c.dev.rxq := by
  induction l generalizing c with
  | nil => rfl
  | cons m l ih => simp [collabMoves, ih]
@[simp] theorem collabMoves_brTxLeft (l : List CollabMove) (c : Ctl) : (collabMoves l c).dev.brTxLeft = c.dev.brTxLeft := by
  induction l generalizing c with
  | nil => rfl
  | cons m l ih => simp [collabMoves, ih]
@[simp] theorem collabMoves_brRxLeft (l : List CollabMove) (c : Ctl) : (collabMoves l c).dev.brRxLeft = c.dev.brRxLeft := by
  induction l generalizing c with
  | nil => rfl
  | cons m l ih => simp [collabMoves, ih]
@[simp] theorem collabMoves_mem (l : List CollabMove) (c : Ctl) : (collabMoves l c).dev.mem = c.dev.mem := by
  induction l generalizing c with
  | nil => rfl
  | cons m l ih => simp [collabMoves, ih]
@[simp] theorem collabMoves_regions (l : List CollabMove) (c : Ctl) : (collabMoves l c).dev.regions = c.dev.regions := by
  induction l generalizing c with
  | nil => rfl
  | cons m l ih => simp [collabMoves, ih]
@[simp] theorem collabMoves_memmapOk (l : List CollabMove) (c : Ctl) : (collabMoves l c).dev.memmapOk = c.dev.memmapOk := by
  induction l generalizing c with
  | nil => rfl
  | cons m l ih => simp [collabMoves, ih]
@[simp] theorem collabMoves_irqOk (l : List CollabMove) (c : Ctl) : (collabMoves l c).dev.irqOk = c.dev.irqOk := by
  induction l generalizing c with
  | nil => rfl
  | cons m l ih => simp [collabMoves, ih]
@[simp] theorem collabMoves_midTransfer (l : List CollabMove) (c : Ctl) : (collabMoves l c).dev.midTransfer = c.dev.midTransfer := by
  induction l generalizing c with
  | nil => rfl
  | cons m l ih => simp [collabMoves, ih]
@[simp] theorem collabMoves_cbScript (l : List CollabMove) (c : Ctl) : (collabMoves l c).dev.cbScript = c.dev.cbScript := by
  induction l generalizing c with
  | nil => rfl
  | cons m l ih => simp [collabMoves, ih]
@[simp] theorem collabMoves_inbox (l : List CollabMove) (c : Ctl) : (collabMoves l c).dev.inbox = c.dev.inbox := by
  induction l generalizing c with
  | nil => rfl
  | cons m l ih => simp [collabMoves, ih]
@[simp] theorem collabMoves_calls (l : List CollabMove) (c : Ctl) : (collabMoves l c).dev.calls = c.dev.calls := by
  induction l generalizing c with
  | nil => rfl
  | cons m l ih => simp [collabMoves, ih]
@[simp] theorem collabMoves_diags (l : List CollabMove) (c : Ctl) : (collabMoves l c).dev.diags = c.dev.diags := by
  induction l generalizing c with
  | nil => rfl
  | cons m l ih => simp [collabMoves, ih]
@[simp] theorem collabMoves_result (l : List CollabMove) (c : Ctl) : (collabMoves l c).dev.result = c.dev.result := by
  induction l generalizing c with
  | nil => rfl
  | cons m l ih => simp [collabMoves, ih]
@[simp] theorem collabMoves_draws (l : List CollabMove) (c : Ctl) : (collabMoves l c).dev.draws = c.dev.draws := by
  induction l generalizing c with
  | nil => rfl
  | cons m l ih => simp [collabMoves, ih]
@[simp] theorem collabMoves_regs_intrusb (l : List CollabMove) (c : Ctl) :
    (collabMoves l c).dev.regs.intrusb = c.dev.regs.intrusb := by
  induction l generalizing c with
  | nil => rfl
  | cons m l ih => simp [collabMoves, ih]
@[simp] theorem collabMoves_regs_intrtx (l : List CollabMove) (c : Ctl) :
    (collabMoves l c).dev.regs.intrtx = c.dev.regs.intrtx := by
  induction l generalizing c with
  | nil => rfl
  | cons m l ih => simp [collabMoves, ih]
@[simp] theorem collabMoves_regs_intrrx (l : List CollabMove) (c : Ctl) :
    (collabMoves l c).dev.regs.intrrx = c.dev.regs.intrrx := by
  induction l generalizing c with
  | nil => rfl
  | cons m l ih => simp [collabMoves, ih]
@[simp] theorem collabMoves_regs_intrusbe (l : List CollabMove) (c : Ctl) :
    (collabMoves l c).dev.regs.intrusbe = c.dev.regs.intrusbe := by
  induction l generalizing c with
  | nil => rfl
  | cons m l ih => simp [collabMoves, ih]
@[simp] theorem collabMoves_regs_intrtxe (l : List CollabMove) (c : Ctl) :
    (collabMoves l c).dev.regs.intrtxe = c.dev.regs.intrtxe := by
  induction l generalizing c with
  | nil => rfl
  | cons m l ih => simp [collabMoves, ih]
@[simp] theorem collabMoves_regs_intrrxe (l : List CollabMove) (c : Ctl) :
    (collabMoves l c).dev.regs.intrrxe = c.dev.regs.intrrxe := by
  induction l generalizing c with
  | nil => rfl
  | cons m l ih => simp [collabMoves, ih]
@[simp] theorem collabMoves_regs_devctl (l : List CollabMove) (c : Ctl) :
    (collabMoves l c).dev.regs.devctl = c.dev.regs.devctl := by
  induction l generalizing c with
  | nil => rfl
  | cons m l ih => simp [collabMoves, ih]
@[simp] theorem collabMoves_regs_testmode (l : List CollabMove) (c : Ctl) :
    (collabMoves l c).dev.regs.testmode = c.dev.regs.testmode := by
  induction l generalizing c with
  | nil => rfl
  | cons m l ih => simp [collabMoves, ih]
@[simp] theorem collabMoves_regs_index (l : List CollabMove) (c : Ctl) :
    (collabMoves l c).dev.regs.index = c.dev.regs.index := by
  induction l generalizing c with
  | nil => rfl
  | cons m l ih => simp [collabMoves, ih]
@[simp] theorem collabMoves_regs_txfifosz (l : List CollabMove) (c : Ctl) :
    (collabMoves l c).dev.regs.txfifosz = c.dev.regs.txfifosz := by
  induction l generalizing c with
  | nil => rfl
  | cons m l ih => simp [collabMoves, ih]
@[simp] theorem collabMoves_regs_rxfifosz (l : List CollabMove) (c : Ctl) :
    (collabMoves l c).dev.regs.rxfifosz = c.dev.regs.rxfifosz := by
  induction l generalizing c with
  | nil => rfl
  | cons m l ih => simp [collabMoves, ih]
@[simp] theorem collabMoves_regs_txfifoadd (l : List CollabMove) (c : Ctl) :
    (collabMoves l c).dev.regs.txfifoadd = c.dev.regs.txfifoadd := by
  induction l generalizing c with
  | nil => rfl
  | cons m l ih => simp [collabMoves, ih]
@[simp] theorem collabMoves_regs_rxfifoadd (l : List CollabMove) (c : Ctl) :
    (collabMoves l c).dev.regs.rxfifoadd = c.dev.regs.rxfifoadd := by
  induction l generalizing c with
  | nil => rfl
  | cons m l ih => simp [collabMoves, ih]
@[simp] theorem collabMoves_regs_brEp0Conf (l : List CollabMove) (c : Ctl) :
    (collabMoves l c).dev.regs.brEp0Conf = c.dev.regs.brEp0Conf := by
  induction l generalizing c with
  | nil => rfl
  | cons m l ih => simp [collabMoves, ih]
@[simp] theorem collabMoves_regs_brTxConf (l : List CollabMove) (c : Ctl) :
    (collabMoves l c).dev.regs.brTxConf = c.dev.regs.brTxConf := by
  induction l generalizing c with
  | nil => rfl
  | cons m l ih => simp [collabMoves, ih]
@[simp] theorem collabMoves_regs_brRxConf (l : List CollabMove) (c : Ctl) :
    (collabMoves l c).dev.regs.brRxConf = c.dev.regs.brRxConf := by
  induction l generalizing c with
  | nil => rfl
  | cons m l ih => simp [collabMoves, ih]

/-! ## Callbacks (R250) -/

@[simp] theorem Ctl.call_calls (cb : Callback) (c : Ctl) :
    (c.call cb).dev.calls = c.dev.calls ++ [⟨cb, some c.inst.view⟩] := by unfold Ctl.call; split <;> simp

/-- A stub takes no script, any other callback the first (R266). -/
@[simp] theorem Ctl.call_cbScript (cb : Callback) (c : Ctl) : (c.call cb).dev.cbScript
    = if stubCall c.inst.cfgRole cb then c.dev.cbScript else c.dev.cbScript.tail := by
  unfold Ctl.call; split <;> simp

/-- A call of a stub only extends the trace (R266). -/
theorem Ctl.call_of_stub {cb : Callback} {c : Ctl} (h : stubCall c.inst.cfgRole cb = true) :
    c.call cb = { c with dev := c.dev.logCall cb (some c.inst.view) } := by
  simp [Ctl.call, h]

/-- A callback whose collaborator has no moves scripted only extends the trace (R250). -/
theorem Ctl.call_of_no_script {cb : Callback} {c : Ctl} (h : c.dev.cbScript = []) :
    c.call cb = { c with dev := c.dev.logCall cb (some c.inst.view) } := by
  obtain ⟨i, d⟩ := c
  simp only at h
  simp [Ctl.call, h, collabMoves, Dev.logCall]

@[simp] theorem Ctl.call_base (cb : Callback) (c : Ctl) : (c.call cb).inst.base = c.inst.base := by unfold Ctl.call; split <;> simp
@[simp] theorem Ctl.call_cfgRole (cb : Callback) (c : Ctl) : (c.call cb).inst.cfgRole = c.inst.cfgRole := by unfold Ctl.call; split <;> simp
@[simp] theorem Ctl.call_ep (cb : Callback) (c : Ctl) : (c.call cb).inst.ep = c.inst.ep := by unfold Ctl.call; split <;> simp
@[simp] theorem Ctl.call_epMask (cb : Callback) (c : Ctl) : (c.call cb).inst.epMask = c.inst.epMask := by unfold Ctl.call; split <;> simp
@[simp] theorem Ctl.call_nrEndpoints (cb : Callback) (c : Ctl) : (c.call cb).inst.nrEndpoints = c.inst.nrEndpoints := by unfold Ctl.call; split <;> simp
@[simp] theorem Ctl.call_bulkEp (cb : Callback) (c : Ctl) : (c.call cb).inst.bulkEp = c.inst.bulkEp := by unfold Ctl.call; split <;> simp
@[simp] theorem Ctl.call_configured (cb : Callback) (c : Ctl) : (c.call cb).inst.configured = c.inst.configured := by unfold Ctl.call; split <;> simp
@[simp] theorem Ctl.call_isActive (cb : Callback) (c : Ctl) : (c.call cb).inst.isActive = c.inst.isActive := by unfold Ctl.call; split <;> simp
@[simp] theorem Ctl.call_vbuserrRetry (cb : Callback) (c : Ctl) : (c.call cb).inst.vbuserrRetry = c.inst.vbuserrRetry := by unfold Ctl.call; split <;> simp
@[simp] theorem Ctl.call_provisionalLowSpeed (cb : Callback) (c : Ctl) : (c.call cb).inst.provisionalLowSpeed = c.inst.provisionalLowSpeed := by unfold Ctl.call; split <;> simp
@[simp] theorem Ctl.call_otgOverlayActive (cb : Callback) (c : Ctl) : (c.call cb).inst.otgOverlayActive = c.inst.otgOverlayActive := by unfold Ctl.call; split <;> simp
@[simp] theorem Ctl.call_lock (cb : Callback) (c : Ctl) : (c.call cb).inst.lock = c.inst.lock := by unfold Ctl.call; split <;> simp
@[simp] theorem Ctl.call_idleTimer (cb : Callback) (c : Ctl) : (c.call cb).inst.idleTimer = c.inst.idleTimer := by unfold Ctl.call; split <;> simp
@[simp] theorem Ctl.call_wakeEnables (cb : Callback) (c : Ctl) : (c.call cb).inst.wakeEnables = c.inst.wakeEnables := by unfold Ctl.call; split <;> simp
@[simp] theorem Ctl.call_started (cb : Callback) (c : Ctl) : (c.call cb).inst.started = c.inst.started := by unfold Ctl.call; split <;> simp
@[simp] theorem Ctl.call_cfg (cb : Callback) (c : Ctl) : (c.call cb).dev.cfg = c.dev.cfg := by unfold Ctl.call; split <;> simp
@[simp] theorem Ctl.call_txq (cb : Callback) (c : Ctl) : (c.call cb).dev.txq = c.dev.txq := by unfold Ctl.call; split <;> simp
@[simp] theorem Ctl.call_rxq (cb : Callback) (c : Ctl) : (c.call cb).dev.rxq = c.dev.rxq := by unfold Ctl.call; split <;> simp
@[simp] theorem Ctl.call_brTxLeft (cb : Callback) (c : Ctl) : (c.call cb).dev.brTxLeft = c.dev.brTxLeft := by unfold Ctl.call; split <;> simp
@[simp] theorem Ctl.call_brRxLeft (cb : Callback) (c : Ctl) : (c.call cb).dev.brRxLeft = c.dev.brRxLeft := by unfold Ctl.call; split <;> simp
@[simp] theorem Ctl.call_mem (cb : Callback) (c : Ctl) : (c.call cb).dev.mem = c.dev.mem := by unfold Ctl.call; split <;> simp
@[simp] theorem Ctl.call_regions (cb : Callback) (c : Ctl) : (c.call cb).dev.regions = c.dev.regions := by unfold Ctl.call; split <;> simp
@[simp] theorem Ctl.call_memmapOk (cb : Callback) (c : Ctl) : (c.call cb).dev.memmapOk = c.dev.memmapOk := by unfold Ctl.call; split <;> simp
@[simp] theorem Ctl.call_irqOk (cb : Callback) (c : Ctl) : (c.call cb).dev.irqOk = c.dev.irqOk := by unfold Ctl.call; split <;> simp
@[simp] theorem Ctl.call_midTransfer (cb : Callback) (c : Ctl) : (c.call cb).dev.midTransfer = c.dev.midTransfer := by unfold Ctl.call; split <;> simp
@[simp] theorem Ctl.call_inbox (cb : Callback) (c : Ctl) : (c.call cb).dev.inbox = c.dev.inbox := by unfold Ctl.call; split <;> simp
@[simp] theorem Ctl.call_diags (cb : Callback) (c : Ctl) : (c.call cb).dev.diags = c.dev.diags := by unfold Ctl.call; split <;> simp
@[simp] theorem Ctl.call_result (cb : Callback) (c : Ctl) : (c.call cb).dev.result = c.dev.result := by unfold Ctl.call; split <;> simp
@[simp] theorem Ctl.call_draws (cb : Callback) (c : Ctl) : (c.call cb).dev.draws = c.dev.draws := by unfold Ctl.call; split <;> simp
@[simp] theorem Ctl.call_regs_intrusb (cb : Callback) (c : Ctl) : (c.call cb).dev.regs.intrusb = c.dev.regs.intrusb := by
  unfold Ctl.call; split <;> simp
@[simp] theorem Ctl.call_regs_intrtx (cb : Callback) (c : Ctl) : (c.call cb).dev.regs.intrtx = c.dev.regs.intrtx := by
  unfold Ctl.call; split <;> simp
@[simp] theorem Ctl.call_regs_intrrx (cb : Callback) (c : Ctl) : (c.call cb).dev.regs.intrrx = c.dev.regs.intrrx := by
  unfold Ctl.call; split <;> simp
@[simp] theorem Ctl.call_regs_intrusbe (cb : Callback) (c : Ctl) : (c.call cb).dev.regs.intrusbe = c.dev.regs.intrusbe := by
  unfold Ctl.call; split <;> simp
@[simp] theorem Ctl.call_regs_intrtxe (cb : Callback) (c : Ctl) : (c.call cb).dev.regs.intrtxe = c.dev.regs.intrtxe := by
  unfold Ctl.call; split <;> simp
@[simp] theorem Ctl.call_regs_intrrxe (cb : Callback) (c : Ctl) : (c.call cb).dev.regs.intrrxe = c.dev.regs.intrrxe := by
  unfold Ctl.call; split <;> simp
@[simp] theorem Ctl.call_regs_devctl (cb : Callback) (c : Ctl) : (c.call cb).dev.regs.devctl = c.dev.regs.devctl := by
  unfold Ctl.call; split <;> simp
@[simp] theorem Ctl.call_regs_testmode (cb : Callback) (c : Ctl) : (c.call cb).dev.regs.testmode = c.dev.regs.testmode := by
  unfold Ctl.call; split <;> simp
@[simp] theorem Ctl.call_regs_index (cb : Callback) (c : Ctl) : (c.call cb).dev.regs.index = c.dev.regs.index := by
  unfold Ctl.call; split <;> simp
@[simp] theorem Ctl.call_regs_txfifosz (cb : Callback) (c : Ctl) : (c.call cb).dev.regs.txfifosz = c.dev.regs.txfifosz := by
  unfold Ctl.call; split <;> simp
@[simp] theorem Ctl.call_regs_rxfifosz (cb : Callback) (c : Ctl) : (c.call cb).dev.regs.rxfifosz = c.dev.regs.rxfifosz := by
  unfold Ctl.call; split <;> simp
@[simp] theorem Ctl.call_regs_txfifoadd (cb : Callback) (c : Ctl) : (c.call cb).dev.regs.txfifoadd = c.dev.regs.txfifoadd := by
  unfold Ctl.call; split <;> simp
@[simp] theorem Ctl.call_regs_rxfifoadd (cb : Callback) (c : Ctl) : (c.call cb).dev.regs.rxfifoadd = c.dev.regs.rxfifoadd := by
  unfold Ctl.call; split <;> simp
@[simp] theorem Ctl.call_regs_brEp0Conf (cb : Callback) (c : Ctl) : (c.call cb).dev.regs.brEp0Conf = c.dev.regs.brEp0Conf := by
  unfold Ctl.call; split <;> simp
@[simp] theorem Ctl.call_regs_brTxConf (cb : Callback) (c : Ctl) : (c.call cb).dev.regs.brTxConf = c.dev.regs.brTxConf := by
  unfold Ctl.call; split <;> simp
@[simp] theorem Ctl.call_regs_brRxConf (cb : Callback) (c : Ctl) : (c.call cb).dev.regs.brRxConf = c.dev.regs.brRxConf := by
  unfold Ctl.call; split <;> simp

end Sys2Proof.Machine
end

