-- ==== Sys2Proof/Laws/Ops.lean ====
section
/-! SUPPORT. What the shared beginnings and endings of an operation can do: when an operation that needs an instance, a
configured instance or the lock answers a next state, and what the two endings leave. -/

namespace Sys2Proof.Machine

/-! ## Endings -/

@[simp] theorem finish_next (r : Result) (c : Ctl) (t : State) :
    finish r c = .next t ↔ t = (c.dropLock.withResult r).toState := by
  simp [finish, eq_comm]

@[simp] theorem finishUnlocked_next (r : Result) (c : Ctl) (t : State) :
    finishUnlocked r c = .next t ↔ t = (c.withResult r).toState := by
  simp [finishUnlocked, eq_comm]

@[simp] theorem raiseError_next (e : Status) (s t : State) :
    raiseError e s = .next t ↔ t = { s with dev := { s.dev with result := .status e } } := by
  simp [raiseError, eq_comm]

/-! ## Beginnings -/

/-- An operation that needs an instance goes on with it, or is refused. -/
theorem withInst_cases (s : State) (k : Ctl → Out) :
    (∃ i, s.inst = some i ∧ withInst s k = k ⟨i, s.dev⟩) ∨ (s.inst = none ∧ withInst s k = .refused .noInstance) := by
  unfold withInst
  split
  · exact .inr ⟨‹_›, rfl⟩
  · rename_i i h; exact .inl ⟨i, h, rfl⟩

theorem withInst_some {s : State} {i : Inst} (h : s.inst = some i) (k : Ctl → Out) :
    withInst s k = k ⟨i, s.dev⟩ := by simp [withInst, h]

theorem withInst_none {s : State} (h : s.inst = none) (k : Ctl → Out) :
    withInst s k = .refused .noInstance := by simp [withInst, h]

/-- An operation of a configured instance that answers a next state. -/
theorem whenConfigured_next {s t : State} {k : Ctl → Out} (h : whenConfigured s k = .next t) :
    ∃ i, s.inst = some i ∧ i.configured = true ∧ k ⟨i, s.dev⟩ = .next t := by
  unfold whenConfigured at h
  obtain ⟨i, hi, e⟩ | ⟨-, e⟩ := withInst_cases s fun c => if c.inst.configured then k c else .refused .notConfigured
  · rw [e] at h
    split at h
    · exact ⟨i, hi, ‹_›, h⟩
    · cases h
  · rw [e] at h; cases h

theorem whenConfigured_eq {s : State} {i : Inst} (hi : s.inst = some i) (hc : i.configured = true) (k : Ctl → Out) :
    whenConfigured s k = k ⟨i, s.dev⟩ := by simp [whenConfigured, withInst_some hi, hc]

theorem underLock_next {c : Ctl} {k : Ctl → Out} {t : State} (h : underLock c k = .next t) :
    c.inst.lock = .free ∧ k c.takeLock = .next t := by
  unfold underLock at h
  split at h
  · cases h
  · exact ⟨‹_›, h⟩

theorem underLock_eq {c : Ctl} (h : c.inst.lock = .free) (k : Ctl → Out) : underLock c k = k c.takeLock := by
  simp [underLock, h]

/-- A locked operation of a configured instance that answers a next state. -/
theorem whenReady_next {s t : State} {k : Ctl → Out} (h : whenReady s k = .next t) :
    ∃ i, s.inst = some i ∧ i.configured = true ∧ i.lock = .free ∧ k (Ctl.takeLock ⟨i, s.dev⟩) = .next t := by
  obtain ⟨i, hi, hc, h⟩ := whenConfigured_next h
  obtain ⟨hl, h⟩ := underLock_next h
  exact ⟨i, hi, hc, hl, h⟩

theorem whenReady_eq {s : State} {i : Inst} (hi : s.inst = some i) (hc : i.configured = true) (hl : i.lock = .free)
    (k : Ctl → Out) : whenReady s k = k (Ctl.takeLock ⟨i, s.dev⟩) := by
  rw [whenReady, whenConfigured_eq hi hc, underLock_eq hl]

end Sys2Proof.Machine
end

