-- ==== Sys2Proof/Laws/Alloc.lean ====
section
/-! SUPPORT. What the allocator's passes leave: the frame of a register write through the shim, of one placed entry and
of a whole pass, and where each entry of a pass ends up (R134 to R139). -/

namespace Sys2Proof.Machine

/-! ## Sizes (R133) -/

theorem effSize_eq (req : Nat) : effSize req = 2 ^ (max req 8).log2 := by
  simp [effSize, minFifoBytes, Nat.one_shiftLeft]

theorem effSize_log2 (req : Nat) : (effSize req).log2 = (max req 8).log2 := by
  rw [effSize_eq, Nat.log2_two_pow]

theorem log2_ge_three (req : Nat) : 3 ≤ (max req 8).log2 := by
  rw [Nat.le_log2 (by omega)]; omega

theorem log2_le_fifteen (req : BitVec 16) : (max req.toNat 8).log2 ≤ 15 := by
  have := req.isLt
  have h : (max req.toNat 8).log2 < 16 := (Nat.log2_lt (by omega)).mpr (by omega)
  omega

theorem effSize_le (req : BitVec 16) : effSize req.toNat ≤ 32768 := by
  rw [effSize_eq]
  exact Nat.pow_le_pow_right (n := 2) (by omega) (log2_le_fifteen req)

theorem effSize_ge (req : Nat) : 8 ≤ effSize req := by
  rw [effSize_eq]
  exact Nat.pow_le_pow_right (n := 2) (by omega) (log2_ge_three req)

theorem effSize_dvd (req : Nat) : 8 ∣ effSize req := by
  rw [effSize_eq]
  exact Nat.pow_dvd_pow 2 (log2_ge_three req)

theorem footprint_dvd (c : FifoEntry) : 8 ∣ footprint c := by
  unfold footprint
  split
  · exact effSize_dvd _
  · exact Dvd.dvd.mul_right (effSize_dvd _) 2

theorem effSize_le_footprint (c : FifoEntry) : effSize c.maxpacket.toNat ≤ footprint c := by
  unfold footprint; split <;> omega

theorem footprints_dvd (l : List FifoEntry) : 8 ∣ (l.map footprint).sum := by
  induction l with
  | nil => simp
  | cons c l ih => simp only [List.map_cons, List.sum_cons]; exact Nat.dvd_add (footprint_dvd c) ih

/-! ## The frame of the allocator (R130) -/

/-- What no part of configure changes: of the instance all but the table, its bitmask, count, bulk endpoint, `configured`
and the bridge's mode; of the device all but the registers, the bus trace and the draw counter; of the registers all but
the selector and the four size and offset registers. -/
structure AllocFrame (c c' : Ctl) : Prop where
  inst : c'.inst = { c.inst with
    ep := c'.inst.ep, epMask := c'.inst.epMask, nrEndpoints := c'.inst.nrEndpoints, bulkEp := c'.inst.bulkEp,
    configured := c'.inst.configured, lowPower := c'.inst.lowPower }
  lowPower : c'.inst.lowPower = c.inst.lowPower ∨ c'.inst.lowPower = lowPowerAfter c.dev.cfg.fifoVariant c.inst.lowPower
  dev : c'.dev = { c.dev with regs := c'.dev.regs, bus := c'.dev.bus, draws := c'.dev.draws }
  regs : c'.dev.regs = { c.dev.regs with
    index := c'.dev.regs.index, txfifosz := c'.dev.regs.txfifosz, rxfifosz := c'.dev.regs.rxfifosz,
    txfifoadd := c'.dev.regs.txfifoadd, rxfifoadd := c'.dev.regs.rxfifoadd }

theorem AllocFrame.cfg {c c' : Ctl} (h : AllocFrame c c') : c'.dev.cfg = c.dev.cfg := by rw [h.dev]

theorem AllocFrame.refl (c : Ctl) : AllocFrame c c := ⟨rfl, .inl rfl, rfl, rfl⟩

theorem AllocFrame.trans {a b c : Ctl} (h : AllocFrame a b) (k : AllocFrame b c) : AllocFrame a c := by
  refine ⟨?_, ?_, ?_, ?_⟩
  · rw [k.inst, h.inst]
  · rcases h.lowPower with h1 | h1 <;> rcases k.lowPower with k1 | k1 <;> rw [k1, h1] <;> simp [h.cfg]
  · rw [k.dev, h.dev]
  · rw [k.regs, h.regs]

theorem busWrite_scoped_frame (off n : Nat) (k : EpReg) (e : EpIdx) (v : Word) (c : Ctl) :
    AllocFrame c (busWrite off n (.epReg k e) v c) := by
  cases k <;> exact ⟨rfl, .inr rfl, rfl, rfl⟩

theorem busRead_scoped_frame (off n : Nat) (k : EpReg) (e : EpIdx) (c : Ctl) :
    AllocFrame c (busRead off n (.epReg k e) c) := by
  cases k <;> first
    | exact ⟨rfl, .inr rfl, rfl, rfl⟩
    | (simp only [busRead, regReadEffect]; split <;> exact ⟨rfl, .inr rfl, rfl, rfl⟩)

theorem selectEp_frame (e : EpIdx) (c : Ctl) : AllocFrame c (c.selectEp e) := ⟨rfl, .inr rfl, rfl, rfl⟩

theorem epWrite_frame (k : EpReg) (e : EpIdx) (v : Word) (c : Ctl) : AllocFrame c (epWrite k e v c) := by
  unfold epWrite
  split
  · exact busWrite_scoped_frame _ _ k e v c
  · exact (selectEp_frame e c).trans (busWrite_scoped_frame _ _ k e v _)

theorem epRead_frame (k : EpReg) (e : EpIdx) (c : Ctl) : AllocFrame c (epRead k e c) := by
  unfold epRead
  split
  · exact busRead_scoped_frame _ _ k e c
  · exact (selectEp_frame e c).trans (busRead_scoped_frame _ _ k e _)

theorem placeWrites_frame (e : FifoEntry) (off : Nat) (c : Ctl) : AllocFrame c (placeWrites e off c) := by
  unfold placeWrites
  dsimp only
  have h : AllocFrame c (if Style.hasTx e.style then
      epWrite .txfifoadd e.ep (addCode c.dev.cfg.regMap off)
        (epWrite .txfifosz e.ep (sizeCode c.dev.cfg.regMap e) c) else c) := by
    split
    · exact (epWrite_frame _ _ _ c).trans (epWrite_frame _ _ _ _)
    · exact .refl c
  split
  · exact (h.trans (epWrite_frame _ _ _ _)).trans (epWrite_frame _ _ _ _)
  · exact h

theorem placeEntry_frame (e : FifoEntry) (off : Nat) (c : Ctl) : AllocFrame c (placeEntry e off c) :=
  (placeWrites_frame e off c).trans ⟨rfl, .inl rfl, rfl, rfl⟩

/-! ## What one placed entry leaves in the registers and the record (R135) -/

/-- The contents of the four size and offset registers of endpoint `f`. -/
def sizeRegs (r : Regs) (f : EpIdx) : BitVec 8 × BitVec 8 × BitVec 16 × BitVec 16 :=
  (tget r.txfifosz f, tget r.rxfifosz f, tget r.txfifoadd f, tget r.rxfifoadd f)

theorem epWrite_regs (k : EpReg) (e : EpIdx) (v : Word) (c : Ctl) :
    ∃ ix, (epWrite k e v c).dev.regs =
      { (regWriteEffect (.epReg k e) k.width v c.dev).regs with index := ix } := by
  unfold epWrite
  split
  · exact ⟨(regWriteEffect (.epReg k e) k.width v c.dev).regs.index, by simp [busWrite]⟩
  · refine ⟨(BitVec.ofNat 32 e.val).setWidth 8, ?_⟩
    cases k <;> simp [Ctl.selectEp, Ctl.write, busWrite, regWriteEffect, Dev.logBus, Ctl.wake]

@[simp] theorem epWrite_inst_ep (k : EpReg) (e : EpIdx) (v : Word) (c : Ctl) :
    (epWrite k e v c).inst.ep = c.inst.ep := by simp

/-- The registers after the writes of an entry. -/
theorem placeWrites_regs (e : FifoEntry) (off : Nat) (c : Ctl) :
    ∃ ix, (placeWrites e off c).dev.regs = { c.dev.regs with
      index := ix
      txfifosz := if Style.hasTx e.style then tset c.dev.regs.txfifosz e.ep ((sizeCode c.dev.cfg.regMap e).setWidth 8)
        else c.dev.regs.txfifosz
      txfifoadd := if Style.hasTx e.style then tset c.dev.regs.txfifoadd e.ep ((addCode c.dev.cfg.regMap off).setWidth 16)
        else c.dev.regs.txfifoadd
      rxfifosz := if Style.hasRx e.style then tset c.dev.regs.rxfifosz e.ep ((sizeCode c.dev.cfg.regMap e).setWidth 8)
        else c.dev.regs.rxfifosz
      rxfifoadd := if Style.hasRx e.style then tset c.dev.regs.rxfifoadd e.ep ((addCode c.dev.cfg.regMap off).setWidth 16)
        else c.dev.regs.rxfifoadd } := by
  have two : ∀ (v w : Word) (k1 k2 : EpReg) (c : Ctl), ∃ ix, (epWrite k2 e.ep w (epWrite k1 e.ep v c)).dev.regs
      = { (regWriteEffect (.epReg k2 e.ep) k2.width w
            { c.dev with regs := (regWriteEffect (.epReg k1 e.ep) k1.width v c.dev).regs }).regs with
          index := ix } := by
    intro v w k1 k2 c
    obtain ⟨i1, h1⟩ := epWrite_regs k1 e.ep v c
    obtain ⟨i2, h2⟩ := epWrite_regs k2 e.ep w (epWrite k1 e.ep v c)
    refine ⟨i2, ?_⟩
    rw [h2]
    cases k2 <;> simp [regWriteEffect, h1]
  unfold placeWrites
  dsimp only
  obtain ⟨i1, h1⟩ := two (sizeCode c.dev.cfg.regMap e) (addCode c.dev.cfg.regMap off) .txfifosz .txfifoadd c
  by_cases ht : Style.hasTx e.style = true <;> by_cases hr : Style.hasRx e.style = true
  · simp only [ht, hr, if_true]
    obtain ⟨i2, h2⟩ := two (sizeCode c.dev.cfg.regMap e) (addCode c.dev.cfg.regMap off) .rxfifosz .rxfifoadd
      (epWrite .txfifoadd e.ep (addCode c.dev.cfg.regMap off) (epWrite .txfifosz e.ep (sizeCode c.dev.cfg.regMap e) c))
    refine ⟨i2, ?_⟩
    rw [h2]
    simp [regWriteEffect, h1]
  · simp only [ht, hr, if_true]
    exact ⟨i1, by simp [h1, regWriteEffect]⟩
  · simp only [ht, hr, if_true]
    obtain ⟨i2, h2⟩ := two (sizeCode c.dev.cfg.regMap e) (addCode c.dev.cfg.regMap off) .rxfifosz .rxfifoadd c
    exact ⟨i2, by simp [h2, regWriteEffect]⟩
  · exact ⟨c.dev.regs.index, by simp [ht, hr]⟩

/-- The record of the entry's endpoint, and no other, is written. -/
theorem placeEntry_ep (e : FifoEntry) (off : Nat) (c : Ctl) :
    (placeEntry e off c).inst.ep = tset c.inst.ep e.ep (placedRec e off (tget c.inst.ep e.ep))
    ∧ (placeEntry e off c).inst.epMask = c.inst.epMask ||| bit 16 e.ep.val := by
  have h := placeWrites_frame e off c
  have h1 : (placeWrites e off c).inst.ep = c.inst.ep := by
    unfold placeWrites; dsimp only; split <;> split <;> simp
  have h2 : (placeWrites e off c).inst.epMask = c.inst.epMask := by
    unfold placeWrites; dsimp only; split <;> split <;> simp
  simp only [placeEntry, h1, h2, and_self]

/-! ## The transmit and receive halves of an endpoint -/

/-- Everything configure says of one direction of an endpoint: size, double flag, offset, and the two registers. -/
structure Half where
  size   : BitVec 16
  double : Bool
  off    : BitVec 16
  sz     : BitVec 8
  add    : BitVec 16
  deriving DecidableEq

/-- The transmit half of endpoint `e`. -/
def txHalf (c : Ctl) (e : EpIdx) : Half :=
  ⟨(tget c.inst.ep e).maxPacketTx, (tget c.inst.ep e).txDouble, (tget c.inst.ep e).fifoOffTx,
    tget c.dev.regs.txfifosz e, tget c.dev.regs.txfifoadd e⟩

/-- The receive half of endpoint `e`. -/
def rxHalf (c : Ctl) (e : EpIdx) : Half :=
  ⟨(tget c.inst.ep e).maxPacketRx, (tget c.inst.ep e).rxDouble, (tget c.inst.ep e).fifoOffRx,
    tget c.dev.regs.rxfifosz e, tget c.dev.regs.rxfifoadd e⟩

/-- The half an entry placed at `off` gives. -/
def halfOf (m : RegMap) (x : FifoEntry) (off : Nat) : Half :=
  ⟨BitVec.ofNat 16 (effSize x.maxpacket.toNat), decide (x.depth = .double), BitVec.ofNat 16 off,
    (sizeCode m x).setWidth 8, (addCode m off).setWidth 16⟩

theorem placeEntry_txHalf (x : FifoEntry) (off : Nat) (c : Ctl) (e : EpIdx) :
    txHalf (placeEntry x off c) e =
      if e = x.ep ∧ Style.hasTx x.style = true then halfOf c.dev.cfg.regMap x off else txHalf c e := by
  obtain ⟨ix, hr⟩ := placeWrites_regs x off c
  have hr' : (placeEntry x off c).dev.regs = (placeWrites x off c).dev.regs := rfl
  simp only [txHalf, (placeEntry_ep x off c).1, hr', hr]
  by_cases he : e = x.ep
  · subst he
    cases hs : x.style <;> simp [placedRec, halfOf, Style.hasTx, Style.hasRx, hs]
  · split <;> simp [he, tget_tset_ne]

theorem placeEntry_rxHalf (x : FifoEntry) (off : Nat) (c : Ctl) (e : EpIdx) :
    rxHalf (placeEntry x off c) e =
      if e = x.ep ∧ Style.hasRx x.style = true then halfOf c.dev.cfg.regMap x off else rxHalf c e := by
  obtain ⟨ix, hr⟩ := placeWrites_regs x off c
  have hr' : (placeEntry x off c).dev.regs = (placeWrites x off c).dev.regs := rfl
  simp only [rxHalf, (placeEntry_ep x off c).1, hr', hr]
  by_cases he : e = x.ep
  · subst he
    cases hs : x.style <;> simp [placedRec, halfOf, Style.hasTx, Style.hasRx, hs]
  · split <;> simp [he, tget_tset_ne]

theorem placeEntry_shared (x : FifoEntry) (off : Nat) (c : Ctl) (e : EpIdx) :
    (tget (placeEntry x off c).inst.ep e).sharedFifo
      = if e = x.ep ∧ x.style = .rxtx then true else (tget c.inst.ep e).sharedFifo := by
  rw [(placeEntry_ep x off c).1]
  by_cases he : e = x.ep
  · subst he
    simp only [tget_tset_same, true_and, placedRec]
    by_cases h3 : x.style = .rxtx
    · simp [h3]
    · simp only [h3, if_false]; split <;> split <;> rfl
  · simp [he, tget_tset_ne]

theorem placeEntry_mask (x : FifoEntry) (off : Nat) (c : Ctl) (e : EpIdx) :
    (placeEntry x off c).inst.epMask.getLsbD e.val = (c.inst.epMask.getLsbD e.val || decide (e = x.ep)) := by
  rw [(placeEntry_ep x off c).2]
  have h : (bit 16 x.ep.val).getLsbD e.val = decide (e = x.ep) := by
    have := e.isLt
    have := x.ep.isLt
    by_cases he : e = x.ep
    · subst he; simp [bit]
    · have h1 : e.val ≠ x.ep.val := fun hh => he (Fin.ext hh)
      simp [bit, he]; omega
  rw [BitVec.getLsbD_or, h]

/-- The record of an endpoint no entry names stays as it is. -/
theorem placeEntry_other (x : FifoEntry) (off : Nat) (c : Ctl) {e : EpIdx} (h : e ≠ x.ep) :
    tget (placeEntry x off c).inst.ep e = tget c.inst.ep e := by
  rw [(placeEntry_ep x off c).1, tget_tset_ne _ _ h]

/-! ## A whole table-driven pass (R139) -/

/-- The pass either fails at the first entry that fails its check, or places every entry. -/
theorem placeAll_done {l : List FifoEntry} {off nr : Nat} {w : List FifoEntry} {c c' : Ctl}
    (h : placeAll l off nr w c = .done c') :
    AllocFrame c c'
    ∧ (∀ x ∈ l, x.ep.val < c.dev.cfg.numEps)
    ∧ (l ≠ [] → off + (l.map footprint).sum ≤ c.dev.cfg.fifoRamBytes)
    ∧ c'.inst.nrEndpoints = l.foldl (fun n x => max n (x.ep.val + 1)) nr := by
  induction l generalizing off nr w c with
  | nil =>
    simp only [placeAll, Pass.done.injEq] at h
    subst h
    exact ⟨⟨rfl, .inl rfl, rfl, rfl⟩, by simp, by simp, rfl⟩
  | cons x l ih =>
    simp only [placeAll] at h
    split at h
    · cases h
    · rename_i hk
      have hf := placeEntry_frame x off c
      obtain ⟨h1, h2, h3, h4⟩ := ih h
      rw [hf.cfg] at h2 h3
      have hk' : x.ep.val < c.dev.cfg.numEps ∧ off + footprint x ≤ c.dev.cfg.fifoRamBytes := by
        unfold placeCheck at hk
        split at hk
        · cases hk
        · split at hk
          · cases hk
          · omega
      refine ⟨hf.trans h1, ?_, fun _ => ?_, h4⟩
      · intro y hy
        rcases List.mem_cons.mp hy with rfl | hy
        · exact hk'.1
        · exact h2 y hy
      · simp only [List.map_cons, List.sum_cons]
        by_cases hl : l = []
        · subst hl; simp; omega
        · have := h3 hl; omega

/-- A pass whose entries all name an endpoint of the silicon and fit the RAM succeeds. -/
theorem placeAll_fits {l : List FifoEntry} {off nr : Nat} {w : List FifoEntry} {c : Ctl}
    (h1 : ∀ x ∈ l, x.ep.val < c.dev.cfg.numEps) (h2 : off + (l.map footprint).sum ≤ c.dev.cfg.fifoRamBytes) :
    ∃ c', placeAll l off nr w c = .done c' := by
  induction l generalizing off nr w c with
  | nil => exact ⟨_, rfl⟩
  | cons x l ih =>
    simp only [List.map_cons, List.sum_cons] at h2
    have hk : placeCheck c.dev.cfg x off = none := by
      have := h1 x (List.mem_cons_self ..)
      unfold placeCheck
      rw [if_neg (by omega), if_neg (by omega)]
    simp only [placeAll, hk]
    have hc := (placeEntry_frame x off c).cfg
    exact ih (by rw [hc]; exact fun y hy => h1 y (List.mem_cons_of_mem _ hy)) (by rw [hc]; omega)

/-- The pass up to a failing entry, and the cause. -/
theorem placeAll_failed {pre post : List FifoEntry} {x : FifoEntry} {off nr : Nat} {w : List FifoEntry} {c : Ctl}
    {cause : ExhaustCause} (h1 : ∀ y ∈ pre, y.ep.val < c.dev.cfg.numEps)
    (h2 : pre ≠ [] → off + (pre.map footprint).sum ≤ c.dev.cfg.fifoRamBytes)
    (h3 : placeCheck c.dev.cfg x (off + (pre.map footprint).sum) = some cause) :
    ∃ w' c', placeAll (pre ++ x :: post) off nr w c = .failed cause w' c' := by
  induction pre generalizing off nr w c with
  | nil =>
    simp only [List.map_nil, List.sum_nil, Nat.add_zero] at h3
    exact ⟨w, c, by simp [placeAll, h3]⟩
  | cons y pre ih =>
    have h2' := h2 (by simp)
    simp only [List.map_cons, List.sum_cons] at h2' h3
    have hk : placeCheck c.dev.cfg y off = none := by
      have := h1 y (List.mem_cons_self ..)
      unfold placeCheck
      rw [if_neg (by omega), if_neg (by omega)]
    simp only [List.cons_append, placeAll, hk]
    have hc := (placeEntry_frame y off c).cfg
    exact ih (by rw [hc]; exact fun z hz => h1 z (List.mem_cons_of_mem _ hz)) (by rw [hc]; intro _; omega)
      (by rw [hc, Nat.add_assoc]; exact h3)

/-- Where a pass that succeeds leaves each endpoint: halves, sharing and bitmask are those of the last entry that names
the direction, at the offset the entries before it leave. -/
theorem placeAll_places {l : List FifoEntry} {off nr : Nat} {w : List FifoEntry} {c c' : Ctl}
    (h : placeAll l off nr w c = .done c') (e : EpIdx) :
    ((∀ x ∈ l, ¬ (e = x.ep ∧ Style.hasTx x.style = true)) → txHalf c' e = txHalf c e)
    ∧ ((∀ x ∈ l, ¬ (e = x.ep ∧ Style.hasRx x.style = true)) → rxHalf c' e = rxHalf c e)
    ∧ ((∀ x ∈ l, ¬ (e = x.ep ∧ x.style = .rxtx)) → (tget c'.inst.ep e).sharedFifo = (tget c.inst.ep e).sharedFifo)
    ∧ ((∀ x ∈ l, e ≠ x.ep) → tget c'.inst.ep e = tget c.inst.ep e)
    ∧ (c'.inst.epMask.getLsbD e.val = (c.inst.epMask.getLsbD e.val || l.any fun x => decide (e = x.ep)))
    ∧ ((∃ x ∈ l, e = x.ep ∧ x.style = .rxtx) → (tget c'.inst.ep e).sharedFifo = true)
    ∧ (∀ pre x post, l = pre ++ x :: post → e = x.ep → Style.hasTx x.style = true →
        (∀ y ∈ post, ¬ (e = y.ep ∧ Style.hasTx y.style = true)) →
        txHalf c' e = halfOf c.dev.cfg.regMap x (off + (pre.map footprint).sum))
    ∧ (∀ pre x post, l = pre ++ x :: post → e = x.ep → Style.hasRx x.style = true →
        (∀ y ∈ post, ¬ (e = y.ep ∧ Style.hasRx y.style = true)) →
        rxHalf c' e = halfOf c.dev.cfg.regMap x (off + (pre.map footprint).sum)) := by
  induction l generalizing off nr w c with
  | nil =>
    simp only [placeAll, Pass.done.injEq] at h
    subst h
    refine ⟨fun _ => rfl, fun _ => rfl, fun _ => rfl, fun _ => rfl, by simp, by simp, ?_, ?_⟩ <;>
    · intro pre x post hl; simp at hl
  | cons x l ih =>
    simp only [placeAll] at h
    split at h
    · cases h
    · obtain ⟨i1, i2, i3, i4, i5, i6, i7, i8⟩ := ih h
      rw [placeEntry_txHalf] at i1
      rw [placeEntry_rxHalf] at i2
      rw [placeEntry_shared] at i3
      rw [placeEntry_mask] at i5
      rw [(placeEntry_frame x off c).cfg] at i7 i8
      refine ⟨fun hn => ?_, fun hn => ?_, fun hn => ?_, fun hn => ?_, ?_, ?_, ?_, ?_⟩
      · rw [i1 (fun y hy => hn y (List.mem_cons_of_mem _ hy)), if_neg (hn x (List.mem_cons_self ..))]
      · rw [i2 (fun y hy => hn y (List.mem_cons_of_mem _ hy)), if_neg (hn x (List.mem_cons_self ..))]
      · rw [i3 (fun y hy => hn y (List.mem_cons_of_mem _ hy)), if_neg (hn x (List.mem_cons_self ..))]
      · rw [i4 (fun y hy => hn y (List.mem_cons_of_mem _ hy)), placeEntry_other _ _ _ (hn x (List.mem_cons_self ..))]
      · rw [i5, List.any_cons, Bool.or_assoc]
      · rintro ⟨y, hy, hye, hys⟩
        by_cases hl : ∃ z ∈ l, e = z.ep ∧ z.style = .rxtx
        · exact i6 hl
        · rcases List.mem_cons.mp hy with rfl | hy
          · rw [i3 (fun z hz hh => hl ⟨z, hz, hh⟩), if_pos ⟨hye, hys⟩]
          · exact absurd ⟨y, hy, hye, hys⟩ hl
      · intro pre y post hl hy ht hpost
        cases pre with
        | nil =>
          simp only [List.nil_append, List.cons.injEq] at hl
          obtain ⟨rfl, rfl⟩ := hl
          rw [i1 hpost, if_pos ⟨hy, ht⟩]
          simp
        | cons z pre =>
          simp only [List.cons_append, List.cons.injEq] at hl
          obtain ⟨rfl, rfl⟩ := hl
          have := i7 pre y post rfl hy ht hpost
          rw [this]
          simp [Nat.add_assoc]
      · intro pre y post hl hy ht hpost
        cases pre with
        | nil =>
          simp only [List.nil_append, List.cons.injEq] at hl
          obtain ⟨rfl, rfl⟩ := hl
          rw [i2 hpost, if_pos ⟨hy, ht⟩]
          simp
        | cons z pre =>
          simp only [List.cons_append, List.cons.injEq] at hl
          obtain ⟨rfl, rfl⟩ := hl
          have := i8 pre y post rfl hy ht hpost
          rw [this]
          simp [Nat.add_assoc]

/-! ## Well-formed tables (R149) -/

/-- In a well-formed table no entry names endpoint 0, and no later entry names a direction an entry has. -/
theorem tableWf_split {pre post : List FifoEntry} {x : FifoEntry} (h : tableWf (pre ++ x :: post) = true) :
    x.ep ≠ 0 ∧ sizeOk x.maxpacket = true
    ∧ (∀ y ∈ post, x.clash y = false) ∧ ∀ y ∈ pre, y.clash x = false := by
  induction pre with
  | nil =>
    simp only [List.nil_append, tableWf, Bool.and_eq_true, decide_eq_true_eq, List.all_eq_true,
      Bool.not_eq_eq_eq_not, Bool.not_true] at h
    exact ⟨h.1.1.1, h.1.1.2, h.1.2, by simp⟩
  | cons z pre ih =>
    simp only [List.cons_append, tableWf, Bool.and_eq_true, decide_eq_true_eq, List.all_eq_true,
      Bool.not_eq_eq_eq_not, Bool.not_true] at h
    obtain ⟨h1, h2, h3, h4⟩ := ih h.2
    refine ⟨h1, h2, h3, fun y hy => ?_⟩
    rcases List.mem_cons.mp hy with rfl | hy
    · exact h.1.2 x (by simp)
    · exact h4 y hy

theorem clash_tx {a b : FifoEntry} (h : a.clash b = false) (he : a.ep = b.ep) :
    ¬ (Style.hasTx a.style = true ∧ Style.hasTx b.style = true) := by
  unfold FifoEntry.clash at h
  cases ha : a.style <;> cases hb : b.style <;> simp_all [Style.hasTx]

theorem clash_rx {a b : FifoEntry} (h : a.clash b = false) (he : a.ep = b.ep) :
    ¬ (Style.hasRx a.style = true ∧ Style.hasRx b.style = true) := by
  unfold FifoEntry.clash at h
  cases ha : a.style <;> cases hb : b.style <;> simp_all [Style.hasRx]

/-- With endpoint 0's implicit entry before it a well-formed table still names no direction twice. -/
theorem tableWf_split_ep0 {T : List FifoEntry} (h : tableWf T = true) {pre x post} (hl : ep0Entry :: T = pre ++ x :: post) :
   (∀ y ∈ post, x.clash y = false) ∧ (∀ y ∈ pre, y.clash x = false) := by
  cases pre with
  | nil =>
    simp only [List.nil_append, List.cons.injEq] at hl
    obtain ⟨rfl, rfl⟩ := hl
    refine ⟨fun y hy => ?_, by simp⟩
    obtain ⟨p, q, rfl⟩ := List.append_of_mem hy
    have := (tableWf_split h).1
    have h2 : ¬ (ep0Entry.ep = y.ep) := fun hh => this hh.symm
    simp [FifoEntry.clash, h2]
  | cons z pre =>
    simp only [List.cons_append, List.cons.injEq] at hl
    obtain ⟨rfl, rfl⟩ := hl
    obtain ⟨h1, h2, h3, h4⟩ := tableWf_split h
    refine ⟨h3, fun y hy => ?_⟩
    rcases List.mem_cons.mp hy with rfl | hy
    · have h2 : ¬ (ep0Entry.ep = x.ep) := fun hh => h1 hh.symm
      simp [FifoEntry.clash, h2]
    · exact h4 y hy

/-- After a pass over a well-formed table a direction is as before, or where its one entry put it. -/
theorem placeAll_tx {T} (hT : tableWf T = true) {c c' : Ctl} {off nr w}
    (h : placeAll (ep0Entry :: T) off nr w c = .done c') (e : EpIdx) :
    (txHalf c' e = txHalf c e ∧ ∀ x ∈ ep0Entry :: T, ¬ (e = x.ep ∧ Style.hasTx x.style = true))
    ∨ ∃ pre x post, ep0Entry :: T = pre ++ x :: post ∧ e = x.ep ∧ Style.hasTx x.style = true
        ∧ txHalf c' e = halfOf c.dev.cfg.regMap x (off + (pre.map footprint).sum) := by
  have hp := placeAll_places h e
  by_cases hn : ∀ x ∈ ep0Entry :: T, ¬ (e = x.ep ∧ Style.hasTx x.style = true)
  · exact .inl ⟨hp.1 hn, hn⟩
  · push Not at hn
    obtain ⟨x, hx, he, ht⟩ := hn
    obtain ⟨pre, post, hl⟩ := List.append_of_mem hx
    refine .inr ⟨pre, x, post, hl, he, ht, hp.2.2.2.2.2.2.1 pre x post hl he ht (fun y hy hh => ?_)⟩
    exact clash_tx ((tableWf_split_ep0 hT hl).1 y hy) (he ▸ hh.1) ⟨ht, hh.2⟩

theorem placeAll_rx {T} (hT : tableWf T = true) {c c' : Ctl} {off nr w}
    (h : placeAll (ep0Entry :: T) off nr w c = .done c') (e : EpIdx) :
    (rxHalf c' e = rxHalf c e ∧ ∀ x ∈ ep0Entry :: T, ¬ (e = x.ep ∧ Style.hasRx x.style = true))
    ∨ ∃ pre x post, ep0Entry :: T = pre ++ x :: post ∧ e = x.ep ∧ Style.hasRx x.style = true
        ∧ rxHalf c' e = halfOf c.dev.cfg.regMap x (off + (pre.map footprint).sum) := by
  have hp := placeAll_places h e
  by_cases hn : ∀ x ∈ ep0Entry :: T, ¬ (e = x.ep ∧ Style.hasRx x.style = true)
  · exact .inl ⟨hp.2.1 hn, hn⟩
  · push Not at hn
    obtain ⟨x, hx, he, ht⟩ := hn
    obtain ⟨pre, post, hl⟩ := List.append_of_mem hx
    refine .inr ⟨pre, x, post, hl, he, ht, hp.2.2.2.2.2.2.2 pre x post hl he ht (fun y hy hh => ?_)⟩
    exact clash_rx ((tableWf_split_ep0 hT hl).1 y hy) (he ▸ hh.1) ⟨ht, hh.2⟩

/-- Two entries of one list are the same, or the footprint of the earlier lies before the later. -/
theorem footprints_ordered {l : List FifoEntry} {p1 x1 q1 p2 x2 q2} (h1 : l = p1 ++ x1 :: q1) (h2 : l = p2 ++ x2 :: q2) :
    (p1 = p2 ∧ x1 = x2) ∨ (p1.map footprint).sum + footprint x1 ≤ (p2.map footprint).sum
      ∨ (p2.map footprint).sum + footprint x2 ≤ (p1.map footprint).sum := by
  rw [h1] at h2
  rcases List.append_eq_append_iff.mp h2 with ⟨a, rfl, h⟩ | ⟨a, rfl, h⟩
  · cases a with
    | nil => simp at h; exact .inl ⟨by simp, h.1⟩
    | cons z a =>
      simp only [List.cons_append, List.cons.injEq] at h
      obtain ⟨rfl, -⟩ := h
      right; left; simp
  · cases a with
    | nil => simp at h; exact .inl ⟨by simp, h.1.symm⟩
    | cons z a =>
      simp only [List.cons_append, List.cons.injEq] at h
      obtain ⟨rfl, -⟩ := h
      right; right; simp

/-! ## The whole of configure (R130) -/

@[simp] theorem tget_epTableReset (p : Params) (e : EpIdx) : tget (epTableReset p) e = EpRec.reset p e := by
  fin_cases e <;> rfl

/-- `CONFIGURE` that answers a next state ran on a ready controller that is not started, with a usable layout, and ended
with `Ok` and a configured instance or with the failure of its body. -/
theorem execConfigure_next {s t : State} (h : execConfigure s = .next t) :
    ∃ i, s.inst = some i ∧ i.configured = true ∧ i.lock = .free ∧ i.started = false ∧ layoutUsable s.dev.cfg = true
      ∧ ((∃ c1, configureBody (Ctl.takeLock ⟨i, s.dev⟩) = .done c1
            ∧ t = ((Ctl.mk { c1.inst with configured := true } c1.dev).dropLock.withResult .okStatus).toState)
        ∨ ∃ cause w c1, configureBody (Ctl.takeLock ⟨i, s.dev⟩) = .failed cause w c1
            ∧ t = ((afterFailure w c1).dropLock.withResult (.status (.resourceExhausted cause))).toState) := by
  unfold execConfigure at h
  obtain ⟨i, h1, h2, h3, h4⟩ := whenReady_next h
  simp only at h4
  split at h4
  · cases h4
  · rename_i hst
    split at h4
    · cases h4
    · rename_i htu
      refine ⟨i, h1, h2, h3, by simpa using hst, by simpa using htu, ?_⟩
      split at h4
      · rename_i c1 hc
        simp only [finish_next] at h4
        exact .inl ⟨c1, hc, h4⟩
      · rename_i cause w c1 hc
        simp only [raiseError_next] at h4
        exact .inr ⟨cause, w, c1, hc, h4⟩

/-- `CONFIGURE` on a ready controller that is not started, with a usable layout. -/
theorem execConfigure_eq {s : State} {i : Inst} (hi : s.inst = some i) (hc : i.configured = true)
    (hl : i.lock = .free) (hst : i.started = false) (ht : layoutUsable s.dev.cfg = true) :
    execConfigure s = (match configureBody (Ctl.takeLock ⟨i, s.dev⟩) with
      | .done c1 => finish .okStatus { c1 with inst := { c1.inst with configured := true } }
      | .failed cause w c1 => raiseError (.resourceExhausted cause) (afterFailure w c1).dropLock.toState) := by
  rw [execConfigure, whenReady_eq hi hc hl]
  cases configureBody (Ctl.takeLock ⟨i, s.dev⟩) <;> simp [hst, ht]

theorem configureBody_done {c c1 : Ctl} (h : configureBody c = .done c1) :
    ∃ c2, configurePass (clearTable c) = .done c2 ∧ bulkCheck (writtenEntries c.dev.cfg) c2 = .done c1 := by
  unfold configureBody at h
  split at h
  · cases h
  · rename_i c2 h2
    exact ⟨c2, h2, h⟩

/-- The bulk check writes the bulk endpoint and nothing else. -/
theorem bulkCheck_done {w : List FifoEntry} {c2 c1 : Ctl} (h : bulkCheck w c2 = .done c1) :
    c1.dev = c2.dev ∧ c1.inst = { c2.inst with bulkEp := c1.inst.bulkEp } := by
  unfold bulkCheck at h
  split at h
  · split at h <;> simp at h
    subst h; exact ⟨rfl, rfl⟩
  · simp at h; subst h; exact ⟨rfl, rfl⟩

end Sys2Proof.Machine
end

