-- ==== Sys2Proof/Laws/Decode.lean ====
section
/-! SUPPORT. The command word and its fields: splitting a joined word gives the fields, joining a split word gives the
word, and what each checking combinator of the decoder answers. -/

namespace Sys2Proof

@[simp] theorem splitWord_joinWord (f : Fields) : splitWord (joinWord f) = f := by
  obtain ⟨op, ep, z, a, d⟩ := f
  simp only [splitWord, joinWord, Fields.mk.injEq]
  refine ⟨?_, ?_, ?_, ?_, ?_⟩ <;>
  · apply BitVec.eq_of_getLsbD_eq
    intro i hi
    simp only [BitVec.getLsbD_extractLsb', BitVec.getLsbD_append, hi, decide_true, Bool.true_and]
    repeat' first
      | rw [if_neg (by omega)]
      | rw [if_pos (by omega)]
    congr 1
    omega

@[simp] theorem joinWord_splitWord (w : BitVec 64) : joinWord (splitWord w) = w := by
  simp only [splitWord, joinWord]
  apply BitVec.eq_of_getLsbD_eq
  intro i hi
  simp only [BitVec.getLsbD_append, BitVec.getLsbD_extractLsb']
  by_cases h1 : i < 32
  · simp [h1]
  · by_cases h2 : i < 48
    · have : i - 32 < 16 := by omega
      have e : 32 + (i - 32) = i := by omega
      simp [h1, this, e]
    · by_cases h3 : i < 52
      · have h4 : ¬ i - 32 < 16 := by omega
        have h5 : i - 32 - 16 < 4 := by omega
        have e : 48 + (i - 32 - 16) = i := by omega
        simp [h1, h4, h5, e]
      · by_cases h6 : i < 56
        · have h4 : ¬ i - 32 < 16 := by omega
          have h5 : ¬ i - 32 - 16 < 4 := by omega
          have h7 : i - 32 - 16 - 4 < 4 := by omega
          have e : 52 + (i - 32 - 16 - 4) = i := by omega
          simp [h1, h4, h5, h7, e]
        · have h4 : ¬ i - 32 < 16 := by omega
          have h5 : ¬ i - 32 - 16 < 4 := by omega
          have h7 : ¬ i - 32 - 16 - 4 < 4 := by omega
          have h8 : i - 32 - 16 - 4 - 4 < 8 := by omega
          have e : 56 + (i - 32 - 16 - 4 - 4) = i := by omega
          simp [h1, h4, h5, h7, h8, e]

/-- A check that passes. -/
@[simp] theorem rejectIf_false (r : Illegal) (k : Decoded) : rejectIf false r k = k := rfl

/-- A check that fails. -/
@[simp] theorem rejectIf_true (r : Illegal) (k : Decoded) : rejectIf true r k = .illegal r := rfl

/-- A checked answer is an operation exactly if the check passes and the rest answers it. -/
@[simp] theorem rejectIf_ok (b : Bool) (r : Illegal) (k : Decoded) (i : Instr) :
    rejectIf b r k = .ok i ↔ b = false ∧ k = .ok i := by cases b <;> simp

theorem decodeRead_ok {f : Fields} {mk : BitVec 16 → Instr} {i : Instr} :
    decodeRead f mk = .ok i ↔ f.ep = 0 ∧ f.data = 0 ∧ mk f.arg = i := by
  simp only [decodeRead, rejectIf_ok, bne_eq_false_iff_eq, Decoded.ok.injEq]

theorem decodeWrite_ok {f : Fields} {n : Nat} {j i : Instr} :
    decodeWrite f n j = .ok i ↔ f.ep = 0 ∧ f.data.toNat < 2 ^ n ∧ j = i := by
  simp only [decodeWrite, rejectIf_ok, bne_eq_false_iff_eq, Decoded.ok.injEq, decide_eq_false_iff_not, Nat.not_le]

theorem decodeNone_ok {f : Fields} {j i : Instr} :
    decodeNone f j = .ok i ↔ f.ep = 0 ∧ f.arg = 0 ∧ f.data = 0 ∧ j = i := by
  simp only [decodeNone, rejectIf_ok, bne_eq_false_iff_eq, Decoded.ok.injEq]

theorem decodeFifo_ok {n : Nat} {f : Fields} {mk : EpIdx → BitVec 16 → BitVec 32 → Instr} {i : Instr} :
    decodeFifo n f mk = .ok i ↔ f.ep.toNat < n ∧ mk f.ep.toFin f.arg f.data = i := by
  simp only [decodeFifo, rejectIf_ok, Decoded.ok.injEq, decide_eq_false_iff_not, Nat.not_le]

theorem decodeIrq_ok {f : Fields} {i : Instr} :
    decodeIrq f = .ok i ↔
      f.ep = 0 ∧ ((f.arg = 0 ∧ f.data = 0 ∧ i = .irq .live) ∨ (f.arg = 1 ∧ i = .irq (.synthetic f.data))) := by
  simp only [decodeIrq, rejectIf_ok, bne_eq_false_iff_eq]
  constructor
  · rintro ⟨h, h1⟩
    refine ⟨h, ?_⟩
    split at h1
    · rename_i ha
      simp only [rejectIf_ok, bne_eq_false_iff_eq, Decoded.ok.injEq] at h1
      exact .inl ⟨ha, h1.1, h1.2.symm⟩
    · split at h1
      · rename_i ha
        exact .inr ⟨ha, by simpa using h1.symm⟩
      · cases h1
  · rintro ⟨h, ⟨ha, hd, rfl⟩ | ⟨ha, rfl⟩⟩
    · simp [h, ha, hd]
    · simp [h, ha]

end Sys2Proof
end

