-- ==== Sys2Proof/Laws/Fifo.lean ====
section
/-! SUPPORT. What the unit loops of the FIFO engine do to the queues and to host memory, for any list of units that the
variant may move (R114 to R119). -/

namespace Sys2Proof.Machine

/-! ## Units a variant may move -/

/-- The units `ws` move the `left` bytes that remain: no unit is wider than a word; on the direct variant they move no
more than remain, on the bridge variant the length counter stands at what remains. -/
structure UnitsFit (v : FifoVariant) (counter left : Nat) (ws : List Nat) : Prop where
  narrow : ∀ w ∈ ws, w ≤ 4
  direct : v = .directBurst → ws.sum ≤ left
  bridge : v = .bridgeWord → counter = left

theorem pushAllow_eq (d : Dev) (e : EpIdx) (n : Nat) :
    pushAllow d e n = if d.cfg.fifoVariant = .bridgeWord then min n (tget d.brTxLeft e) else n := by
  unfold pushAllow; split <;> simp_all

theorem popAllow_eq (d : Dev) (e : EpIdx) (n : Nat) :
    popAllow d e n = if d.cfg.fifoVariant = .bridgeWord then min n (tget d.brRxLeft e) else n := by
  unfold popAllow; split <;> simp_all

theorem UnitsFit.allow {v : FifoVariant} {counter left w : Nat} {ws : List Nat} (h : UnitsFit v counter left (w :: ws)) :
    (if v = .bridgeWord then min w counter else w) = min w left := by
  cases v with
  | directBurst =>
    have := h.direct rfl
    simp only [List.sum_cons] at this
    simp only [reduceCtorEq, if_false]
    omega
  | bridgeWord => simp only [if_true, h.bridge rfl]

theorem UnitsFit.tail {v : FifoVariant} {counter left w : Nat} {ws : List Nat} (h : UnitsFit v counter left (w :: ws)) :
    UnitsFit v (counter - min w left) (left - w) ws := by
  refine ⟨fun x hx => h.narrow x (List.mem_cons_of_mem _ hx), fun hv => ?_, fun hv => ?_⟩
  · have := h.direct hv
    simp only [List.sum_cons] at this
    omega
  · rw [h.bridge hv]; omega

theorem directUnits_sum (a n : Nat) : (directUnits a n).sum = n := by
  unfold directUnits
  split
  · simp
  · split
    · simp only [List.sum_append, List.sum_replicate, smul_eq_mul]
      split <;> simp <;> omega
    · simp only [List.sum_append, List.sum_replicate, smul_eq_mul]
      split <;> split <;> simp <;> omega

theorem directUnits_narrow (a n : Nat) : ∀ w ∈ directUnits a n, w ≤ 4 := by
  intro w hw
  unfold directUnits at hw
  split at hw
  · have := List.eq_of_mem_replicate hw; omega
  · split at hw
    · rw [List.mem_append] at hw
      rcases hw with hw | hw
      · have := List.eq_of_mem_replicate hw; omega
      · split at hw <;> simp at hw; omega
    · rw [List.mem_append, List.mem_append] at hw
      rcases hw with (hw | hw) | hw
      · have := List.eq_of_mem_replicate hw; omega
      · split at hw <;> simp at hw; omega
      · split at hw <;> simp at hw; omega

/-- The units of a transfer fit, once the length is programmed. -/
theorem fifoUnits_fit (v : FifoVariant) (a n counter : Nat) (h : v = .bridgeWord → counter = n) :
    UnitsFit v counter n (fifoUnits v a n) := by
  cases v with
  | directBurst =>
    exact ⟨directUnits_narrow a n, fun _ => (directUnits_sum a n).le, fun h => (by cases h)⟩
  | bridgeWord =>
    refine ⟨fun w hw => ?_, fun h => (by cases h), h⟩
    have := List.eq_of_mem_replicate hw
    omega

/-- They move all of it. -/
theorem fifoUnits_sum (v : FifoVariant) (a n : Nat) : min (fifoUnits v a n).sum n = n := by
  cases v with
  | directBurst => simp [fifoUnits, directUnits_sum]
  | bridgeWord => simp only [fifoUnits, bridgeUnits, List.sum_replicate, smul_eq_mul]; omega

/-! ## Pushing (R114, R117) -/

theorem fifoPush_txq_same (e : EpIdx) (w left counter : Nat) (ws : List Nat) (l : List Byte) (c : Ctl)
    (hf : UnitsFit c.dev.cfg.fifoVariant counter left (w :: ws)) (hc : tget c.dev.brTxLeft e = counter)
    (hl : l.length = min w left) :
    tget (fifoPush e w (wordOf l) c).dev.txq e = tget c.dev.txq e ++ l
    ∧ tget (fifoPush e w (wordOf l) c).dev.brTxLeft e = counter - min w left := by
  have ha : pushAllow c.dev e w = min w left := by
    rw [pushAllow_eq, hc, hf.allow]
  have hw := hf.narrow w (List.mem_cons_self ..)
  constructor
  · have h1 : (bytesOf w (wordOf l)).take (min w left) = l := by
      rw [bytesOf_take _ _ _ (by omega), ← hl, bytesOf_wordOf l (by omega)]
    simp only [fifoPush, Dev.logBus_txq, pushFifo, tget_tset_same, ha, h1]
  · simp only [fifoPush, Dev.logBus_brTxLeft, pushFifo, tget_tset_same, ha, hc]

theorem pushUnits_inst (e : EpIdx) (ws : List Nat) (a left : Nat) (c : Ctl) :
    (pushUnits e ws a left c).inst = c.inst := by
  induction ws generalizing a left c with
  | nil => rfl
  | cons w ws ih => rw [pushUnits, ih]; rfl

/-- The pushes of a write change the transmit queue, its counter and the bus trace only. -/
theorem pushUnits_frame (e : EpIdx) (ws : List Nat) (a left : Nat) (c : Ctl) :
    let c' := pushUnits e ws a left c
    c'.dev = { c.dev with txq := c'.dev.txq, brTxLeft := c'.dev.brTxLeft, bus := c'.dev.bus }
    ∧ ∀ f, f ≠ e → tget c'.dev.txq f = tget c.dev.txq f := by
  induction ws generalizing a left c with
  | nil => exact ⟨rfl, fun _ _ => rfl⟩
  | cons w ws ih =>
    obtain ⟨h1, h2⟩ := ih (a + w) (left - w) (fifoPush e w (unitValue c.dev.mem a w left) c)
    refine ⟨?_, fun f hf => ?_⟩
    · rw [pushUnits, h1]; rfl
    · rw [pushUnits, h2 f hf]
      simp only [fifoPush, Dev.logBus_txq, pushFifo]
      exact tget_tset_ne _ _ hf

/-- The pushes of a write append the buffer's bytes, in ascending order. -/
theorem pushUnits_txq (e : EpIdx) (ws : List Nat) (a left counter : Nat) (c : Ctl)
    (hf : UnitsFit c.dev.cfg.fifoVariant counter left ws) (hc : tget c.dev.brTxLeft e = counter) :
    tget (pushUnits e ws a left c).dev.txq e = tget c.dev.txq e ++ c.dev.mem.readBytes a (min ws.sum left) := by
  induction ws generalizing a left counter c with
  | nil => simp [pushUnits, Memory.readBytes]
  | cons w ws ih =>
    have h1 := fifoPush_txq_same e w left counter ws (c.dev.mem.readBytes a (min w left)) c hf hc (by simp)
    have h2 := ih (a + w) (left - w) (counter - min w left) (fifoPush e w (unitValue c.dev.mem a w left) c) hf.tail h1.2
    rw [pushUnits, h2]
    have h3 : tget (fifoPush e w (unitValue c.dev.mem a w left) c).dev.txq e
        = tget c.dev.txq e ++ c.dev.mem.readBytes a (min w left) := h1.1
    have h4 : (fifoPush e w (unitValue c.dev.mem a w left) c).dev.mem = c.dev.mem := rfl
    rw [h3, h4, List.append_assoc]
    congr 1
    simp only [List.sum_cons]
    by_cases hw : left ≤ w
    · have e1 : min ws.sum (left - w) = 0 := by omega
      have e2 : min (w + ws.sum) left = min w left := by omega
      rw [e1, e2]
      simp [Memory.readBytes]
    · have e1 : min w left = w := by omega
      have e2 : min (w + ws.sum) left = w + min ws.sum (left - w) := by omega
      rw [e1, e2, Memory.readBytes_add]

/-! ## Popping (R115, R118) -/

/-- The bytes a unit of a read stores: the first of the queue, then free ones. -/
theorem popUnit_bytes (e : EpIdx) (w left counter : Nat) (ws : List Nat) (d : Dev)
    (hf : UnitsFit d.cfg.fifoVariant counter left (w :: ws)) (hc : tget d.brRxLeft e = counter) :
    popAllow d e w = min w left
    ∧ (bytesOf (min w left) (popValue e w d)).length = min w left
    ∧ ∀ k b, k < min w left → (tget d.rxq e)[k]? = some b → (bytesOf (min w left) (popValue e w d))[k]? = some b := by
  have ha : popAllow d e w = min w left := by
    rw [popAllow_eq, hc, hf.allow]
  have hw := hf.narrow w (List.mem_cons_self ..)
  refine ⟨ha, by simp, fun k b hk hb => ?_⟩
  have hp : (popped e w d).length ≤ w := by simp only [popped, ha, List.length_take]; omega
  have hlen : (popped e w d ++ freeBytes d.draws (w - (popped e w d).length)).length = w := by
    simp only [List.length_append, freeBytes_length]; omega
  have hb4 : bytesOf w (popValue e w d) = popped e w d ++ freeBytes d.draws (w - (popped e w d).length) := by
    have h0 := bytesOf_wordOf (popped e w d ++ freeBytes d.draws (w - (popped e w d).length)) (by omega)
    rw [hlen] at h0
    exact h0
  rw [← bytesOf_take w _ _ (by omega), hb4, List.getElem?_take_of_lt hk]
  have hkl : k < (tget d.rxq e).length := (List.getElem?_eq_some_iff.mp hb).1
  have hkp : k < (popped e w d).length := by simp only [popped, ha, List.length_take]; omega
  rw [List.getElem?_append_left hkp]
  simp only [popped, ha]
  rw [List.getElem?_take_of_lt hk, hb]

theorem popUnits_inst (e : EpIdx) (ws : List Nat) (a left : Nat) (c : Ctl) :
    (popUnits e ws a left c).inst = c.inst := by
  induction ws generalizing a left c with
  | nil => rfl
  | cons w ws ih => rw [popUnits, ih]; rfl

/-- The pops of a read change the receive queue, its counter, the draw counter, host memory and the bus trace only. -/
theorem popUnits_frame (e : EpIdx) (ws : List Nat) (a left : Nat) (c : Ctl) :
    let c' := popUnits e ws a left c
    c'.dev = { c.dev with
      rxq := c'.dev.rxq, brRxLeft := c'.dev.brRxLeft, draws := c'.dev.draws, mem := c'.dev.mem, bus := c'.dev.bus }
    ∧ ∀ f, f ≠ e → tget c'.dev.rxq f = tget c.dev.rxq f := by
  induction ws generalizing a left c with
  | nil => exact ⟨rfl, fun _ _ => rfl⟩
  | cons w ws ih =>
    obtain ⟨h1, h2⟩ := ih (a + w) (left - w) (popUnit e w a left c)
    refine ⟨?_, fun f hf => ?_⟩
    · rw [popUnits, h1]; rfl
    · rw [popUnits, h2 f hf]
      simp only [popUnit, fifoPop, Dev.logBus_rxq, popFifo]
      exact tget_tset_ne _ _ hf

/-- The pops of a read take the bytes off the queue and store them in order; no other byte of memory changes. -/
theorem popUnits_spec (e : EpIdx) (ws : List Nat) (a left counter : Nat) (c : Ctl)
    (hf : UnitsFit c.dev.cfg.fifoVariant counter left ws) (hc : tget c.dev.brRxLeft e = counter)
    (hm : c.dev.mem.wf = true) (ha : 0 < min ws.sum left → a + min ws.sum left ≤ 2 ^ 32) :
    let c' := popUnits e ws a left c
    c'.dev.mem.wf = true
    ∧ tget c'.dev.rxq e = (tget c.dev.rxq e).drop (min ws.sum left)
    ∧ (∀ k b, k < min ws.sum left → (tget c.dev.rxq e)[k]? = some b → c'.dev.mem.read (a + k) = b)
    ∧ ∀ x, ¬ (a ≤ x ∧ x < a + min ws.sum left) → c'.dev.mem.read x = c.dev.mem.read x := by
  induction ws generalizing a left counter c with
  | nil => exact ⟨hm, by simp [popUnits], by simp, fun _ _ => rfl⟩
  | cons w ws ih =>
    simp only [List.sum_cons] at ha ⊢
    obtain ⟨hal, hlen, hget⟩ := popUnit_bytes e w left counter ws c.dev hf hc
    generalize hb : bytesOf (min w left) (popValue e w c.dev) = bytes at hlen hget
    have hmem : (popUnit e w a left c).dev.mem = c.dev.mem.writeBytes a bytes := by
      simp only [popUnit, ← hb]; rfl
    have hwl : bytes ≠ [] → a + bytes.length ≤ 2 ^ 32 := fun hne => by
      have := List.length_pos_iff.mpr hne
      have := ha (by omega)
      omega
    have hwf : (popUnit e w a left c).dev.mem.wf = true := by
      rw [hmem]; exact Memory.writeBytes_wf hm hwl
    have hq : tget (popUnit e w a left c).dev.rxq e = (tget c.dev.rxq e).drop (min w left) := by
      simp only [popUnit, fifoPop, Dev.logBus_rxq, popFifo, tget_tset_same, hal]
    have hcnt : tget (popUnit e w a left c).dev.brRxLeft e = counter - min w left := by
      simp only [popUnit, fifoPop, Dev.logBus_brRxLeft, popFifo, tget_tset_same, hal, hc]
    have hrd := fun x => Memory.read_writeBytes (x := x) hm hwl
    obtain ⟨r1, r2, r3, r4⟩ := ih (a + w) (left - w) (counter - min w left) (popUnit e w a left c) hf.tail hcnt hwf
      (fun hp => by have := ha (by omega); omega)
    have htot : min (w + ws.sum) left = min w left + min ws.sum (left - w) := by omega
    refine ⟨r1, ?_, fun k b hk hb => ?_, fun x hx => ?_⟩
    · rw [popUnits, r2, hq, List.drop_drop, htot]
    · rw [popUnits]
      by_cases hk2 : k < min w left
      · rw [r4 (a + k) (by omega), hmem, hrd, dif_pos (by omega)]
        have h1 := hget k b hk2 hb
        have h2 : a + k - a = k := by omega
        rw [List.getElem?_eq_some_iff] at h1
        obtain ⟨h3, h4⟩ := h1
        simp only [h2]
        exact h4
      · have h1 : w ≤ k := by omega
        have h2 := r3 (k - w) b (by omega) (by
          rw [hq, List.getElem?_drop]
          have : min w left + (k - w) = k := by omega
          rw [this]; exact hb)
        have h3 : a + w + (k - w) = a + k := by omega
        rw [h3] at h2
        exact h2
    · rw [popUnits, r4 x (by omega), hmem, hrd, dif_neg (by omega)]

/-! ## The side channel (R116) -/

/-- What a legal register map says of the length registers (R70). -/
theorem lenFields_of_wf {p : Params} (h : p.wf = true) :
    p.regMap.brLen.low + p.regMap.brLen.width ≤ 32 ∧ p.regMap.brEp0Len.low + p.regMap.brEp0Len.width ≤ 32
    ∧ p.regMap.brEp0DirBit < 32
    ∧ (p.regMap.brEp0DirBit < p.regMap.brEp0Len.low
        ∨ p.regMap.brEp0Len.low + p.regMap.brEp0Len.width ≤ p.regMap.brEp0DirBit) := by
  simp only [Params.wf, RegMap.wf, BitField.wf, BitField.leaves, Bool.and_eq_true, Bool.or_eq_true,
    decide_eq_true_eq] at h
  exact ⟨h.2.1.1.2, h.2.1.2, h.2.2⟩

/-- A value that fits its field stands there shifted, nothing lost. -/
theorem putField_toNat {f : BitField} {n : Nat} (hn : n < 2 ^ f.width) (hf : f.low + f.width ≤ 32) :
    (putField f n).toNat = n * 2 ^ f.low := by
  have h1 : n * 2 ^ f.low < 2 ^ 32 := by
    calc n * 2 ^ f.low < 2 ^ f.width * 2 ^ f.low := Nat.mul_lt_mul_of_pos_right hn (Nat.two_pow_pos _)
      _ = 2 ^ (f.low + f.width) := by rw [Nat.add_comm, Nat.pow_add]
      _ ≤ 2 ^ 32 := Nat.pow_le_pow_right (by omega) hf
  have h2 : n < 2 ^ 32 := Nat.lt_of_le_of_lt (Nat.le_mul_of_pos_right n (Nat.two_pow_pos _)) h1
  rw [putField, BitVec.toNat_shiftLeft, BitVec.toNat_ofNat, Nat.mod_eq_of_lt h2, Nat.shiftLeft_eq, Nat.mod_eq_of_lt h1]

/-- A field reads back what was put in it, whatever stands in the bits outside it. -/
theorem getField_or_putField {f : BitField} {n : Nat} {v : Word} (hn : n < 2 ^ f.width) (hf : f.low + f.width ≤ 32)
    (hv : ∀ k, f.low ≤ k → k < f.low + f.width → v.getLsbD k = false) : getField f (v ||| putField f n) = n := by
  apply Nat.eq_of_testBit_eq
  intro k
  simp only [getField, Nat.testBit_mod_two_pow, Nat.testBit_shiftRight, BitVec.toNat_or, Nat.testBit_or,
    putField_toNat hn hf]
  by_cases hk : k < f.width
  · have h1 := hv (f.low + k) (by omega) (by omega)
    rw [BitVec.getLsbD] at h1
    rw [h1, Nat.mul_comm, Nat.testBit_two_pow_mul]
    simp [hk]
  · have : n.testBit k = false :=
      Nat.testBit_eq_false_of_lt (Nat.lt_of_lt_of_le hn (Nat.pow_le_pow_right (by omega) (by omega)))
    simp [hk, this]

theorem getField_putField {f : BitField} {n : Nat} (hn : n < 2 ^ f.width) (hf : f.low + f.width ≤ 32) :
    getField f (putField f n) = n := by
  simpa using getField_or_putField (v := 0) hn hf (by simp)

theorem dirBit_set {dir : Nat} (v : Word) (h : dir < 32) : (bit 32 dir ||| v).getLsbD dir = true := by
  simp [bit, h]

/-- A bit outside a field stays clear when the field is filled. -/
theorem putField_outside {f : BitField} {n k : Nat} (hn : n < 2 ^ f.width) (hf : f.low + f.width ≤ 32)
    (hk : k < f.low ∨ f.low + f.width ≤ k) : (putField f n).getLsbD k = false := by
  rw [BitVec.getLsbD, putField_toNat hn hf, Nat.mul_comm, Nat.testBit_two_pow_mul]
  rcases hk with h | h
  · simp; omega
  · simp only [Bool.and_eq_false_iff]
    exact .inr (Nat.testBit_eq_false_of_lt (Nat.lt_of_lt_of_le hn (Nat.pow_le_pow_right (by omega) (by omega))))

/-- On the bridge variant the transmit counter stands at the programmed length. -/
theorem programTx_counter {e : EpIdx} {n : Nat} {c : Ctl} (hw : c.dev.cfg.wf = true)
    (hf : countFits c.dev.cfg e n = true) (hv : c.dev.cfg.fifoVariant = .bridgeWord) :
    tget (programTx e n c).dev.brTxLeft e = n := by
  obtain ⟨h1, h2, h3, h4⟩ := lenFields_of_wf hw
  simp only [countFits, hv, decide_eq_true_eq] at hf
  simp only [programTx, hv]
  by_cases he : e = 0
  · subst he
    simp only [lenField, if_true] at hf
    have hb : ∀ k, c.dev.cfg.regMap.brEp0Len.low ≤ k →
        k < c.dev.cfg.regMap.brEp0Len.low + c.dev.cfg.regMap.brEp0Len.width →
        (bit 32 c.dev.cfg.regMap.brEp0DirBit).getLsbD k = false := by
      intro k hk1 hk2; simp [bit]; omega
    simp only [txProgram, if_true, busWrite, regWriteEffect, Dev.logBus_brTxLeft, ep0Program, tget_tset_same,
      dirBit_set _ h3, getField_or_putField hf h2 hb]
  · simp only [lenField, he, if_false] at hf
    simp only [txProgram, he, if_false, busWrite, regWriteEffect, Dev.logBus_brTxLeft, tget_tset_same,
      getField_putField hf h1]

/-- On the bridge variant the receive counter stands at the programmed length. -/
theorem programRx_counter {e : EpIdx} {n : Nat} {c : Ctl} (hw : c.dev.cfg.wf = true)
    (hf : countFits c.dev.cfg e n = true) (hv : c.dev.cfg.fifoVariant = .bridgeWord) :
    tget (programRx e n c).dev.brRxLeft e = n := by
  obtain ⟨h1, h2, h3, h4⟩ := lenFields_of_wf hw
  simp only [countFits, hv, decide_eq_true_eq] at hf
  simp only [programRx, hv]
  by_cases he : e = 0
  · subst he
    simp only [lenField, if_true] at hf
    simp only [rxProgram, if_true, busWrite, regWriteEffect, Dev.logBus_brRxLeft, ep0Program, tget_tset_same,
      putField_outside hf h2 h4, getField_putField hf h2]
    simp
  · simp only [lenField, he, if_false] at hf
    simp only [rxProgram, he, if_false, busWrite, regWriteEffect, Dev.logBus_brRxLeft, tget_tset_same,
      getField_putField hf h1]

/-- The side channel's write touches its register, the two counters, the bus trace and the bridge's mode only. -/
theorem programTx_frame (e : EpIdx) (n : Nat) (c : Ctl) :
    let c' := programTx e n c
    c'.inst = { c.inst with lowPower := lowPowerAfter c.dev.cfg.fifoVariant c.inst.lowPower }
    ∧ c'.dev = { c.dev with
        regs := c'.dev.regs, brTxLeft := c'.dev.brTxLeft, brRxLeft := c'.dev.brRxLeft, bus := c'.dev.bus }
    ∧ (c.dev.cfg.fifoVariant = .directBurst → c' = c) := by
  unfold programTx
  split <;> rename_i hv
  · simp [hv]
  · unfold txProgram
    split <;> simp [hv, busWrite, regWriteEffect, ep0Program, Dev.logBus]

/-- The same of a receive transfer. -/
theorem programRx_frame (e : EpIdx) (n : Nat) (c : Ctl) :
    let c' := programRx e n c
    c'.inst = { c.inst with lowPower := lowPowerAfter c.dev.cfg.fifoVariant c.inst.lowPower }
    ∧ c'.dev = { c.dev with
        regs := c'.dev.regs, brTxLeft := c'.dev.brTxLeft, brRxLeft := c'.dev.brRxLeft, bus := c'.dev.bus }
    ∧ (c.dev.cfg.fifoVariant = .directBurst → c' = c) := by
  unfold programRx
  split <;> rename_i hv
  · simp [hv]
  · unfold rxProgram
    split <;> simp [hv, busWrite, regWriteEffect, ep0Program, Dev.logBus]

/-- The preconditions hold. -/
theorem transferCheck_none {c : Ctl} {e : EpIdx} {mps : BitVec 16} {n a : Nat} :
    transferCheck c e mps n a = none ↔ e.val < c.dev.cfg.numEps ∧ n ≤ mps.toNat ∧ countFits c.dev.cfg e n = true
      ∧ allocated c.dev.regions a n = true := by
  unfold transferCheck
  split
  · simp_all
  · split
    · simp_all
    · split
      · simp_all
      · split <;> simp_all

end Sys2Proof.Machine
end

