-- ==== Sys2Proof/Laws/Keeps.lean ====
section
/-! SUPPORT. What no bus transaction on a global register, no callback and no write of a delivery touches, as one
relation between two controllers: every step of an interrupt delivery, of `START` and of `STOP` is in it, so the frame
of an operation is proved by chaining. -/

namespace Sys2Proof.Machine

/-- A register that is neither endpoint-scoped nor a port nor a length register (R23). -/
def Reg.isGlobal : Reg → Bool
  | .epReg _ _ => false
  | .brEp0Conf => false
  | .brTxConf _ => false
  | .brRxConf _ => false
  | .fifo _ => false
  | _ => true

/-- `c'` has the parameters, configuration, lock, queues, memory and environment of `c`, and a low-power mode that only
a bridge access has ended. -/
structure Keeps (c c' : Ctl) : Prop where
  cfg : c'.dev.cfg = c.dev.cfg
  base : c'.inst.base = c.inst.base
  cfgRole : c'.inst.cfgRole = c.inst.cfgRole
  ep : c'.inst.ep = c.inst.ep
  epMask : c'.inst.epMask = c.inst.epMask
  nrEndpoints : c'.inst.nrEndpoints = c.inst.nrEndpoints
  bulkEp : c'.inst.bulkEp = c.inst.bulkEp
  configured : c'.inst.configured = c.inst.configured
  lock : c'.inst.lock = c.inst.lock
  idleTimer : c'.inst.idleTimer = c.inst.idleTimer
  wakeEnables : c'.inst.wakeEnables = c.inst.wakeEnables
  started : c'.inst.started = c.inst.started
  otgOverlayActive : c'.inst.otgOverlayActive = c.inst.otgOverlayActive
  lowPower : c'.inst.lowPower = c.inst.lowPower ∨ c'.inst.lowPower = lowPowerAfter c.dev.cfg.fifoVariant c.inst.lowPower
  txq : c'.dev.txq = c.dev.txq
  rxq : c'.dev.rxq = c.dev.rxq
  brTxLeft : c'.dev.brTxLeft = c.dev.brTxLeft
  brRxLeft : c'.dev.brRxLeft = c.dev.brRxLeft
  mem : c'.dev.mem = c.dev.mem
  regions : c'.dev.regions = c.dev.regions
  memmapOk : c'.dev.memmapOk = c.dev.memmapOk
  irqOk : c'.dev.irqOk = c.dev.irqOk
  midTransfer : c'.dev.midTransfer = c.dev.midTransfer
  inbox : c'.dev.inbox = c.dev.inbox
  draws : c'.dev.draws = c.dev.draws
  index : c'.dev.regs.index = c.dev.regs.index
  txfifosz : c'.dev.regs.txfifosz = c.dev.regs.txfifosz
  rxfifosz : c'.dev.regs.rxfifosz = c.dev.regs.rxfifosz
  txfifoadd : c'.dev.regs.txfifoadd = c.dev.regs.txfifoadd
  rxfifoadd : c'.dev.regs.rxfifoadd = c.dev.regs.rxfifoadd
  brEp0Conf : c'.dev.regs.brEp0Conf = c.dev.regs.brEp0Conf
  brTxConf : c'.dev.regs.brTxConf = c.dev.regs.brTxConf
  brRxConf : c'.dev.regs.brRxConf = c.dev.regs.brRxConf

theorem Keeps.refl (c : Ctl) : Keeps c c := by
  constructor <;> first | rfl | exact .inl rfl

theorem Keeps.trans {a b c : Ctl} (h : Keeps a b) (k : Keeps b c) : Keeps a c := by
  constructor
  case lowPower =>
    rcases h.lowPower with h1 | h1 <;> rcases k.lowPower with k1 | k1 <;> rw [k1, h1] <;> simp [h.cfg]
  all_goals first
    | exact k.cfg.trans h.cfg | exact k.base.trans h.base | exact k.cfgRole.trans h.cfgRole | exact k.ep.trans h.ep
    | exact k.epMask.trans h.epMask | exact k.nrEndpoints.trans h.nrEndpoints | exact k.bulkEp.trans h.bulkEp
    | exact k.configured.trans h.configured | exact k.lock.trans h.lock | exact k.idleTimer.trans h.idleTimer
    | exact k.wakeEnables.trans h.wakeEnables | exact k.started.trans h.started
    | exact k.otgOverlayActive.trans h.otgOverlayActive | exact k.txq.trans h.txq | exact k.rxq.trans h.rxq
    | exact k.brTxLeft.trans h.brTxLeft | exact k.brRxLeft.trans h.brRxLeft | exact k.mem.trans h.mem
    | exact k.regions.trans h.regions | exact k.memmapOk.trans h.memmapOk | exact k.irqOk.trans h.irqOk
    | exact k.midTransfer.trans h.midTransfer | exact k.inbox.trans h.inbox | exact k.draws.trans h.draws
    | exact k.index.trans h.index | exact k.txfifosz.trans h.txfifosz | exact k.rxfifosz.trans h.rxfifosz
    | exact k.txfifoadd.trans h.txfifoadd | exact k.rxfifoadd.trans h.rxfifoadd
    | exact k.brEp0Conf.trans h.brEp0Conf | exact k.brTxConf.trans h.brTxConf | exact k.brRxConf.trans h.brRxConf

/-! ## Bus transactions and callbacks -/

theorem keeps_read {r : Reg} (h : r.isGlobal = true) (c : Ctl) : Keeps c (c.read r) := by
  cases r <;> first | (cases h; done) | (constructor <;> first | rfl | exact .inr rfl)

theorem keeps_write {r : Reg} (h : r.isGlobal = true) (hx : r ≠ .index) (v : Word) (c : Ctl) :
    Keeps c (c.write r v) := by
  cases r <;> first
    | (cases h; done) | (exact absurd rfl hx) | (constructor <;> first | rfl | exact .inr rfl)

theorem keeps_collabMove (m : CollabMove) (c : Ctl) : Keeps c (collabMove m c) := by
  cases m <;> (constructor <;> first | rfl | exact .inl rfl | exact .inr (by simp [collabMove, Ctl.read, Ctl.write, busRead, busWrite]))

theorem keeps_collabMoves (l : List CollabMove) (c : Ctl) : Keeps c (collabMoves l c) := by
  induction l generalizing c with
  | nil => exact .refl c
  | cons m l ih => exact (keeps_collabMove m c).trans (ih _)

theorem keeps_call (cb : Callback) (c : Ctl) : Keeps c (c.call cb) := by
  unfold Ctl.call
  dsimp only
  split
  · constructor <;> first | rfl | exact .inl rfl
  · refine Keeps.trans ?_ (keeps_collabMoves _ _)
    constructor <;> first | rfl | exact .inl rfl

theorem keeps_callAll (l : List Callback) (c : Ctl) : Keeps c (c.callAll l) := by
  induction l generalizing c with
  | nil => exact .refl c
  | cons cb l ih => exact (keeps_call cb c).trans (ih _)

/-! ## The steps of a delivery -/

theorem keeps_setLink (l : LinkState) (c : Ctl) : Keeps c (c.setLink l) := by
  constructor <;> first | rfl | exact .inl rfl
theorem keeps_setActive (b : Bool) (c : Ctl) : Keeps c (c.setActive b) := by
  constructor <;> first | rfl | exact .inl rfl
theorem keeps_setRetry (n : Nat) (c : Ctl) : Keeps c (c.setRetry n) := by
  constructor <;> first | rfl | exact .inl rfl
theorem keeps_forceHost (c : Ctl) : Keeps c c.forceHost := by
  constructor <;> first | rfl | exact .inl rfl
theorem keeps_resetCtrl (c : Ctl) : Keeps c c.resetCtrl := by
  constructor <;> first | rfl | exact .inl rfl
theorem keeps_diag (t : Diag) (c : Ctl) : Keeps c (c.diag t) := by
  constructor <;> first | rfl | exact .inl rfl
theorem keeps_startSession (c : Ctl) : Keeps c c.startSession := keeps_write rfl (by decide) _ c
theorem keeps_connectPortStep (snap : Snapshot) (c : Ctl) : Keeps c (connectPortStep snap c) := by
  constructor <;> first | rfl | exact .inl rfl

theorem keeps_siteA (c : Ctl) : Keeps c (siteA c) := by
  unfold siteA
  exact ((keeps_read rfl c).trans (keeps_read rfl _)).trans (keeps_call _ _)

theorem keeps_siteB (d : BitVec 8) (a b x y : Bool) (c : Ctl) : Keeps c (siteB d a b x y c) := by
  unfold siteB
  exact keeps_call _ c

theorem keeps_siteAIfActive (c : Ctl) : Keeps c (siteAIfActive c) := by
  unfold siteAIfActive
  split
  · exact keeps_siteA c
  · exact .refl c

theorem keeps_siteAExtra (t : TriggerPoint) (c : Ctl) : Keeps c (siteAExtra t c) := by
  unfold siteAExtra
  split
  · exact keeps_siteAIfActive c
  · exact .refl c

theorem keeps_resumeStep (snap : Snapshot) (c : Ctl) : Keeps c (resumeStep snap c) := by
  unfold resumeStep
  refine Keeps.trans ?_ (keeps_siteAExtra _ _)
  refine (keeps_setActive true c).trans ?_
  split
  · exact ((keeps_forceHost _).trans (keeps_write rfl (by decide) _ _)).trans (keeps_setLink _ _)
  · exact keeps_call _ _

theorem keeps_sessReqStep (c : Ctl) : Keeps c (sessReqStep c) :=
  ((((keeps_startSession c).trans (keeps_resetCtrl _)).trans (keeps_setLink _ _)).trans (keeps_forceHost _)).trans
    (keeps_siteAExtra _ _)

theorem keeps_vbusErrStep (c : Ctl) : Keeps c (vbusErrStep c) := by
  unfold vbusErrStep
  refine Keeps.trans ?_ (keeps_siteAExtra _ _)
  split
  · exact ((keeps_setLink _ c).trans (keeps_setRetry _ _)).trans (keeps_startSession _)
  · exact keeps_setLink _ c

theorem keeps_connectTransition (c : Ctl) : Keeps c (connectTransition c) := by
  unfold connectTransition
  split <;> first | exact keeps_setLink _ c | exact (keeps_diag _ c).trans (keeps_setLink _ _)

theorem keeps_connectStep (snap : Snapshot) (c : Ctl) : Keeps c (connectStep snap c) :=
  ((((((keeps_setActive true c).trans (keeps_resetCtrl _)).trans (keeps_connectPortStep snap _)).trans
    (keeps_call _ _)).trans (keeps_forceHost _)).trans (keeps_connectTransition _)).trans (keeps_siteAExtra _ _)

theorem keeps_resetStep (snap : Snapshot) (c : Ctl) : Keeps c (resetStep snap c) := by
  unfold resetStep
  refine Keeps.trans ?_ (keeps_siteAExtra _ _)
  split
  · exact keeps_diag _ c
  · dsimp only
    split
    · exact (keeps_call _ c).trans (keeps_siteB _ _ _ _ _ _)
    · exact keeps_call _ c

theorem keeps_budgetReset (snap : Snapshot) (c : Ctl) : Keeps c (budgetReset snap c) := by
  unfold budgetReset
  split
  · exact keeps_setRetry _ c
  · exact .refl c

theorem keeps_stepIf {f : Ctl → Ctl} (hf : ∀ c, Keeps c (f c)) (b : Bool) (c : Ctl) : Keeps c (stepIf b f c) := by
  unfold stepIf
  split
  · exact hf c
  · exact .refl c

theorem keeps_stage0 (snap : Snapshot) (c : Ctl) : Keeps c (stage0 snap c) :=
  (((((keeps_stepIf (keeps_resumeStep snap) _ c).trans (keeps_stepIf keeps_sessReqStep _ _)).trans
    (keeps_stepIf keeps_vbusErrStep _ _)).trans (keeps_stepIf (keeps_connectStep snap) _ _)).trans
    (keeps_stepIf (keeps_resetStep snap) _ _)).trans (keeps_budgetReset snap _)

theorem keeps_disconnectStep (c : Ctl) : Keeps c (disconnectStep c) :=
  ((keeps_setActive false c).trans (keeps_call _ _)).trans (keeps_siteAIfActive _)

theorem keeps_suspendStep (c : Ctl) : Keeps c (suspendStep c) := by
  unfold suspendStep
  refine Keeps.trans ?_ (keeps_siteAExtra _ _)
  split
  · exact keeps_setActive _ c
  · exact (keeps_call _ c).trans (keeps_setActive _ _)

theorem keeps_stage2 (snap : Snapshot) (c : Ctl) : Keeps c (stage2 snap c) :=
  (keeps_stepIf keeps_disconnectStep _ c).trans (keeps_stepIf keeps_suspendStep _ _)

/-- A whole delivery keeps what `Keeps` lists. -/
theorem keeps_deliver (snap : Snapshot) (c : Ctl) : Keeps c (deliver snap c) := by
  have h : Keeps c (stage2 snap (beforeStage2 snap c)) :=
    ((keeps_stage0 snap c).trans (keeps_callAll _ _)).trans (keeps_stage2 snap _)
  unfold deliver
  dsimp only
  split
  · exact h
  · exact h.trans (keeps_diag _ _)

theorem keeps_captureReads (c : Ctl) : Keeps c (captureReads c) :=
  ((((keeps_read rfl c).trans (keeps_read rfl _)).trans (keeps_read rfl _)).trans (keeps_read rfl _)).trans
    (keeps_read rfl _)

/-! ## Start and stop -/

theorem keeps_programEnables (c : Ctl) : Keeps c (programEnables c) :=
  ((keeps_write rfl (by decide) _ c).trans (keeps_write rfl (by decide) _ _)).trans (keeps_write rfl (by decide) _ _)

theorem keeps_enablePower (c : Ctl) : Keeps c (enablePower c) :=
  (keeps_read rfl c).trans (keeps_write rfl (by decide) _ _)

theorem keeps_sessionByRole (c : Ctl) : Keeps c (sessionByRole c) :=
  (keeps_read rfl c).trans (keeps_write rfl (by decide) _ _)

/-- `START` up to its last step. -/
theorem keeps_startProgram (c : Ctl) :
    Keeps c (sessionByRole (enablePower (((programEnables c).call .boardEnable).write .testmode 0))) :=
  ((((keeps_programEnables c).trans (keeps_call _ _)).trans (keeps_write rfl (by decide) _ _)).trans
    (keeps_enablePower _)).trans (keeps_sessionByRole _)

/-- The register part of `STOP`. -/
theorem keeps_stopProgram (c : Ctl) :
    Keeps c ((((((((c.call .boardDisable).write .intrusbe 0).write .intrtxe 0).write .intrrxe 0).write .devctl 0).read
      .intrusb).read .intrtx).read .intrrx) :=
  (((((((keeps_call _ c).trans (keeps_write rfl (by decide) _ _)).trans (keeps_write rfl (by decide) _ _)).trans
    (keeps_write rfl (by decide) _ _)).trans (keeps_write rfl (by decide) _ _)).trans (keeps_read rfl _)).trans
    (keeps_read rfl _)).trans (keeps_read rfl _)

end Sys2Proof.Machine
end

