-- ==== Sys2Proof/Laws/Link.lean ====
section
/-! SUPPORT. The steps of a delivery while no collaborator writes anything in its callbacks: what each leaves in the
fields a statement about a delivery names. Overlay site A changes nothing but the traces and the bridge's mode. -/

namespace Sys2Proof.Machine

/-! ## Callbacks and the overlay -/

@[simp] theorem Ctl.call_inst_quiet (cb : Callback) (c : Ctl) (h : c.dev.cbScript = []) : (c.call cb).inst = c.inst := by
  rw [Ctl.call_of_no_script h]

@[simp] theorem Ctl.call_regs_quiet (cb : Callback) (c : Ctl) (h : c.dev.cbScript = []) :
    (c.call cb).dev.regs = c.dev.regs := by
  rw [Ctl.call_of_no_script h]; rfl

@[simp] theorem Ctl.call_bus_quiet (cb : Callback) (c : Ctl) (h : c.dev.cbScript = []) :
    (c.call cb).dev.bus = c.dev.bus := by
  rw [Ctl.call_of_no_script h]; rfl

/-- What site A leaves of the instance: all but the bridge's mode. -/
def SameLink (a b : Inst) : Prop := ∃ lp, b = { a with lowPower := lp }

theorem SameLink.refl (a : Inst) : SameLink a a := ⟨a.lowPower, rfl⟩

/-- What a quiet site A leaves alone. -/
structure SiteFrame (c c' : Ctl) : Prop where
  inst : SameLink c.inst c'.inst
  regs : c'.dev.regs = c.dev.regs
  diags : c'.dev.diags = c.dev.diags
  cbScript : c'.dev.cbScript = []

theorem siteA_quiet (c : Ctl) (h : c.dev.cbScript = []) : SiteFrame c (siteA c) := by
  have hq : ((c.read .devctl).read .power).dev.cbScript = [] := h
  constructor
  · rw [siteA, Ctl.call_inst_quiet _ _ hq]; exact ⟨_, rfl⟩
  · rw [siteA, Ctl.call_regs_quiet _ _ hq]; rfl
  · rw [siteA, Ctl.call_diags]; rfl
  · rw [siteA, Ctl.call_cbScript, hq]; rfl

theorem siteAIfActive_quiet (c : Ctl) (h : c.dev.cbScript = []) : SiteFrame c (siteAIfActive c) := by
  unfold siteAIfActive
  split
  · exact siteA_quiet c h
  · exact ⟨.refl _, rfl, rfl, h⟩

theorem siteAExtra_quiet (t : TriggerPoint) (c : Ctl) (h : c.dev.cbScript = []) : SiteFrame c (siteAExtra t c) := by
  unfold siteAExtra
  split
  · exact siteAIfActive_quiet c h
  · exact ⟨.refl _, rfl, rfl, h⟩

/-- Stage 1 changes nothing of a quiet controller but the callback trace. -/
theorem callAll_quiet (l : List Callback) (c : Ctl) (h : c.dev.cbScript = []) :
    c.callAll l = { c with dev := { c.dev with calls := c.dev.calls ++ l.map fun cb => ⟨cb, some c.inst.view⟩ } } := by
  induction l generalizing c with
  | nil => simp [Ctl.callAll]
  | cons cb l ih =>
    rw [Ctl.callAll, ih _ (by simp [h]), Ctl.call_of_no_script h]
    simp [Dev.logCall, h]

end Sys2Proof.Machine
end

