-- ==== Sys2Proof/Laws/PerInstr.lean ====
section
/-! SUPPORT. The family `WordFields` of statements about every instruction as syntax: the fields of its command word
(R60) are the ones the table gives it (R61), bits 51:48 are 0, and only a FIFO operation has a non-zero `ep` field. -/

namespace Sys2Proof.Laws.WordFields

/-- The instruction names an endpoint. -/
def namesEndpoint : Instr → Bool
  | .wrfifo _ _ _ => true
  | .rdfifo _ _ _ => true
  | _ => false

/-- The command word of `i` splits into `i`'s fields, its `zero` field is 0, and its `ep` field is 0 unless `i` names
an endpoint (R60, R61). -/
def Statement (i : Instr) : Prop :=
  splitWord (encode i) = i.fields ∧ (splitWord (encode i)).zero = 0
    ∧ (namesEndpoint i = false → (splitWord (encode i)).ep = 0)

theorem rd8 (off : BitVec 16) : Statement (.rd8 off) :=
  ⟨splitWord_joinWord _, by rw [encode, splitWord_joinWord]; rfl, fun _ => by rw [encode, splitWord_joinWord]; rfl⟩
theorem rd16 (off : BitVec 16) : Statement (.rd16 off) :=
  ⟨splitWord_joinWord _, by rw [encode, splitWord_joinWord]; rfl, fun _ => by rw [encode, splitWord_joinWord]; rfl⟩
theorem rd32 (off : BitVec 16) : Statement (.rd32 off) :=
  ⟨splitWord_joinWord _, by rw [encode, splitWord_joinWord]; rfl, fun _ => by rw [encode, splitWord_joinWord]; rfl⟩
theorem wr8 (off : BitVec 16) (v : BitVec 8) : Statement (.wr8 off v) :=
  ⟨splitWord_joinWord _, by rw [encode, splitWord_joinWord]; rfl, fun _ => by rw [encode, splitWord_joinWord]; rfl⟩
theorem wr16 (off : BitVec 16) (v : BitVec 16) : Statement (.wr16 off v) :=
  ⟨splitWord_joinWord _, by rw [encode, splitWord_joinWord]; rfl, fun _ => by rw [encode, splitWord_joinWord]; rfl⟩
theorem wr32 (off : BitVec 16) (v : BitVec 32) : Statement (.wr32 off v) :=
  ⟨splitWord_joinWord _, by rw [encode, splitWord_joinWord]; rfl, fun _ => by rw [encode, splitWord_joinWord]; rfl⟩
theorem wrfifo (e : EpIdx) (n : BitVec 16) (src : BitVec 32) : Statement (.wrfifo e n src) :=
  ⟨splitWord_joinWord _, by rw [encode, splitWord_joinWord]; rfl, fun h => by cases h⟩
theorem rdfifo (e : EpIdx) (n : BitVec 16) (dst : BitVec 32) : Statement (.rdfifo e n dst) :=
  ⟨splitWord_joinWord _, by rw [encode, splitWord_joinWord]; rfl, fun h => by cases h⟩
theorem configure : Statement .configure :=
  ⟨splitWord_joinWord _, by rw [encode, splitWord_joinWord]; rfl, fun _ => by rw [encode, splitWord_joinWord]; rfl⟩
theorem irq (src : SnapSource) : Statement (.irq src) := by
  cases src <;>
  exact ⟨splitWord_joinWord _, by rw [encode, splitWord_joinWord]; rfl,
    fun _ => by rw [encode, splitWord_joinWord]; rfl⟩
theorem start : Statement .start :=
  ⟨splitWord_joinWord _, by rw [encode, splitWord_joinWord]; rfl, fun _ => by rw [encode, splitWord_joinWord]; rfl⟩
theorem stop : Statement .stop :=
  ⟨splitWord_joinWord _, by rw [encode, splitWord_joinWord]; rfl, fun _ => by rw [encode, splitWord_joinWord]; rfl⟩
theorem getmode : Statement .getmode :=
  ⟨splitWord_joinWord _, by rw [encode, splitWord_joinWord]; rfl, fun _ => by rw [encode, splitWord_joinWord]; rfl⟩
theorem getcable : Statement .getcable :=
  ⟨splitWord_joinWord _, by rw [encode, splitWord_joinWord]; rfl, fun _ => by rw [encode, splitWord_joinWord]; rfl⟩
theorem tryidle : Statement .tryidle :=
  ⟨splitWord_joinWord _, by rw [encode, splitWord_joinWord]; rfl, fun _ => by rw [encode, splitWord_joinWord]; rfl⟩
theorem attach : Statement .attach :=
  ⟨splitWord_joinWord _, by rw [encode, splitWord_joinWord]; rfl, fun _ => by rw [encode, splitWord_joinWord]; rfl⟩
theorem detach : Statement .detach :=
  ⟨splitWord_joinWord _, by rw [encode, splitWord_joinWord]; rfl, fun _ => by rw [encode, splitWord_joinWord]; rfl⟩

end Sys2Proof.Laws.WordFields
end

