-- ==== Sys2Proof/Laws/Resolve.lean ====
section
/-! SUPPORT. The register at an offset: a legal map (R64) puts no two registers at one offset, and what `resolve`
answers, in terms of the location list. -/

namespace Sys2Proof.Machine

/-- Disjoint ranges of positive size start at different offsets. -/
theorem disjointRanges_nodup {l : List (Nat × Nat)} (h : disjointRanges l = true) (hp : ∀ r ∈ l, 0 < r.2) :
    (l.map Prod.fst).Nodup := by
  induction l with
  | nil => simp
  | cons r rest ih =>
    simp only [disjointRanges, Bool.and_eq_true, List.all_eq_true] at h
    simp only [List.map_cons, List.nodup_cons, List.mem_map, not_exists, not_and]
    refine ⟨fun x hx he => ?_, ih h.2 fun y hy => hp y (by simp [hy])⟩
    have h1 := h.1 x hx
    have h2 := hp x (by simp [hx])
    have h3 := hp r (by simp)
    simp only [disjointRange, Bool.or_eq_true, decide_eq_true_eq] at h1
    omega

theorem ranges_pos (p : Params) (m : RegMap) : ∀ r ∈ m.ranges p, 0 < r.2 := by
  intro r hr
  unfold RegMap.ranges RegMap.spaceRanges RegMap.bridgeRanges at hr
  simp only [List.mem_append] at hr
  rcases hr with (((hr | hr) | hr) | hr) | hr
  · simp at hr; rcases hr with h | h | h | h | h | h | h | h | h | h | h <;> simp [h]
  · split at hr
    · simp at hr
      rcases hr with (h | h | h | h | ⟨e, -, h⟩)
      all_goals first | simp [h] | skip
      rcases h with ⟨x, -, h⟩ | ⟨x, -, h⟩ | ⟨x, -, h⟩ | ⟨x, -, h⟩ <;> simp [← h]
    · simp at hr
  · simp at hr
    obtain ⟨e, -, x, -, h⟩ := hr
    simp [← h]
  · split at hr
    · simp at hr
      obtain ⟨e, -, h⟩ := hr
      simp [← h]
    · simp at hr
  · split at hr
    · simp at hr
    · simp at hr
      rcases hr with h | ⟨e, -, h | h⟩ | ⟨e, -, h | h⟩ <;> simp [h]

theorem count_pair {α : Type} (l : List α) (f g : α → Nat) (a : Nat) :
    (l.flatMap fun e => [f e, g e]).count a = (l.map fun e => f e).count a + (l.map fun e => g e).count a := by
  induction l with
  | nil => rfl
  | cons x rest ih => 
    simp only [List.flatMap_cons, List.map_cons, List.count_append, List.count_cons, ih, List.count_nil]
    omega

theorem count_app {α : Type} (l : List α) (f g : α → List Nat) (a : Nat) :
    (l.flatMap fun e => f e ++ g e).count a = (l.flatMap f).count a + (l.flatMap g).count a := by
  induction l with
  | nil => rfl
  | cons x rest ih => simp only [List.flatMap_cons, List.count_append, ih]; omega

theorem flatLocs_fst (p : Params) (k : EpReg) : (flatLocs p k).map Prod.fst
    = (allEps p).flatMap fun e => (k.off p.regMap).flat.toList.map fun f => tget f e := by
  unfold flatLocs
  cases (k.off p.regMap).flat with
  | none => simp
  | some f => induction allEps p <;> simp_all

/-- The location list has the offsets the well-formedness check looks at. -/
theorem locs_perm (p : Params) : ((locs p).map Prod.fst).Perm ((p.regMap.ranges p).map Prod.fst) := by
  rw [List.perm_iff_count]
  intro a
  unfold locs RegMap.ranges RegMap.spaceRanges RegMap.bridgeRanges variantLocs epRegs globalLocs
  cases p.hwDynFifo <;> cases p.fifoVariant <;>
  simp only [List.map_append, List.map_flatMap, List.map_map, Function.comp_def, List.map_cons, List.map_nil,
    flatLocs_fst, EpReg.off, if_true, if_false, count_pair, count_app, List.count_append, List.flatMap_cons,
    List.flatMap_nil, Bool.false_eq_true, List.append_nil, List.count_cons, List.count_nil] <;> omega

/-- A legal map puts no two registers at one offset. -/
theorem locs_unique {p : Params} (h : p.regMap.wf p = true) {off : Nat} {x y : Loc} (hx : (off, x) ∈ locs p)
    (hy : (off, y) ∈ locs p) : x = y := by
  have hn : ((locs p).map Prod.fst).Nodup := by
    rw [(locs_perm p).nodup_iff]
    refine disjointRanges_nodup ?_ (ranges_pos p _)
    simp only [RegMap.wf, Bool.and_eq_true] at h
    exact h.1.1.1.1.1.1.1.1.1.1.1.1.1
  have := List.inj_on_of_nodup_map hn hx hy rfl
  simpa using this

/-- An access reaches a register exactly where the location list has it, aligned and in its width. -/
theorem resolve_ok {p : Params} (h : p.regMap.wf p = true) (index : BitVec 8) (off n : Nat) (r : Reg) :
    resolve p index off n = .ok r ↔ off % n = 0 ∧
      (((off, .reg r) ∈ locs p ∧ r.accepts p.fifoVariant n = true)
        ∨ ∃ k, (off, .window k) ∈ locs p ∧ n = k.width ∧ (selectedEp index).val < p.numEps
            ∧ r = .epReg k (selectedEp index)) := by
  have hfind : ∀ x, (locs p).find? (fun y => decide (y.1 = off)) = some (off, x) ↔ (off, x) ∈ locs p := by
    intro x
    refine ⟨fun hf => List.mem_of_find?_eq_some hf, fun hm => ?_⟩
    cases hf : (locs p).find? (fun y => decide (y.1 = off)) with
    | none => simpa using List.find?_eq_none.1 hf _ hm
    | some y =>
      have h1 : y.1 = off := by simpa using List.find?_some hf
      have h2 := List.mem_of_find?_eq_some hf
      obtain ⟨y1, y2⟩ := y
      cases h1
      rw [locs_unique h h2 hm]
  unfold resolve
  by_cases hm : off % n = 0
  · simp only [hm, ne_eq, not_true_eq_false, if_false, true_and]
    split
    · rename_i hf
      constructor
      · intro h; cases h
      · rintro (⟨h1, -⟩ | ⟨k, h1, -⟩) <;> rw [← hfind, hf] at h1 <;> cases h1
    · rename_i y r' hf
      have : y = off := by simpa using List.find?_some hf
      cases this
      have h2 := List.mem_of_find?_eq_some hf
      constructor
      · intro h3
        split at h3
        · cases h3; exact .inl ⟨h2, by assumption⟩
        · cases h3
      · rintro (⟨h1, h3⟩ | ⟨k, h1, -⟩)
        · have := locs_unique h h1 h2; cases this; simp [h3]
        · have := locs_unique h h1 h2; cases this
    · rename_i y k hf
      have : y = off := by simpa using List.find?_some hf
      cases this
      have h2 := List.mem_of_find?_eq_some hf
      constructor
      · intro h3
        split at h3
        · split at h3
          · cases h3; exact .inr ⟨k, h2, by assumption, by assumption, rfl⟩
          · cases h3
        · cases h3
      · rintro (⟨h1, -⟩ | ⟨k', h1, hw, hs, rfl⟩)
        · have := locs_unique h h1 h2; cases this
        · have := locs_unique h h1 h2; cases this; simp [hw, hs]
  · simp [hm]

/-- A register that is no port accepts its own width (R103). -/
theorem accepts_iff {v : FifoVariant} {r : Reg} {n : Nat} (h : ∀ e, r ≠ .fifo e) :
    r.accepts v n = true ↔ n = r.width := by
  cases r <;> first
    | exact absurd rfl (h _)
    | (cases v <;> exact decide_eq_true_iff)

/-- The widths a port accepts (R43). -/
theorem accepts_fifo (v : FifoVariant) (e : EpIdx) (n : Nat) :
    (Reg.fifo e).accepts v n = true ↔ if v = .bridgeWord then n = 4 else n = 1 ∨ n = 2 ∨ n = 4 := by
  cases v <;> simp [Reg.accepts]

end Sys2Proof.Machine
end

