-- ==== Sys2Proof/Tests/Slice0.lean ====
section
/-! SUPPORT. The model's own tests. Expected results come from spec/95_test_vectors.md (the vector is named at each) or
from the rule named; the last part shows for each statement with hypotheses a state and operands that meet them. -/

set_option maxRecDepth 10000

namespace Sys2Proof.Machine.Tests

open Sys2Proof Sys2Proof.Machine Host

/-! ## Helpers -/

/-- The state an operation leaves, where it leaves one. -/
def nextOf : Out → Option State
  | .next t => some t
  | .fault _ => none
  | .refused _ => none

/-- Something of the state an operation leaves. -/
def after {α : Type} (f : State → α) (o : Out) : Option α := (nextOf o).map f

/-- The refusal an operation ends in. -/
def refusalOf : Out → Option Refusal
  | .next _ => none
  | .fault _ => none
  | .refused r => some r

/-- Something of the instance an operation leaves. -/
def afterI {α : Type} (f : Inst → α) (o : Out) : Option α := ((nextOf o).bind State.inst).map f

/-- The result an operation returns. -/
def res (s : State) : Result := s.dev.result

/-- The callbacks made so far. -/
def callsOf (s : State) : List Callback := s.dev.calls.map CallRecord.call

/-- The callbacks made since the attach of `State.reset`. -/
def newCalls (s : State) : List Callback := (callsOf s).drop 2

/-- The bus transactions made since the attach of `State.reset`. -/
def newBus (s : State) : List BusEvent := s.dev.bus.drop 40

/-- The attached controller of spec/95's conventions with another device state. -/
def dev (f : Dev → Dev) : State := { State.reset with dev := f State.reset.dev }

/-- The same with other register contents. -/
def regs (f : Regs → Regs) : State := dev fun d => { d with regs := f d.regs }

/-- The same with another instance. -/
def ctl (f : Inst → Inst) (s : State) : State := { s with inst := s.inst.map f }

/-- The same with other parameters. -/
def params (f : Params → Params) (s : State) : State := { s with dev := { s.dev with cfg := f s.dev.cfg } }

/-- The bridge variant (spec/95 2.4). -/
def bridge (s : State) : State := params (fun p => { p with fifoVariant := .bridgeWord }) s

/-- Bytes stored in host memory from `a` on. -/
def store (a : Nat) (l : List Byte) (s : State) : State :=
  { s with dev := { s.dev with mem := s.dev.mem.writeBytes a l } }

/-- The receive queue of endpoint `e`. -/
def fill (e : EpIdx) (l : List Byte) (s : State) : State :=
  { s with dev := { s.dev with rxq := tset s.dev.rxq e l } }

/-- The transmit queue of endpoint `e`. -/
def fillTx (e : EpIdx) (l : List Byte) (s : State) : State :=
  { s with dev := { s.dev with txq := tset s.dev.txq e l } }

/-- A synthetic delivery of the record `l` stored at 0x3000. -/
def deliverAt (l : List Byte) (s : State) : Out := exec (.irq (.synthetic 0x3000)) (store 0x3000 l s)

/-- A register read at an offset of a controller at base address 0. -/
def rd (off w : Nat) (v : Word) : BusEvent := .regRead ⟨off, BitVec.ofNat 32 off⟩ w v

/-- A register write at an offset of a controller at base address 0. -/
def wr (off w : Nat) (v : Word) : BusEvent := .regWrite ⟨off, BitVec.ofNat 32 off⟩ w v

/-- A push of the FIFO engine into the port of endpoint `e`, which the default map of the direct variant has at
`0x20 + 4 * e` (R64). -/
def push (e : EpIdx) (w : Nat) (v : Word) : BusEvent :=
  .fifoPush e (some ⟨0x20 + 4 * e.val, BitVec.ofNat 32 (0x20 + 4 * e.val)⟩) w v

/-- Memory of spec/95 2.3: byte `0x1000 + k` is `k + 1`. -/
def counting (s : State) : State := store 0x1000 [1, 2, 3, 4, 5, 6, 7, 8, 9, 10] s

/-! ## Well-formedness -/

/-- R62: a FIFO operation names an endpoint below `NUM_EPS`. -/
theorem test_wf_endpoint : Instr.wf 5 (.wrfifo 4 0 0) = true ∧ Instr.wf 5 (.wrfifo 5 0 0) = false
    ∧ Instr.wf 5 (.rdfifo 5 0 0) = false := by decide

/-- R149: a size above 8 that is no power of two is ill-formed; smaller ones are raised to 8. -/
theorem test_wf_size : sizeOk 12 = false ∧ sizeOk 511 = false ∧ sizeOk 0 = true ∧ sizeOk 5 = true
    ∧ sizeOk 512 = true := by decide

/-- R149: endpoint 0 named, a direction named twice, a size that is no power of two. -/
theorem test_wf_table : tableWf sectionEightTable = true ∧ tableWf [⟨0, .rxtx, .single, 64⟩] = false
    ∧ tableWf [⟨1, .tx, .single, 64⟩, ⟨1, .tx, .single, 64⟩] = false
    ∧ tableWf [⟨1, .rxtx, .single, 64⟩, ⟨1, .rx, .single, 64⟩] = false
    ∧ tableWf [⟨1, .tx, .single, 96⟩] = false ∧ tableWf [⟨2, .tx, .single, 64⟩, ⟨1, .rx, .single, 64⟩] = true := by
  decide

/-- R64: overlapping ranges. -/
theorem test_wf_ranges : disjointRanges [(0, 4), (4, 2), (8, 1)] = true
    ∧ disjointRanges [(0, 4), (3, 2)] = false := by decide

/-- R65, R66: a named bit outside its register, or two on one bit. -/
theorem test_wf_bits : bitsWf 8 [0, 1, 7] = true ∧ bitsWf 8 [0, 8] = false ∧ bitsWf 8 [3, 3] = false := by decide

/-- R64: two registers at one offset; R49: a 16-bit register at an odd offset; R70, R67: a flag inside the field beside
it, a field outside its register. -/
theorem test_wf_regmap : RegMap.wf .default .default = true
    ∧ RegMap.wf .default { RegMap.default with index := 0x0F } = false
    ∧ RegMap.wf .default { RegMap.default with txfifoadd := ⟨0x69, none⟩ } = false
    ∧ RegMap.wf .default { RegMap.default with brEp0DirBit := 6 } = false
    ∧ RegMap.wf .default { RegMap.default with szDouble := 3 } = false
    ∧ RegMap.wf .default { RegMap.default with brLen := ⟨22, 11⟩ } = false := by decide

/-- R3: the bridge's addresses are any, but registers do not overlap (R64). -/
theorem test_wf_bridge_addresses :
    let p : Params := { Params.default with fifoVariant := .bridgeWord }
    p.wf = true ∧ RegMap.wf p { RegMap.default with brEp0Conf := 0x12345 } = true
    ∧ RegMap.wf p { RegMap.default with brEp0Conf := 0x406 } = false := by decide

/-- R3's constraints: `NUM_EPS`, `FIFO_RAM_BYTES`, a role compiled in, the table. -/
theorem test_wf_params : Params.wf .default = true
    ∧ Params.wf { Params.default with numEps := 0 } = false
    ∧ Params.wf { Params.default with numEps := 17 } = false
    ∧ Params.wf { Params.default with fifoRamBytes := 56 } = false
    ∧ Params.wf { Params.default with fifoRamBytes := 4097 } = false
    ∧ Params.wf { Params.default with rolesCompiled := [] } = false
    ∧ Params.wf { Params.default with idleDelay := 0 } = false
    ∧ Params.wf { Params.default with fifoTable := [⟨0, .tx, .single, 64⟩] } = false := by decide

/-- U8: a non-zero size descriptor with a zero nibble is ill-formed. -/
theorem test_wf_descriptor : [0x00, 0x99, 0xF9, 0x11].map descOk = [true, true, true, true]
    ∧ [0x09, 0x90, 0xF0].map descOk = [false, false, false] := by decide

/-! ## Encodings: words written out from R60 and R61 (spec/95 T-E1 to T-E17) -/

/-- T-E1 to T-E4. -/
theorem test_decode_reads : decode 5 0x0100006000000000 = .ok (.rd8 0x60)
    ∧ decode 5 0x0100000A00000000 = .ok (.rd8 0x0A) ∧ decode 5 0x0200000200000000 = .ok (.rd16 0x02)
    ∧ decode 5 0x0300002400000000 = .ok (.rd32 0x24) := by decide

/-- T-E5 to T-E7. -/
theorem test_decode_writes : decode 5 0x0400000E00000001 = .ok (.wr8 0x0E 1)
    ∧ decode 5 0x050000060000001F = .ok (.wr16 0x06 0x1F)
    ∧ decode 5 0x0600002804030201 = .ok (.wr32 0x28 0x04030201) := by decide

/-- T-E8, T-E9. -/
theorem test_decode_fifo : decode 5 0x1010000500001001 = .ok (.wrfifo 1 5 0x1001)
    ∧ decode 5 0x1110000500002000 = .ok (.rdfifo 1 5 0x2000) := by decide

/-- T-E8 bit by bit: opcode 0x10, ep 1, zero, arg 5, data 0x1001 (R60). -/
theorem test_decode_fifo_bits :
    decode 5 0b00010000_0001_0000_0000000000000101_00000000000000000001000000000001
      = .ok (.wrfifo 1 5 0x1001) := by decide

/-- T-E10 to T-E12. -/
theorem test_decode_configure_irq : decode 5 0x2000000000000000 = .ok .configure
    ∧ decode 5 0x3000000000000000 = .ok (.irq .live)
    ∧ decode 5 0x3000000100003000 = .ok (.irq (.synthetic 0x3000)) := by decide

/-- T-E13 to T-E16. -/
theorem test_decode_lifecycle : decode 5 0x4000000000000000 = .ok .start ∧ decode 5 0x4100000000000000 = .ok .stop
    ∧ decode 5 0x4200000000000000 = .ok .getmode ∧ decode 5 0x4300000000000000 = .ok .getcable
    ∧ decode 5 0x5000000000000000 = .ok .tryidle ∧ decode 5 0x6000000000000000 = .ok .attach
    ∧ decode 5 0x6100000000000000 = .ok .detach := by decide

/-- T-E17. -/
theorem test_decode_illegal : decode 5 0 = .illegal .opcode ∧ decode 5 0xFFFFFFFFFFFFFFFF = .illegal .zeroField
    ∧ decode 5 0x0700000000000000 = .illegal .opcode ∧ decode 5 0x0101006000000000 = .illegal .zeroField
    ∧ decode 5 0x0110006000000000 = .illegal .epField ∧ decode 5 0x0400000E00000100 = .illegal .valueWidth
    ∧ decode 5 0x3000000200000000 = .illegal .irqSelector ∧ decode 5 0x3000000000003000 = .illegal .irqData
    ∧ decode 5 0x1050000500001001 = .illegal .endpoint ∧ decode 5 0x4000000000000001 = .illegal .dataField := by
  decide

/-- The encoder on the same words. -/
theorem test_encode : encode (.wr8 0x0E 1) = 0x0400000E00000001 ∧ encode (.rdfifo 1 5 0x2000) = 0x1110000500002000
    ∧ encode (.irq (.synthetic 0x3000)) = 0x3000000100003000 := by decide

/-- R63: the textual form. -/
theorem test_text : Instr.text (.wrfifo 1 5 0x1001) = "WRFIFO 1, 5, @4097" ∧ Instr.text .tryidle = "TRYIDLE" := by
  decide

/-- A step decodes and runs the next command word, here T-E1 on `R[DEVCTL] = 0x99` (T-R1). -/
theorem test_step_rd8 :
    after res (step ((regs fun r => { r with devctl := 0x99 }).withFetchWord 64 0x0100006000000000))
      = some (.value 0x99) := by decide

/-! ## Register shim (spec/95 2.2) -/

/-- T-R2. -/
theorem test_rd8_clears : after (fun t => (res t, t.dev.regs.intrusb)) (exec (.rd8 0x0A)
    (regs fun r => { r with intrusb := 0x10 })) = some (.value 0x10, 0) := by decide

/-- T-R3. -/
theorem test_rd16_clears : after (fun t => (res t, t.dev.regs.intrtx)) (exec (.rd16 0x02)
    (regs fun r => { r with intrtx := 3 })) = some (.value 3, 0) := by decide

/-- T-R4. -/
theorem test_wr16_enables : after (fun t => t.dev.regs.intrtxe) (exec (.wr16 0x06 0x1F) State.reset)
    = some 0x1F := by decide

/-- T-R5, T-R6. -/
theorem test_wr8_hardware_bits : after (fun t => t.dev.regs.intrusb) (exec (.wr8 0x0A 0xFF)
      (regs fun r => { r with intrusb := 0x21 })) = some 0x21
    ∧ after (fun t => t.dev.regs.devctl) (exec (.wr8 0x60 0xFF) (regs fun r => { r with devctl := 0x80 }))
      = some 0x83 := by decide

/-- T-R7. -/
theorem test_epwr8 : epwr8 .default 3 .txfifosz 5 = [.wr8 0x0E 3, .wr8 0x62 5]
    ∧ after (fun t => (t.dev.regs.index, tget t.dev.regs.txfifosz 3)) (runOps (epwr8 .default 3 .txfifosz 5) State.reset)
      = some (3, 5) := by decide

/-- T-R8. -/
theorem test_eprd8 :
    let p := { Params.default with hwSizeDesc := tset Params.default.hwSizeDesc 2 0xF9 }
    let q := { p with shimMode := .direct }
    after (fun t => (res t, t.dev.regs.index)) (runOps (eprd8 p 2 .fifosize) (params (fun _ => p) State.reset))
      = some (.value 0xF9, 2)
    ∧ eprd8 q 2 .fifosize = [.rd8 0x12F]
    ∧ after (fun t => (res t, t.dev.regs.index)) (runOps (eprd8 q 2 .fifosize) (params (fun _ => q) State.reset))
      = some (.value 0xF9, 4) := by decide

/-- T-R9. -/
theorem test_rd32_fifo : after (fun t => (res t, tget t.dev.rxq 1)) (exec (.rd32 0x24)
    (fill 1 [0x11, 0x22, 0x33, 0x44, 0x55] State.reset)) = some (.value 0x44332211, [0x55]) := by decide

/-- T-R10. -/
theorem test_wr32_fifo : after (fun t => tget t.dev.txq 2) (exec (.wr32 0x28 0x04030201) State.reset)
    = some [1, 2, 3, 4] := by decide

/-- T-R11. -/
theorem test_shim_refusals : refusalOf (exec (.rd16 0x03) State.reset) = some (.badAccess .misaligned)
    ∧ refusalOf (exec (.rd8 0x0C) State.reset) = some (.badAccess .noRegister)
    ∧ refusalOf (exec (.rd16 0x60) State.reset) = some (.badAccess .width)
    ∧ (refusalOf (exec (.rd32 0x01) State.reset)).isSome = true := by decide

/-- R76: the offset is added to `inst.base`. -/
theorem test_base_address : after newBus (exec (.rd8 0x60) (ctl (fun i => { i with base := 0x80001000 }) State.reset))
    = some [.regRead ⟨0x60, 0x80001060⟩ 1 0] := by decide

/-- T-R12. -/
theorem test_access_wakes : afterI Inst.lowPower (exec (.rd8 0x60) (bridge (ctl (fun i => { i with lowPower := true })
    State.reset))) = some false := by decide

/-! ## FIFO engine (spec/95 2.3, 2.4) -/

/-- T-F5, T-F6, T-F7: the units on the direct variant. -/
theorem test_wrfifo_units :
    after newBus (exec (.wrfifo 1 7 0x1000) (counting State.reset))
      = some [push 1 4 0x04030201, push 1 2 0x0605, push 1 1 0x07]
    ∧ after newBus (exec (.wrfifo 1 8 0x1002) (counting State.reset))
      = some [push 1 2 0x0403, push 1 2 0x0605, push 1 2 0x0807, push 1 2 0x0A09]
    ∧ after (fun t => tget t.dev.txq 1) (exec (.wrfifo 1 5 0x1001) (counting State.reset))
      = some [2, 3, 4, 5, 6] := by decide

/-- T-F13. -/
theorem test_rdfifo_direct : after (fun t => (t.dev.mem, tget t.dev.rxq 1)) (exec (.rdfifo 1 5 0x2001)
    (fill 1 [0x10, 0x20, 0x30, 0x40, 0x50, 0x60] State.reset))
      = some ([(0x2001, 0x10), (0x2002, 0x20), (0x2003, 0x30), (0x2004, 0x40), (0x2005, 0x50)], [0x60]) := by decide

/-- T-B1, T-B2. -/
theorem test_wrfifo_bridge :
    after (fun t => (newBus t, tget t.dev.txq 1)) (exec (.wrfifo 1 5 0x1001) (bridge (counting State.reset)))
      = some ([wr 0x404 4 5, .fifoPush 1 none 4 0x05040302, .fifoPush 1 none 4 6], [2, 3, 4, 5, 6])
    ∧ after (fun t => (newBus t, tget t.dev.txq 0)) (exec (.wrfifo 0 3 0x1000) (bridge (counting State.reset)))
      = some ([wr 0x400 4 0x83, .fifoPush 0 none 4 0x00030201], [1, 2, 3]) := by decide

/-- T-B3. -/
theorem test_rdfifo_bridge : after (fun t => (newBus t, t.dev.mem.readBytes 0x2000 8, tget t.dev.rxq 0))
    (exec (.rdfifo 0 8 0x2000)
      (bridge (fill 0 [0xA0, 0xA1, 0xA2, 0xA3, 0xA4, 0xA5, 0xA6, 0xA7] State.reset)))
      = some ([wr 0x400 4 8, .fifoPop 0 none 4 0xA3A2A1A0, .fifoPop 0 none 4 0xA7A6A5A4],
        [0xA0, 0xA1, 0xA2, 0xA3, 0xA4, 0xA5, 0xA6, 0xA7], []) := by decide

/-- R70: the length fields lie where the map puts them, here with the length in bits 14:4 and, for endpoint 0, the
length in bits 7:1 and the direction in bit 0. -/
theorem test_length_fields :
    let s := params (fun p => { p with regMap :=
      { p.regMap with brLen := ⟨4, 11⟩, brEp0Len := ⟨1, 7⟩, brEp0DirBit := 0 } }) (bridge (counting State.reset))
    s.dev.cfg.wf = true
    ∧ after (fun t => (newBus t).head?) (exec (.wrfifo 1 5 0x1000) s) = some (some (wr 0x404 4 0x50))
    ∧ after (fun t => (newBus t).head?) (exec (.wrfifo 0 3 0x1000) s) = some (some (wr 0x400 4 0x07))
    ∧ after (fun t => tget t.dev.txq 0) (exec (.wrfifo 0 3 0x1000) s) = some [1, 2, 3] := by decide

/-! ## Allocator (spec/95 2.5) -/

/-- The parameters of a table-driven silicon with another table. -/
def withTable (r : Role) (ram : Nat) (t : List FifoEntry) : Params :=
  { Params.default with cfgRole := r, fifoRamBytes := ram, fifoTable := t }

/-- The parameters of a silicon with wired sizes. -/
def withDescs (r : Role) (a b c d : Byte) : Params :=
  { Params.default with
    cfgRole := r, hwDynFifo := false, allocMode := .discovered,
    hwSizeDesc := #v[0, a, b, c, d, 0, 0, 0, 0, 0, 0, 0, 0, 0, 0, 0] }

/-- `ATTACH` of a controller with the given parameters. -/
def attachWith (p : Params) : Out := exec .attach (State.unattached p)

/-- T-A1, T-X6: the attach of the conventions leaves the instance of `State.reset`. -/
theorem test_attach_reset_state : afterI id (attachWith .default) = some Inst.afterAttach := by decide

/-- T-A1: the registers and the bus trace of the same attach. -/
theorem test_attach_registers : after (fun t => (res t, t.dev.regs.txfifosz.toList.take 5,
      t.dev.regs.txfifoadd.toList.take 5, t.dev.regs.rxfifoadd.toList.take 5, t.dev.regs.index)) (attachWith .default)
    = some (.status .ok, [3, 6, 6, 5, 5], [0, 8, 136, 200, 232], [0, 72, 136, 200, 232], 4)
    ∧ after (fun t => t.dev.bus) (attachWith .default) = some State.reset.dev.bus := by decide

/-- T-A2, T-X5: exact fill succeeds, 8 bytes less overflow and release what was acquired. -/
theorem test_attach_fill : after res (attachWith (withTable .otg 2112 sectionEightTable)) = some (.status .ok)
    ∧ after (fun t => (res t, callsOf t)) (attachWith (withTable .otg 2104 sectionEightTable))
      = some (.status (.resourceExhausted .tableOverflow),
          [.requestMemmap, .requestIrq, .releaseIrq, .releaseMemmap]) := by decide

/-- T-A4: double buffering. -/
theorem test_configure_double : afterI (fun i => (i.nrEndpoints, i.epMask, i.bulkEp, (tget i.ep 1).txDouble,
      (tget i.ep 1).fifoOffTx, (tget i.ep 1).fifoOffRx))
    (attachWith (withTable .peripheralOnly 2048 [⟨1, .tx, .double, 512⟩, ⟨1, .rx, .single, 512⟩]))
      = some (2, 3, none, true, 64, 1088)
    ∧ after (fun t => (tget t.dev.regs.txfifosz 1, tget t.dev.regs.rxfifoadd 1))
      (attachWith (withTable .peripheralOnly 2048 [⟨1, .tx, .double, 512⟩, ⟨1, .rx, .single, 512⟩]))
      = some (0x16, 136) := by decide

/-- T-A6. -/
theorem test_eff_size : [0, 1, 7, 8, 64, 512, 1024, 32768, 9, 100, 1023, 65535].map effSize
    = [8, 8, 8, 8, 64, 512, 1024, 32768, 8, 64, 512, 32768] := by decide

/-- T-A7: discovery stops at the zero descriptor. -/
theorem test_configure_discovered :
    afterI (fun i => (i.nrEndpoints, i.epMask, i.bulkEp, (tget i.ep 2).maxPacketRx, (tget i.ep 2).sharedFifo,
      (tget i.ep 4).maxPacketTx)) (attachWith (withDescs .otg 0x99 0xF9 0x00 0x99))
      = some (3, 7, some 1, 512, true, 0)
    ∧ after (fun t => t.dev.regs.index) (attachWith (withDescs .otg 0x99 0xF9 0x00 0x99)) = some 3 := by decide

/-- U8: a descriptor with a zero nibble is refused. -/
theorem test_ill_formed_descriptor :
    refusalOf (attachWith (withDescs .otg 0x99 0x09 0x00 0x99)) = some .illFormedLayout := by decide

/-- R67, R68: the codes lie where the map puts them, here `SZ` in bits 5:2, `DPB` in bit 7, the offset in bits 15:3. -/
theorem test_size_fields :
    let m : RegMap := { RegMap.default with szCode := ⟨2, 4⟩, szDouble := 7, addOff := ⟨3, 13⟩ }
    RegMap.wf .default m = true ∧ sizeCode m ⟨1, .tx, .double, 512⟩ = 0x98 ∧ addCode m 64 = 0x40
    ∧ sizeCode .default ⟨1, .tx, .double, 512⟩ = 0x16 ∧ addCode .default 64 = 8 := by decide

/-! ## Link state machine (spec/95 2.6) -/

/-- T-L14: every named bit at once. -/
theorem test_irq_everything : after (fun t => (newCalls t, t.dev.diags, newBus t))
    (deliverAt [0xF7, 0x5D, 0x62, 0, 0x1F, 0, 0x1E, 0] (ctl (fun i => { i with vbuserrRetry := 1 })
      (regs fun r => { r with devctl := 0x5D, power := 0x60 })))
      = some ([.hostRootPort, .hostEp0, .hostEpRx 1, .hostEpTx 1, .hostEpRx 2, .hostEpTx 2, .hostEpRx 3, .hostEpTx 3,
          .hostEpRx 4, .hostEpTx 4, .hostDisconnect, .inputsChanged ⟨true, false, false, false, false, false⟩],
        [.connectUnexpected, .babble],
        [wr 0x01 1 0x64, wr 0x60 1 1, wr 0x60 1 1, rd 0x60 1 0x5D,
          rd 0x01 1 0x64]) := by decide

/-- T-L15: the live capture. -/
theorem test_irq_live : after (fun t => (newBus t, irqLine t.dev.regs, res t)) (exec (.irq .live)
    (regs fun r => { r with intrusb := 0x10, intrtx := 1, intrusbe := 0xF7, devctl := 0x5D, power := 0x60 }))
      = some ([rd 0x0A 1 0x10, rd 0x02 2 1, rd 0x04 2 0, rd 0x60 1 0x5D,
        rd 0x01 1 0x60], false, .handled true) := by decide

/-- R266: a stub's callback is recorded and does nothing else, so the script waits for the next collaborator. -/
theorem test_stub_call :
    let s := fun r => ctl (fun i => { i with cfgRole := r })
      (dev fun d => { d with cbScript := [[.setLinkState .error]] })
    (after (fun t => (newCalls t, t.dev.cbScript)) (deliverAt [0x10, 0, 0, 0, 0, 0, 0, 0] (s .peripheralOnly))
      = some ([.hostRootPort], [[.setLinkState .error]]))
    ∧ (after (fun t => (newCalls t, t.dev.cbScript)) (deliverAt [0x10, 0, 0, 0, 0, 0, 0, 0] (s .otg))
      = some ([.hostRootPort], [])) := by decide

/-! ## Start, stop, queries, idle, attach, detach (spec/95 2.7 to 2.9) -/

/-- T-S1. -/
theorem test_start : after (fun t => (newBus t, newCalls t)) (exec .start
    (regs fun r => { r with power := 0x01, devctl := 0x80, testmode := 0x55 }))
      = some ([wr 0x06 2 0x1F, wr 0x08 2 0x1E, wr 0x0B 1 0xF7, wr 0x0F 1 0,
          rd 0x01 1 0x01, wr 0x01 1 0x61, rd 0x60 1 0x80, wr 0x60 1 0x81],
        [.boardEnable]) := by decide

/-- T-S3. -/
theorem test_stop : after (fun t => (newBus t, t.dev.regs.devctl, irqLine t.dev.regs, newCalls t)) (exec .stop
    (regs fun r => { r with intrusb := 0x21, intrtx := 2, devctl := 0x99, intrusbe := 0xF7 }))
      = some ([wr 0x0B 1 0, wr 0x06 2 0, wr 0x08 2 0, wr 0x60 1 0, rd 0x0A 1 0x21,
          rd 0x02 2 2, rd 0x04 2 0], 0x98, false, [.boardDisable]) := by decide

/-- T-S5. -/
theorem test_getmode : ([Role.hostOnly, .peripheralOnly, .otg].map fun r =>
    after res (exec .getmode (ctl (fun i => { i with cfgRole := r }) State.reset)))
      = [some (.value 0), some (.value 1), some (.value 2)] := by decide

/-- T-S6. -/
theorem test_getcable : after res (exec .getcable (ctl (fun i => { i with linkState := .bWaitAcon }) State.reset))
    = some (.text "B-WAIT-ACON") := by decide

/-- T-I1, T-I2, T-I3, T-I7. -/
theorem test_tryidle : afterI Inst.idleTimer (exec .tryidle (bridge State.reset)) = some (some 3)
    ∧ afterI Inst.idleTimer (exec .tryidle (bridge (ctl (fun i => { i with hostActive := true }) State.reset)))
      = some (some 0)
    ∧ afterI Inst.idleTimer (exec .tryidle (bridge (ctl (fun i => { i with isActive := true, idleTimer := some 3 })
      State.reset))) = some none
    ∧ afterI Inst.idleTimer (exec .tryidle State.reset) = some none := by decide

/-- T-I4. -/
theorem test_timer_expiry :
    (((envMove .timerExpiry (bridge (ctl (fun i => { i with idleTimer := some 3 }) State.reset))).inst).map fun i =>
      (i.idleTimer, i.lowPower, i.wakeEnables)) = some (none, true, ⟨true, true, true, true⟩) := by decide

/-- T-X7. -/
theorem test_detach : after (fun t => (t.inst, newCalls t)) (exec .detach State.reset)
      = some (none, [.releaseIrq, .releaseMemmap])
    ∧ refusalOf (exec .detach (fillTx 1 [1] State.reset)) = some .midTransfer := by decide

/-! ## Witnesses: states and operands that meet the hypotheses of the statements -/

/-- A completed operation leaves some state. -/
theorem next_of_isSome {o : Out} (h : (nextOf o).isSome = true) : ∃ t, o = .next t := by
  match o, h with
  | .next t, _ => exact ⟨t, rfl⟩

/-- A completed operation leaves a state that passes the test. -/
theorem next_of_check {o : Out} {p : State → Bool} (h : (nextOf o).any p = true) : ∃ t, o = .next t ∧ p t = true := by
  match o, h with
  | .next t, h => exact ⟨t, rfl, h⟩

/-- The started controller of the conventions: T-S1's end state, as far as the instance goes. -/
def startedState : State := ctl (fun i => { i with started := true }) State.reset

/-- A command on the request port. -/
def cmd (w : BitVec 64) (s : State) : State := { s with dev := { s.dev with inbox := [.command w] } }

/-- A move of the environment as the next input. -/
def mv (m : EnvMove) (s : State) : State := { s with dev := { s.dev with inbox := [.env m] } }

theorem wit_IllegalCommandsRefused :
    (cmd 0 State.reset).dev.inbox = .command 0 :: [] ∧ illegalWord 5 0 = true
    ∧ illegalWord 5 0x1050000500001001 = true ∧ illegalWord 5 0x1040000500001001 = false
    ∧ illegalWord 5 0x04000000000000FF = false ∧ illegalWord 5 0x0400000000000100 = true
    ∧ illegalWord 5 0x3000000100003000 = false ∧ illegalWord 5 0x3000000200003000 = true := by decide

theorem wit_StepRunsDecodedOperation :
    (cmd 0x4200000000000000 State.reset).dev.inbox = .command 0x4200000000000000 :: []
    ∧ decode State.reset.dev.cfg.numEps 0x4200000000000000 = .ok .getmode
    ∧ decode State.reset.dev.cfg.numEps (BitVec.ofNat 64 (0x4200000000000000 % 2 ^ 64)) = .ok .getmode
    ∧ (mv .timerExpiry State.reset).dev.inbox = .env .timerExpiry :: [] ∧ State.reset.dev.inbox = [] := by decide

/-- R22 on T-A1's layout. -/
theorem attach_ranges : RangesInv .default Inst.afterAttach.ep := by
  unfold RangesInv
  decide

/-- A started controller meets the invariant. -/
theorem started_inv : startedState.Inv := by
  refine ⟨by decide, fun i hi => ?_⟩
  cases hi
  exact ⟨rfl, rfl, by decide, by decide, by decide, by decide, fun _ =>
    ⟨rfl, rfl, rfl, rfl, by decide, by decide, by decide, by decide, fun _ => ⟨1, by decide⟩, fun _ => attach_ranges⟩⟩

theorem wit_StepKeepsInvariant :
    ∃ t, (cmd 0x3000000000000000 startedState).dev.cfg.wf = true
      ∧ (cmd 0x3000000000000000 startedState).Inv ∧ step (cmd 0x3000000000000000 startedState) = .next t := by
  obtain ⟨t, ht⟩ := next_of_isSome (o := step (cmd 0x3000000000000000 startedState)) (by decide)
  exact ⟨t, by decide, started_inv, ht⟩

theorem wit_StepKeepsParameters :
    ∃ t, step (cmd 0x4000000000000000 State.reset) = .next t ∧ (cmd 0x4000000000000000 State.reset).inst.isSome = true
      ∧ t.inst.isSome = true := by
  obtain ⟨t, ht, h⟩ := next_of_check (o := step (cmd 0x4000000000000000 State.reset))
    (p := fun t => t.inst.isSome) (by decide)
  exact ⟨t, ht, by decide, h⟩

theorem wit_OnlyConfigureWritesEndpointTable :
    ∃ t, step (cmd 0x4000000000000000 State.reset) = .next t ∧ (cmd 0x4000000000000000 State.reset).inst.isSome = true
      ∧ t.inst.isSome = true
      ∧ ∀ w rest, (cmd 0x4000000000000000 State.reset).dev.inbox = .command w :: rest →
          decode State.reset.dev.cfg.numEps w ≠ .ok .configure := by
  obtain ⟨t, ht, h⟩ := next_of_check (o := step (cmd 0x4000000000000000 State.reset))
    (p := fun t => t.inst.isSome) (by decide)
  refine ⟨t, ht, by decide, h, fun w rest hw => ?_⟩
  cases hw
  decide

theorem wit_OnlyReadFifoWritesMemory :
    ∃ t, exec (.wrfifo 1 5 0x1001) State.reset = .next t ∧ ∀ e n a, Instr.wrfifo 1 5 0x1001 ≠ .rdfifo e n a := by
  obtain ⟨t, ht⟩ := next_of_isSome (o := exec (.wrfifo 1 5 0x1001) State.reset) (by decide)
  exact ⟨t, ht, by simp⟩

theorem wit_OnlyDeliveriesMoveTheLinkState :
    ∃ t, exec .start State.reset = .next t ∧ State.reset.inst.isSome = true ∧ t.inst.isSome = true ∧ Quiet State.reset
      ∧ ∀ src, Instr.start ≠ .irq src := by
  obtain ⟨t, ht, h⟩ := next_of_check (o := exec .start State.reset) (p := fun t => t.inst.isSome) (by decide)
  exact ⟨t, ht, by decide, h, rfl, by simp⟩

/-- A controller whose resume bit is set. -/
def resuming : State := regs fun r => { r with power := 0x04 }

theorem wit_OnlySoftwareClearsResume :
    ∃ t, resuming.dev.cfg.wf = true ∧ exec .start resuming = .next t ∧ Quiet resuming
      ∧ (∀ off v, Instr.start ≠ .wr8 off v) ∧ Instr.start ≠ .attach
      ∧ resuming.dev.regs.power.getLsbD resuming.dev.cfg.regMap.pw.resume = true := by
  obtain ⟨t, ht⟩ := next_of_isSome (o := exec .start resuming) (by decide)
  exact ⟨t, by decide, ht, rfl, by simp, by simp, by decide⟩

theorem wit_LockFreeAfterOperation :
    (∃ t, exec (.rd8 0x60) State.reset = .next t ∧ t.inst.isSome = true)
    ∧ (∃ t, exec .attach (State.unattached .default) = .next t ∧ t.inst.isSome = true)
    ∧ ∃ t, exec .configure State.reset = .next t ∧ t.inst.isSome = true :=
  ⟨next_of_check (p := fun t => t.inst.isSome) (by decide), next_of_check (p := fun t => t.inst.isSome) (by decide),
    next_of_check (p := fun t => t.inst.isSome) (by decide)⟩

/-- A sleeping controller of the bridge variant. -/
def sleeping : State := bridge (ctl (fun i => { i with lowPower := true }) State.reset)

theorem wit_RegisterAccessWakes :
    (∃ t, exec (.rd8 0x60) sleeping = .next t ∧ t.inst.isSome = true)
    ∧ (∃ t, exec .getmode sleeping = .next t ∧ t.inst.isSome = true)
    ∧ sleeping.inst.isSome = true ∧ sleeping.dev.cfg.fifoVariant = .bridgeWord :=
  ⟨next_of_check (p := fun t => t.inst.isSome) (by decide), next_of_check (p := fun t => t.inst.isSome) (by decide),
    by decide, rfl⟩

/-- Every operation completes at some state (`ATTACH` where no instance exists, the others after reset). -/
theorem wit_ResultOfEachOperation :
    (([.rd8 0x60, .rd16 0x02, .rd32 0x24, .wr8 0x0E 1, .wr16 0x06 1, .wr32 0x28 1, .wrfifo 1 4 0x1000,
      .rdfifo 1 0 0x1000, .configure, .irq .live, .irq (.synthetic 0x3000), .start, .stop, .getmode, .getcable, .tryidle,
      .detach] : List Instr).all fun i => (nextOf (exec i State.reset)).isSome) = true
    ∧ (nextOf (exec .attach (State.unattached .default))).isSome = true := by decide

/-- A controller whose configure failed. -/
def unconfigured : State := ctl (fun i => { i with configured := false }) State.reset

theorem wit_RequestsOutsideTheirPhaseRefused :
    (State.unattached .default).inst = none ∧ Instr.start ≠ .attach ∧ State.reset.inst.isSome = true
    ∧ (∃ a, Ready startedState a ∧ a.started = true)
    ∧ ∃ a, unconfigured.inst = some a ∧ a.configured = false :=
  ⟨rfl, by decide, rfl, ⟨_, ⟨rfl, rfl, rfl⟩, rfl⟩, _, rfl, rfl⟩

theorem wit_RegistersLieAtTheirOffsets :
    State.reset.dev.cfg.wf = true ∧ Reaches State.reset 0x60 1 .devctl ∧ Reaches State.reset 0x2C 4 (.fifo 3)
    ∧ Reaches State.reset 0x66 2 (.epReg .rxfifoadd 4) ∧ Reaches (bridge State.reset) 0x4D0 4 (.fifo 4) := by
  unfold Reaches
  decide

/-- A map with flat aliases for the size descriptors: an endpoint-scoped register has a second home. -/
theorem wit_RegistersLieAtTheirOffsets_flat : Reaches State.reset 0x14F 1 (.epReg .fifosize 4)
    ∧ resolve State.reset.dev.cfg 4 0x15F 1 = .bad .noRegister := by
  unfold Reaches
  decide

/-- No register starts at offset 0x0C of the default map. -/
theorem no_access_0C (r : Reg) : ¬ ValidAccess State.reset 0x0C 1 r := by
  rintro ⟨-, h, -⟩
  cases r <;> first
    | (revert h; decide)
    | (rename_i e; revert e; decide)
    | (rename_i k e; cases k <;> revert e <;> decide)

theorem wit_InvalidAccessRefused : State.reset.dev.cfg.wf = true
    ∧ (∃ i, State.reset.inst = some i ∧ i.configured = true)
    ∧ (∀ r, ¬ ValidAccess State.reset (0x0C : BitVec 16).toNat 1 r)
    ∧ (∀ r, ¬ ValidAccess State.reset (0x03 : BitVec 16).toNat 2 r)
    ∧ ∀ r, ¬ ValidAccess State.reset (0x62 : BitVec 16).toNat 4 r :=
  ⟨by decide, ⟨_, rfl, rfl⟩, no_access_0C, fun _ h => absurd h.2.2.1 (by decide),
    fun _ h => absurd h.2.2.1 (by decide)⟩

theorem wit_ReadReturnsContent :
    Reaches State.reset 0x60 1 .devctl ∧ plainValue State.reset.dev .devctl = some 0
    ∧ Reaches State.reset 0x06 2 .intrtxe ∧ plainValue State.reset.dev .intrtxe = some 0
    ∧ Reaches (bridge State.reset) 0x400 4 .brEp0Conf ∧ plainValue (bridge State.reset).dev .brEp0Conf = some 0
    ∧ Reaches (regs fun r => { r with index := 0 }) 0x1F 1 (.epReg .fifosize 0)
    ∧ ∃ i, State.reset.inst = some i ∧ i.configured = true :=
  ⟨by unfold Reaches; decide, by decide, by unfold Reaches; decide, by decide, by unfold Reaches; decide, by decide,
    by unfold Reaches; decide, _, rfl, rfl⟩

theorem wit_StatusReadClears :
    Reaches State.reset 0x0A 1 .intrusb ∧ Reaches State.reset 0x02 2 .intrtx ∧ Reaches State.reset 0x04 2 .intrrx
    ∧ ∃ i, State.reset.inst = some i ∧ i.configured = true :=
  ⟨by unfold Reaches; decide, by unfold Reaches; decide, by unfold Reaches; decide, _, rfl, rfl⟩

theorem wit_WriteLeavesValue :
    (Reaches State.reset 0x0A 1 .intrusb ∧ Reaches State.reset 0x1F 1 (.epReg .fifosize 4)
    ∧ Reaches State.reset 0x0B 1 .intrusbe ∧ Reaches State.reset 0x0F 1 .testmode ∧ Reaches State.reset 0x0E 1 .index
    ∧ Reaches State.reset 0x62 1 (.epReg .txfifosz 4) ∧ Reaches State.reset 0x63 1 (.epReg .rxfifosz 4))
    ∧ (Reaches State.reset 0x02 2 .intrtx ∧ Reaches State.reset 0x04 2 .intrrx ∧ Reaches State.reset 0x06 2 .intrtxe
    ∧ Reaches State.reset 0x08 2 .intrrxe ∧ Reaches State.reset 0x64 2 (.epReg .txfifoadd 4)
    ∧ Reaches State.reset 0x66 2 (.epReg .rxfifoadd 4)) := by
  unfold Reaches
  decide

theorem wit_HardwareBitsSurviveWrites : Reaches State.reset 0x60 1 .devctl ∧ Reaches State.reset 0x01 1 .power := by
  unfold Reaches
  decide

theorem wit_LengthRegisterWrites : Reaches (bridge State.reset) 0x404 4 (.brTxConf 1)
    ∧ Reaches (bridge State.reset) 0x450 4 (.brRxConf 4) ∧ Reaches (bridge State.reset) 0x400 4 .brEp0Conf := by
  unfold Reaches
  decide

/-- The bridge with a transmit length of 6 and a receive length of 3 programmed for endpoint 1. -/
def programmed : State :=
  let s := bridge State.reset
  { s with dev := { s.dev with brTxLeft := tset s.dev.brTxLeft 1 6, brRxLeft := tset s.dev.brRxLeft 1 3 } }

theorem wit_PortWriteAppends : Reaches State.reset 0x24 1 (.fifo 1) ∧ Reaches State.reset 0x24 2 (.fifo 1)
    ∧ Reaches State.reset 0x24 4 (.fifo 1) ∧ 0 < txRoom State.reset.dev 1 1
    ∧ Reaches programmed 0x484 4 (.fifo 1) ∧ txRoom programmed.dev 1 4 = 4
    ∧ Reaches (bridge State.reset) 0x484 4 (.fifo 1) ∧ txRoom (bridge State.reset).dev 1 4 = 0 := by
  unfold Reaches
  decide

theorem wit_PortReadTakes : Reaches State.reset 0x24 1 (.fifo 1) ∧ 0 < rxRoom State.reset.dev 1 2
    ∧ Reaches programmed 0x4C4 4 (.fifo 1) ∧ rxRoom programmed.dev 1 4 = 3
    ∧ rxRoom (bridge State.reset).dev 1 4 = 0 := by
  unfold Reaches
  decide

/-- The direct shim on a map with flat aliases. -/
def direct : State := params (fun p => { p with shimMode := .direct }) State.reset

theorem wit_EndpointAccessIsModeIndependent :
    State.reset.dev.cfg.wf = true ∧ direct.dev.cfg.wf = true
    ∧ (Reg.epReg .txfifosz 4).present State.reset.dev.cfg = true
    ∧ (Reg.epReg .rxfifoadd 4).present direct.dev.cfg = true
    ∧ (Reg.epReg .fifosize 4).present direct.dev.cfg = true
    ∧ (flatAlias direct.dev.cfg .fifosize).isSome = true ∧ (flatAlias State.reset.dev.cfg .fifosize).isSome = false
    ∧ scopedContent State.reset.dev .txfifoadd 4 = some 232 ∧ scopedContent direct.dev .fifosize 4 = some 0 := by
  decide

theorem wit_TransfersMoveExactlyTheBytes :
    State.reset.dev.cfg.wf = true ∧ State.reset.dev.mem.wf = true ∧ Ready State.reset .afterAttach
    ∧ (4 : EpIdx).val < State.reset.dev.cfg.numEps ∧ countFits State.reset.dev.cfg 4 256 = true
    ∧ countFits (bridge State.reset).dev.cfg 4 256 = true ∧ (bridge State.reset).dev.cfg.wf = true
    ∧ allocated State.reset.dev.regions 0xFFFFFF00 0x100 = true
    ∧ 256 ≤ (tget Inst.afterAttach.ep 4).maxPacketTx.toNat ∧ 256 ≤ (tget Inst.afterAttach.ep 4).maxPacketRx.toNat :=
  ⟨by decide, by decide, ⟨rfl, rfl, rfl⟩, by decide, by decide, by decide, by decide, by decide, by decide, by decide⟩

theorem wit_FifoEngineFrame :
    (∃ t, exec (.wrfifo 1 5 0x1001) State.reset = .next t) ∧ (∃ t, exec (.rdfifo 1 5 0x1001) State.reset = .next t)
    ∧ (∃ t, exec (.wrfifo 0 5 0x1001) (bridge State.reset) = .next t)
    ∧ (∃ t, exec (.rdfifo 1 5 0x1001) (bridge State.reset) = .next t) :=
  ⟨next_of_isSome (by decide), next_of_isSome (by decide), next_of_isSome (by decide), next_of_isSome (by decide)⟩

theorem wit_DirectUnitsFollowAlignment : State.reset.dev.cfg.fifoVariant = .directBurst
    ∧ (∃ t, exec (.wrfifo 1 7 0x1002) State.reset = .next t) ∧ ∃ t, exec (.rdfifo 1 7 0x1000) State.reset = .next t :=
  ⟨rfl, next_of_isSome (by decide), next_of_isSome (by decide)⟩

theorem wit_BridgeProgramsLengthFirst : (bridge State.reset).dev.cfg.fifoVariant = .bridgeWord
    ∧ (∃ t, exec (.wrfifo 0 5 0x1001) (bridge State.reset) = .next t)
    ∧ ∃ t, exec (.rdfifo 1 5 0x1001) (bridge State.reset) = .next t :=
  ⟨rfl, next_of_isSome (by decide), next_of_isSome (by decide)⟩

theorem wit_TransferPreconditions : Ready State.reset .afterAttach ∧ State.reset.dev.cfg.numEps ≤ (5 : EpIdx).val
    ∧ (tget Inst.afterAttach.ep 1).maxPacketTx.toNat < 513 ∧ (tget Inst.afterAttach.ep 0).maxPacketRx.toNat < 65
    ∧ countFits (bridge State.reset).dev.cfg 0 128 = false
    ∧ allocated State.reset.dev.regions 0xFFFFFFFF 2 = false :=
  ⟨⟨rfl, rfl, rfl⟩, by decide, by decide, by decide, by decide, by decide⟩

theorem wit_LoopbackReturnsTheBytes :
    State.reset.dev.cfg.wf = true ∧ State.reset.dev.mem.wf = true ∧ Ready State.reset .afterAttach
    ∧ countFits State.reset.dev.cfg 1 64 = true ∧ 64 ≤ (tget Inst.afterAttach.ep 1).maxPacketTx.toNat
    ∧ 64 ≤ (tget Inst.afterAttach.ep 1).maxPacketRx.toNat ∧ allocated State.reset.dev.regions 0x1001 64 = true
    ∧ allocated State.reset.dev.regions 0x2002 64 = true ∧ tget State.reset.dev.txq 1 = []
    ∧ tget State.reset.dev.rxq 1 = [] :=
  ⟨by decide, by decide, ⟨rfl, rfl, rfl⟩, by decide, by decide, by decide, by decide, by decide, by decide, by decide⟩

theorem wit_EffectiveSize : (3 ≤ 15 ∧ (32768 : BitVec 16).toNat = 2 ^ 15) ∧ (7 : BitVec 16).toNat < 8
    ∧ sizeOk 100 = false := by decide

/-- A controller whose table does not fit its FIFO RAM. -/
def tooBig : State := params (fun _ => withTable .otg 2104 sectionEightTable) State.reset

/-- A controller whose table names endpoint 0. -/
def badTable : State := params (fun _ => withTable .otg 4096 [⟨0, .tx, .single, 64⟩]) State.reset

/-- A controller with a size descriptor whose receive nibble is zero. -/
def badDesc : State := params (fun _ => withDescs .otg 0x99 0x09 0x00 0x99) State.reset

theorem wit_ConfigureSucceedsWhenItFits :
    State.reset.dev.cfg.wf = true ∧ Ready State.reset .afterAttach
    ∧ Inst.afterAttach.cfgRole = State.reset.dev.cfg.cfgRole ∧ Inst.afterAttach.started = false
    ∧ configurable State.reset.dev.cfg = true ∧ tooBig.dev.cfg.wf = true ∧ Ready tooBig .afterAttach
    ∧ configurable tooBig.dev.cfg = false
    ∧ (Ready badTable .afterAttach ∧ badTable.dev.cfg.allocMode = .table ∧ tableWf badTable.dev.cfg.fifoTable = false)
    ∧ (Ready badDesc .afterAttach ∧ badDesc.dev.cfg.allocMode = .discovered
      ∧ (tget badDesc.dev.cfg.hwSizeDesc 2).toNat = 0x09 ∧ 0x09 / 16 = 0) :=
  ⟨by decide, ⟨rfl, rfl, rfl⟩, rfl, rfl, by decide, by decide, ⟨rfl, rfl, rfl⟩, by decide,
    ⟨⟨rfl, rfl, rfl⟩, rfl, by decide⟩, ⟨rfl, rfl, rfl⟩, rfl, by decide, by decide⟩

/-- A controller whose second entry names endpoint 5 of 5. -/
def badIndex : State :=
  params (fun _ => withTable .otg 4096 [⟨1, .rxtx, .single, 512⟩, ⟨5, .rxtx, .single, 8⟩]) State.reset

/-- A controller with no endpoint for bulk. -/
def noBulk : State := params (fun _ => withTable .otg 4096 [⟨1, .rxtx, .single, 256⟩]) State.reset

theorem wit_ConfigureReportsFirstFailure :
    (badIndex.dev.cfg.wf = true ∧ badIndex.dev.cfg.allocMode = .table ∧ (∃ t, exec .configure badIndex = .next t)
      ∧ badIndex.dev.cfg.fifoTable = [⟨1, .rxtx, .single, 512⟩] ++ ⟨5, .rxtx, .single, 8⟩ :: []
      ∧ tableBytes [⟨1, .rxtx, .single, 512⟩] ≤ badIndex.dev.cfg.fifoRamBytes)
    ∧ (tooBig.dev.cfg.wf = true ∧ (∃ t, exec .configure tooBig = .next t)
      ∧ tableBytes (sectionEightTable.take 4) ≤ tooBig.dev.cfg.fifoRamBytes
      ∧ tooBig.dev.cfg.fifoRamBytes < tableBytes (sectionEightTable.take 4 ++ [⟨4, .rxtx, .single, 256⟩]))
    ∧ (noBulk.dev.cfg.wf = true ∧ (∃ t, exec .configure noBulk = .next t) ∧ tableFits noBulk.dev.cfg = true
      ∧ hasBulk noBulk.dev.cfg = false) :=
  ⟨⟨by decide, rfl, next_of_isSome (by decide), by decide, by decide⟩,
    ⟨by decide, next_of_isSome (by decide), by decide, by decide⟩,
    ⟨by decide, next_of_isSome (by decide), by decide, by decide⟩⟩

/-- A successful configure. -/
def configuredOk (t : State) : Bool := decide (t.dev.result = .status .ok) && t.inst.isSome

theorem wit_ConfigurePlacesEveryEntry :
    State.reset.dev.cfg.wf = true ∧ State.reset.dev.cfg.allocMode = .table
    ∧ (∃ t, exec .configure State.reset = .next t ∧ configuredOk t = true)
    ∧ ep0Entry :: State.reset.dev.cfg.fifoTable = [ep0Entry] ++ ⟨1, .tx, .single, 512⟩ :: sectionEightTable.tail
    ∧ ∀ c ∈ State.reset.dev.cfg.fifoTable, c.ep ≠ (15 : EpIdx) :=
  ⟨by decide, rfl, next_of_check (by decide), by decide, by decide⟩

theorem wit_ConfiguredRangesAreDisjoint : State.reset.dev.cfg.wf = true ∧ State.reset.dev.cfg.allocMode = .table
    ∧ ∃ t, exec .configure State.reset = .next t ∧ configuredOk t = true :=
  ⟨by decide, rfl, next_of_check (by decide)⟩

theorem wit_BulkEndpointIsTheFirst :
    (∃ t, exec .configure State.reset = .next t ∧ (configuredOk t && t.inst.any fun i => i.cfgRole.hostCapable) = true)
    ∧ ∃ t, exec .configure (ctl (fun i => { i with cfgRole := .peripheralOnly }) State.reset) = .next t
      ∧ (configuredOk t && t.inst.any fun i => !i.cfgRole.hostCapable) = true :=
  ⟨next_of_check (p := fun t => configuredOk t && t.inst.any fun i => i.cfgRole.hostCapable) (by decide),
    next_of_check (p := fun t => configuredOk t && t.inst.any fun i => !i.cfgRole.hostCapable) (by decide)⟩

/-- A controller with wired sizes, T-A7's. -/
def wired : State := params (fun _ => withDescs .otg 0x99 0xF9 0x00 0x99) State.reset

theorem wit_DiscoveryStopsAtZero : wired.dev.cfg.wf = true ∧ wired.dev.cfg.allocMode = .discovered
    ∧ (∃ t, exec .configure wired = .next t ∧ configuredOk t = true) ∧ discovered wired.dev.cfg 2 = true
    ∧ discovered wired.dev.cfg 3 = false ∧ discovered wired.dev.cfg 4 = false :=
  ⟨by decide, rfl, next_of_check (by decide), by decide, by decide, by decide⟩

theorem wit_ConfigureTwiceIsTheSame : ∃ t, exec .configure State.reset = .next t ∧ configuredOk t = true :=
  next_of_check (by decide)

theorem wit_ConfigureFrame : State.reset.inst = some .afterAttach ∧ (∃ t, exec .configure State.reset = .next t)
    ∧ ∃ t, exec .configure tooBig = .next t :=
  ⟨rfl, next_of_isSome (by decide), next_of_isSome (by decide)⟩

/-- A host that has allocated nothing. -/
def noMemory : State := dev fun d => { d with regions := [] }

theorem wit_DeliveryCompletes : State.reset.dev.cfg.wf = true ∧ Ready State.reset .afterAttach
    ∧ (snapshotOf State.reset (.synthetic 0x3000)).isSome = true ∧ (snapshotOf State.reset .live).isSome = true
    ∧ snapshotOf noMemory (.synthetic 0x3000) = none :=
  ⟨by decide, ⟨rfl, rfl, rfl⟩, by decide, by decide, by decide⟩

/-- Every named global bit and every endpoint's bits in a record (T-L14). -/
def busy : State := store 0x3000 [0xF7, 0x5D, 0x62, 0, 0x1F, 0, 0x1E, 0] State.reset

/-- The hypotheses of `DeliveryLinkStateAndRole`, `DeliveryPortStatus`, `DeliveryRegisters`, `DeliveryCallbacks`,
`DeliveryDiagnostics`. -/
theorem wit_Delivery : busy.dev.cfg.wf = true ∧ Ready busy .afterAttach ∧ Quiet busy
    ∧ busy.dev.cfg.siteAExtra = [] ∧ snapshotOf busy (.synthetic 0x3000) = some ⟨0xF7, 0x1F, 0x1E, 0x5D, 0x62⟩ :=
  ⟨by decide, ⟨rfl, rfl, rfl⟩, rfl, rfl, by decide⟩

/-- What the closed form of a delivery says of T-L14. -/
theorem test_delivery_closed_form :
    let m := busy.dev.cfg.regMap
    let snap : Snapshot := ⟨0xF7, 0x1F, 0x1E, 0x5D, 0x62⟩
    linkAfter m .afterAttach snap = .aHost ∧ activeAfter m .afterAttach snap = false
    ∧ hostAfter m .afterAttach snap = true ∧ retryAfter m .afterAttach snap = 2
    ∧ deliveryDiags busy.dev.cfg .afterAttach snap = [.connectUnexpected, .babble] := by decide

theorem wit_RoleIsAppliedBeforeEndpointDispatch :
    ∃ t, exec (.irq (.synthetic 0x3000)) busy = .next t
      ∧ (∃ pre r post, t.dev.calls = busy.dev.calls ++ pre ++ r :: post ∧ r.call.isEndpoint = true) := by
  obtain ⟨t, ht, h⟩ := next_of_check (o := exec (.irq (.synthetic 0x3000)) busy)
    (p := fun t => decide (t.dev.calls.take 3 = busy.dev.calls ++ [⟨.hostRootPort, some ⟨.aIdle, true, true, 0x00010001⟩⟩])
      && (match t.dev.calls.drop 3 with
          | r :: _ => r.call.isEndpoint
          | [] => false)) (by decide)
  simp only [Bool.and_eq_true, decide_eq_true_eq] at h
  obtain ⟨h1, h2⟩ := h
  split at h2
  · rename_i r post hd
    refine ⟨t, ht, [⟨.hostRootPort, some ⟨.aIdle, true, true, 0x00010001⟩⟩], r, post, ?_, h2⟩
    rw [← hd, ← h1, List.take_append_drop]
  · cases h2

/-- A record with the VBUS-error bit alone (T-L2). -/
def vbusOnly : State := store 0x3000 [0x80, 0x99, 0x60, 0, 0, 0, 0, 0] State.reset

theorem wit_ThreeVbusErrorsDepleteTheBudget : vbusOnly.dev.cfg.wf = true ∧ Ready vbusOnly .afterAttach ∧ Quiet vbusOnly
    ∧ snapshotOf vbusOnly (.synthetic 0x3000) = some ⟨bit 8 vbusOnly.dev.cfg.regMap.usb.vbusErr, 0, 0, 0x99, 0x60⟩
    ∧ Inst.afterAttach.vbuserrRetry = 2 :=
  ⟨by decide, ⟨rfl, rfl, rfl⟩, rfl, by decide, rfl⟩

/-- A live reset bit in host mode. -/
def babbling : State := regs fun r => { r with intrusb := 0x04, devctl := 0x5D }

theorem wit_BabbleIsOnlyLogged : babbling.dev.cfg.wf = true ∧ Ready babbling .afterAttach
    ∧ snapshotOf babbling .live = some ⟨bit 8 babbling.dev.cfg.regMap.usb.reset, 0, 0, 0x5D, 0⟩
    ∧ Snapshot.host babbling.dev.cfg.regMap ⟨4, 0, 0, 0x5D, 0⟩ = true ∧ babbling.dev.cfg.siteAExtra = []
    ∧ Inst.afterAttach.vbuserrRetry = 2 :=
  ⟨by decide, ⟨rfl, rfl, rfl⟩, by decide, by decide, rfl, rfl⟩

theorem wit_SpuriousDeliveryIsIgnored : State.reset.dev.cfg.wf = true ∧ Ready State.reset .afterAttach
    ∧ snapshotOf State.reset .live = some ⟨0, 0, 0, 0, 0⟩
    ∧ recognised State.reset.dev.cfg .afterAttach ⟨0, 0, 0, 0, 0⟩ = false
    ∧ recognised State.reset.dev.cfg .afterAttach ⟨0x08, 0x20, 1, 0x99, 0x60⟩ = false :=
  ⟨by decide, ⟨rfl, rfl, rfl⟩, by decide, by decide, by decide⟩

theorem wit_DeliveryIgnoresEnables : ∃ t, exec (.irq (.synthetic 0x3000)) busy = .next t :=
  next_of_isSome (by decide)

/-- The hypotheses of `StartProgramsTheController`, `StopQuietsTheController`, `QueriesReturnRoleAndState`. -/
theorem wit_Lifecycle : State.reset.dev.cfg.wf = true ∧ Ready State.reset .afterAttach ∧ Quiet State.reset :=
  ⟨by decide, ⟨rfl, rfl, rfl⟩, rfl⟩

theorem wit_TryIdleArmsTheTimer : Ready (bridge State.reset) .afterAttach ∧ Ready State.reset .afterAttach :=
  ⟨⟨rfl, rfl, rfl⟩, rfl, rfl, rfl⟩

/-- A bridge whose timer is armed and is about to expire. -/
def expiring : State := mv .timerExpiry (bridge (ctl (fun i => { i with idleTimer := some 3 }) State.reset))

theorem wit_TimerExpiryAndWakeEvents :
    (expiring.dev.cfg.fifoVariant = .bridgeWord ∧ (∃ i, expiring.inst = some i ∧ i.idleTimer = some 3 ∧ i.lock = .free)
      ∧ expiring.dev.inbox = .env .timerExpiry :: [])
    ∧ (mv (.wakeEvent .busActivity) sleeping).dev.inbox = .env (.wakeEvent .busActivity) :: []
    ∧ (mv (.wakeEvent .busActivity) sleeping).inst.isSome = true :=
  ⟨⟨rfl, ⟨_, rfl, rfl, rfl⟩, rfl⟩, rfl, rfl⟩

theorem wit_AttachChecksSupport :
    (State.unattached { Params.default with rolesCompiled := [.peripheralOnly] }).inst = none
    ∧ Role.otg ∉ ({ Params.default with rolesCompiled := [.peripheralOnly] } : Params).rolesCompiled
    ∧ (State.unattached .default).dev.cfg.cfgRole ∈ Params.default.rolesCompiled
    ∧ ({ Params.default with hwDynFifo := false } : Params).allocMode = .table
    ∧ ({ Params.default with allocMode := .discovered } : Params).hwDynFifo = true := by decide

theorem wit_AttachReleasesInReverse :
    Params.default.wf = true ∧ (State.unattached .default).inst = none
    ∧ Params.default.cfgRole ∈ Params.default.rolesCompiled
    ∧ (Params.default.allocMode = .table ↔ Params.default.hwDynFifo = true)
    ∧ (envMove (.platform false true) (State.unattached .default)).dev.memmapOk = false
    ∧ (envMove (.platform true false) (State.unattached .default)).dev.irqOk = false ∧ configurable .default = true
    ∧ (withTable .otg 2104 sectionEightTable).wf = true
    ∧ configurable (withTable .otg 2104 sectionEightTable) = false := by decide

theorem wit_AttachCreatesTheInstance :
    Params.default.wf = true ∧ (State.unattached .default).inst = none
    ∧ (State.unattached .default).dev.memmapOk = true ∧ (State.unattached .default).dev.irqOk = true
    ∧ configurable Params.default = true ∧ (withDescs .otg 0x99 0xF9 0x00 0x99).wf = true
    ∧ configurable (withDescs .otg 0x99 0xF9 0x00 0x99) = true := by decide

theorem wit_DetachDestroysTheInstance :
    State.reset.inst = some .afterAttach ∧ Inst.afterAttach.lock = .free ∧ State.reset.dev.midTransfer = false
    ∧ (∀ e, tget State.reset.dev.txq e = [] ∧ tget State.reset.dev.rxq e = [])
    ∧ ∃ e, tget (fillTx 1 [1] State.reset).dev.txq e ≠ [] ∨ tget (fillTx 1 [1] State.reset).dev.rxq e ≠ [] :=
  ⟨rfl, rfl, rfl, by decide, 1, by decide⟩

end Sys2Proof.Machine.Tests
end

section
/-! PROOF. What one operation can do to the instance, said once: `Steady` lists what every operation but `CONFIGURE`,
`ATTACH` and `DETACH` leaves alone, and `exec_ran` says of each operation that answers a next state which of the five
ways it ran. The invariant and the frames of the state's fields are derived from it. -/

namespace Sys2Proof.Machine

/-! ## What an operation of a configured controller leaves alone -/

/-- `c'` has the parameters, base, role, endpoint table and lock of `c`; its retry budget is not above the larger of
that of `c` and the initial one (R14), and the bridge's fields move only on the bridge variant (R32, R239). -/
structure Steady (c c' : Ctl) : Prop where
  cfg : c'.dev.cfg = c.dev.cfg
  base : c'.inst.base = c.inst.base
  cfgRole : c'.inst.cfgRole = c.inst.cfgRole
  ep : c'.inst.ep = c.inst.ep
  epMask : c'.inst.epMask = c.inst.epMask
  nrEndpoints : c'.inst.nrEndpoints = c.inst.nrEndpoints
  bulkEp : c'.inst.bulkEp = c.inst.bulkEp
  configured : c'.inst.configured = c.inst.configured
  lock : c'.inst.lock = c.inst.lock
  wakeEnables : c'.inst.wakeEnables = c.inst.wakeEnables
  lowPower : c'.inst.lowPower = c.inst.lowPower ∨ c'.inst.lowPower = lowPowerAfter c.dev.cfg.fifoVariant c.inst.lowPower
  idleTimer : c.dev.cfg.fifoVariant = .directBurst → c'.inst.idleTimer = c.inst.idleTimer
  retry : c'.inst.vbuserrRetry ≤ max c.inst.vbuserrRetry vbuserrRetryInit
  overlay : c'.inst.otgOverlayActive = true →
    c.inst.otgOverlayActive = true ∨ (c.dev.cfg.otgOverlayPresent = true ∧ c.inst.cfgRole = .otg)

/-- The six fields that only deliveries and collaborators write (R11 to R14, R16, R17, R194). -/
def SameLinkFields (a b : Inst) : Prop :=
  b.linkState = a.linkState ∧ b.vbuserrRetry = a.vbuserrRetry ∧ b.isActive = a.isActive
  ∧ b.hostActive = a.hostActive ∧ b.portStatus = a.portStatus ∧ b.ctrlSubstate = a.ctrlSubstate

theorem Steady.refl (c : Ctl) : Steady c c :=
  ⟨rfl, rfl, rfl, rfl, rfl, rfl, rfl, rfl, rfl, rfl, .inl rfl, fun _ => rfl, le_max_left _ _, .inl⟩

/-- What `Keeps` lists is steady where the retry budget stays in bounds. -/
theorem Keeps.steady {c c' : Ctl} (h : Keeps c c')
    (hr : c'.inst.vbuserrRetry ≤ max c.inst.vbuserrRetry vbuserrRetryInit) : Steady c c' :=
  ⟨h.cfg, h.base, h.cfgRole, h.ep, h.epMask, h.nrEndpoints, h.bulkEp, h.configured, h.lock, h.wakeEnables, h.lowPower,
    fun _ => h.idleTimer, hr, fun ho => .inl (h.otgOverlayActive ▸ ho)⟩

/-- An operation that at most wakes the instance (R238). -/
def Woken (c c' : Ctl) : Prop :=
  c'.dev.cfg = c.dev.cfg ∧ c'.inst = { c.inst with lowPower := lowPowerAfter c.dev.cfg.fifoVariant c.inst.lowPower }

theorem Woken.steady {c c' : Ctl} (h : Woken c c') : Steady c c' := by
  obtain ⟨hc, hi⟩ := h
  constructor <;> simp [hc, hi]
  exact .inl

theorem Woken.link {c c' : Ctl} (h : Woken c c') : SameLinkFields c.inst c'.inst := by
  obtain ⟨-, hi⟩ := h
  simp [SameLinkFields, hi]

theorem woken_busRead (off n : Nat) (r : Reg) (c : Ctl) : Woken c (busRead off n r c) := ⟨by simp, rfl⟩

theorem woken_busWrite (off n : Nat) (r : Reg) (v : Word) (c : Ctl) : Woken c (busWrite off n r v c) := ⟨by simp, rfl⟩

theorem woken_writeFifo (e : EpIdx) (n a : Nat) (c : Ctl) : Woken c (writeFifo e n a c) := by
  obtain ⟨hi, hd, -⟩ := programTx_frame e n c
  refine ⟨?_, by rw [writeFifo, pushUnits_inst, hi]⟩
  rw [writeFifo, (pushUnits_frame ..).1, hd]

theorem woken_readFifo (e : EpIdx) (n a : Nat) (c : Ctl) : Woken c (readFifo e n a c) := by
  obtain ⟨hi, hd, -⟩ := programRx_frame e n c
  refine ⟨?_, by rw [readFifo, popUnits_inst, hi]⟩
  rw [readFifo, (popUnits_frame ..).1, hd]

/-! ## The retry budget along a delivery (R14, R168, R180) -/

theorem siteAIfActive_retry (c : Ctl) : (siteAIfActive c).inst.vbuserrRetry = c.inst.vbuserrRetry := by
  unfold siteAIfActive siteA
  split <;> simp

@[simp] theorem siteAExtra_retry (t : TriggerPoint) (c : Ctl) :
    (siteAExtra t c).inst.vbuserrRetry = c.inst.vbuserrRetry := by
  unfold siteAExtra
  split
  · exact siteAIfActive_retry c
  · rfl

theorem resumeStep_retry (snap : Snapshot) (c : Ctl) : (resumeStep snap c).inst.vbuserrRetry = c.inst.vbuserrRetry := by
  unfold resumeStep
  dsimp only
  split <;> simp

theorem sessReqStep_retry (c : Ctl) : (sessReqStep c).inst.vbuserrRetry = c.inst.vbuserrRetry := by
  simp [sessReqStep, Ctl.startSession]

/-- A VBUS error never raises the budget (R168). -/
theorem vbusErrStep_retry (c : Ctl) : (vbusErrStep c).inst.vbuserrRetry ≤ c.inst.vbuserrRetry := by
  unfold vbusErrStep
  split <;> simp [Ctl.startSession]

theorem connectTransition_retry (c : Ctl) : (connectTransition c).inst.vbuserrRetry = c.inst.vbuserrRetry := by
  unfold connectTransition
  split <;> rfl

theorem connectStep_retry (snap : Snapshot) (c : Ctl) : (connectStep snap c).inst.vbuserrRetry = c.inst.vbuserrRetry := by
  simp [connectStep, connectTransition_retry, connectPortStep]

theorem resetStep_retry (snap : Snapshot) (c : Ctl) : (resetStep snap c).inst.vbuserrRetry = c.inst.vbuserrRetry := by
  unfold resetStep siteB
  dsimp only
  split
  · simp
  · split <;> simp

theorem disconnectStep_retry (c : Ctl) : (disconnectStep c).inst.vbuserrRetry = c.inst.vbuserrRetry := by
  simp [disconnectStep, siteAIfActive_retry]

theorem suspendStep_retry (c : Ctl) : (suspendStep c).inst.vbuserrRetry = c.inst.vbuserrRetry := by
  unfold suspendStep
  split <;> simp

/-- The budget of `c'` is not above the larger of that of `c` and the initial one (R14). -/
def RetryBounded (c c' : Ctl) : Prop := c'.inst.vbuserrRetry ≤ max c.inst.vbuserrRetry vbuserrRetryInit

theorem RetryBounded.of_le {c c' : Ctl} (h : c'.inst.vbuserrRetry ≤ c.inst.vbuserrRetry) : RetryBounded c c' :=
  h.trans (le_max_left _ _)

theorem RetryBounded.trans {a b c : Ctl} (h : RetryBounded a b) (k : RetryBounded b c) : RetryBounded a c :=
  le_trans k (max_le h (le_max_right _ _))

theorem retryBounded_stepIf {f : Ctl → Ctl} (hf : ∀ c, RetryBounded c (f c)) (b : Bool) (c : Ctl) :
    RetryBounded c (stepIf b f c) := by
  unfold stepIf
  split
  · exact hf c
  · exact .of_le le_rfl

theorem retryBounded_budgetReset (snap : Snapshot) (c : Ctl) : RetryBounded c (budgetReset snap c) := by
  unfold budgetReset
  split
  · exact le_max_right _ _
  · exact .of_le le_rfl

theorem retryBounded_callAll (l : List Callback) (c : Ctl) : RetryBounded c (c.callAll l) := by
  induction l generalizing c with
  | nil => exact .of_le le_rfl
  | cons cb l ih => exact RetryBounded.trans (.of_le (Ctl.call_vbuserrRetry cb c).le) (ih _)

theorem retryBounded_stage0 (snap : Snapshot) (c : Ctl) : RetryBounded c (stage0 snap c) :=
  (((((retryBounded_stepIf (fun c => .of_le (resumeStep_retry snap c).le) _ c).trans
    (retryBounded_stepIf (fun c => .of_le (sessReqStep_retry c).le) _ _)).trans
    (retryBounded_stepIf (fun c => .of_le (vbusErrStep_retry c)) _ _)).trans
    (retryBounded_stepIf (fun c => .of_le (connectStep_retry snap c).le) _ _)).trans
    (retryBounded_stepIf (fun c => .of_le (resetStep_retry snap c).le) _ _)).trans (retryBounded_budgetReset snap _)

theorem retryBounded_stage2 (snap : Snapshot) (c : Ctl) : RetryBounded c (stage2 snap c) :=
  (retryBounded_stepIf (fun c => .of_le (disconnectStep_retry c).le) _ c).trans
    (retryBounded_stepIf (fun c => .of_le (suspendStep_retry c).le) _ _)

theorem retryBounded_deliver (snap : Snapshot) (c : Ctl) : RetryBounded c (deliver snap c) := by
  have h : RetryBounded c (stage2 snap (beforeStage2 snap c)) :=
    ((retryBounded_stage0 snap c).trans (retryBounded_callAll _ _)).trans (retryBounded_stage2 snap _)
  unfold deliver
  dsimp only
  split
  · exact h
  · exact h

theorem steady_deliver (snap : Snapshot) (c : Ctl) : Steady c (deliver snap c) :=
  (keeps_deliver snap c).steady (retryBounded_deliver snap c)

theorem captureReads_retry (c : Ctl) : (captureReads c).inst.vbuserrRetry = c.inst.vbuserrRetry := by
  simp [captureReads]

theorem steady_deliver_captured (snap : Snapshot) (c : Ctl) : Steady c (deliver snap (captureReads c)) :=
  ((keeps_captureReads c).trans (keeps_deliver snap _)).steady
    (RetryBounded.trans (.of_le (captureReads_retry c).le) (retryBounded_deliver snap (captureReads c)))

/-! ## Start, stop and `TRYIDLE` -/

theorem SameLink.trans {a b c : Inst} (h : SameLink a b) (k : SameLink b c) : SameLink a c := by
  obtain ⟨x, rfl⟩ := h
  obtain ⟨y, rfl⟩ := k
  exact ⟨y, rfl⟩

theorem SameLink.fields {a b : Inst} (h : SameLink a b) : SameLinkFields a b := by
  obtain ⟨x, rfl⟩ := h
  exact ⟨rfl, rfl, rfl, rfl, rfl, rfl⟩

theorem sameLink_read (r : Reg) (c : Ctl) : SameLink c.inst (c.read r).inst := ⟨_, rfl⟩

theorem sameLink_write (r : Reg) (v : Word) (c : Ctl) : SameLink c.inst (c.write r v).inst := ⟨_, rfl⟩

theorem sameLink_call {cb : Callback} {c : Ctl} (h : c.dev.cbScript = []) : SameLink c.inst (c.call cb).inst := by
  rw [Ctl.call_inst_quiet cb c h]
  exact .refl _

theorem programEnables_cbScript (c : Ctl) : (programEnables c).dev.cbScript = c.dev.cbScript := by
  simp [programEnables]

/-- `START` leaves the link fields alone while no collaborator acts (R200 to R204). -/
theorem startBody_link {c : Ctl} (h : c.dev.cbScript = []) : SameLinkFields c.inst (startBody c).inst := by
  have h1 : SameLink c.inst (programEnables c).inst :=
    ((sameLink_write _ _ _).trans (sameLink_write _ _ _)).trans (sameLink_write _ _ _)
  have h2 := h1.trans (sameLink_call (cb := .boardEnable) ((programEnables_cbScript c).trans h))
  have h3 := h2.trans (sameLink_write .testmode 0 _)
  have h4 : SameLink c.inst (enablePower (((programEnables c).call .boardEnable).write .testmode 0)).inst :=
    (h3.trans (sameLink_read .power _)).trans (sameLink_write .power _ _)
  have h5 : SameLink c.inst
      (sessionByRole (enablePower (((programEnables c).call .boardEnable).write .testmode 0))).inst :=
    (h4.trans (sameLink_read .devctl _)).trans (sameLink_write .devctl _ _)
  exact h5.fields

theorem steady_startBody (c : Ctl) : Steady c (startBody c) := by
  have hk := keeps_startProgram c
  have hr : (startBody c).inst.vbuserrRetry = c.inst.vbuserrRetry := by
    simp [startBody, markStarted, sessionByRole, enablePower, programEnables]
  refine ⟨hk.cfg, hk.base, hk.cfgRole, hk.ep, hk.epMask, hk.nrEndpoints, hk.bulkEp, hk.configured, hk.lock,
    hk.wakeEnables, hk.lowPower, fun _ => hk.idleTimer, hr ▸ le_max_left _ _, fun ho => .inr ?_⟩
  rw [startBody, markStarted] at ho
  rw [← hk.cfg, ← hk.cfgRole]
  simpa only [Bool.and_eq_true, decide_eq_true_eq] using ho

theorem stopBody_link {c : Ctl} (h : c.dev.cbScript = []) : SameLinkFields c.inst (stopBody c).inst := by
  simp [SameLinkFields, stopBody, h]

theorem steady_stopBody (c : Ctl) : Steady c (stopBody c) := by
  have hk := keeps_stopProgram c
  have hr : (stopBody c).inst.vbuserrRetry = c.inst.vbuserrRetry := by simp [stopBody]
  exact ⟨hk.cfg, hk.base, hk.cfgRole, hk.ep, hk.epMask, hk.nrEndpoints, hk.bulkEp, hk.configured, hk.lock,
    hk.wakeEnables, hk.lowPower, fun _ => hk.idleTimer, hr ▸ le_max_left _ _, fun ho => (by cases ho)⟩

/-- `TRYIDLE` writes the timer, and that only on the bridge variant (R230 to R232, R239). -/
theorem tryIdle_eq (c : Ctl) : ∃ x, tryIdle c = { c with inst := { c.inst with idleTimer := x } }
    ∧ (c.dev.cfg.fifoVariant = .directBurst → x = c.inst.idleTimer) := by
  unfold tryIdle
  split <;> rename_i hv
  · exact ⟨c.inst.idleTimer, rfl, fun _ => rfl⟩
  · exact ⟨_, rfl, fun h => by simp [h] at hv⟩

theorem tryIdle_link (c : Ctl) : SameLinkFields c.inst (tryIdle c).inst := by
  obtain ⟨x, hx, -⟩ := tryIdle_eq c
  simp [SameLinkFields, hx]

theorem steady_tryIdle (c : Ctl) : Steady c (tryIdle c) := by
  obtain ⟨x, hx, hd⟩ := tryIdle_eq c
  rw [hx]
  exact { Steady.refl c with idleTimer := hd }

end Sys2Proof.Machine
end

section
/-! PROOF. The frame of `CONFIGURE` and of `ATTACH`'s configure, with every failure, and the five ways an operation that
answers a next state can have run. -/

namespace Sys2Proof.Machine

/-! ## The frame of configure (R130, R145) -/

theorem AllocFrame.mem {c c' : Ctl} (h : AllocFrame c c') : c'.dev.mem = c.dev.mem := by rw [h.dev]

theorem discoverAll_frame (l : List EpIdx) (nr : Nat) (c : Ctl) : AllocFrame c (discoverAll l nr c) := by
  induction l generalizing nr c with
  | nil => exact ⟨rfl, .inl rfl, rfl, rfl⟩
  | cons e l ih =>
    have hr := epRead_frame .fifosize e c
    unfold discoverAll
    dsimp only
    split
    · exact hr.trans ⟨rfl, .inl rfl, rfl, rfl⟩
    · have hd : AllocFrame (epRead .fifosize e c)
          (discoverEp e ((epValue .fifosize e c).setWidth 8) (epRead .fifosize e c)) := ⟨rfl, .inl rfl, rfl, rfl⟩
      exact (hr.trans hd).trans (ih _ _)

/-- The controller a pass ends with, whichever way it ends. -/
def Pass.ctl : Pass → Ctl
  | .done c => c
  | .failed _ _ c => c

theorem placeAll_frame (l : List FifoEntry) (off nr : Nat) (w : List FifoEntry) (c : Ctl) :
    AllocFrame c (placeAll l off nr w c).ctl := by
  induction l generalizing off nr w c with
  | nil => exact ⟨rfl, .inl rfl, rfl, rfl⟩
  | cons x l ih =>
    unfold placeAll
    split
    · exact .refl c
    · exact (placeEntry_frame x off c).trans (ih _ _ _ _)

theorem configurePass_frame (c : Ctl) : AllocFrame c (configurePass c).ctl := by
  unfold configurePass
  split
  · exact placeAll_frame _ _ _ _ c
  · exact AllocFrame.trans (b := discoverEp0 c) ⟨rfl, .inl rfl, rfl, rfl⟩ (discoverAll_frame _ _ _)

theorem bulkCheck_frame (w : List FifoEntry) (c : Ctl) : AllocFrame c (bulkCheck w c).ctl := by
  unfold bulkCheck
  split
  · split
    · exact ⟨rfl, .inl rfl, rfl, rfl⟩
    · exact .refl c
  · exact ⟨rfl, .inl rfl, rfl, rfl⟩

theorem configureBody_frame (c : Ctl) : AllocFrame c (configureBody c).ctl := by
  have h := AllocFrame.trans (a := c) (b := clearTable c) ⟨rfl, .inl rfl, rfl, rfl⟩ (configurePass_frame _)
  unfold configureBody
  split <;> rename_i hp <;> rw [hp] at h
  · exact h
  · exact h.trans (bulkCheck_frame _ _)

theorem configurePass_done_frame {c d : Ctl} (h : configurePass c = .done d) : AllocFrame c d := by
  have hf := configurePass_frame c
  rw [h] at hf
  exact hf

theorem configureBody_done_frame {c d : Ctl} (h : configureBody c = .done d) : AllocFrame c d := by
  have hf := configureBody_frame c
  rw [h] at hf
  exact hf

theorem configureBody_failed_frame {c d : Ctl} {cause : ExhaustCause} {w : List FifoEntry}
    (h : configureBody c = .failed cause w d) : AllocFrame c d := by
  have hf := configureBody_frame c
  rw [h] at hf
  exact hf

/-- The four size and offset registers of every endpoint replaced. -/
def Regs.resized (r : Regs) (a b : Vector (BitVec 8) 16) (x y : Vector (BitVec 16) 16) : Regs :=
  { r with txfifosz := a, rxfifosz := b, txfifoadd := x, rxfifoadd := y }

theorem freeEntryRegs_resized (d : Nat) (x : FifoEntry) (r : Regs) :
    ∃ a b p q, freeEntryRegs d x r = r.resized a b p q := by
  unfold freeEntryRegs
  dsimp only
  split <;> split <;> exact ⟨_, _, _, _, rfl⟩

theorem freeRegs_resized (d : Nat) (w : List FifoEntry) (r : Regs) : ∃ a b p q, freeRegs d w r = r.resized a b p q := by
  induction w generalizing r with
  | nil => exact ⟨_, _, _, _, rfl⟩
  | cons x w ih =>
    obtain ⟨a, b, p, q, h⟩ := freeEntryRegs_resized d x r
    rw [freeRegs, h]
    exact ih _

theorem afterFailure_frame (w : List FifoEntry) (c : Ctl) : AllocFrame c (afterFailure w c) := by
  obtain ⟨a, b, p, q, h⟩ := freeRegs_resized c.dev.draws w c.dev.regs
  unfold afterFailure
  generalize freeTable c.dev.draws (List.finRange 16) c.inst.ep = t
  rw [h]
  exact ⟨rfl, .inl rfl, rfl, rfl⟩

/-- `CONFIGURE` ran on a ready controller and left, whether it succeeded or failed, what `AllocFrame` lists (R130). -/
theorem execConfigure_frame {s t : State} (h : execConfigure s = .next t) :
    ∃ i c r, s.inst = some i ∧ i.configured = true ∧ i.lock = .free ∧ AllocFrame (Ctl.takeLock ⟨i, s.dev⟩) c
      ∧ t = (c.dropLock.withResult r).toState := by
  obtain ⟨i, hi, hc, hl, -, -, hd | hf⟩ := execConfigure_next h
  · obtain ⟨c1, hb, rfl⟩ := hd
    exact ⟨i, { c1 with inst := { c1.inst with configured := true } }, _, hi, hc, hl,
      (configureBody_done_frame hb).trans ⟨rfl, .inl rfl, rfl, rfl⟩, rfl⟩
  · obtain ⟨cause, w, c1, hb, rfl⟩ := hf
    exact ⟨i, afterFailure w c1, _, hi, hc, hl, (configureBody_failed_frame hb).trans (afterFailure_frame w c1), rfl⟩

/-! ## The frame of `ATTACH` and `DETACH` (R300 to R305) -/

/-- The device once both resources are granted (R302). -/
def Dev.granted (d : Dev) : Dev := (d.logCall .requestMemmap none).logCall .requestIrq none

/-- The state a configure that ended with `c` leaves: configured, the lock released, status `Ok` (R130). -/
def configureDone (c : Ctl) : State :=
  ((Ctl.mk { c.inst with configured := true } c.dev).dropLock.withResult .okStatus).toState

/-- `ATTACH` that answers a next state found no instance. It left none, and the parameters and memory as they
were, or a configured one with a usable layout (R300, R302, R304). -/
theorem execAttach_next {s t : State} (h : execAttach s = .next t) :
    s.inst = none
    ∧ ((t.inst = none ∧ t.dev.cfg = s.dev.cfg ∧ t.dev.mem = s.dev.mem)
      ∨ ∃ c1, layoutUsable s.dev.cfg = true ∧ configureBody (createInst s.dev.granted).takeLock = .done c1
        ∧ t = configureDone c1) := by
  unfold execAttach at h
  split at h
  · cases h
  · rename_i hi
    refine ⟨hi, ?_⟩
    split at h
    · simp only [raiseError_next] at h
      subst h
      exact .inl ⟨hi, rfl, rfl⟩
    · unfold attachAcquire at h
      dsimp only at h
      split at h
      · simp only [raiseError_next] at h
        subst h
        exact .inl ⟨rfl, rfl, rfl⟩
      · split at h
        · simp only [raiseError_next] at h
          subst h
          exact .inl ⟨rfl, rfl, rfl⟩
        · unfold attachConfigure at h
          split at h
          · cases h
          · rename_i hu
            split at h <;> rename_i hb <;> change configureBody (createInst s.dev.granted).takeLock = _ at hb
            · simp only [finish_next] at h
              exact .inr ⟨_, by simpa using hu, hb, h⟩
            · simp only [raiseError_next] at h
              subst h
              have hk := configureBody_failed_frame hb
              exact .inl ⟨rfl, hk.cfg, hk.mem⟩

/-- `DETACH` that answers a next state leaves no instance (R305). -/
theorem execDetach_next {s t : State} (h : execDetach s = .next t) :
    ∃ i, s.inst = some i ∧ i.lock = .free ∧ t.inst = none ∧ t.dev.cfg = s.dev.cfg ∧ t.dev.mem = s.dev.mem := by
  unfold execDetach at h
  obtain ⟨i, hi, e⟩ | ⟨-, e⟩ := withInst_cases s fun c => underLock c fun c1 =>
    if idleEndpoints c1.dev then .next ⟨none, { releaseAll c1 with result := .none }⟩ else .refused .midTransfer
  · rw [e] at h
    obtain ⟨hl, h⟩ := underLock_next h
    split at h
    · cases h
      exact ⟨i, hi, hl, rfl, rfl, rfl⟩
    · cases h
  · rw [e] at h
    cases h

/-! ## The five ways an operation can have run -/

/-- An operation that takes no lock: a shim primitive or `STOP` (R97, R207). -/
def takesNoLock : Instr → Bool
  | .rd8 _ | .rd16 _ | .rd32 _ | .wr8 _ _ | .wr16 _ _ | .wr32 _ _ | .stop => true
  | _ => false

/-- What the body of operation `i` leaves alone of the controller it runs on. -/
structure BodyFrame (i : Instr) (c c' : Ctl) : Prop where
  steady : Steady c c'
  mem : (∀ e n a, i ≠ .rdfifo e n a) → c'.dev.mem = c.dev.mem
  link : (∀ src, i ≠ .irq src) → c.dev.cbScript = [] → SameLinkFields c.inst c'.inst

/-- How `i` ran from `s` to `t`: `a` is the instance it found, `c` what its body left, `r` the result. -/
inductive Ran (i : Instr) (s t : State) : Prop
  | lockless (a : Inst) (c : Ctl) (r : Result) (hk : takesNoLock i = true) (hs : s.inst = some a)
      (hb : BodyFrame i ⟨a, s.dev⟩ c) (ht : t = (c.withResult r).toState)
  | locked (a : Inst) (c : Ctl) (r : Result) (hk : takesNoLock i = false) (hi : i ≠ .attach) (hs : s.inst = some a)
      (hl : a.lock = .free) (hb : BodyFrame i (Ctl.takeLock ⟨a, s.dev⟩) c) (ht : t = (c.dropLock.withResult r).toState)
  | configure (a : Inst) (c : Ctl) (r : Result) (hi : i = .configure) (hs : s.inst = some a) (hl : a.lock = .free)
      (hb : AllocFrame (Ctl.takeLock ⟨a, s.dev⟩) c) (ht : t = (c.dropLock.withResult r).toState)
  | attach (hi : i = .attach) (hs : s.inst = none) (hc : t.dev.cfg = s.dev.cfg) (hm : t.dev.mem = s.dev.mem)
      (hl : ∀ b, t.inst = some b → b.lock = .free)
  | detach (hi : i = .detach) (ht : t.inst = none) (hc : t.dev.cfg = s.dev.cfg) (hm : t.dev.mem = s.dev.mem)

theorem Woken.body {i : Instr} {c c' : Ctl} (h : Woken c c') (hm : (∀ e n a, i ≠ .rdfifo e n a) → c'.dev.mem = c.dev.mem) :
    BodyFrame i c c' := ⟨h.steady, hm, fun _ _ => h.link⟩

theorem shimRead_ran {i : Instr} {n : Nat} {off : BitVec 16} {s t : State} (hk : takesNoLock i = true)
    (h : shimRead n off s = .next t) : Ran i s t := by
  obtain ⟨a, ha, -, h⟩ := whenConfigured_next h
  split at h
  · cases h
  · split at h
    · cases h
    · simp only [finishUnlocked_next] at h
      exact .lockless a _ _ hk ha ((woken_busRead _ _ _ _).body fun _ => by simp) h

theorem shimWrite_ran {i : Instr} {n : Nat} {off : BitVec 16} {v : Word} {s t : State} (hk : takesNoLock i = true)
    (h : shimWrite n off v s = .next t) : Ran i s t := by
  obtain ⟨a, ha, -, h⟩ := whenConfigured_next h
  split at h
  · cases h
  · split at h
    · cases h
    · simp only [finishUnlocked_next] at h
      exact .lockless a _ _ hk ha ((woken_busWrite _ _ _ _ _).body fun _ => by simp) h

/-- `WRFIFO` that answers a next state met its preconditions and moved the bytes (R114). -/
theorem execWrfifo_next {e : EpIdx} {n : BitVec 16} {src : BitVec 32} {s t : State}
    (h : execWrfifo e n src s = .next t) :
    ∃ a, s.inst = some a ∧ a.lock = .free
      ∧ transferCheck (Ctl.takeLock ⟨a, s.dev⟩) e (tget a.ep e).maxPacketTx n.toNat src.toNat = none
      ∧ t = ((writeFifo e n.toNat src.toNat (Ctl.takeLock ⟨a, s.dev⟩)).dropLock.withResult .none).toState := by
  obtain ⟨a, ha, -, hl, h⟩ := whenReady_next h
  split at h
  · cases h
  · rename_i hc
    exact ⟨a, ha, hl, hc, by simpa only [finish_next] using h⟩

/-- `RDFIFO` that answers a next state met its preconditions and moved the bytes (R115). -/
theorem execRdfifo_next {e : EpIdx} {n : BitVec 16} {dst : BitVec 32} {s t : State}
    (h : execRdfifo e n dst s = .next t) :
    ∃ a, s.inst = some a ∧ a.lock = .free
      ∧ transferCheck (Ctl.takeLock ⟨a, s.dev⟩) e (tget a.ep e).maxPacketRx n.toNat dst.toNat = none
      ∧ t = ((readFifo e n.toNat dst.toNat (Ctl.takeLock ⟨a, s.dev⟩)).dropLock.withResult .none).toState := by
  obtain ⟨a, ha, -, hl, h⟩ := whenReady_next h
  split at h
  · cases h
  · rename_i hc
    exact ⟨a, ha, hl, hc, by simpa only [finish_next] using h⟩

theorem writeFifo_mem (e : EpIdx) (n a : Nat) (c : Ctl) : (writeFifo e n a c).dev.mem = c.dev.mem := by
  rw [writeFifo, (pushUnits_frame ..).1, (programTx_frame e n c).2.1]

theorem startBody_mem (c : Ctl) : (startBody c).dev.mem = c.dev.mem := by
  rw [startBody, markStarted]
  exact (keeps_startProgram c).mem

theorem stopBody_mem (c : Ctl) : (stopBody c).dev.mem = c.dev.mem := by
  rw [stopBody]
  exact (keeps_stopProgram c).mem

/-- A delivery ran on the captured controller, which is steady and has the memory of the one before (R160, R161). -/
theorem execIrq_next {src : SnapSource} {s t : State} (h : execIrq src s = .next t) :
    ∃ a c r, s.inst = some a ∧ a.lock = .free ∧ Steady (Ctl.takeLock ⟨a, s.dev⟩) c ∧ c.dev.mem = s.dev.mem
      ∧ t = (c.dropLock.withResult r).toState := by
  obtain ⟨a, ha, -, hl, h⟩ := whenReady_next h
  cases src with
  | live =>
    simp only [irqLive, finish_next] at h
    exact ⟨a, _, _, ha, hl, steady_deliver_captured _ _, (keeps_deliver _ _).mem.trans (keeps_captureReads _).mem, h⟩
  | synthetic addr =>
    simp only [irqSynthetic] at h
    split at h
    · simp only [finish_next] at h
      exact ⟨a, _, _, ha, hl, steady_deliver _ _, (keeps_deliver _ _).mem, h⟩
    · cases h

/-- The five ways an operation that answers a next state can have run. -/
theorem exec_ran {i : Instr} {s t : State} (h : exec i s = .next t) : Ran i s t := by
  cases i with
  | rd8 off => exact shimRead_ran rfl h
  | rd16 off => exact shimRead_ran rfl h
  | rd32 off => exact shimRead_ran rfl h
  | wr8 off v => exact shimWrite_ran rfl h
  | wr16 off v => exact shimWrite_ran rfl h
  | wr32 off v => exact shimWrite_ran rfl h
  | wrfifo e n src =>
    obtain ⟨a, ha, hl, -, ht⟩ := execWrfifo_next h
    exact .locked a _ _ rfl (by simp) ha hl ((woken_writeFifo _ _ _ _).body fun _ => writeFifo_mem _ _ _ _) ht
  | rdfifo e n dst =>
    obtain ⟨a, ha, hl, -, ht⟩ := execRdfifo_next h
    exact .locked a _ _ rfl (by simp) ha hl ((woken_readFifo _ _ _ _).body fun hn => absurd rfl (hn e n dst)) ht
  | configure =>
    obtain ⟨a, c, r, ha, -, hl, hf, ht⟩ := execConfigure_frame h
    exact .configure a c r rfl ha hl hf ht
  | irq src =>
    obtain ⟨a, c, r, ha, hl, hst, hm, ht⟩ := execIrq_next h
    exact .locked a c r rfl (by simp) ha hl ⟨hst, fun _ => hm, fun hn => absurd rfl (hn src)⟩ ht
  | start =>
    obtain ⟨a, ha, -, hl, h⟩ := whenReady_next h
    simp only [finish_next] at h
    exact .locked a _ _ rfl (by simp) ha hl
      ⟨steady_startBody _, fun _ => startBody_mem _, fun _ hq => startBody_link hq⟩ h
  | stop =>
    replace h : execStop s = .next t := h
    unfold execStop at h
    obtain ⟨a, ha, -, h⟩ := whenConfigured_next h
    simp only [finishUnlocked_next] at h
    exact .lockless a _ _ rfl ha
      ⟨steady_stopBody _, fun _ => stopBody_mem _, fun _ hq => stopBody_link hq⟩ h
  | getmode =>
    obtain ⟨a, ha, -, hl, h⟩ := whenReady_next h
    simp only [finish_next] at h
    exact .locked a _ _ rfl (by simp) ha hl ⟨.refl _, fun _ => rfl, fun _ _ => (SameLink.refl _).fields⟩ h
  | getcable =>
    obtain ⟨a, ha, -, hl, h⟩ := whenReady_next h
    simp only [finish_next] at h
    exact .locked a _ _ rfl (by simp) ha hl ⟨.refl _, fun _ => rfl, fun _ _ => (SameLink.refl _).fields⟩ h
  | tryidle =>
    obtain ⟨a, ha, -, hl, h⟩ := whenReady_next h
    simp only [finish_next] at h
    refine .locked a _ _ rfl (by simp) ha hl ⟨steady_tryIdle _, fun _ => ?_, fun _ _ => tryIdle_link _⟩ h
    obtain ⟨x, hx, -⟩ := tryIdle_eq (Ctl.takeLock ⟨a, s.dev⟩)
    rw [hx]
  | attach =>
    obtain ⟨hs, ⟨ht, hc, hm⟩ | ⟨c1, -, hb, rfl⟩⟩ := execAttach_next h
    · exact .attach rfl hs hc hm (by simp [ht])
    · have hf := configureBody_done_frame hb
      exact .attach rfl hs hf.cfg hf.mem (by rintro b ⟨⟩; rfl)
  | detach =>
    obtain ⟨-, -, -, ht, hc, hm⟩ := execDetach_next h
    exact .detach rfl ht hc hm

end Sys2Proof.Machine
end

section
/-! PROOF. The five statements about fields no operation, or only one, writes: the parameters, the endpoint table, the
link state and the lock. -/

namespace Sys2Proof.Machine

/-- The fields that only the creation of the instance or `CONFIGURE` writes (R10, R21). -/
structure SameTable (a b : Inst) : Prop where
  base : b.base = a.base
  cfgRole : b.cfgRole = a.cfgRole
  ep : b.ep = a.ep
  epMask : b.epMask = a.epMask
  nrEndpoints : b.nrEndpoints = a.nrEndpoints
  bulkEp : b.bulkEp = a.bulkEp

theorem Steady.table {c c' : Ctl} (h : Steady c c') : SameTable c.inst c'.inst :=
  ⟨h.base, h.cfgRole, h.ep, h.epMask, h.nrEndpoints, h.bulkEp⟩

/-! ## Operations -/

theorem exec_cfg {i : Instr} {s t : State} (h : exec i s = .next t) : t.dev.cfg = s.dev.cfg := by
  obtain ⟨a, c, r, -, -, hb, rfl⟩ | ⟨a, c, r, -, -, -, -, hb, rfl⟩ | ⟨a, c, r, -, -, -, hb, rfl⟩ | ⟨-, -, hc⟩
    | ⟨-, -, hc⟩ := exec_ran h
  · exact hb.steady.cfg
  · exact hb.steady.cfg
  · exact hb.cfg
  · exact hc
  · exact hc

/-- Host memory is written by `RDFIFO` only (R40, R44). -/
theorem exec_mem {i : Instr} {s t : State} (h : exec i s = .next t) (hi : ∀ e n a, i ≠ .rdfifo e n a) :
    t.dev.mem = s.dev.mem := by
  obtain ⟨a, c, r, -, -, hb, rfl⟩ | ⟨a, c, r, -, -, -, -, hb, rfl⟩ | ⟨a, c, r, -, -, -, hb, rfl⟩ | ⟨-, -, -, hm⟩
    | ⟨-, -, -, hm⟩ := exec_ran h
  · exact hb.mem hi
  · exact hb.mem hi
  · exact hb.mem
  · exact hm
  · exact hm

theorem AllocFrame.base_role {c c' : Ctl} (h : AllocFrame c c') :
    c'.inst.base = c.inst.base ∧ c'.inst.cfgRole = c.inst.cfgRole := by
  rw [h.inst]
  exact ⟨rfl, rfl⟩

theorem exec_base_role {i : Instr} {s t : State} {a b : Inst} (h : exec i s = .next t) (ha : s.inst = some a)
    (hb : t.inst = some b) : b.base = a.base ∧ b.cfgRole = a.cfgRole := by
  obtain ⟨a', c, r, -, hs, hk, rfl⟩ | ⟨a', c, r, -, -, hs, -, hk, rfl⟩ | ⟨a', c, r, -, hs, -, hk, rfl⟩ | ⟨-, hs⟩
    | ⟨-, ht⟩ := exec_ran h
  · cases ha.symm.trans hs
    cases hb
    exact ⟨hk.steady.base, hk.steady.cfgRole⟩
  · cases ha.symm.trans hs
    cases hb
    exact ⟨hk.steady.base, hk.steady.cfgRole⟩
  · cases ha.symm.trans hs
    cases hb
    exact hk.base_role
  · cases ha.symm.trans hs
  · cases hb.symm.trans ht

theorem exec_table {i : Instr} {s t : State} {a b : Inst} (h : exec i s = .next t) (ha : s.inst = some a)
    (hb : t.inst = some b) (hi : i ≠ .configure) : SameTable a b := by
  obtain ⟨a', c, r, -, hs, hk, rfl⟩ | ⟨a', c, r, -, -, hs, -, hk, rfl⟩ | ⟨a', c, r, hc⟩ | ⟨-, hs⟩ | ⟨-, ht⟩ := exec_ran h
  · cases ha.symm.trans hs
    cases hb
    exact hk.steady.table
  · cases ha.symm.trans hs
    cases hb
    exact ⟨hk.steady.base, hk.steady.cfgRole, hk.steady.ep, hk.steady.epMask, hk.steady.nrEndpoints, hk.steady.bulkEp⟩
  · exact absurd hc hi
  · cases ha.symm.trans hs
  · cases hb.symm.trans ht

theorem AllocFrame.link {c c' : Ctl} (h : AllocFrame c c') : SameLinkFields c.inst c'.inst := by
  rw [h.inst]
  exact ⟨rfl, rfl, rfl, rfl, rfl, rfl⟩

theorem exec_link {i : Instr} {s t : State} {a b : Inst} (h : exec i s = .next t) (ha : s.inst = some a)
    (hb : t.inst = some b) (hq : Quiet s) (hi : ∀ src, i ≠ .irq src) : SameLinkFields a b := by
  obtain ⟨a', c, r, -, hs, hk, rfl⟩ | ⟨a', c, r, -, -, hs, -, hk, rfl⟩ | ⟨a', c, r, -, hs, -, hk, rfl⟩ | ⟨-, hs⟩
    | ⟨-, ht⟩ := exec_ran h
  · cases ha.symm.trans hs
    cases hb
    exact hk.link hi hq
  · cases ha.symm.trans hs
    cases hb
    exact hk.link hi hq
  · cases ha.symm.trans hs
    cases hb
    exact hk.link
  · cases ha.symm.trans hs
  · cases hb.symm.trans ht

/-! ## Moves of the environment and whole steps -/

theorem onInst_some {f : Ctl → Ctl} {s : State} {b : Inst} (h : (onInst f s).inst = some b) :
    ∃ a, s.inst = some a ∧ b = (f ⟨a, s.dev⟩).inst := by
  unfold onInst at h
  split at h <;> rename_i hs
  · cases hs.symm.trans h
  · cases h
    exact ⟨_, hs, rfl⟩

theorem onInst_cfg {f : Ctl → Ctl} (hf : ∀ c, (f c).dev.cfg = c.dev.cfg) (s : State) :
    (onInst f s).dev.cfg = s.dev.cfg := by
  unfold onInst
  split
  · rfl
  · exact hf _

theorem onInst_mem {f : Ctl → Ctl} (hf : ∀ c, (f c).dev.mem = c.dev.mem) (s : State) :
    (onInst f s).dev.mem = s.dev.mem := by
  unfold onInst
  split
  · rfl
  · exact hf _

theorem collabMove_table (m : CollabMove) (c : Ctl) : SameTable c.inst (collabMove m c).inst :=
  ((keeps_collabMove m c).steady (by simp)).table

theorem timerExpiry_inst (c : Ctl) : (timerExpiry c).dev = c.dev ∧ (timerExpiry c = c ∨ c.dev.cfg.fifoVariant = .bridgeWord
    ∧ (timerExpiry c).inst = { c.inst with idleTimer := none, wakeEnables := wakeFor c.inst.cfgRole, lowPower := true }) := by
  unfold timerExpiry
  split
  · exact ⟨rfl, .inr ⟨‹_›, rfl⟩⟩
  · exact ⟨rfl, .inl rfl⟩

theorem wakeEvent_inst (w : WakeSource) (c : Ctl) : (wakeEvent w c).dev = c.dev ∧ (wakeEvent w c = c
    ∨ c.dev.cfg.fifoVariant = .bridgeWord ∧ (wakeEvent w c).inst = { c.inst with lowPower := false }) := by
  unfold wakeEvent
  split
  · exact ⟨rfl, .inl rfl⟩
  · split
    · exact ⟨rfl, .inr ⟨‹_›, rfl⟩⟩
    · exact ⟨rfl, .inl rfl⟩

theorem envMove_cfg (m : EnvMove) (s : State) : (envMove m s).dev.cfg = s.dev.cfg := by
  cases m with
  | collab m => exact onInst_cfg (collabMove_cfg m) s
  | wakeEvent w => exact onInst_cfg (fun c => by rw [(wakeEvent_inst w c).1]) s
  | timerExpiry => exact onInst_cfg (fun c => by rw [(timerExpiry_inst c).1]) s
  | callerLock l => exact onInst_cfg (f := fun c => { c with inst := { c.inst with lock := l } }) (fun _ => rfl) s
  | _ => rfl

/-- What a move of the environment makes of an instance: what a collaborator, the timer, a wake event or the lock's
other holder writes, or nothing. -/
theorem envMove_inst {m : EnvMove} {s : State} {b : Inst} (h : (envMove m s).inst = some b) :
    ∃ a, s.inst = some a ∧ (b = a ∨ (∃ x, b = (collabMove x ⟨a, s.dev⟩).inst) ∨ (∃ l, b = { a with lock := l })
      ∨ s.dev.cfg.fifoVariant = .bridgeWord ∧ (b = { a with lowPower := false }
          ∨ b = { a with idleTimer := none, wakeEnables := wakeFor a.cfgRole, lowPower := true })) := by
  cases m with
  | collab m =>
    obtain ⟨a, ha, hb⟩ := onInst_some h
    exact ⟨a, ha, .inr (.inl ⟨m, hb⟩)⟩
  | wakeEvent w =>
    obtain ⟨a, ha, hb⟩ := onInst_some h
    obtain ⟨-, hw | ⟨hv, hw⟩⟩ := wakeEvent_inst w ⟨a, s.dev⟩ <;> rw [hw] at hb
    · exact ⟨a, ha, .inl hb⟩
    · exact ⟨a, ha, .inr (.inr (.inr ⟨hv, .inl hb⟩))⟩
  | timerExpiry =>
    obtain ⟨a, ha, hb⟩ := onInst_some h
    obtain ⟨-, hw | ⟨hv, hw⟩⟩ := timerExpiry_inst ⟨a, s.dev⟩ <;> rw [hw] at hb
    · exact ⟨a, ha, .inl hb⟩
    · exact ⟨a, ha, .inr (.inr (.inr ⟨hv, .inr hb⟩))⟩
  | callerLock l =>
    obtain ⟨a, ha, hb⟩ := onInst_some h
    exact ⟨a, ha, .inr (.inr (.inl ⟨l, hb⟩))⟩
  | _ => exact ⟨b, h, .inl rfl⟩

theorem envMove_table {m : EnvMove} {s : State} {a b : Inst} (ha : s.inst = some a) (hb : (envMove m s).inst = some b) :
    SameTable a b := by
  obtain ⟨a', ha', h⟩ := envMove_inst hb
  cases ha.symm.trans ha'
  obtain rfl | ⟨x, rfl⟩ | ⟨l, rfl⟩ | ⟨-, rfl | rfl⟩ := h
  · exact ⟨rfl, rfl, rfl, rfl, rfl, rfl⟩
  · exact collabMove_table x ⟨a, s.dev⟩
  · exact ⟨rfl, rfl, rfl, rfl, rfl, rfl⟩
  · exact ⟨rfl, rfl, rfl, rfl, rfl, rfl⟩
  · exact ⟨rfl, rfl, rfl, rfl, rfl, rfl⟩

/-- A step that answers a next state had no input, made a move of the environment, or ran the operation its command word
decodes to (R54, R62). -/
theorem step_next {s t : State} (h : step s = .next t) :
    t = s ∨ (∃ m, t = envMove m s.popInput)
    ∨ ∃ w i, s.dev.inbox = .command w :: s.dev.inbox.tail ∧ decode s.dev.cfg.numEps w = .ok i
        ∧ exec i s.popInput = .next t := by
  unfold step at h
  split at h
  · cases h
    exact .inl rfl
  · cases h
    exact .inr (.inl ⟨_, rfl⟩)
  · rename_i w hw
    split at h
    · cases h
    · exact .inr (.inr ⟨w, _, (List.eq_cons_of_mem_head? hw), ‹_›, h⟩)

/-! ## The statements -/

/-- Settles O7: every way a step can go keeps the parameters, the base and the configured role. -/
theorem stepKeepsParameters : Obligations.StepKeepsParameters := by
  intro s t h
  obtain rfl | ⟨m, rfl⟩ | ⟨w, i, -, -, h⟩ := step_next h
  · exact ⟨rfl, fun i j hi hj => by cases hi.symm.trans hj; exact ⟨rfl, rfl⟩⟩
  · refine ⟨envMove_cfg m _, fun i j hi hj => ?_⟩
    have hk := envMove_table (s := s.popInput) hi hj
    exact ⟨hk.base, hk.cfgRole⟩
  · exact ⟨exec_cfg (s := s.popInput) h, fun i j hi hj => exec_base_role (s := s.popInput) h hi hj⟩

/-- Settles O8: no move of the environment and no operation but `CONFIGURE` writes the endpoint table. -/
theorem onlyConfigureWritesEndpointTable : Obligations.OnlyConfigureWritesEndpointTable := by
  intro s t a b h ha hb hn
  have hk : SameTable a b := by
    obtain rfl | ⟨m, rfl⟩ | ⟨w, i, hw, hd, h⟩ := step_next h
    · cases ha.symm.trans hb
      exact ⟨rfl, rfl, rfl, rfl, rfl, rfl⟩
    · exact envMove_table (s := s.popInput) ha hb
    · exact exec_table (s := s.popInput) h ha hb fun hi => hn w _ hw (hi ▸ hd)
  exact ⟨hk.ep, hk.epMask, hk.nrEndpoints, hk.bulkEp⟩

/-- Settles O10: the bodies of all operations but `IRQ` leave the link fields alone while no collaborator acts. -/
theorem onlyDeliveriesMoveTheLinkState : Obligations.OnlyDeliveriesMoveTheLinkState :=
  fun _ _ _ _ _ h ha hb hq hi => exec_link h ha hb hq hi

/-- Settles O12, by the way the operation ran. -/
theorem lockFreeAfterOperation : Obligations.LockFreeAfterOperation := by
  intro i s t b h hb
  obtain ⟨a, c, r, hk, hs, hc, rfl⟩ | ⟨a, c, r, hk, hi, hs, hl, hc, rfl⟩ | ⟨a, c, r, rfl, hs, hl, hc, rfl⟩
    | ⟨rfl, hs, -, -, hl⟩ | ⟨-, ht⟩ := exec_ran h
  · cases hb
    have hlock : ∃ a, s.inst = some a ∧ c.inst.lock = a.lock := ⟨a, hs, hc.steady.lock⟩
    cases i <;> first | exact hlock | cases hk
  · cases hb
    have hlock : ∃ a, s.inst = some a ∧ a.lock = .free ∧ c.dropLock.inst.lock = .free := ⟨a, hs, hl, rfl⟩
    cases i
    case attach => exact absurd rfl hi
    all_goals first | exact hlock | cases hk
  · cases hb
    exact ⟨a, hs, hl, rfl⟩
  · exact ⟨hs, hl b hb⟩
  · cases hb.symm.trans ht

end Sys2Proof.Machine
end

section
/-! PROOF. What a successful configure leaves meets `TableInv`: the FIFO ranges of a table-driven pass (R22), where the
discovered pass stops (R140), the bulk endpoint (R144). -/

namespace Sys2Proof.Machine

/-! ## FIFO ranges of a table-driven pass (R22, R136) -/

/-- The byte range a half says its direction has. -/
def Half.range (h : Half) : Nat × Nat := (h.off.toNat, h.size.toNat * (if h.double then 2 else 1))

theorem txRange_eq (c : Ctl) (e : EpIdx) : txRange (tget c.inst.ep e) = (txHalf c e).range := rfl

theorem rxRange_eq (c : Ctl) (e : EpIdx) : rxRange (tget c.inst.ep e) = (rxHalf c e).range := rfl

theorem footprint_pos (x : FifoEntry) : 0 < footprint x := by
  have h1 := effSize_ge x.maxpacket.toNat
  have h2 := effSize_le_footprint x
  omega

/-- An entry placed inside the 16-bit space has its footprint at its offset. -/
theorem halfOf_range {m : RegMap} {x : FifoEntry} {off : Nat} (h : off + footprint x ≤ 65536) :
    (halfOf m x off).range = (off, footprint x) := by
  have h1 := footprint_pos x
  have h2 := effSize_le x.maxpacket
  have h3 : off % 65536 = off := Nat.mod_eq_of_lt (by omega)
  have h4 : effSize x.maxpacket.toNat % 65536 = effSize x.maxpacket.toNat := Nat.mod_eq_of_lt (by omega)
  cases hd : x.depth <;> simp [halfOf, Half.range, footprint, hd, h3, h4]

/-- The range of direction `dir` of endpoint `e` is empty, or that of the entry of `l` that names it. -/
def PlacedRange (l : List FifoEntry) (dir : Style → Bool) (e : EpIdx) (r : Nat × Nat) : Prop :=
  r = (0, 0) ∨ ∃ pre x post, l = pre ++ x :: post ∧ e = x.ep ∧ dir x.style = true
    ∧ r = ((pre.map footprint).sum, footprint x)

theorem sum_split_le {pre post : List FifoEntry} {x : FifoEntry} :
    (pre.map footprint).sum + footprint x ≤ ((pre ++ x :: post).map footprint).sum := by
  simp only [List.map_append, List.map_cons, List.sum_append, List.sum_cons]
  omega

theorem PlacedRange.le {l : List FifoEntry} {dir : Style → Bool} {e : EpIdx} {r : Nat × Nat}
    (h : PlacedRange l dir e r) : r.1 + r.2 ≤ (l.map footprint).sum := by
  obtain rfl | ⟨pre, x, post, rfl, -, -, rfl⟩ := h
  · exact Nat.zero_le _
  · exact sum_split_le

/-- Two directions that no one entry names lie apart. -/
theorem PlacedRange.disjoint {l : List FifoEntry} {d1 d2 : Style → Bool} {e f : EpIdx} {r q : Nat × Nat}
    (h : PlacedRange l d1 e r) (k : PlacedRange l d2 f q)
    (hn : ∀ x ∈ l, e = x.ep → f = x.ep → d1 x.style = true → d2 x.style = true → False) :
    disjointRange r q = true := by
  simp only [disjointRange, Bool.or_eq_true, decide_eq_true_eq]
  obtain rfl | ⟨p1, x, q1, hl, he, hd, rfl⟩ := h
  · exact .inl (Nat.zero_le _)
  · obtain rfl | ⟨p2, y, q2, hl', hf, hd', rfl⟩ := k
    · exact .inr (Nat.zero_le _)
    · obtain ⟨-, rfl⟩ | hb | hb := footprints_ordered hl hl'
      · exact (hn x (by simp [hl]) he hf hd hd').elim
      · exact .inl hb
      · exact .inr hb

/-- After a pass over a well-formed table the transmit half of an entry's endpoint is where the entry was placed. -/
theorem placeAll_txHalf {T pre post : List FifoEntry} {x : FifoEntry} {off nr : Nat} {w : List FifoEntry} {c c' : Ctl}
    (hT : tableWf T = true) (h : placeAll (ep0Entry :: T) off nr w c = .done c')
    (hl : ep0Entry :: T = pre ++ x :: post) (hd : Style.hasTx x.style = true) :
    txHalf c' x.ep = halfOf c.dev.cfg.regMap x (off + (pre.map footprint).sum) := by
  obtain ⟨-, -, -, -, -, -, htx, -⟩ := placeAll_places h x.ep
  exact htx pre x post hl rfl hd fun y hy hh => clash_tx ((tableWf_split_ep0 hT hl).1 y hy) hh.1 ⟨hd, hh.2⟩

/-- The same of the receive half. -/
theorem placeAll_rxHalf {T pre post : List FifoEntry} {x : FifoEntry} {off nr : Nat} {w : List FifoEntry} {c c' : Ctl}
    (hT : tableWf T = true) (h : placeAll (ep0Entry :: T) off nr w c = .done c')
    (hl : ep0Entry :: T = pre ++ x :: post) (hd : Style.hasRx x.style = true) :
    rxHalf c' x.ep = halfOf c.dev.cfg.regMap x (off + (pre.map footprint).sum) := by
  obtain ⟨-, -, -, -, -, -, -, hrx⟩ := placeAll_places h x.ep
  exact hrx pre x post hl rfl hd fun y hy hh => clash_rx ((tableWf_split_ep0 hT hl).1 y hy) hh.1 ⟨hd, hh.2⟩

section TablePass

variable {T : List FifoEntry} {c c2 : Ctl} {w : List FifoEntry}

/-- After the pass over a well-formed table from a cleared one, every transmit range is a placed one. -/
theorem placeAll_txRange (hT : tableWf T = true)
    (h : placeAll (ep0Entry :: T) 0 1 w (clearTable c) = .done c2) (hr : c.dev.cfg.fifoRamBytes ≤ 65536) (e : EpIdx) :
    PlacedRange (ep0Entry :: T) Style.hasTx e (txRange (tget c2.inst.ep e)) := by
  have hs := (placeAll_done h).2.2.1 (by simp)
  rw [txRange_eq]
  obtain ⟨hx, -⟩ | ⟨pre, x, post, hl, he, hd, hx⟩ := placeAll_tx hT h e <;> rw [hx]
  · exact .inl (by simp [txHalf, Half.range, clearTable, EpRec.reset])
  · refine .inr ⟨pre, x, post, hl, he, hd, ?_⟩
    have hle : (pre.map footprint).sum + footprint x ≤ ((ep0Entry :: T).map footprint).sum := hl ▸ sum_split_le
    rw [Nat.zero_add] at hs ⊢
    exact halfOf_range (hle.trans (hs.trans hr))

/-- The same of the receive ranges. -/
theorem placeAll_rxRange (hT : tableWf T = true)
    (h : placeAll (ep0Entry :: T) 0 1 w (clearTable c) = .done c2) (hr : c.dev.cfg.fifoRamBytes ≤ 65536) (e : EpIdx) :
    PlacedRange (ep0Entry :: T) Style.hasRx e (rxRange (tget c2.inst.ep e)) := by
  have hs := (placeAll_done h).2.2.1 (by simp)
  rw [rxRange_eq]
  obtain ⟨hx, -⟩ | ⟨pre, x, post, hl, he, hd, hx⟩ := placeAll_rx hT h e <;> rw [hx]
  · exact .inl (by simp [rxHalf, Half.range, clearTable, EpRec.reset])
  · refine .inr ⟨pre, x, post, hl, he, hd, ?_⟩
    have hle : (pre.map footprint).sum + footprint x ≤ ((ep0Entry :: T).map footprint).sum := hl ▸ sum_split_le
    rw [Nat.zero_add] at hs ⊢
    exact halfOf_range (hle.trans (hs.trans hr))

/-- A FIFO is shared exactly where an entry of style `RXTX` names the endpoint, and then its halves are equal (R72). -/
theorem placeAll_shared_iff (h : placeAll (ep0Entry :: T) 0 1 w (clearTable c) = .done c2) (e : EpIdx) :
    (tget c2.inst.ep e).sharedFifo = true ↔ ∃ x ∈ ep0Entry :: T, e = x.ep ∧ x.style = .rxtx := by
  obtain ⟨-, -, hno, -, -, hyes, -⟩ := placeAll_places h e
  refine ⟨fun hs => ?_, hyes⟩
  by_contra hn
  rw [hno fun x hx hh => hn ⟨x, hx, hh⟩] at hs
  simp [clearTable, EpRec.reset] at hs

theorem placeAll_shared_range (hT : tableWf T = true)
    (h : placeAll (ep0Entry :: T) 0 1 w (clearTable c) = .done c2) {e : EpIdx}
    (hs : (tget c2.inst.ep e).sharedFifo = true) : txRange (tget c2.inst.ep e) = rxRange (tget c2.inst.ep e) := by
  obtain ⟨x, hx, rfl, hst⟩ := (placeAll_shared_iff h e).mp hs
  obtain ⟨pre, post, hl⟩ := List.append_of_mem hx
  rw [txRange_eq, rxRange_eq, placeAll_txHalf hT h hl (by rw [hst]; rfl), placeAll_rxHalf hT h hl (by rw [hst]; rfl)]

/-- A table-driven pass partitions the FIFO RAM (R22). -/
theorem placeAll_rangesInv (hT : tableWf T = true)
    (h : placeAll (ep0Entry :: T) 0 1 w (clearTable c) = .done c2) (hr : c.dev.cfg.fifoRamBytes ≤ 65536) :
    RangesInv c.dev.cfg c2.inst.ep := by
  have hs := (placeAll_done h).2.2.1 (by simp)
  rw [Nat.zero_add] at hs
  have tx := placeAll_txRange hT h hr
  have rx := placeAll_rxRange hT h hr
  intro e
  refine ⟨(tx e).le.trans hs, (rx e).le.trans hs, placeAll_shared_range hT h, fun hns => ?_, fun f hf => ⟨?_, ?_, ?_⟩⟩
  · refine (tx e).disjoint (rx e) fun x hx he _ h1 h2 => ?_
    have hst : x.style = .rxtx := by cases hst : x.style <;> simp [hst, Style.hasTx, Style.hasRx] at h1 h2 ⊢
    rw [(placeAll_shared_iff h e).mpr ⟨x, hx, he, hst⟩] at hns
    cases hns
  · exact (tx e).disjoint (tx f) fun x _ he hf' _ _ => hf (hf'.trans he.symm)
  · exact (tx e).disjoint (rx f) fun x _ he hf' _ _ => hf (hf'.trans he.symm)
  · exact (rx e).disjoint (rx f) fun x _ he hf' _ _ => hf (hf'.trans he.symm)

end TablePass

/-! ## The count of a table-driven pass (R138) -/

theorem foldl_count_le {l : List FifoEntry} {nr b : Nat} (hn : nr ≤ b) (hl : ∀ x ∈ l, x.ep.val < b) :
    l.foldl (fun n x => max n (x.ep.val + 1)) nr ≤ b := by
  induction l generalizing nr with
  | nil => exact hn
  | cons x l ih =>
    have hx := hl x (by simp)
    exact ih (max_le hn hx) fun y hy => hl y (List.mem_cons_of_mem _ hy)

theorem le_foldl_count (l : List FifoEntry) (nr : Nat) : nr ≤ l.foldl (fun n x => max n (x.ep.val + 1)) nr := by
  induction l generalizing nr with
  | nil => exact le_rfl
  | cons x l ih => exact (le_max_left _ _).trans (ih _)

theorem lt_foldl_count {l : List FifoEntry} {nr : Nat} {x : FifoEntry} (hx : x ∈ l) :
    x.ep.val < l.foldl (fun n x => max n (x.ep.val + 1)) nr := by
  induction l generalizing nr with
  | nil => simp at hx
  | cons y l ih =>
    obtain rfl | hx := List.mem_cons.mp hx
    · exact lt_of_lt_of_le (Nat.lt_succ_self _) ((le_max_right _ _).trans (le_foldl_count l _))
    · exact ih hx

/-! ## The discovered pass (R140 to R142) -/

theorem bit_endpoint (e f : EpIdx) : (bit 16 e.val).getLsbD f.val = decide (f = e) := by
  have hf := f.isLt
  have he := e.isLt
  by_cases h : f = e
  · subst h
    simp [bit]
  · have hv : f.val ≠ e.val := fun hh => h (Fin.ext hh)
    simp [bit, h]
    omega

theorem epValue_fifosize {e : EpIdx} (he : e ≠ 0) (c : Ctl) :
    (epValue .fifosize e c).setWidth 8 = tget c.dev.cfg.hwSizeDesc e := by
  simp [epValue, busValue, regValue, he]

/-- No descriptor of the list up to endpoint `e` is zero (R140). -/
def Found (p : Params) (l : List EpIdx) (e : EpIdx) : Prop := ∀ f ∈ l, f.val ≤ e.val → tget p.hwSizeDesc f ≠ 0

theorem found_cons {p : Params} {l : List EpIdx} {e x : EpIdx} (hx : e.val ≤ x.val) :
    Found p (e :: l) x ↔ tget p.hwSizeDesc e ≠ 0 ∧ Found p l x :=
  ⟨fun h => ⟨h e (by simp) hx, fun f hf => h f (by simp [hf])⟩, fun h f hf hfx => by
    obtain rfl | hf := List.mem_cons.mp hf
    · exact h.1
    · exact h.2 f hf hfx⟩

/-- What the pass over ascending indices from `nr` on leaves of endpoint `x` of the list: the record its descriptor
gives if it is found, else nothing of it changes. -/
def DiscoveredAs (l : List EpIdx) (c c' : Ctl) (x : EpIdx) : Prop :=
  (Found c.dev.cfg l x ∧ x.val < c'.inst.nrEndpoints ∧ c'.inst.epMask.getLsbD x.val = true
    ∧ tget c'.inst.ep x = discoveredRec (tget c.dev.cfg.hwSizeDesc x) (tget c.inst.ep x))
  ∨ (¬ Found c.dev.cfg l x ∧ c'.inst.nrEndpoints ≤ x.val
    ∧ c'.inst.epMask.getLsbD x.val = c.inst.epMask.getLsbD x.val ∧ tget c'.inst.ep x = tget c.inst.ep x)

/-- What one discovered endpoint leaves (R141). -/
theorem discoverEp_ep (e x : EpIdx) (d : Byte) (c : Ctl) :
    tget (discoverEp e d c).inst.ep x = (if x = e then discoveredRec d (tget c.inst.ep e) else tget c.inst.ep x)
    ∧ (discoverEp e d c).inst.epMask.getLsbD x.val = (c.inst.epMask.getLsbD x.val || decide (x = e)) := by
  refine ⟨?_, by rw [discoverEp, BitVec.getLsbD_or, bit_endpoint]⟩
  by_cases h : x = e
  · subst h
    simp [discoverEp]
  · simp [discoverEp, h, tget_tset_ne]

theorem discoverAll_cons (e : EpIdx) (l : List EpIdx) (nr : Nat) (c : Ctl) (he : e ≠ 0) :
    discoverAll (e :: l) nr c = if tget c.dev.cfg.hwSizeDesc e = 0
      then { epRead .fifosize e c with inst := { (epRead .fifosize e c).inst with nrEndpoints := nr } }
      else discoverAll l (e.val + 1) (discoverEp e (tget c.dev.cfg.hwSizeDesc e) (epRead .fifosize e c)) := by
  rw [discoverAll, epValue_fifosize he]

/-- The whole of the discovered pass over ascending indices (R140): every index of the list is discovered or left, the
count is the end of what is found, and no other endpoint is touched. -/
theorem discoverAll_spec {l : List EpIdx} {nr : Nat} {c : Ctl} (hs : l.Pairwise (· < ·)) (h0 : 0 ∉ l)
    (hn : ∀ e ∈ l, nr ≤ e.val) :
    (∀ x ∈ l, DiscoveredAs l c (discoverAll l nr c) x)
    ∧ (∀ x, x ∉ l → tget (discoverAll l nr c).inst.ep x = tget c.inst.ep x
        ∧ (discoverAll l nr c).inst.epMask.getLsbD x.val = c.inst.epMask.getLsbD x.val)
    ∧ nr ≤ (discoverAll l nr c).inst.nrEndpoints
    ∧ ∀ b, nr ≤ b → (∀ e ∈ l, e.val < b) → (discoverAll l nr c).inst.nrEndpoints ≤ b := by
  induction l generalizing nr c with
  | nil => exact ⟨by simp, fun x _ => ⟨rfl, rfl⟩, le_rfl, fun b hb _ => hb⟩
  | cons e l ih =>
    rw [List.pairwise_cons] at hs
    obtain ⟨hlt, hs⟩ := hs
    rw [discoverAll_cons e l nr c fun hh => h0 (by simp [hh])]
    have hge : ∀ x ∈ e :: l, e.val ≤ x.val := fun x hx => by
      obtain rfl | hx := List.mem_cons.mp hx
      · exact le_rfl
      · exact Nat.le_of_lt (hlt x hx)
    split <;> rename_i hd
    · refine ⟨fun x hx => .inr ⟨fun hf => hf e (by simp) (hge x hx) hd, hn x hx, by simp, by simp⟩, fun x _ => ?_, le_rfl,
        fun b hb _ => hb⟩
      simp
    · obtain ⟨i1, i2, i3, i4⟩ := ih (nr := e.val + 1)
        (c := discoverEp e (tget c.dev.cfg.hwSizeDesc e) (epRead .fifosize e c)) hs (fun hh => h0 (by simp [hh])) hlt
      have hcfg : (discoverEp e (tget c.dev.cfg.hwSizeDesc e) (epRead .fifosize e c)).dev.cfg = c.dev.cfg :=
        epRead_cfg _ _ _
      have hep := fun x => discoverEp_ep e x (tget c.dev.cfg.hwSizeDesc e) (epRead .fifosize e c)
      simp only [epRead_ep, epRead_epMask] at hep
      have hel : e ∉ l := fun hh => absurd (hlt e hh) (lt_irrefl _)
      refine ⟨fun x hx => ?_, fun x hx => ?_, (hn e (by simp)).trans (Nat.le_of_succ_le i3), fun b _ hb => ?_⟩
      · obtain rfl | hx' := List.mem_cons.mp hx
        · refine .inl ⟨(found_cons le_rfl).mpr ⟨hd, fun f hf hfx => absurd (hlt f hf) (not_lt.mpr hfx)⟩, i3, ?_, ?_⟩
          · simp [(i2 x hel).2, (hep x).2]
          · simp [(i2 x hel).1, (hep x).1]
        · have hxe : x ≠ e := fun hh => hel (hh ▸ hx')
          have hi := i1 x hx'
          unfold DiscoveredAs at hi ⊢
          rw [found_cons (hge x hx)]
          simp only [hcfg, (hep x).1, (hep x).2, hxe, if_false, decide_false, Bool.or_false] at hi
          simpa only [hd, not_false_eq_true, ne_eq, true_and] using hi
      · have hxe : x ≠ e := fun hh => hx (by simp [hh])
        have hxl : x ∉ l := fun hh => hx (by simp [hh])
        exact ⟨by rw [(i2 x hxl).1, (hep x).1, if_neg hxe],
          by rw [(i2 x hxl).2, (hep x).2, decide_eq_false hxe, Bool.or_false]⟩
      · exact i4 b (hb e (by simp)) fun f hf => hb f (by simp [hf])

theorem epsFrom1_sorted (p : Params) : (epsFrom1 p).Pairwise (· < ·) :=
  ((List.pairwise_lt_finRange 16).filter _).filter _

theorem mem_epsFrom1 {p : Params} {e : EpIdx} : e ∈ epsFrom1 p ↔ 1 ≤ e.val ∧ e.val < p.numEps := by
  simp [epsFrom1, allEps, and_comm]

theorem zero_notMem_epsFrom1 (p : Params) : (0 : EpIdx) ∉ epsFrom1 p := fun h => by
  have h1 := (mem_epsFrom1.mp h).1
  simp at h1

end Sys2Proof.Machine
end

section
/-! PROOF. The invariant of the machine: a successful configure establishes `TableInv`, and every step keeps the rest. -/

namespace Sys2Proof.Machine

/-! ## What the parameter bounds say (R3) -/

theorem wf_fifoRamBytes {p : Params} (h : p.wf = true) : p.fifoRamBytes ≤ 65536 := by
  simp only [Params.wf, Bool.and_eq_true, decide_eq_true_eq] at h
  tauto

theorem wf_layoutUsable {p : Params} (h : p.wf = true) : layoutUsable p = true := by
  simp only [Params.wf, Bool.and_eq_true] at h
  exact h.1.1.2

theorem wf_tableWf {p : Params} (h : p.wf = true) (hm : p.allocMode = .table) : tableWf p.fifoTable = true := by
  simpa [layoutUsable, hm] using wf_layoutUsable h

/-! ## What a pass leaves of endpoint 0, the bitmask and the count (R21, R138, R140) -/

/-- The part of `TableInv` a pass establishes, before the bulk check. -/
structure PassInv (p : Params) (i : Inst) : Prop where
  ep0Tx : (tget i.ep 0).maxPacketTx = 64
  ep0Rx : (tget i.ep 0).maxPacketRx = 64
  ep0Shared : (tget i.ep 0).sharedFifo = true
  ep0Mask : i.epMask.getLsbD 0 = true
  count_pos : 1 ≤ i.nrEndpoints
  count_le : i.nrEndpoints ≤ max 1 p.numEps
  mask : ∀ e : EpIdx, i.nrEndpoints ≤ e.val → i.epMask.getLsbD e.val = false
  ranges : p.allocMode = .table → RangesInv p i.ep

theorem clearTable_mask (c : Ctl) (k : Nat) : (clearTable c).inst.epMask.getLsbD k = false := by simp [clearTable]

/-- Endpoint 0 has one entry, its implicit one, at offset 0 (R132). -/
theorem placeAll_ep0 {T : List FifoEntry} (hT : tableWf T = true) {c c' : Ctl} {nr : Nat} {w : List FifoEntry}
    (h : placeAll (ep0Entry :: T) 0 nr w c = .done c') :
    (tget c'.inst.ep 0).maxPacketTx = 64 ∧ (tget c'.inst.ep 0).maxPacketRx = 64
    ∧ (tget c'.inst.ep 0).sharedFifo = true ∧ c'.inst.epMask.getLsbD 0 = true := by
  obtain ⟨-, -, -, -, hm, hs, -⟩ := placeAll_places h 0
  have h1 := placeAll_txHalf (pre := []) hT h rfl rfl
  have h2 := placeAll_rxHalf (pre := []) hT h rfl rfl
  exact ⟨congrArg Half.size h1, congrArg Half.size h2, hs ⟨ep0Entry, by simp, rfl, rfl⟩,
    hm.trans (by simp [ep0Entry])⟩

theorem configureTable_passInv {c c' : Ctl} (hw : c.dev.cfg.wf = true) (hm : c.dev.cfg.allocMode = .table)
    (h : configureTable (clearTable c) = .done c') : PassInv c.dev.cfg c'.inst := by
  have hT := wf_tableWf hw hm
  obtain ⟨-, hlt, -, hnr⟩ := placeAll_done h
  obtain ⟨h1, h2, h3, h4⟩ := placeAll_ep0 hT h
  refine ⟨h1, h2, h3, h4, hnr ▸ le_foldl_count _ 1, ?_, fun e he => ?_, fun _ =>
    placeAll_rangesInv hT h (wf_fifoRamBytes hw)⟩
  · rw [hnr]
    exact foldl_count_le (le_max_left _ _) fun x hx => lt_of_lt_of_le (hlt x hx) (le_max_right _ _)
  · obtain ⟨-, -, -, -, hmask, -⟩ := placeAll_places h e
    rw [hmask, clearTable_mask, Bool.false_or, List.any_eq_false]
    intro x hx hex
    rw [hnr, of_decide_eq_true hex] at he
    exact absurd (lt_foldl_count hx) (not_lt.mpr he)

/-- The discovered pass from a cleared table: what `discoverAll_spec` says of all indices from 1 on, and endpoint 0. -/
theorem configureDiscovered_passInv {c c' : Ctl} (hm : c.dev.cfg.allocMode = .discovered)
    (h : configureDiscovered (clearTable c) = .done c') : PassInv c.dev.cfg c'.inst := by
  simp only [configureDiscovered, Pass.done.injEq] at h
  subst h
  have h0 := zero_notMem_epsFrom1 (clearTable c).dev.cfg
  obtain ⟨hin, hout, hpos, hle⟩ := discoverAll_spec (nr := 1) (c := discoverEp0 (clearTable c)) (epsFrom1_sorted _) h0
    fun e he => (mem_epsFrom1.mp he).1
  obtain ⟨he0, hm0⟩ := hout 0 h0
  have hmask : ∀ x : EpIdx, (discoverEp0 (clearTable c)).inst.epMask.getLsbD x.val = decide (x = 0) := fun x => by
    have hb := bit_endpoint 0 x
    rw [discoverEp0, BitVec.getLsbD_or, clearTable_mask, Bool.false_or]
    exact hb
  have hep0 : tget (discoverEp0 (clearTable c)).inst.ep 0 = { tget (clearTable c).inst.ep 0 with
      maxPacketTx := ep0FifoBytes, maxPacketRx := ep0FifoBytes, sharedFifo := true } := tget_tset_same _ _ _
  refine ⟨by rw [he0, hep0]; rfl, by rw [he0, hep0]; rfl, by rw [he0, hep0], hm0.trans (hmask 0), hpos,
    hle _ (le_max_left _ _) fun e he => lt_of_lt_of_le (mem_epsFrom1.mp he).2 (le_max_right _ _), fun x hx => ?_,
    fun ht => (by rw [hm] at ht; cases ht)⟩
  have hx0 : x ≠ 0 := fun hh => by
    subst hh
    exact absurd (hpos.trans hx) (by simp)
  by_cases hxl : x ∈ epsFrom1 (clearTable c).dev.cfg
  · obtain ⟨-, hlt, -⟩ | ⟨-, -, hsame, -⟩ := hin x hxl
    · exact absurd hlt (not_lt.mpr hx)
    · rw [hsame, hmask, decide_eq_false hx0]
  · rw [(hout x hxl).2, hmask, decide_eq_false hx0]

/-! ## The bulk endpoint (R144) -/

theorem firstBulk_some {i : Inst} {e : EpIdx} (h : firstBulk i = some e) :
    1 ≤ e.val ∧ e.val < i.nrEndpoints ∧ 512 ≤ (tget i.ep e).maxPacketTx.toNat ∧ 512 ≤ (tget i.ep e).maxPacketRx.toNat := by
  have hp := List.find?_some h
  simp only [bulkOk, Bool.and_eq_true, decide_eq_true_eq] at hp
  exact ⟨hp.1.1, hp.1.2, hp.2.1, hp.2.2⟩

/-- A bulk check that succeeds records the first usable endpoint in a host-capable role, and none in the other. -/
theorem bulkCheck_bulkEp {w : List FifoEntry} {c2 c1 : Ctl} (h : bulkCheck w c2 = .done c1) :
    (c2.inst.cfgRole.hostCapable = false → c1.inst.bulkEp = none)
    ∧ (c2.inst.cfgRole.hostCapable = true → ∃ e, c1.inst.bulkEp = some e ∧ firstBulk c2.inst = some e) := by
  unfold bulkCheck at h
  split at h <;> rename_i hr
  · refine ⟨fun hf => by simp [hr] at hf, fun _ => ?_⟩
    split at h <;> rename_i hb
    · cases h
      exact ⟨_, rfl, hb⟩
    · cases h
  · cases h
    exact ⟨fun _ => rfl, fun hf => absurd hf hr⟩

/-! ## The whole of configure -/

/-- The passes, by the mode that selects them (R130, R131). -/
theorem configurePass_passInv {c c' : Ctl} (hw : c.dev.cfg.wf = true) (h : configurePass (clearTable c) = .done c') :
    PassInv c.dev.cfg c'.inst := by
  unfold configurePass at h
  split at h <;> rename_i hm
  · exact configureTable_passInv hw hm h
  · exact configureDiscovered_passInv hm h

/-- A configure that succeeds establishes the invariant of the endpoint table (R21, R22, R138, R144). -/
theorem configureBody_tableInv {c c1 : Ctl} (hw : c.dev.cfg.wf = true) (h : configureBody c = .done c1) :
    TableInv c.dev.cfg c1.inst := by
  obtain ⟨c2, hp, hb⟩ := configureBody_done h
  have hi := configurePass_passInv hw hp
  obtain ⟨hno, hyes⟩ := bulkCheck_bulkEp hb
  have hc := (bulkCheck_done hb).2
  generalize c1.inst.bulkEp = k at hno hyes hc
  rw [hc]
  refine ⟨hi.ep0Tx, hi.ep0Rx, hi.ep0Shared, hi.ep0Mask, hi.count_pos, hi.count_le, hi.mask, hno, fun hr => ?_, hi.ranges⟩
  obtain ⟨e, he, hf⟩ := hyes hr
  exact ⟨e, he, firstBulk_some hf⟩

/-- `CONFIGURE` that ends with `Ok` ran its body to the end (R130, R276). -/
theorem execConfigure_ok {s t : State} (h : execConfigure s = .next t) (hr : t.dev.result = .status .ok) :
    ∃ i c1, s.inst = some i ∧ i.lock = .free ∧ i.started = false ∧ layoutUsable s.dev.cfg = true
      ∧ configureBody (Ctl.takeLock ⟨i, s.dev⟩) = .done c1
      ∧ t = configureDone c1 := by
  obtain ⟨i, hi, -, hl, hst, hu, ⟨c1, hb, ht⟩ | ⟨cause, w, c1, -, rfl⟩⟩ := execConfigure_next h
  · exact ⟨i, c1, hi, hl, hst, hu, hb, ht⟩
  · cases hr

/-- Settles O36: a successful table-driven configure partitions the FIFO RAM. -/
theorem configuredRangesAreDisjoint : Obligations.ConfiguredRangesAreDisjoint := by
  intro s t j hw hm h hr hj
  obtain ⟨i, c1, -, -, -, -, hb, rfl⟩ := execConfigure_ok h hr
  cases hj
  obtain ⟨-, -, -, -, -, -, -, -, -, hranges⟩ := configureBody_tableInv (c := Ctl.takeLock ⟨i, s.dev⟩) hw hb
  exact hranges hm

/-! ## Every step keeps the invariant -/

theorem TableInv.of_same {p : Params} {a b : Inst} (h : TableInv p a) (k : SameTable a b) : TableInv p b := by
  unfold TableInv at h ⊢
  rw [k.ep, k.epMask, k.nrEndpoints, k.bulkEp, k.cfgRole]
  exact h

/-- An operation whose body is steady keeps the instance's invariant. -/
theorem Steady.inv {c c' : Ctl} (h : Steady c c') (hi : c.inst.Inv c.dev.cfg) : c'.inst.Inv c.dev.cfg := by
  obtain ⟨hbase, hrole, hretry, hdirect, hwake, hover, htab⟩ := hi
  refine ⟨h.base.trans hbase, h.cfgRole.trans hrole, h.retry.trans (max_le hretry le_rfl), fun hv => ?_, ?_, fun ho => ?_,
    fun hc => (htab (h.configured ▸ hc)).of_same h.table⟩
  · obtain ⟨h1, h2, h3⟩ := hdirect hv
    refine ⟨(h.idleTimer hv).trans h1, ?_, h.wakeEnables.trans h3⟩
    obtain hl | hl := h.lowPower <;> simp [hl, hv, h2]
  · rw [h.wakeEnables]
    exact hwake
  · obtain ho | ⟨h1, h2⟩ := h.overlay ho
    · exact hover ho
    · exact ⟨h1, hrole ▸ h2⟩

/-- Configure keeps the instance's invariant where it leaves a legal table. -/
theorem AllocFrame.inv {c c' : Ctl} (h : AllocFrame c c') (hi : c.inst.Inv c.dev.cfg)
    (ht : c'.inst.configured = true → TableInv c.dev.cfg c'.inst) : c'.inst.Inv c.dev.cfg := by
  obtain ⟨hbase, hrole, hretry, hdirect, hwake, hover, -⟩ := hi
  have hlow := h.lowPower
  generalize hc : c'.inst = j at ht hlow
  have hj := h.inst
  rw [hc] at hj
  refine ⟨by rw [hj]; exact hbase, by rw [hj]; exact hrole, by rw [hj]; exact hretry, fun hv => ?_,
    by rw [hj]; exact hwake, by rw [hj]; exact hover, ht⟩
  obtain ⟨h1, h2, h3⟩ := hdirect hv
  refine ⟨by rw [hj]; exact h1, ?_, by rw [hj]; exact h3⟩
  obtain hl | hl := hlow <;> simp [hl, hv, h2]

/-- Taking or dropping the lock touches nothing the invariant speaks of. -/
theorem Inst.Inv.withLock {p : Params} {i : Inst} (h : i.Inv p) (l : Lock) : ({ i with lock := l } : Inst).Inv p := h

theorem Inst.reset_inv (p : Params) : (Inst.reset p).Inv p := by
  refine ⟨rfl, rfl, le_rfl, fun _ => ⟨rfl, rfl, rfl⟩, fun h => (by cases h), fun h => ?_, fun h => (by cases h)⟩
  simpa [Inst.reset] using h

theorem execConfigure_inv {s t : State} {j : Inst} (hw : s.dev.cfg.wf = true) (hi : s.Inv)
    (h : execConfigure s = .next t) (hj : t.inst = some j) : j.Inv s.dev.cfg := by
  obtain ⟨i, hs, -, -, -, -, ⟨c1, hb, rfl⟩ | ⟨cause, w, c1, hb, rfl⟩⟩ := execConfigure_next h
  all_goals
    cases hj
    have hinv := (hi.2 i hs).withLock .held
  · have ht := configureBody_tableInv (c := Ctl.takeLock ⟨i, s.dev⟩) hw hb
    exact (AllocFrame.inv (c' := ⟨{ c1.inst with configured := true }, c1.dev⟩)
      ((configureBody_done_frame hb).trans ⟨rfl, .inl rfl, rfl, rfl⟩) hinv fun _ => ht).withLock .free
  · exact (AllocFrame.inv ((configureBody_failed_frame hb).trans (afterFailure_frame w c1)) hinv
      fun hc => (by cases hc)).withLock .free

theorem execAttach_inv {s t : State} {j : Inst} (hw : s.dev.cfg.wf = true) (h : execAttach s = .next t)
    (hj : t.inst = some j) : j.Inv s.dev.cfg := by
  obtain ⟨-, ⟨hn, -⟩ | ⟨c1, -, hb, rfl⟩⟩ := execAttach_next h
  · cases hn.symm.trans hj
  · cases hj
    have ht := configureBody_tableInv (c := (createInst s.dev.granted).takeLock) hw hb
    have hinv := (Inst.reset_inv s.dev.cfg).withLock .held
    exact (AllocFrame.inv (c' := ⟨{ c1.inst with configured := true }, c1.dev⟩)
      ((configureBody_done_frame hb).trans ⟨rfl, .inl rfl, rfl, rfl⟩) hinv fun _ => ht).withLock .free

/-- The stores of a read transfer are to allocated addresses, so memory stays canonical (R44, R115). -/
theorem readFifo_mem_wf {e : EpIdx} {n a : Nat} {c : Ctl} (hw : c.dev.cfg.wf = true) (hm : c.dev.mem.wf = true)
    (hfit : countFits c.dev.cfg e n = true) (hal : allocated c.dev.regions a n = true) :
    (readFifo e n a c).dev.mem.wf = true := by
  have hcount := programRx_counter hw hfit
  obtain ⟨-, hfr, -⟩ := programRx_frame e n c
  rw [readFifo]
  generalize programRx e n c = c' at hcount hfr
  have hcfg : c'.dev.cfg = c.dev.cfg := by rw [hfr]
  have hmem : c'.dev.mem = c.dev.mem := by rw [hfr]
  have hu := fifoUnits_fit c.dev.cfg.fifoVariant a n (tget c'.dev.brRxLeft e) hcount
  rw [← hcfg] at hu ⊢
  refine (popUnits_spec e _ a n _ c' hu rfl (hmem ▸ hm) fun hp => ?_).1
  rw [fifoUnits_sum] at hp ⊢
  exact allocated_bound hal hp

theorem execRdfifo_mem_wf {e : EpIdx} {n : BitVec 16} {dst : BitVec 32} {s t : State} (hw : s.dev.cfg.wf = true)
    (hm : s.dev.mem.wf = true) (h : execRdfifo e n dst s = .next t) : t.dev.mem.wf = true := by
  obtain ⟨a, -, -, hck, rfl⟩ := execRdfifo_next h
  obtain ⟨-, -, hfit, hal⟩ := transferCheck_none.mp hck
  exact readFifo_mem_wf (c := Ctl.takeLock ⟨a, s.dev⟩) hw hm hfit hal

theorem exec_mem_wf {i : Instr} {s t : State} (hw : s.dev.cfg.wf = true) (hm : s.dev.mem.wf = true)
    (h : exec i s = .next t) : t.dev.mem.wf = true := by
  by_cases hi : ∀ e n a, i ≠ .rdfifo e n a
  · rw [exec_mem h hi]
    exact hm
  · push Not at hi
    obtain ⟨e, n, a, rfl⟩ := hi
    exact execRdfifo_mem_wf hw hm h

theorem exec_inv {i : Instr} {s t : State} (hw : s.dev.cfg.wf = true) (hs : s.Inv) (h : exec i s = .next t) : t.Inv := by
  refine ⟨exec_mem_wf hw hs.1 h, fun j hj => ?_⟩
  rw [exec_cfg h]
  obtain ⟨a, c, r, -, ha, hb, rfl⟩ | ⟨a, c, r, -, -, ha, -, hb, rfl⟩ | ⟨a, c, r, rfl⟩ | ⟨rfl⟩ | ⟨-, ht⟩ := exec_ran h
  · cases hj
    exact hb.steady.inv (hs.2 a ha)
  · cases hj
    exact (hb.steady.inv ((hs.2 a ha).withLock .held)).withLock .free
  · exact execConfigure_inv hw hs h hj
  · exact execAttach_inv hw h hj
  · cases hj.symm.trans ht

/-- Whatever the environment does to the instance, the invariant stays (R54, R233, R237, R256 to R263). -/
theorem envMove_inst_inv {m : EnvMove} {s : State} {j : Inst} (hs : s.Inv) (hj : (envMove m s).inst = some j) :
    j.Inv s.dev.cfg := by
  obtain ⟨a, ha, h⟩ := envMove_inst hj
  have hi := hs.2 a ha
  obtain rfl | ⟨x, rfl⟩ | ⟨l, rfl⟩ | ⟨hv, h⟩ := h
  · exact hi
  · exact ((keeps_collabMove x ⟨a, s.dev⟩).steady (by simp)).inv hi
  · exact hi.withLock l
  · obtain ⟨hbase, hrole, hretry, -, hwake, hover, htab⟩ := hi
    have hbridge : s.dev.cfg.fifoVariant ≠ .directBurst := by simp [hv]
    obtain rfl | rfl := h
    · exact ⟨hbase, hrole, hretry, fun hd => absurd hd hbridge, hwake, hover, htab⟩
    · refine ⟨hbase, hrole, hretry, fun hd => absurd hd hbridge, fun hw => ?_, hover, htab⟩
      rw [← hrole]
      exact of_decide_eq_true hw

theorem envMove_mem_wf {m : EnvMove} {s : State} (hm : s.dev.mem.wf = true) : (envMove m s).dev.mem.wf = true := by
  cases m with
  | collab x =>
    rw [envMove, onInst_mem (collabMove_mem x)]
    exact hm
  | wakeEvent w =>
    rw [envMove, onInst_mem fun c => by rw [(wakeEvent_inst w c).1]]
    exact hm
  | timerExpiry =>
    rw [envMove, onInst_mem fun c => by rw [(timerExpiry_inst c).1]]
    exact hm
  | callerLock l =>
    rw [envMove, onInst_mem (f := fun c => { c with inst := { c.inst with lock := l } }) fun _ => rfl]
    exact hm
  | hostStore a v => exact Memory.write_wf hm a.isLt
  | _ => exact hm

/-- Settles O6: every move of the environment and every operation keeps the invariant. -/
theorem stepKeepsInvariant : Obligations.StepKeepsInvariant := by
  intro s t hw hs h
  obtain rfl | ⟨m, rfl⟩ | ⟨w, i, -, -, h⟩ := step_next h
  · exact hs
  · refine ⟨envMove_mem_wf (s := s.popInput) hs.1, fun j hj => ?_⟩
    rw [envMove_cfg]
    exact envMove_inst_inv (s := s.popInput) hs hj
  · exact exec_inv (s := s.popInput) hw hs h

end Sys2Proof.Machine
end

section
/-! PROOF. The bus transactions of a direct transfer (R113), and the state after reset. -/

namespace Sys2Proof.Machine

/-! ## The bus trace of the FIFO engine (R35, R43, R113) -/

/-- `c'` extends the bus trace of `c` by engine transactions of the widths `ws`, all at the place `p`. -/
def EngineTrace (p : Option BusAt) (ws : List Nat) (c c' : Ctl) : Prop :=
  ∃ new, c'.dev.bus = c.dev.bus ++ new ∧ new.map BusEvent.engineWidth = ws.map some ∧ ∀ ev ∈ new, ev.place = p

theorem EngineTrace.cons {p : Option BusAt} {w : Nat} {ws : List Nat} {c c' c'' : Ctl} {ev : BusEvent}
    (hb : c'.dev.bus = c.dev.bus ++ [ev]) (hw : ev.engineWidth = some w) (hp : ev.place = p)
    (h : EngineTrace p ws c' c'') : EngineTrace p (w :: ws) c c'' := by
  obtain ⟨new, h1, h2, h3⟩ := h
  exact ⟨ev :: new, by simp [h1, hb], by simp [h2, hw], by simpa using ⟨hp, h3⟩⟩

theorem pushUnits_trace (e : EpIdx) (ws : List Nat) (a left : Nat) (c : Ctl) :
    EngineTrace (portAt e c) ws c (pushUnits e ws a left c) := by
  induction ws generalizing a left c with
  | nil => exact ⟨[], by simp [pushUnits]⟩
  | cons w ws ih => exact .cons rfl rfl rfl (ih (a + w) (left - w) (fifoPush e w (unitValue c.dev.mem a w left) c))

theorem popUnits_trace (e : EpIdx) (ws : List Nat) (a left : Nat) (c : Ctl) :
    EngineTrace (portAt e c) ws c (popUnits e ws a left c) := by
  induction ws generalizing a left c with
  | nil => exact ⟨[], by simp [popUnits]⟩
  | cons w ws ih => exact .cons rfl rfl rfl (ih (a + w) (left - w) (popUnit e w a left c))

/-- The engine's units are those R113 words by the alignment. -/
theorem directUnits_eq (a n : Nat) : directUnits a n = unitsByAlignment a n := by
  have h0 : n.testBit 0 = decide (n % 2 = 1) := Nat.testBit_zero n
  have h1 : n.testBit 1 = decide (n / 2 % 2 = 1) := by rw [Nat.testBit_succ, Nat.testBit_zero]
  have hs1 : n >>> 1 = n / 2 := by rw [Nat.shiftRight_eq_div_pow]
  have hs2 : n >>> 2 = n / 4 := by rw [Nat.shiftRight_eq_div_pow]
  unfold directUnits unitsByAlignment
  rw [h0, h1, hs1, hs2]
  obtain hm | hm | hm | hm : a % 4 = 0 ∨ a % 4 = 1 ∨ a % 4 = 2 ∨ a % 4 = 3 := by omega
  all_goals rw [hm]
  · rw [if_neg (by omega), if_neg (by decide)]
    simp only [decide_eq_true_eq]
  · rw [if_pos (by omega)]
    rfl
  · rw [if_neg (by omega), if_pos rfl]
    simp only [decide_eq_true_eq]
  · rw [if_pos (by omega)]
    rfl

theorem direct_fifoUnits {c : Ctl} (hv : c.dev.cfg.fifoVariant = .directBurst) (a n : Nat) :
    fifoUnits c.dev.cfg.fifoVariant a n = unitsByAlignment a n := by
  rw [hv, fifoUnits, directUnits_eq]

theorem direct_portAt {c : Ctl} (hv : c.dev.cfg.fifoVariant = .directBurst) (e : EpIdx) :
    portAt e c = some (c.inst.busAt (tget c.dev.cfg.regMap.fifo e)) := by
  rw [portAt, hv]

/-- On the direct variant a write transfer is its pushes: no length is programmed (R116). -/
theorem writeFifo_trace {c : Ctl} (hv : c.dev.cfg.fifoVariant = .directBurst) (e : EpIdx) (n a : Nat) :
    EngineTrace (some (c.inst.busAt (tget c.dev.cfg.regMap.fifo e))) (unitsByAlignment a n) c (writeFifo e n a c) := by
  rw [writeFifo, (programTx_frame e n c).2.2 hv, direct_fifoUnits hv, ← direct_portAt hv]
  exact pushUnits_trace _ _ _ _ _

/-- On the direct variant a read transfer is its pops (R116). -/
theorem readFifo_trace {c : Ctl} (hv : c.dev.cfg.fifoVariant = .directBurst) (e : EpIdx) (n a : Nat) :
    EngineTrace (some (c.inst.busAt (tget c.dev.cfg.regMap.fifo e))) (unitsByAlignment a n) c (readFifo e n a c) := by
  rw [readFifo, (programRx_frame e n c).2.2 hv, direct_fifoUnits hv, ← direct_portAt hv]
  exact popUnits_trace _ _ _ _ _

/-- Settles O28: the engine's transactions are those of the unit loops, which the alignment gives. -/
theorem directUnitsFollowAlignment : Obligations.DirectUnitsFollowAlignment := by
  intro s t e n a hv h
  have trace : ∀ i c, s.inst = some i → EngineTrace (some (i.busAt (tget s.dev.cfg.regMap.fifo e)))
      (unitsByAlignment a.toNat n.toNat) (Ctl.takeLock ⟨i, s.dev⟩) c → t.dev.bus = c.dev.bus →
      ∃ new, t.dev.bus = s.dev.bus ++ new
        ∧ new.map BusEvent.engineWidth = (unitsByAlignment a.toNat n.toNat).map some
        ∧ ∀ i, s.inst = some i → ∀ ev ∈ new, ev.place = some (i.busAt (tget s.dev.cfg.regMap.fifo e)) := by
    rintro i c hi ⟨new, h1, h2, h3⟩ hb
    exact ⟨new, hb.trans h1, h2, fun j hj => by cases hi.symm.trans hj; exact h3⟩
  obtain h | h := h
  · obtain ⟨i, hi, -, -, rfl⟩ := execWrfifo_next h
    exact trace i _ hi (writeFifo_trace (c := Ctl.takeLock ⟨i, s.dev⟩) hv e n.toNat a.toNat) rfl
  · obtain ⟨i, hi, -, -, rfl⟩ := execRdfifo_next h
    exact trace i _ hi (readFifo_trace (c := Ctl.takeLock ⟨i, s.dev⟩) hv e n.toNat a.toNat) rfl

/-! ## Reset (log 2) -/

/-- The ranges of the worked example of section 8: endpoints 0 to 4 fill the RAM up to 2112 without a gap. -/
theorem reset_rangesInv : RangesInv .default Inst.afterAttach.ep := by
  unfold RangesInv
  decide

theorem reset_tableInv : TableInv .default .afterAttach := by
  refine ⟨rfl, rfl, rfl, rfl, by decide, by decide, by decide, fun h => (by cases h), fun _ => ⟨1, rfl, ?_⟩,
    fun _ => reset_rangesInv⟩
  decide

/-- Settles O5: the reset values meet the bounds, and the table is the one configure leaves. -/
theorem invAtReset : Obligations.InvAtReset := by
  refine ⟨reset_mem_wf, fun i hi => ?_⟩
  cases hi
  exact ⟨rfl, rfl, le_rfl, fun _ => ⟨rfl, rfl, rfl⟩, fun h => (by cases h), fun _ => ⟨rfl, rfl⟩, fun _ => reset_tableInv⟩

end Sys2Proof.Machine
end

section
/-! PROOF. Configure run again on what it left reproduces it (R146): two runs of the allocator with the same parameters
write the same values to the same places. -/

namespace Sys2Proof.Machine

/-! ## Two runs side by side -/

/-- Of two runs that began at `x` and `x'` and stand at `y` and `y'`: neither wrote the place, or both hold the same. -/
def SameWrites {α : Type} (x x' y y' : α) : Prop := (y = x ∧ y' = x') ∨ y = y'

theorem SameWrites.refl {α : Type} (x x' : α) : SameWrites x x' x x' := .inl ⟨rfl, rfl⟩

theorem SameWrites.of_eq {α : Type} {x x' y y' : α} (h : y = y') : SameWrites x x' y y' := .inr h

theorem SameWrites.trans {α : Type} {x x' y y' z z' : α} (h : SameWrites x x' y y') (k : SameWrites y y' z z') :
    SameWrites x x' z z' := by
  obtain ⟨rfl, rfl⟩ | hz := k
  · exact h
  · exact .inr hz

/-- A run that starts where another with the same writes ended stays there. -/
theorem SameWrites.again {α : Type} {x x' y y' : α} (h : SameWrites x x' y y') (hx : x' = y) : y' = y := by
  obtain ⟨-, h⟩ | h := h
  · exact h.trans hx
  · exact h.symm

/-- A slot of a table into which both runs put `v`, or another slot. -/
theorem SameWrites.tset {α : Type} (t t' : Vector α 16) (e f : EpIdx) (v : α) :
    SameWrites (tget t f) (tget t' f) (tget (tset t e v) f) (tget (tset t' e v) f) := by
  by_cases h : f = e
  · subst h
    exact .of_eq (by simp)
  · rw [tget_tset_ne _ _ h, tget_tset_ne _ _ h]
    exact .refl _ _

/-- The registers configure writes, and the bridge's mode, of two runs from `c`, `c'` to `d`, `d'`; each end in step:
the same parameters and the same table so far. -/
structure Lockstep (c c' d d' : Ctl) : Prop where
  cfg : d'.dev.cfg = d.dev.cfg
  ep : d'.inst.ep = d.inst.ep
  epMask : d'.inst.epMask = d.inst.epMask
  lowPower : SameWrites c.inst.lowPower c'.inst.lowPower d.inst.lowPower d'.inst.lowPower
  index : SameWrites c.dev.regs.index c'.dev.regs.index d.dev.regs.index d'.dev.regs.index
  txfifosz : ∀ f, SameWrites (tget c.dev.regs.txfifosz f) (tget c'.dev.regs.txfifosz f) (tget d.dev.regs.txfifosz f)
    (tget d'.dev.regs.txfifosz f)
  rxfifosz : ∀ f, SameWrites (tget c.dev.regs.rxfifosz f) (tget c'.dev.regs.rxfifosz f) (tget d.dev.regs.rxfifosz f)
    (tget d'.dev.regs.rxfifosz f)
  txfifoadd : ∀ f, SameWrites (tget c.dev.regs.txfifoadd f) (tget c'.dev.regs.txfifoadd f)
    (tget d.dev.regs.txfifoadd f) (tget d'.dev.regs.txfifoadd f)
  rxfifoadd : ∀ f, SameWrites (tget c.dev.regs.rxfifoadd f) (tget c'.dev.regs.rxfifoadd f)
    (tget d.dev.regs.rxfifoadd f) (tget d'.dev.regs.rxfifoadd f)

/-- Two controllers from which runs of the allocator go the same way. -/
structure Aligned (c c' : Ctl) : Prop where
  cfg : c'.dev.cfg = c.dev.cfg
  ep : c'.inst.ep = c.inst.ep
  epMask : c'.inst.epMask = c.inst.epMask

theorem Lockstep.aligned {c c' d d' : Ctl} (h : Lockstep c c' d d') : Aligned d d' := ⟨h.cfg, h.ep, h.epMask⟩

theorem Aligned.lockstep {c c' : Ctl} (h : Aligned c c') : Lockstep c c' c c' :=
  ⟨h.cfg, h.ep, h.epMask, .refl _ _, .refl _ _, fun _ => .refl _ _, fun _ => .refl _ _, fun _ => .refl _ _,
    fun _ => .refl _ _⟩

theorem Lockstep.trans {c c' d d' e e' : Ctl} (h : Lockstep c c' d d') (k : Lockstep d d' e e') : Lockstep c c' e e' :=
  ⟨k.cfg, k.ep, k.epMask, h.lowPower.trans k.lowPower, h.index.trans k.index,
    fun f => (h.txfifosz f).trans (k.txfifosz f), fun f => (h.rxfifosz f).trans (k.rxfifosz f),
    fun f => (h.txfifoadd f).trans (k.txfifoadd f), fun f => (h.rxfifoadd f).trans (k.rxfifoadd f)⟩

/-- Steps that write nothing but the table, the same in both. -/
theorem Lockstep.of_inst {c c' d d' : Ctl} (h : Aligned d d') (hr : d.dev.regs = c.dev.regs)
    (hr' : d'.dev.regs = c'.dev.regs) (hl : d.inst.lowPower = c.inst.lowPower)
    (hl' : d'.inst.lowPower = c'.inst.lowPower) : Lockstep c c' d d' := by
  refine ⟨h.cfg, h.ep, h.epMask, .inl ⟨hl, hl'⟩, ?_, fun f => ?_, fun f => ?_, fun f => ?_, fun f => ?_⟩ <;>
  · rw [hr, hr']
    exact .refl _ _

/-! ## Register accesses in step -/

theorem lowPowerAfter_sameWrites (v : FifoVariant) (a b : Bool) :
    SameWrites a b (lowPowerAfter v a) (lowPowerAfter v b) := by
  cases v
  · exact .refl _ _
  · exact .of_eq rfl

section Accesses

variable {c c' : Ctl} (h : Aligned c c')

include h

theorem wake_sameWrites : SameWrites c.inst.lowPower c'.inst.lowPower c.wake.inst.lowPower c'.wake.inst.lowPower := by
  rw [Ctl.wake_inst, Ctl.wake_inst, h.cfg]
  exact lowPowerAfter_sameWrites _ _ _

theorem lockstep_busWrite (off n : Nat) (k : EpReg) (e : EpIdx) (v : Word) :
    Lockstep c c' (busWrite off n (.epReg k e) v c) (busWrite off n (.epReg k e) v c') := by
  refine ⟨?_, h.ep, h.epMask, wake_sameWrites h, ?_, fun f => ?_, fun f => ?_, fun f => ?_, fun f => ?_⟩
  · simp [h.cfg]
  all_goals cases k <;> first | exact .refl _ _ | exact .tset _ _ _ _ _

theorem lockstep_busRead (off n : Nat) (k : EpReg) (e : EpIdx) :
    Lockstep c c' (busRead off n (.epReg k e) c) (busRead off n (.epReg k e) c') := by
  have hr : ∀ b : Ctl, (busRead off n (.epReg k e) b).dev.regs = b.dev.regs := fun b => by
    cases k <;> simp only [busRead_dev, Dev.logBus_regs, regReadEffect]
    split <;> rfl
  refine ⟨by simp [h.cfg], h.ep, h.epMask, wake_sameWrites h, ?_, fun f => ?_, fun f => ?_, fun f => ?_, fun f => ?_⟩ <;>
  · rw [hr, hr]
    exact .refl _ _

theorem lockstep_selectEp (e : EpIdx) : Lockstep c c' (c.selectEp e) (c'.selectEp e) := by
  refine ⟨by simp [Ctl.selectEp, h.cfg], h.ep, h.epMask, wake_sameWrites h, .of_eq rfl, fun f => .refl _ _,
    fun f => .refl _ _, fun f => .refl _ _, fun f => .refl _ _⟩

theorem lockstep_epWrite (k : EpReg) (e : EpIdx) (v : Word) : Lockstep c c' (epWrite k e v c) (epWrite k e v c') := by
  unfold epWrite
  rw [h.cfg]
  split
  · exact lockstep_busWrite h _ _ _ _ _
  · have hs := lockstep_selectEp h e
    refine hs.trans ?_
    unfold Ctl.write
    rw [hs.cfg]
    exact lockstep_busWrite hs.aligned _ _ _ _ _

theorem lockstep_epRead (k : EpReg) (e : EpIdx) : Lockstep c c' (epRead k e c) (epRead k e c') := by
  unfold epRead
  rw [h.cfg]
  split
  · exact lockstep_busRead h _ _ _ _
  · have hs := lockstep_selectEp h e
    refine hs.trans ?_
    unfold Ctl.read
    rw [hs.cfg]
    exact lockstep_busRead hs.aligned _ _ _ _

/-! ## The passes in step -/

theorem lockstep_placeWrites (x : FifoEntry) (off : Nat) : Lockstep c c' (placeWrites x off c) (placeWrites x off c') := by
  unfold placeWrites
  dsimp only
  rw [h.cfg]
  have two : ∀ {b b' : Ctl}, Aligned b b' → ∀ (k1 k2 : EpReg) (v w : Word),
      Lockstep b b' (epWrite k2 x.ep w (epWrite k1 x.ep v b)) (epWrite k2 x.ep w (epWrite k1 x.ep v b')) :=
    fun hb k1 k2 v w => (lockstep_epWrite hb k1 x.ep v).trans
      (lockstep_epWrite (lockstep_epWrite hb k1 x.ep v).aligned k2 x.ep w)
  by_cases ht : Style.hasTx x.style = true <;> by_cases hr : Style.hasRx x.style = true <;>
    simp only [ht, hr, if_true]
  · exact (two h _ _ _ _).trans (two (two h _ _ _ _).aligned _ _ _ _)
  · exact two h _ _ _ _
  · exact two h _ _ _ _
  · exact h.lockstep

theorem lockstep_placeEntry (x : FifoEntry) (off : Nat) : Lockstep c c' (placeEntry x off c) (placeEntry x off c') := by
  have hw := lockstep_placeWrites h x off
  refine hw.trans (.of_inst ⟨hw.cfg, ?_, ?_⟩ rfl rfl rfl rfl)
  · rw [(placeEntry_ep x off c).1, (placeEntry_ep x off c').1, h.ep]
  · rw [(placeEntry_ep x off c).2, (placeEntry_ep x off c').2, h.epMask]

end Accesses

/-- A pass from an aligned controller succeeds too, in step and with the same count. -/
theorem lockstep_placeAll {l : List FifoEntry} {off nr : Nat} {w w' : List FifoEntry} {c c' d : Ctl}
    (h : Aligned c c') (hd : placeAll l off nr w c = .done d) :
    ∃ d', placeAll l off nr w' c' = .done d' ∧ Lockstep c c' d d' ∧ d'.inst.nrEndpoints = d.inst.nrEndpoints := by
  induction l generalizing off nr w w' c c' with
  | nil =>
    cases hd
    exact ⟨_, rfl, .of_inst ⟨h.cfg, h.ep, h.epMask⟩ rfl rfl rfl rfl, rfl⟩
  | cons x l ih =>
    unfold placeAll at hd ⊢
    split at hd
    · cases hd
    · rename_i hk
      rw [h.cfg, hk]
      have hx := lockstep_placeEntry h x off
      obtain ⟨d', h1, h2, h3⟩ := ih (w' := x :: w') hx.aligned hd
      exact ⟨d', h1, hx.trans h2, h3⟩

theorem lockstep_discoverEp {c c' : Ctl} (h : Aligned c c') (e : EpIdx) (d : Byte) :
    Lockstep c c' (discoverEp e d c) (discoverEp e d c') :=
  .of_inst ⟨h.cfg, by rw [discoverEp, discoverEp, h.ep], by rw [discoverEp, discoverEp, h.epMask]⟩ rfl rfl rfl rfl

theorem lockstep_discoverAll {l : List EpIdx} (h0 : 0 ∉ l) {nr : Nat} {c c' : Ctl} (h : Aligned c c') :
    Lockstep c c' (discoverAll l nr c) (discoverAll l nr c')
    ∧ (discoverAll l nr c').inst.nrEndpoints = (discoverAll l nr c).inst.nrEndpoints := by
  induction l generalizing nr c c' with
  | nil => exact ⟨.of_inst ⟨h.cfg, h.ep, h.epMask⟩ rfl rfl rfl rfl, rfl⟩
  | cons e l ih =>
    have he : e ≠ 0 := fun hh => h0 (by simp [hh])
    have hr := lockstep_epRead h .fifosize e
    rw [discoverAll_cons e l nr c he, discoverAll_cons e l nr c' he, h.cfg]
    split
    · exact ⟨hr.trans (.of_inst ⟨hr.cfg, hr.ep, hr.epMask⟩ rfl rfl rfl rfl), rfl⟩
    · have hs := hr.trans (lockstep_discoverEp hr.aligned e (tget c.dev.cfg.hwSizeDesc e))
      obtain ⟨h1, h2⟩ := ih (fun hh => h0 (by simp [hh])) (nr := e.val + 1) hs.aligned
      exact ⟨hs.trans h1, h2⟩

end Sys2Proof.Machine
end

section
/-! PROOF. Configure succeeds where its parameters fit and reproduces itself, and `ATTACH` creates the instance. -/

namespace Sys2Proof.Machine

/-! ## Configure again (R146) -/

theorem lockstep_configurePass {c c' d : Ctl} (h : Aligned c c') (hd : configurePass c = .done d) :
    ∃ d', configurePass c' = .done d' ∧ Lockstep c c' d d' ∧ d'.inst.nrEndpoints = d.inst.nrEndpoints := by
  unfold configurePass at hd ⊢
  rw [h.cfg]
  split at hd
  · unfold configureTable at hd ⊢
    rw [h.cfg]
    exact lockstep_placeAll h hd
  · cases hd
    have h0 : Lockstep c c' (discoverEp0 c) (discoverEp0 c') :=
      .of_inst ⟨h.cfg, by rw [discoverEp0, discoverEp0, h.ep], by rw [discoverEp0, discoverEp0, h.epMask]⟩ rfl rfl rfl rfl
    obtain ⟨h1, h2⟩ := lockstep_discoverAll (zero_notMem_epsFrom1 c.dev.cfg) (nr := 1) h0.aligned
    exact ⟨_, by rw [configureDiscovered, h.cfg], h0.trans h1, h2⟩

/-- A run in step with another, from where that one ended, leaves its registers and bridge mode. -/
theorem Lockstep.again {c c' d d' : Ctl} (h : Lockstep c c' d d') (hr : c'.dev.regs = d.dev.regs)
    (hl : c'.inst.lowPower = d.inst.lowPower) (hf : AllocFrame c' d') :
    d'.dev.regs = d.dev.regs ∧ d'.inst.lowPower = d.inst.lowPower := by
  refine ⟨?_, h.lowPower.again hl⟩
  have h0 : d'.dev.regs.index = d.dev.regs.index := h.index.again (by rw [hr])
  have h1 : d'.dev.regs.txfifosz = d.dev.regs.txfifosz := table_ext fun f => (h.txfifosz f).again (by rw [hr])
  have h2 : d'.dev.regs.rxfifosz = d.dev.regs.rxfifosz := table_ext fun f => (h.rxfifosz f).again (by rw [hr])
  have h3 : d'.dev.regs.txfifoadd = d.dev.regs.txfifoadd := table_ext fun f => (h.txfifoadd f).again (by rw [hr])
  have h4 : d'.dev.regs.rxfifoadd = d.dev.regs.rxfifoadd := table_ext fun f => (h.rxfifoadd f).again (by rw [hr])
  have hregs := hf.regs
  rw [hr, h0, h1, h2, h3, h4] at hregs
  exact hregs

/-- The bulk check decides by the role, the count and the endpoint table (R144). -/
theorem bulkCheck_congr {w w' : List FifoEntry} {c c' d : Ctl} (hd : bulkCheck w c = .done d)
    (hr : c'.inst.cfgRole = c.inst.cfgRole) (hn : c'.inst.nrEndpoints = c.inst.nrEndpoints) (he : c'.inst.ep = c.inst.ep) :
    bulkCheck w' c' = .done { c' with inst := { c'.inst with bulkEp := d.inst.bulkEp } } := by
  have hf : firstBulk c'.inst = firstBulk c.inst := by rw [firstBulk, firstBulk, hn, he]
  unfold bulkCheck at hd ⊢
  rw [hr, hf]
  split at hd <;> rename_i hc
  · rw [if_pos hc]
    split at hd <;> rename_i hb
    · cases hd
      rfl
    · cases hd
  · cases hd
    rw [if_neg hc]

/-- Configure run where another ended, with its base, role, registers and bridge mode, succeeds and leaves the same registers,
bridge mode and endpoint table (R146). -/
theorem configureBody_again {c c1 c' : Ctl} (h : configureBody c = .done c1) (hcfg : c'.dev.cfg = c1.dev.cfg)
    (hregs : c'.dev.regs = c1.dev.regs) (hbase : c'.inst.base = c1.inst.base)
    (hrole : c'.inst.cfgRole = c1.inst.cfgRole) (hlow : c'.inst.lowPower = c1.inst.lowPower) :
    ∃ d1, configureBody c' = .done d1 ∧ d1.dev.regs = c1.dev.regs ∧ d1.inst.lowPower = c1.inst.lowPower
      ∧ SameTable c1.inst d1.inst := by
  obtain ⟨c2, hp, hb⟩ := configureBody_done h
  obtain ⟨hdev, hinst⟩ := bulkCheck_done hb
  have hcfg' : c'.dev.cfg = c.dev.cfg := hcfg.trans (configureBody_done_frame h).cfg
  have hal : Aligned (clearTable c) (clearTable c') := ⟨hcfg', by rw [clearTable, clearTable, hcfg'], rfl⟩
  obtain ⟨d2, hp', hstep, hcount⟩ := lockstep_configurePass hal hp
  have hf := configurePass_done_frame hp'
  generalize c1.inst.bulkEp = b at hinst
  rw [hdev] at hregs ⊢
  rw [hinst] at hbase hrole hlow ⊢
  obtain ⟨hr, hl⟩ := hstep.again hregs hlow hf
  have hd1 := bulkCheck_congr (w' := writtenEntries c'.dev.cfg) hb (hf.base_role.2.trans hrole) hcount hstep.ep
  rw [hinst] at hd1
  refine ⟨{ d2 with inst := { d2.inst with bulkEp := b } }, ?_, hr, hl, hf.base_role.1.trans hbase,
    hf.base_role.2.trans hrole, hstep.ep, hstep.epMask, hcount, rfl⟩
  rw [configureBody, hp']
  exact hd1

/-- `CONFIGURE` on what a configure left completes with `Ok` and the same instance and registers (R146). -/
theorem execConfigure_again {c c1 : Ctl} (h : configureBody c = .done c1) (hs : c1.inst.started = false)
    (hu : layoutUsable c.dev.cfg = true) :
    ∃ u, execConfigure (configureDone c1) = .next u ∧ u.dev.result = .status .ok
      ∧ u.inst = (configureDone c1).inst ∧ u.dev.regs = (configureDone c1).dev.regs := by
  let i : Inst := { c1.inst with configured := true, lock := .free }
  obtain ⟨d1, hd, hregs, hlow, htab⟩ := configureBody_again (c' := Ctl.takeLock ⟨i, (configureDone c1).dev⟩)
    h rfl rfl rfl rfl rfl
  have hu' : layoutUsable (configureDone c1).dev.cfg = true := by
    rw [← hu, ← (configureBody_done_frame h).cfg]
    rfl
  refine ⟨configureDone d1, ?_, rfl, ?_, hregs⟩
  · rw [execConfigure_eq (s := configureDone c1) (i := i) rfl rfl rfl hs hu', hd]
    rfl
  · have hi := (configureBody_done_frame hd).inst
    rw [hlow, htab.ep, htab.epMask, htab.nrEndpoints, htab.bulkEp] at hi
    show some { d1.inst with configured := true, lock := .free } = some { c1.inst with configured := true, lock := .free }
    rw [hi]
    rfl

/-! ## Configure succeeds where the parameters fit (R134, R140, R144) -/

theorem effSize_toNat (x : FifoEntry) :
    (BitVec.ofNat 16 (effSize x.maxpacket.toNat)).toNat = effSize x.maxpacket.toNat := by
  have h := effSize_le x.maxpacket
  exact (BitVec.toNat_ofNat _ _).trans (Nat.mod_eq_of_lt (by omega))

/-- A nibble from 9 to 15 gives a size of at least 512 bytes (R69, R141). -/
theorem nibble_bulk {k : Nat} (h9 : 9 ≤ k) (h15 : k ≤ 15) : 512 ≤ (BitVec.ofNat 16 (1 <<< k)).toNat := by
  interval_cases k <;> decide

theorem discoveredRec_bulk {d : Byte} (h : descBulk d = true) (r : EpRec) : bulkOk (discoveredRec d r) = true := by
  simp only [descBulk, Bool.and_eq_true, decide_eq_true_eq] at h
  obtain ⟨hlo, hhi⟩ := h
  have hlo15 := (d.extractLsb' 0 4).isLt
  have hhi15 := (d.extractLsb' 4 4).isLt
  have h1 := nibble_bulk hlo (by omega)
  have h2 := nibble_bulk hhi (by omega)
  unfold discoveredRec bulkOk bulkMinBytes
  dsimp only
  split <;> simp only [Bool.and_eq_true, decide_eq_true_eq]
  · exact ⟨h1, h1⟩
  · exact ⟨h1, h2⟩

/-- Endpoint `e` is one the bulk check accepts. -/
def BulkUsable (i : Inst) (e : EpIdx) : Prop := 1 ≤ e.val ∧ e.val < i.nrEndpoints ∧ bulkOk (tget i.ep e) = true

theorem bulkCheck_usable {w : List FifoEntry} {c : Ctl}
    (h : c.inst.cfgRole.hostCapable = true → ∃ e, BulkUsable c.inst e) : ∃ d, bulkCheck w c = .done d := by
  unfold bulkCheck
  split <;> rename_i hr
  · obtain ⟨e, h1, h2, h3⟩ := h hr
    have hs : (firstBulk c.inst).isSome = true := List.find?_isSome.mpr ⟨e, List.mem_finRange e, by simp [h1, h2, h3]⟩
    obtain ⟨f, hf⟩ := Option.isSome_iff_exists.mp hs
    rw [hf]
    exact ⟨_, rfl⟩
  · exact ⟨_, rfl⟩

theorem tableGives_iff {T : List FifoEntry} {dir : Style → Bool} {e : EpIdx} :
    tableGives T dir e = true ↔ ∃ x ∈ T, x.ep = e ∧ dir x.style = true ∧ 512 ≤ effSize x.maxpacket.toNat := by
  simp [tableGives, and_assoc]

/-- A table-driven pass leaves a bulk endpoint where the table gives one both directions (R144). -/
theorem placeAll_bulkUsable {T : List FifoEntry} {off nr : Nat} {w : List FifoEntry} {c c' : Ctl} {e : EpIdx}
    (hT : tableWf T = true) (h : placeAll (ep0Entry :: T) off nr w c = .done c')
    (ht : tableGives T Style.hasTx e = true) (hr : tableGives T Style.hasRx e = true) : BulkUsable c'.inst e := by
  obtain ⟨x, hx, rfl, hxd, hxs⟩ := tableGives_iff.mp ht
  obtain ⟨y, hy, hye, hyd, hys⟩ := tableGives_iff.mp hr
  obtain ⟨pre, post, hl⟩ := List.append_of_mem hx
  obtain ⟨pre', post', hl'⟩ := List.append_of_mem hy
  have htx := congrArg Half.size (placeAll_txHalf (pre := ep0Entry :: pre) hT h (by rw [hl]; rfl) hxd)
  have hrx := congrArg Half.size (placeAll_rxHalf (pre := ep0Entry :: pre') hT h (by rw [hl']; rfl) hyd)
  rw [hye] at hrx
  have h0 : x.ep ≠ 0 := (tableWf_split (hl ▸ hT)).1
  refine ⟨Nat.one_le_iff_ne_zero.mpr fun hh => h0 (Fin.ext hh), ?_, ?_⟩
  · rw [(placeAll_done h).2.2.2]
    exact lt_foldl_count (List.mem_cons_of_mem _ hx)
  · have h1 : 512 ≤ (tget c'.inst.ep x.ep).maxPacketTx.toNat := by
      rw [show (tget c'.inst.ep x.ep).maxPacketTx = _ from htx]
      exact hxs.trans_eq (effSize_toNat x).symm
    have h2 : 512 ≤ (tget c'.inst.ep x.ep).maxPacketRx.toNat := by
      rw [show (tget c'.inst.ep x.ep).maxPacketRx = _ from hrx]
      exact hys.trans_eq (effSize_toNat y).symm
    simp only [bulkOk, bulkMinBytes, h1, h2, decide_true, Bool.and_self]

theorem discovered_found {p : Params} {e : EpIdx} (h : discovered p e = true) :
    e ∈ epsFrom1 p ∧ Found p (epsFrom1 p) e := by
  simp only [discovered, Bool.and_eq_true, decide_eq_true_eq, List.all_eq_true, Bool.or_eq_true,
    Bool.not_eq_true', decide_eq_false_iff_not] at h
  obtain ⟨⟨h1, h2⟩, h3⟩ := h
  exact ⟨mem_epsFrom1.mpr ⟨h1, h2⟩, fun f hf hfe => (h3 f hf).resolve_left (not_not.mpr hfe)⟩

/-- The discovered pass leaves a bulk endpoint where a descriptor it reaches gives one (R140, R144). -/
theorem discoverAll_bulkUsable {c : Ctl} {e : EpIdx} (h : discovered c.dev.cfg e = true)
    (hb : descBulk (tget c.dev.cfg.hwSizeDesc e) = true) :
    BulkUsable (discoverAll (epsFrom1 c.dev.cfg) 1 c).inst e := by
  obtain ⟨hmem, hfound⟩ := discovered_found h
  obtain ⟨hin, -⟩ := discoverAll_spec (nr := 1) (c := c) (epsFrom1_sorted _) (zero_notMem_epsFrom1 _)
    fun f hf => (mem_epsFrom1.mp hf).1
  obtain ⟨-, hlt, -, hrec⟩ | ⟨hn, -⟩ := hin e hmem
  · exact ⟨(mem_epsFrom1.mp hmem).1, hlt, hrec ▸ discoveredRec_bulk hb _⟩
  · exact absurd hfound hn

theorem tableFits_placed {p : Params} (h : tableFits p = true) :
    (∀ x ∈ ep0Entry :: p.fifoTable, x.ep.val < p.numEps)
    ∧ 0 + ((ep0Entry :: p.fifoTable).map footprint).sum ≤ p.fifoRamBytes := by
  simp only [tableFits, Bool.and_eq_true, decide_eq_true_eq, List.all_eq_true] at h
  obtain ⟨⟨h1, h2⟩, h3⟩ := h
  refine ⟨fun x hx => ?_, ?_⟩
  · obtain rfl | hx := List.mem_cons.mp hx
    · exact h1
    · exact h2 x hx
  · have h64 : footprint ep0Entry = 64 := by decide
    rw [Nat.zero_add, List.map_cons, List.sum_cons, h64]
    exact h3

/-- The pass succeeds where the parameters fit, and leaves a bulk endpoint where they give one. -/
theorem configurePass_configurable {c : Ctl} (hw : c.dev.cfg.wf = true) (h : configurable c.dev.cfg = true) :
    ∃ d, configurePass c = .done d ∧ (hasBulk c.dev.cfg = true → ∃ e, BulkUsable d.inst e) := by
  simp only [configurable, Bool.and_eq_true] at h
  obtain ⟨hfit, -⟩ := h
  unfold configurePass hasBulk
  cases hm : c.dev.cfg.allocMode with
  | table =>
    simp only [hm] at hfit
    obtain ⟨h1, h2⟩ := tableFits_placed hfit
    obtain ⟨d, hd⟩ := placeAll_fits (nr := 1) (w := []) h1 h2
    refine ⟨d, hd, fun hb => ?_⟩
    obtain ⟨e, -, he⟩ := List.any_eq_true.mp hb
    simp only [Bool.and_eq_true] at he
    exact ⟨e, placeAll_bulkUsable (wf_tableWf hw hm) hd he.1 he.2⟩
  | discovered =>
    refine ⟨_, rfl, fun hb => ?_⟩
    obtain ⟨e, -, he⟩ := List.any_eq_true.mp hb
    simp only [Bool.and_eq_true] at he
    exact ⟨e, discoverAll_bulkUsable (c := discoverEp0 c) he.1 he.2⟩

/-- Configure succeeds with parameters that fit, on an instance of the configured role (R134, R140, R144). -/
theorem configureBody_configurable {c : Ctl} (hw : c.dev.cfg.wf = true) (hr : c.inst.cfgRole = c.dev.cfg.cfgRole)
    (h : configurable c.dev.cfg = true) : ∃ d, configureBody c = .done d := by
  obtain ⟨c2, hp, hbulk⟩ := configurePass_configurable (c := clearTable c) hw h
  unfold configureBody
  rw [hp]
  refine bulkCheck_usable fun hh => hbulk ?_
  rw [(configurePass_done_frame hp).base_role.2] at hh
  have hh' : c.dev.cfg.cfgRole.hostCapable = true := hr ▸ hh
  simp only [configurable, Bool.and_eq_true, Bool.or_eq_true, Bool.not_eq_true'] at h
  exact h.2.resolve_left (by simp [hh'])

/-! ## Attach (R300 to R304) -/

theorem checkSupported_none {p : Params} (hr : p.cfgRole ∈ p.rolesCompiled)
    (hm : p.allocMode = .table ↔ p.hwDynFifo = true) : checkSupported p = none := by
  unfold checkSupported
  rw [if_neg (not_not.mpr hr)]
  cases ha : p.allocMode <;> cases hd : p.hwDynFifo <;> simp [ha, hd] at hm ⊢

/-- `ATTACH` with everything granted and supported is configure on the new instance. -/
theorem execAttach_eq {s : State} (hi : s.inst = none) (hs : checkSupported s.dev.cfg = none)
    (hm : s.dev.memmapOk = true) (hq : s.dev.irqOk = true) (hu : layoutUsable s.dev.cfg = true) {c : Ctl}
    (hc : configureBody (createInst s.dev.granted).takeLock = .done c) : execAttach s = .next (configureDone c) := by
  have hu' : layoutUsable s.dev.granted.cfg = true := hu
  unfold execAttach
  rw [hi]
  dsimp only
  rw [hs]
  unfold attachAcquire
  dsimp only
  rw [if_neg (not_not.mpr hm), if_neg (not_not.mpr hq)]
  change attachConfigure s.dev.granted = _
  unfold attachConfigure
  rw [if_neg (not_not.mpr hu'), hc]
  rfl

theorem AllocFrame.queues_traces {c c' : Ctl} (h : AllocFrame c c') :
    c'.dev.txq = c.dev.txq ∧ c'.dev.rxq = c.dev.rxq ∧ c'.dev.calls = c.dev.calls ∧ c'.dev.diags = c.dev.diags := by
  rw [h.dev]
  exact ⟨rfl, rfl, rfl, rfl⟩

theorem lowPowerAfter_false (v : FifoVariant) : lowPowerAfter v false = false := by cases v <;> rfl

/-- Configure leaves a new instance at its reset values but for the endpoint table (R303, R304). -/
theorem createInst_reset {d : Dev} {c : Ctl} (h : AllocFrame (createInst d).takeLock c) :
    ∃ ep mask nr bulk conf, c.inst = { Inst.reset d.cfg with
      lock := .held, ep := ep, epMask := mask, nrEndpoints := nr, bulkEp := bulk, configured := conf } := by
  have hlow : c.inst.lowPower = false := by
    obtain hl | hl := h.lowPower
    · exact hl
    · exact hl.trans (lowPowerAfter_false _)
  have hi := h.inst
  rw [hlow] at hi
  exact ⟨_, _, _, _, _, hi⟩

/-- Settles O59: the new instance has the reset values, configure fills its table, and run again it reproduces it. -/
theorem attachCreatesTheInstance : Obligations.AttachCreatesTheInstance := by
  intro s hw hi hrole hmode hmem hirq hfit
  have hu := wf_layoutUsable hw
  obtain ⟨c, hc⟩ := configureBody_configurable (c := (createInst s.dev.granted).takeLock) hw rfl hfit
  have hex := execAttach_eq hi (checkSupported_none hrole hmode) hmem hirq hu hc
  have hf := configureBody_done_frame hc
  obtain ⟨htx, hrx, hcalls, hdiags⟩ := hf.queues_traces
  have htab := configureBody_tableInv (c := (createInst s.dev.granted).takeLock) hw hc
  obtain ⟨ep, mask, nr, bulk, conf, hinst⟩ := createInst_reset hf
  obtain ⟨u, hu1, hu2, hu3, hu4⟩ := execConfigure_again hc (by rw [hinst]; rfl) hu
  refine ⟨configureDone c, { c.inst with configured := true, lock := .free }, hex, rfl, rfl, rfl, ?_⟩
  rw [hinst] at htab
  rw [hinst]
  refine ⟨rfl, rfl, rfl, rfl, rfl, rfl, rfl, rfl, rfl, rfl, rfl, rfl, rfl, rfl, rfl, rfl, rfl, htab, fun e => ?_,
    hcalls.trans ?_, hf.mem, hdiags, u, hu1, hu2, hu3, hu4⟩
  · change tget c.dev.txq e = [] ∧ tget c.dev.rxq e = []
    rw [htx, hrx]
    simp [createInst, tget]
  · simp [createInst, Dev.granted]

end Sys2Proof.Machine
end

section
/-! PROOF. One step of the machine (R54), host memory (R40), and what one access of the shim does (R90 to R96): a read
or write that reaches a register, said once for every width, then the statements about registers and FIFO ports. -/

namespace Sys2Proof.Machine

/-- Settles O4: the four kinds of the next input. -/
theorem stepRunsDecodedOperation : Obligations.StepRunsDecodedOperation := by
  refine ⟨fun s w rest i hb hd => ?_, fun s nbits w i hd => ?_, fun s m rest hb => ?_, fun s hb => ?_⟩
  · simp only [step, hb, List.head?_cons, hd, State.popInput, List.tail_cons]
  · have hd' : decode (s.withFetchWord nbits w).dev.cfg.numEps (BitVec.ofNat 64 (w % 2 ^ nbits)) = .ok i := hd
    have hp : (s.withFetchWord nbits w).popInput = s := rfl
    have hh : (s.withFetchWord nbits w).dev.inbox.head? = some (.command (BitVec.ofNat 64 (w % 2 ^ nbits))) := rfl
    simp only [step, hh, hd', hp]
  · simp only [step, hb, List.head?_cons, State.popInput, List.tail_cons]
  · simp only [step, hb, List.head?_nil]

/-- Settles O9: by the way the operation ran, memory is the same list of bytes. -/
theorem onlyReadFifoWritesMemory : Obligations.OnlyReadFifoWritesMemory := by
  intro i s t h hi a
  rw [exec_mem h hi]

/-! ## An access that reaches a register (R90, R97) -/

/-- The state after a read of `n` bytes from register `r`. -/
def readDone (i : Inst) (d : Dev) (off : BitVec 16) (n : Nat) (r : Reg) : State :=
  accessDone i (regReadEffect r n d) (.regRead (i.busAt off.toNat) n (regValue r n d)) (.value (regValue r n d))

/-- The state after a write of `n` bytes of `v` to register `r`. -/
def writeDone (i : Inst) (d : Dev) (off : BitVec 16) (n : Nat) (r : Reg) (v : Word) : State :=
  accessDone i (regWriteEffect r n v d) (.regWrite (i.busAt off.toNat) n v) .none

section Access
variable {s : State} {i : Inst} {off : BitVec 16} {n : Nat} {r : Reg}

/-- The width of an access that reaches a register is one the register accepts (R103). -/
theorem Reaches.accepts (h : Reaches s off n r) : r.accepts s.dev.cfg.fifoVariant n = true := by
  unfold Reaches resolve at h
  split at h
  · cases h
  · split at h
    · cases h
    · split at h
      · cases h; assumption
      · cases h
    · split at h
      · split at h
        · cases h
          exact (accepts_iff (by simp)).2 ‹_›
        · cases h
      · cases h

/-- A port is reached by 1, 2 or 4 bytes (R43). -/
theorem Reaches.port_width {e : EpIdx} (h : Reaches s off n (.fifo e)) : n = 1 ∨ n = 2 ∨ n = 4 := by
  have ha := (accepts_fifo ..).1 h.accepts
  split at ha
  · exact .inr (.inr ha)
  · exact ha

theorem finishUnlocked_busRead (i : Inst) (d : Dev) (off : BitVec 16) (n : Nat) (r : Reg) :
    finishUnlocked (.value (busValue r n ⟨i, d⟩)) (busRead off.toNat n r ⟨i, d⟩) = .next (readDone i d off n r) := by
  simp [finishUnlocked, Ctl.toState, Ctl.withResult, busRead, busValue, Dev.logBus, readDone, accessDone]

theorem finishUnlocked_busWrite (i : Inst) (d : Dev) (off : BitVec 16) (n : Nat) (r : Reg) (v : Word) :
    finishUnlocked .none (busWrite off.toNat n r v ⟨i, d⟩) = .next (writeDone i d off n r v) := by
  simp [finishUnlocked, Ctl.toState, Ctl.withResult, busWrite, Dev.logBus, writeDone, accessDone]

theorem shimRead_reached (hi : s.inst = some i) (hc : i.configured = true) (h : Reaches s off n r) :
    shimRead n off s = if unprogrammedRead s.dev r then .refused .lengthNotProgrammed
      else .next (readDone i s.dev off n r) := by
  unfold Reaches at h
  rw [shimRead, whenConfigured_eq hi hc]
  simp only [h, finishUnlocked_busRead]

theorem shimWrite_reached (hi : s.inst = some i) (hc : i.configured = true) (h : Reaches s off n r) (v : Word) :
    shimWrite n off v s = if unprogrammedWrite s.dev r then .refused .lengthNotProgrammed
      else .next (writeDone i s.dev off n r v) := by
  unfold Reaches at h
  rw [shimWrite, whenConfigured_eq hi hc]
  simp only [h, finishUnlocked_busWrite]

/-- Only a port's read can be refused for want of a length (R323). -/
theorem shimRead_register (hi : s.inst = some i) (hc : i.configured = true) (hp : ∀ e, r ≠ .fifo e)
    (h : Reaches s off n r) : shimRead n off s = .next (readDone i s.dev off n r) := by
  have hu : unprogrammedRead s.dev r = false := by
    cases r with
    | fifo e => exact absurd rfl (hp e)
    | _ => rfl
  simp [shimRead_reached hi hc h, hu]

end Access

/-! ## Registers (R46, R47) -/

/-- A register with plain content is no port, returns its content, and its read has no side effect (R47). -/
theorem plainValue_read {d : Dev} {r : Reg} {v : Word} (h : plainValue d r = some v) (n : Nat) :
    (∀ e, r ≠ .fifo e) ∧ regValue r n d = v ∧ regReadEffect r n d = d := by
  cases r with
  | intrusb | intrtx | intrrx | fifo => cases h
  | epReg k e =>
    cases k with
    | fifosize =>
      simp only [plainValue, Option.ite_none_left_eq_some, Option.some.injEq] at h
      obtain ⟨he, rfl⟩ := h
      simp [regValue, regReadEffect, he]
    | _ => cases h; simp [regValue, regReadEffect]
  | _ => cases h; simp [regValue, regReadEffect]

/-- A read that reaches a register of plain content returns it and changes nothing else. -/
theorem shimRead_plain {s : State} {i : Inst} {off : BitVec 16} {n : Nat} {r : Reg} {v : Word} (hi : s.inst = some i)
    (hc : i.configured = true) (hv : plainValue s.dev r = some v) (h : Reaches s off n r) :
    shimRead n off s = .next (accessDone i s.dev (.regRead (i.busAt off.toNat) n v) (.value v)) := by
  obtain ⟨hp, hval, heff⟩ := plainValue_read hv n
  rw [shimRead_register hi hc hp h, readDone, hval, heff]

/-- Settles O18: the three reads of a plain register, and the free byte of endpoint 0's `FIFOSIZE`. -/
theorem readReturnsContent : Obligations.ReadReturnsContent := by
  intro s i off hi hc
  refine ⟨fun r v hv => ⟨shimRead_plain hi hc hv, shimRead_plain hi hc hv, shimRead_plain hi hc hv⟩, fun h => ?_⟩
  exact ⟨(Config.free s.dev.draws 0).setWidth 8, shimRead_register hi hc (by simp) h⟩

/-- Settles O19: the read of a status register clears what it returns. -/
theorem statusReadClears : Obligations.StatusReadClears := by
  intro s i off hi hc
  exact ⟨shimRead_register hi hc nofun, shimRead_register hi hc nofun, shimRead_register hi hc nofun⟩

/-! ## Bytes of a bus value (R45) -/

/-- Byte `k` of a value, least significant first. -/
theorem bytesOf_getElem? {n k : Nat} (v : Word) (h : k < n) :
    (bytesOf n v)[k]? = some ((v >>> (8 * k)).setWidth 8) := by
  induction n generalizing k v with
  | zero => omega
  | succ n ih =>
    cases k with
    | zero => simp [bytesOf]
    | succ k =>
      rw [bytesOf, List.getElem?_cons_succ, ih _ (by omega), ← BitVec.shiftRight_add, Nat.mul_succ, Nat.add_comm]

/-- The low bytes of a value survive its truncation to a width that holds them. -/
theorem bytesOf_truncate {n m : Nat} (v : Word) (h : 8 * n ≤ m) : bytesOf n ((v.setWidth m).setWidth 32) = bytesOf n v := by
  apply List.ext_getElem?
  intro k
  by_cases hk : k < n
  · rw [bytesOf_getElem? _ hk, bytesOf_getElem? _ hk]
    congr 1
    ext j hj
    have hj' : 8 * k + j < m := by omega
    simp only [BitVec.getElem_setWidth, BitVec.getLsbD_ushiftRight, BitVec.getLsbD_setWidth, hj', decide_true,
      Bool.true_and]
    by_cases h32 : 8 * k + j < 32
    · simp [h32]
    · simp [h32, BitVec.getLsbD_of_ge v (8 * k + j) (by omega)]
  · rw [List.getElem?_eq_none (by simpa using hk), List.getElem?_eq_none (by simpa using hk)]

theorem bytesOf_four (v : Word) :
    bytesOf 4 v = [v.setWidth 8, (v >>> 8).setWidth 8, (v >>> 16).setWidth 8, (v >>> 24).setWidth 8] := by
  simp only [bytesOf, ← BitVec.shiftRight_add]

/-- A value of so many bytes lies below the power of two of as many bits. -/
theorem wordOf_lt (l : List Byte) : (wordOf l).toNat < 2 ^ (8 * l.length) := by
  induction l with
  | nil => simp [wordOf]
  | cons b l ih =>
    have hb : b.toNat % 2 ^ 32 < 2 ^ (8 * (l.length + 1)) :=
      calc b.toNat % 2 ^ 32 ≤ b.toNat := Nat.mod_le ..
        _ < 2 ^ 8 := b.isLt
        _ ≤ 2 ^ (8 * (l.length + 1)) := Nat.pow_le_pow_right (by omega) (by omega)
    have hl : (wordOf l).toNat <<< 8 % 2 ^ 32 < 2 ^ (8 * (l.length + 1)) :=
      calc (wordOf l).toNat <<< 8 % 2 ^ 32 ≤ (wordOf l).toNat <<< 8 := Nat.mod_le ..
        _ = (wordOf l).toNat * 2 ^ 8 := Nat.shiftLeft_eq ..
        _ < 2 ^ (8 * l.length) * 2 ^ 8 := Nat.mul_lt_mul_of_pos_right ih (by decide)
        _ = 2 ^ (8 * (l.length + 1)) := by rw [← Nat.pow_add, Nat.mul_succ]
    rw [wordOf, BitVec.toNat_or, BitVec.toNat_setWidth, BitVec.toNat_shiftLeft]
    exact Nat.or_lt_two_pow hb hl

/-! ## FIFO ports (R43, R111, R112, R323) -/

theorem pushAllow_eq_txRoom (d : Dev) (e : EpIdx) (n : Nat) : pushAllow d e n = txRoom d e n := pushAllow_eq d e n

theorem popAllow_eq_rxRoom (d : Dev) (e : EpIdx) (n : Nat) : popAllow d e n = rxRoom d e n := popAllow_eq d e n

theorem txRoom_le (d : Dev) (e : EpIdx) (n : Nat) : txRoom d e n ≤ n := by
  unfold txRoom
  split <;> omega

/-- A port write is refused exactly where the port lets nothing in (R323). -/
theorem unprogrammedWrite_fifo {n : Nat} (hn : 0 < n) (d : Dev) (e : EpIdx) :
    unprogrammedWrite d (.fifo e) = decide (txRoom d e n = 0) := by
  by_cases hv : d.cfg.fifoVariant = .bridgeWord <;> simp [unprogrammedWrite, txRoom, hv] <;> omega

/-- A port read is refused exactly where the port hands nothing out (R323). -/
theorem unprogrammedRead_fifo {n : Nat} (hn : 0 < n) (d : Dev) (e : EpIdx) :
    unprogrammedRead d (.fifo e) = decide (rxRoom d e n = 0) := by
  by_cases hv : d.cfg.fifoVariant = .bridgeWord <;> simp [unprogrammedRead, rxRoom, hv] <;> omega

/-- A push appends the value's low bytes, as many as the port lets in (R111). -/
theorem pushFifo_txq_same {n : Nat} (hn : n ≤ 4) {v w : Word} (hw : bytesOf n w = bytesOf n v) (e : EpIdx) (d : Dev) :
    tget (pushFifo e n w d).txq e = tget d.txq e ++ (bytesOf 4 v).take (txRoom d e n) := by
  have hr := txRoom_le d e n
  rw [pushFifo, tget_tset_same, pushAllow_eq_txRoom, hw, bytesOf_take _ _ _ hr, bytesOf_take _ _ _ (hr.trans hn)]

theorem pushFifo_txq_ne {e f : EpIdx} (hf : f ≠ e) (n : Nat) (v : Word) (d : Dev) :
    tget (pushFifo e n v d).txq f = tget d.txq f := tget_tset_ne _ _ hf

theorem popFifo_rxq_same (e : EpIdx) (n : Nat) (d : Dev) :
    tget (popFifo e n d).rxq e = (tget d.rxq e).drop (rxRoom d e n) := by
  rw [popFifo, tget_tset_same, popAllow_eq_rxRoom]

theorem popFifo_rxq_ne {e f : EpIdx} (hf : f ≠ e) (n : Nat) (d : Dev) :
    tget (popFifo e n d).rxq f = tget d.rxq f := tget_tset_ne _ _ hf

theorem popValue_lt (e : EpIdx) (n : Nat) (d : Dev) : (popValue e n d).toNat < 2 ^ (8 * n) := by
  have hp : (popped e n d).length ≤ n := by
    rw [popped, popAllow_eq_rxRoom, List.length_take, rxRoom]
    split <;> omega
  have hl : (popped e n d ++ freeBytes d.draws (n - (popped e n d).length)).length = n := by simp; omega
  have hlt := wordOf_lt (popped e n d ++ freeBytes d.draws (n - (popped e n d).length))
  rwa [hl] at hlt

/-- A single access, taken as a transfer of one unit: what remains is the length still in force on the bridge. -/
theorem unitsFit_single (v : FifoVariant) {n : Nat} (hn : n ≤ 4) (counter : Nat) :
    UnitsFit v counter (if v = .bridgeWord then counter else n) [n] :=
  ⟨by simpa using hn, fun hv => by simp [hv], fun hv => by simp [hv]⟩

/-- The bytes of a popped value are the head of the queue, as far as it holds them (R112). -/
theorem popValue_byte {n k : Nat} {e : EpIdx} {d : Dev} {b : Byte} (hn : n ≤ 4) (hk : k < rxRoom d e n)
    (hb : (tget d.rxq e)[k]? = some b) : (popValue e n d >>> (8 * k)).setWidth 8 = b := by
  obtain ⟨hal, -, hget⟩ := popUnit_bytes e n _ _ [] d (unitsFit_single d.cfg.fifoVariant hn (tget d.brRxLeft e)) rfl
  rw [← hal, popAllow_eq_rxRoom] at hget
  have hbyte := hget k b hk hb
  rw [bytesOf_getElem? _ hk] at hbyte
  exact Option.some.inj hbyte

section Port
variable {s : State} {i : Inst} {off : BitVec 16} {e : EpIdx} {n : Nat}

/-- What a port write of `n` low bytes of `v` leaves, whatever stands above them in `w`. -/
theorem shimWrite_port (hi : s.inst = some i) (hc : i.configured = true) (h : Reaches s off n (.fifo e)) {v w : Word}
    (hw : bytesOf n w = bytesOf n v) :
    (txRoom s.dev e n = 0 → shimWrite n off w s = .refused .lengthNotProgrammed)
    ∧ (0 < txRoom s.dev e n → ∃ t, shimWrite n off w s = .next t
        ∧ t.inst = some { i with lowPower := lowPowerAfter s.dev.cfg.fifoVariant i.lowPower }
        ∧ tget t.dev.txq e = tget s.dev.txq e
            ++ ([v.setWidth 8, (v >>> 8).setWidth 8, (v >>> 16).setWidth 8, (v >>> 24).setWidth 8] : List Byte).take
                (txRoom s.dev e n)
        ∧ (∀ f, f ≠ e → tget t.dev.txq f = tget s.dev.txq f)
        ∧ t.dev.rxq = s.dev.rxq ∧ t.dev.regs = s.dev.regs ∧ t.dev.mem = s.dev.mem ∧ t.dev.calls = s.dev.calls) := by
  have hn : 0 < n ∧ n ≤ 4 := by have := h.port_width; omega
  rw [shimWrite_reached hi hc h, unprogrammedWrite_fifo hn.1]
  refine ⟨fun h0 => by simp [h0], fun hpos => ⟨writeDone i s.dev off n (.fifo e) w, by simp [hpos.ne'], rfl, ?_,
    fun f hf => pushFifo_txq_ne hf .., rfl, rfl, rfl, rfl⟩⟩
  rw [← bytesOf_four]
  exact pushFifo_txq_same hn.2 hw ..

/-- What a port read of `n` bytes returns and leaves. -/
theorem shimRead_port (hi : s.inst = some i) (hc : i.configured = true) (h : Reaches s off n (.fifo e)) :
    (rxRoom s.dev e n = 0 → shimRead n off s = .refused .lengthNotProgrammed)
    ∧ (0 < rxRoom s.dev e n → ∃ t v, shimRead n off s = .next t ∧ t.dev.result = .value v ∧ v.toNat < 2 ^ (8 * n)
        ∧ (∀ k b, k < rxRoom s.dev e n → (tget s.dev.rxq e)[k]? = some b → (v >>> (8 * k)).setWidth 8 = b)
        ∧ t.inst = some { i with lowPower := lowPowerAfter s.dev.cfg.fifoVariant i.lowPower }
        ∧ tget t.dev.rxq e = (tget s.dev.rxq e).drop (rxRoom s.dev e n)
        ∧ (∀ f, f ≠ e → tget t.dev.rxq f = tget s.dev.rxq f)
        ∧ t.dev.txq = s.dev.txq ∧ t.dev.regs = s.dev.regs ∧ t.dev.mem = s.dev.mem ∧ t.dev.calls = s.dev.calls) := by
  have hn : 0 < n ∧ n ≤ 4 := by have := h.port_width; omega
  rw [shimRead_reached hi hc h, unprogrammedRead_fifo hn.1]
  exact ⟨fun h0 => by simp [h0], fun hpos => ⟨readDone i s.dev off n (.fifo e), popValue e n s.dev, by simp [hpos.ne'],
    rfl, popValue_lt .., fun k b hk hb => popValue_byte hn.2 hk hb, rfl, popFifo_rxq_same ..,
    fun f hf => popFifo_rxq_ne hf .., rfl, rfl, rfl, rfl⟩⟩

end Port

/-- Settles O23: the three widths of a port write. -/
theorem portWriteAppends : Obligations.PortWriteAppends := by
  intro s i off e n v hi hc h
  obtain rfl | rfl | rfl := h.port_width
  · exact ⟨.wr8 off (v.setWidth 8), rfl, shimWrite_port hi hc h (bytesOf_truncate v (by decide))⟩
  · exact ⟨.wr16 off (v.setWidth 16), rfl, shimWrite_port hi hc h (bytesOf_truncate v (by decide))⟩
  · exact ⟨.wr32 off v, rfl, shimWrite_port hi hc h rfl⟩

/-- Settles O24: the three widths of a port read. -/
theorem portReadTakes : Obligations.PortReadTakes := by
  intro s i off e n hi hc h
  obtain rfl | rfl | rfl := h.port_width
  · exact ⟨.rd8 off, rfl, shimRead_port hi hc h⟩
  · exact ⟨.rd16 off, rfl, shimRead_port hi hc h⟩
  · exact ⟨.rd32 off, rfl, shimRead_port hi hc h⟩

end Sys2Proof.Machine
end

section
/-! PROOF. Where the registers lie (R41, R64): the location list of `resolve`, register by register, against the home
offsets of R103. -/

namespace Sys2Proof.Machine

theorem mem_allEps {p : Params} {e : EpIdx} : e ∈ allEps p ↔ e.val < p.numEps := by simp [allEps]

/-- The silicon has the endpoint-scoped register (R29). -/
theorem mem_epRegs {p : Params} {k : EpReg} : k ∈ epRegs p ↔ k = .fifosize ∨ p.hwDynFifo = true := by
  unfold epRegs
  cases p.hwDynFifo <;> cases k <;> simp

/-- The offsets at which the location list has register `r` itself, whatever `INDEX` holds. -/
def fixedOffsets (p : Params) : Reg → List Nat
  | .epReg k e => (k.off p.regMap).flat.toList.map fun f => tget f e
  | .fifo e =>
      match p.fifoVariant with
      | .directBurst => [tget p.regMap.fifo e]
      | .bridgeWord => [tget p.regMap.brFifoSync e, tget p.regMap.brFifoAsync e]
  | r => [r.offset p.regMap]

theorem mem_flatLocs {p : Params} {k : EpReg} {off : Nat} {l : Loc} : (off, l) ∈ flatLocs p k
    ↔ ∃ e : EpIdx, e.val < p.numEps ∧ off ∈ fixedOffsets p (.epReg k e) ∧ l = .reg (.epReg k e) := by
  simp only [flatLocs, fixedOffsets]
  cases (k.off p.regMap).flat with
  | none => simp
  | some f => simp [mem_allEps, eq_comm]

/-- The location list has the window of every endpoint-scoped register of the silicon (R98). -/
theorem mem_locs_window {p : Params} {k : EpReg} {off : Nat} :
    (off, Loc.window k) ∈ locs p ↔ k ∈ epRegs p ∧ off = (k.off p.regMap).window := by
  have hv : (off, Loc.window k) ∉ variantLocs p := by
    unfold variantLocs
    cases p.fifoVariant <;> simp
  simp [locs, globalLocs, mem_flatLocs, hv, eq_comm]

/-- A register that is not endpoint-scoped is listed as a global one or as one of the variant. -/
theorem mem_locs_unscoped {p : Params} {r : Reg} {off : Nat} (h : ∀ k e, r ≠ .epReg k e) :
    (off, Loc.reg r) ∈ locs p ↔ (off, Loc.reg r) ∈ globalLocs p.regMap ∨ (off, Loc.reg r) ∈ variantLocs p := by
  simp [locs, mem_flatLocs, h]

/-- An endpoint-scoped register is listed at its flat offset (R99). -/
theorem mem_locs_epReg {p : Params} {k : EpReg} {e : EpIdx} {off : Nat} : (off, Loc.reg (.epReg k e)) ∈ locs p
    ↔ k ∈ epRegs p ∧ e.val < p.numEps ∧ off ∈ fixedOffsets p (.epReg k e) := by
  have hv : (off, Loc.reg (.epReg k e)) ∉ variantLocs p := by
    unfold variantLocs
    cases p.fifoVariant <;> simp
  simp [locs, globalLocs, mem_flatLocs, hv]

theorem present_epReg {p : Params} {k : EpReg} {e : EpIdx} :
    (Reg.epReg k e).present p = true ↔ k ∈ epRegs p ∧ e.val < p.numEps := by
  simp [Reg.present, mem_epRegs, and_comm]

/-- The location list has every register the silicon has, at its fixed offsets. -/
theorem mem_locs_reg {p : Params} {r : Reg} {off : Nat} :
    (off, Loc.reg r) ∈ locs p ↔ r.present p = true ∧ off ∈ fixedOffsets p r := by
  cases r with
  | epReg k e => rw [mem_locs_epReg, present_epReg, and_assoc]
  | fifo e =>
    rw [mem_locs_unscoped (by simp)]
    cases hv : p.fifoVariant <;>
      simp [globalLocs, variantLocs, hv, Reg.present, fixedOffsets, mem_allEps, @eq_comm _ off, and_or_left]
  | _ =>
    rw [mem_locs_unscoped (by simp)]
    cases hv : p.fifoVariant <;>
      simp [globalLocs, variantLocs, hv, Reg.present, fixedOffsets, Reg.offset, mem_epsFrom1, @eq_comm _ off]

/-! ## Valid accesses (R103) -/

theorem selectedEp_eq_iff {index : BitVec 8} {e : EpIdx} : selectedEp index = e ↔ index.toNat % 16 = e.val := by
  rw [Fin.ext_iff]
  simp [selectedEp]

/-- A register is reached at its fixed offsets, and an endpoint-scoped one in its window while it is selected. -/
theorem mem_homeOffsets {p : Params} {index : BitVec 8} {r : Reg} {off : Nat} : off ∈ homeOffsets p index r
    ↔ off ∈ fixedOffsets p r ∨ ∃ k, r = .epReg k (selectedEp index) ∧ off = (k.off p.regMap).window := by
  cases r with
  | epReg k e =>
    by_cases h : selectedEp index = e
    · simp [homeOffsets, fixedOffsets, selectedEp_eq_iff.1 h, h, or_comm]
    · simp [homeOffsets, fixedOffsets, mt selectedEp_eq_iff.2 h, Ne.symm h]
  | _ =>
    simp only [reduceCtorEq, false_and, exists_false, or_false]
    rfl

theorem validAccess_iff {s : State} {off n : Nat} {r : Reg} : ValidAccess s off n r
    ↔ r.present s.dev.cfg = true ∧ off ∈ homeOffsets s.dev.cfg s.dev.regs.index r ∧ off % n = 0
      ∧ r.accepts s.dev.cfg.fifoVariant n = true := by
  cases r with
  | fifo e => rw [accepts_fifo]; rfl
  | _ => rw [accepts_iff (by simp)]; rfl

theorem wf_regMap {p : Params} (h : p.wf = true) : p.regMap.wf p = true := by
  simp only [Params.wf, Bool.and_eq_true] at h
  exact h.2

/-- Settles O16: an access is resolved through a fixed offset of the register or through its window. -/
theorem registersLieAtTheirOffsets : Obligations.RegistersLieAtTheirOffsets := by
  intro s off n r hw
  rw [Reaches, resolve_ok (wf_regMap hw), validAccess_iff, mem_homeOffsets]
  simp only [mem_locs_reg, mem_locs_window]
  constructor
  · rintro ⟨hal, ⟨⟨hp, hoff⟩, hacc⟩ | ⟨k, ⟨hk, hoff⟩, rfl, hsel, rfl⟩⟩
    · exact ⟨hp, .inl hoff, hal, hacc⟩
    · exact ⟨present_epReg.2 ⟨hk, hsel⟩, .inr ⟨k, rfl, hoff⟩, hal, (accepts_iff (by simp)).2 rfl⟩
  · rintro ⟨hp, hoff | ⟨k, rfl, hoff⟩, hal, hacc⟩
    · exact ⟨hal, .inl ⟨⟨hp, hoff⟩, hacc⟩⟩
    · obtain ⟨hk, hsel⟩ := present_epReg.1 hp
      exact ⟨hal, .inr ⟨k, ⟨hk, hoff⟩, (accepts_iff (by simp)).1 hacc, hsel, rfl⟩⟩

end Sys2Proof.Machine
end

section
/-! PROOF. Command words (R60 to R62): the decoder against the encoder, shape by shape of the table of R61, and its
refusals against R62's clauses. -/

namespace Sys2Proof

theorem encode_eq_iff {i : Instr} {w : BitVec 64} : encode i = w ↔ i.fields = splitWord w := by
  constructor
  · rintro rfl
    exact (splitWord_joinWord _).symm
  · intro h
    rw [encode, h, joinWord_splitWord]

/-- Zero-extension undoes the truncation of a value that fits (R76). -/
theorem setWidth_setWidth_of_lt {m : Nat} {d : BitVec 32} (h : d.toNat < 2 ^ m) : (d.setWidth m).setWidth 32 = d := by
  apply BitVec.eq_of_toNat_eq
  rw [BitVec.toNat_setWidth, BitVec.toNat_setWidth, Nat.mod_eq_of_lt h, Nat.mod_eq_of_lt d.isLt]

theorem toNat_setWidth_lt {m : Nat} (v : BitVec m) : (v.setWidth 32).toNat < 2 ^ m := by
  rw [BitVec.toNat_setWidth]
  exact (Nat.mod_le _ _).trans_lt v.isLt

/-! ## What an accepted word holds, by the shape of its row in R61 -/

section Shapes
variable {n op : Nat} {f : Fields} {i : Instr}

theorem fieldsOf_eq (hop : f.opcode.toNat = op) (he : f.ep = 0) (hz : f.zero = 0) :
    fieldsOf (BitVec.ofNat 8 op) f.arg f.data = f := by
  obtain ⟨o, ep, z, a, d⟩ := f
  cases hop
  cases he
  cases hz
  simp [fieldsOf]

variable (hz : f.zero = 0) (hop : f.opcode.toNat = op)
include hz hop

theorem decodeRead_fields {mk : BitVec 16 → Instr} (hf : ∀ a, (mk a).fields = fieldsOf (BitVec.ofNat 8 op) a 0)
    (hw : ∀ a, (mk a).wf n = true) (h : decodeRead f mk = .ok i) : i.wf n = true ∧ i.fields = f := by
  obtain ⟨he, hd, rfl⟩ := decodeRead_ok.1 h
  exact ⟨hw _, by rw [hf, ← hd, fieldsOf_eq hop he hz]⟩

theorem decodeWrite_fields {m : Nat} {j : Instr}
    (hf : f.data.toNat < 2 ^ m → j.fields = fieldsOf (BitVec.ofNat 8 op) f.arg f.data) (hw : j.wf n = true)
    (h : decodeWrite f m j = .ok i) : i.wf n = true ∧ i.fields = f := by
  obtain ⟨he, hd, rfl⟩ := decodeWrite_ok.1 h
  exact ⟨hw, by rw [hf hd, fieldsOf_eq hop he hz]⟩

theorem decodeFifo_fields {mk : EpIdx → BitVec 16 → BitVec 32 → Instr}
    (hf : ∀ e a d, (mk e a d).fields = ⟨BitVec.ofNat 8 op, BitVec.ofFin e, 0, a, d⟩)
    (hw : ∀ e a d, (mk e a d).wf n = decide (e.val < n)) (h : decodeFifo n f mk = .ok i) :
    i.wf n = true ∧ i.fields = f := by
  obtain ⟨he, rfl⟩ := decodeFifo_ok.1 h
  refine ⟨by simpa [hw] using he, ?_⟩
  rw [hf, ← hop, BitVec.ofNat_toNat, BitVec.setWidth_eq, ← hz]

theorem decodeNone_fields {j : Instr} (hf : j.fields = fieldsOf (BitVec.ofNat 8 op) 0 0) (hw : j.wf n = true)
    (h : decodeNone f j = .ok i) : i.wf n = true ∧ i.fields = f := by
  obtain ⟨he, ha, hd, rfl⟩ := decodeNone_ok.1 h
  exact ⟨hw, by rw [hf, ← fieldsOf_eq hop he hz, ha, hd]⟩

theorem decodeIrq_fields (h30 : op = 0x30) (h : decodeIrq f = .ok i) : i.wf n = true ∧ i.fields = f := by
  subst h30
  obtain ⟨he, ⟨ha, hd, rfl⟩ | ⟨ha, rfl⟩⟩ := decodeIrq_ok.1 h
  · exact ⟨rfl, by rw [← fieldsOf_eq hop he hz, ha, hd]; rfl⟩
  · exact ⟨rfl, by rw [← fieldsOf_eq hop he hz, ha]; rfl⟩

end Shapes

/-! ## Decode and encode -/

/-- A word that decodes to an operation has that operation's fields, opcode by opcode of R61. -/
theorem decode_sound {n : Nat} {w : BitVec 64} {i : Instr} (h : decode n w = .ok i) :
    i.wf n = true ∧ i.fields = splitWord w := by
  simp only [decode, rejectIf_ok, bne_eq_false_iff_eq] at h
  obtain ⟨hz, h⟩ := h
  split at h
  case h_1 hop | h_2 hop | h_3 hop => exact decodeRead_fields hz hop (fun _ => rfl) (fun _ => rfl) h
  case h_4 hop | h_5 hop =>
    exact decodeWrite_fields hz hop (fun hd => by rw [Instr.fields, setWidth_setWidth_of_lt hd]; rfl) rfl h
  case h_6 hop => exact decodeWrite_fields hz hop (fun _ => rfl) rfl h
  case h_7 hop | h_8 hop => exact decodeFifo_fields hz hop (fun _ _ _ => rfl) (fun _ _ _ => rfl) h
  case h_10 hop => exact decodeIrq_fields hz hop rfl h
  case h_9 hop | h_11 hop | h_12 hop | h_13 hop | h_14 hop | h_15 hop | h_16 hop | h_17 hop =>
    exact decodeNone_fields hz hop rfl rfl h
  case h_18 => cases h

/-- The word of a well-formed operation passes the checks of its opcode. -/
theorem decode_encode {n : Nat} {i : Instr} (h : i.wf n = true) : decode n (encode i) = .ok i := by
  rw [encode, decode, splitWord_joinWord]
  cases i with
  | rd8 off | rd16 off | rd32 off => simp [Instr.fields, fieldsOf, decodeRead_ok]
  | wr8 off v | wr16 off v | wr32 off v =>
    have hv := toNat_setWidth_lt v
    simpa [Instr.fields, fieldsOf, decodeWrite_ok] using hv
  | wrfifo e m a | rdfifo e m a => simpa [Instr.fields, decodeFifo_ok, Instr.wf] using h
  | irq src => cases src <;> simp [Instr.fields, fieldsOf, decodeIrq_ok]
  | _ => simp [Instr.fields, fieldsOf, decodeNone_ok]

/-- Settles O1: the decoder accepts no word but the encoding of its answer, and it accepts that one. -/
theorem decodeAndEncodeAgree : Obligations.DecodeAndEncodeAgree := by
  intro n w i
  rw [encode_eq_iff]
  refine ⟨decode_sound, fun ⟨hw, hf⟩ => ?_⟩
  rw [← encode_eq_iff.2 hf]
  exact decode_encode hw

/-- Settles O2, by O1: each word is the encoding of its operation. -/
theorem specWordsDecode : Obligations.SpecWordsDecode := by
  have decoded {w : BitVec 64} {i : Instr} (hw : i.wf 5 = true) (he : encode i = w) : decode 5 w = .ok i :=
    (decodeAndEncodeAgree 5 w i).2 ⟨hw, he⟩
  exact ⟨decoded rfl rfl, decoded rfl rfl, decoded rfl rfl, decoded rfl rfl, decoded rfl rfl, decoded rfl rfl,
    decoded rfl rfl⟩

/-! ## When some operation is accepted, by shape -/

section Accepts
variable {f : Fields}

theorem decodeRead_accepts {mk : BitVec 16 → Instr} :
    (∃ i, decodeRead f mk = .ok i) ↔ f.ep.toNat = 0 ∧ f.data.toNat = 0 := by
  simp [decodeRead_ok, BitVec.toNat_eq]

theorem decodeWrite_accepts {n : Nat} {j : Instr} :
    (∃ i, decodeWrite f n j = .ok i) ↔ f.ep.toNat = 0 ∧ f.data.toNat < 2 ^ n := by
  simp [decodeWrite_ok, BitVec.toNat_eq]

theorem decodeFifo_accepts {n : Nat} {mk : EpIdx → BitVec 16 → BitVec 32 → Instr} :
    (∃ i, decodeFifo n f mk = .ok i) ↔ f.ep.toNat < n := by
  simp [decodeFifo_ok]

theorem decodeNone_accepts {j : Instr} :
    (∃ i, decodeNone f j = .ok i) ↔ f.ep.toNat = 0 ∧ f.arg.toNat = 0 ∧ f.data.toNat = 0 := by
  simp [decodeNone_ok, BitVec.toNat_eq]

theorem decodeIrq_accepts : (∃ i, decodeIrq f = .ok i)
    ↔ f.ep.toNat = 0 ∧ (f.arg.toNat = 0 ∧ f.data.toNat = 0 ∨ f.arg.toNat = 1) := by
  simp [decodeIrq_ok, and_or_left, exists_or, BitVec.toNat_eq]

end Accepts

end Sys2Proof

namespace Sys2Proof.Machine

/-- None of R62's clauses holds of a word exactly if it decodes, opcode by opcode of R61. -/
theorem illegalWord_eq_false {n : Nat} {w : BitVec 64} : illegalWord n w = false ↔ ∃ i, decode n w = .ok i := by
  simp only [illegalWord, decode, splitWord, rejectIf_ok, bne_eq_false_iff_eq, exists_and_left]
  generalize w.extractLsb' 56 8 = op, w.extractLsb' 52 4 = ep, w.extractLsb' 48 4 = zero, w.extractLsb' 32 16 = arg,
    w.extractLsb' 0 32 = data
  split
  case h_1 h | h_2 h | h_3 h => simp [h, opcodeTable, decodeRead_accepts, BitVec.toNat_eq, and_assoc]
  case h_4 h | h_5 h => simp [h, opcodeTable, decodeWrite_accepts, BitVec.toNat_eq, and_assoc]
  case h_6 h =>
    have hd : data.toNat < 4294967296 := data.isLt
    simp [h, opcodeTable, decodeWrite_accepts, BitVec.toNat_eq, hd]
  case h_7 h | h_8 h => simp [h, opcodeTable, decodeFifo_accepts, BitVec.toNat_eq]
  case h_10 h =>
    have hsel : arg.toNat ≤ 1 ∧ (arg.toNat = 0 → data.toNat = 0)
        ↔ arg.toNat = 0 ∧ data.toNat = 0 ∨ arg.toNat = 1 := by omega
    simp [h, opcodeTable, decodeIrq_accepts, BitVec.toNat_eq, and_assoc, hsel]
  case h_9 h | h_11 h | h_12 h | h_13 h | h_14 h | h_15 h | h_16 h | h_17 h =>
    simp [h, opcodeTable, decodeNone_accepts, BitVec.toNat_eq, and_assoc]
  case h_18 => simp_all [opcodeTable]

theorem illegalWord_eq_true {n : Nat} {w : BitVec 64} : illegalWord n w = true ↔ ∃ r, decode n w = .illegal r := by
  rw [← Bool.not_eq_false, illegalWord_eq_false]
  cases decode n w <;> simp

/-! ## No operation ends in the refusal of an illegal word -/

/-- The answer is not the refusal of an illegal command word, which only the step makes (R62). -/
def NotIllegal (o : Out) : Prop := ∀ r, o ≠ .refused (.illegalCommand r)

theorem notIllegal_withInst {s : State} {k : Ctl → Out} (h : ∀ c, NotIllegal (k c)) : NotIllegal (withInst s k) := by
  obtain ⟨i, -, e⟩ | ⟨-, e⟩ := withInst_cases s k
  · rw [e]
    exact h _
  · rw [e]
    exact nofun

theorem notIllegal_whenConfigured {s : State} {k : Ctl → Out} (h : ∀ c, NotIllegal (k c)) :
    NotIllegal (whenConfigured s k) := by
  refine notIllegal_withInst fun c => ?_
  split
  · exact h c
  · exact nofun

theorem notIllegal_underLock {c : Ctl} {k : Ctl → Out} (h : ∀ c, NotIllegal (k c)) : NotIllegal (underLock c k) := by
  unfold underLock
  split
  · exact nofun
  · exact h _

theorem notIllegal_whenReady {s : State} {k : Ctl → Out} (h : ∀ c, NotIllegal (k c)) : NotIllegal (whenReady s k) :=
  notIllegal_whenConfigured fun _ => notIllegal_underLock h

theorem notIllegal_shimRead (n : Nat) (off : BitVec 16) (s : State) : NotIllegal (shimRead n off s) := by
  refine notIllegal_whenConfigured fun c => ?_
  split
  · exact nofun
  · split <;> exact nofun

theorem notIllegal_shimWrite (n : Nat) (off : BitVec 16) (v : Word) (s : State) : NotIllegal (shimWrite n off v s) := by
  refine notIllegal_whenConfigured fun c => ?_
  split
  · exact nofun
  · split <;> exact nofun

theorem notIllegal_transferCheck {c : Ctl} {e : EpIdx} {mps : BitVec 16} {n a : Nat} {r : Refusal}
    (h : transferCheck c e mps n a = some r) : NotIllegal (.refused r) := by
  rintro r' ⟨⟩
  unfold transferCheck at h
  split_ifs at h <;> cases h

theorem notIllegal_execConfigure (s : State) : NotIllegal (execConfigure s) := by
  refine notIllegal_whenReady fun c => ?_
  split
  · exact nofun
  split
  · exact nofun
  split <;> exact nofun

theorem notIllegal_attachConfigure (d : Dev) : NotIllegal (attachConfigure d) := by
  unfold attachConfigure
  split
  · exact nofun
  split <;> exact nofun

theorem notIllegal_attachAcquire (d : Dev) : NotIllegal (attachAcquire d) := by
  unfold attachAcquire
  dsimp only
  split
  · exact nofun
  split
  · exact nofun
  · exact notIllegal_attachConfigure _

theorem notIllegal_execAttach (s : State) : NotIllegal (execAttach s) := by
  unfold execAttach
  split
  · exact nofun
  split
  · exact nofun
  · exact notIllegal_attachAcquire _

theorem notIllegal_execIrq (src : SnapSource) (s : State) : NotIllegal (execIrq src s) := by
  refine notIllegal_whenReady fun c => ?_
  cases src with
  | live => exact nofun
  | synthetic a =>
    dsimp only
    unfold irqSynthetic
    split <;> exact nofun

theorem notIllegal_execStop (s : State) : NotIllegal (execStop s) := by
  unfold execStop
  exact notIllegal_whenConfigured fun _ => nofun

theorem notIllegal_execDetach (s : State) : NotIllegal (execDetach s) := by
  unfold execDetach
  refine notIllegal_withInst fun _ => notIllegal_underLock fun _ => ?_
  split <;> exact nofun

theorem notIllegal_exec (i : Instr) (s : State) : NotIllegal (exec i s) := by
  cases i with
  | rd8 off | rd16 off | rd32 off => exact notIllegal_shimRead _ _ _
  | wr8 off v | wr16 off v | wr32 off v => exact notIllegal_shimWrite _ _ _ _
  | wrfifo e n a | rdfifo e n a =>
    refine notIllegal_whenReady fun c => ?_
    split
    · next hr => exact notIllegal_transferCheck hr
    · exact nofun
  | configure => exact notIllegal_execConfigure s
  | irq src => exact notIllegal_execIrq src s
  | start | getmode | getcable | tryidle => exact notIllegal_whenReady fun _ => nofun
  | stop => exact notIllegal_execStop s
  | attach => exact notIllegal_execAttach s
  | detach => exact notIllegal_execDetach s

/-- The step refuses a command word as illegal exactly if the decoder does (R62). -/
theorem step_illegalCommand_iff {s : State} {w : BitVec 64} {rest : List Input}
    (h : s.dev.inbox = .command w :: rest) :
    (∃ r, step s = .refused (.illegalCommand r)) ↔ ∃ r, decode s.dev.cfg.numEps w = .illegal r := by
  simp only [step, h, List.head?_cons]
  cases decode s.dev.cfg.numEps w with
  | ok i => simp [notIllegal_exec i s.popInput _]
  | illegal r => simp

/-- Settles O3: the step's refusal is the decoder's, and the decoder's is R62's. -/
theorem illegalCommandsRefused : Obligations.IllegalCommandsRefused := by
  intro s w rest h
  rw [step_illegalCommand_iff h]
  exact ⟨illegalWord_eq_true, illegalWord_eq_false⟩

end Sys2Proof.Machine
end

section
/-! PROOF. The kind of result of each operation (R76, R276). -/

namespace Sys2Proof.Machine

theorem shimRead_result {n : Nat} {off : BitVec 16} {s t : State} (h : shimRead n off s = .next t) :
    ∃ v, t.dev.result = .value v := by
  obtain ⟨i, -, -, h⟩ := whenConfigured_next h
  split at h
  · cases h
  split at h <;> cases h
  exact ⟨_, rfl⟩

theorem shimWrite_result {n : Nat} {off : BitVec 16} {v : Word} {s t : State} (h : shimWrite n off v s = .next t) :
    t.dev.result = .none := by
  obtain ⟨i, -, -, h⟩ := whenConfigured_next h
  split at h
  · cases h
  split at h <;> cases h
  rfl

theorem execConfigure_result {s t : State} (h : execConfigure s = .next t) :
    ∃ st, t.dev.result = .status st ∧ st.kind ∈ [ErrorKind.ok, .resourceExhausted] := by
  obtain ⟨i, -, -, -, -, -, ⟨c, -, rfl⟩ | ⟨cause, w, c, -, rfl⟩⟩ := execConfigure_next h
  · exact ⟨.ok, rfl, by decide⟩
  · exact ⟨.resourceExhausted cause, rfl, by simp [Status.kind]⟩

theorem execIrq_result {src : SnapSource} {s t : State} (h : execIrq src s = .next t) :
    ∃ b, t.dev.result = .handled b := by
  obtain ⟨i, -, -, -, h⟩ := whenReady_next h
  cases src with
  | live =>
    cases h
    exact ⟨_, rfl⟩
  | synthetic a =>
    dsimp only at h
    unfold irqSynthetic at h
    split at h <;> cases h
    exact ⟨_, rfl⟩

theorem attachConfigure_result {d : Dev} {t : State} (h : attachConfigure d = .next t) :
    ∃ st, t.dev.result = .status st := by
  unfold attachConfigure at h
  split at h
  · cases h
  split at h <;> cases h <;> exact ⟨_, rfl⟩

theorem attachAcquire_result {d : Dev} {t : State} (h : attachAcquire d = .next t) :
    ∃ st, t.dev.result = .status st := by
  unfold attachAcquire at h
  dsimp only at h
  split at h
  · cases h
    exact ⟨_, rfl⟩
  split at h
  · cases h
    exact ⟨_, rfl⟩
  · exact attachConfigure_result h

theorem execAttach_result {s t : State} (h : execAttach s = .next t) : ∃ st, t.dev.result = .status st := by
  unfold execAttach at h
  split at h
  · cases h
  split at h
  · cases h
    exact ⟨_, rfl⟩
  · exact attachAcquire_result h

/-- `ATTACH` may end with any status the block has (R276). -/
theorem Status.kind_mem (st : Status) :
    st.kind ∈ [ErrorKind.ok, .resourceExhausted, .unsupportedConfiguration, .resourceUnavailable] := by
  cases st <;> simp [Status.kind]

theorem execDetach_result {s t : State} (h : execDetach s = .next t) : t.dev.result = .none := by
  unfold execDetach withInst at h
  split at h
  · cases h
  obtain ⟨-, h⟩ := underLock_next h
  split at h <;> cases h
  rfl

/-- Settles O14: operation by operation, by what its ending puts beside the command. -/
theorem resultOfEachOperation : Obligations.ResultOfEachOperation := by
  intro i s t h
  cases i with
  | rd8 off | rd16 off | rd32 off => exact shimRead_result h
  | wr8 off v | wr16 off v | wr32 off v => exact shimWrite_result h
  | wrfifo e n src =>
    obtain ⟨a, -, -, -, rfl⟩ := execWrfifo_next h
    rfl
  | rdfifo e n dst =>
    obtain ⟨a, -, -, -, rfl⟩ := execRdfifo_next h
    rfl
  | configure => exact execConfigure_result h
  | irq src => exact execIrq_result h
  | start | tryidle =>
    obtain ⟨a, -, -, -, h⟩ := whenReady_next h
    cases h
    rfl
  | stop =>
    obtain ⟨a, -, -, h⟩ := whenConfigured_next (k := fun c => finishUnlocked .none (stopBody c)) h
    cases h
    rfl
  | getmode | getcable =>
    obtain ⟨a, -, -, -, h⟩ := whenReady_next h
    cases h
    exact ⟨_, rfl⟩
  | attach =>
    obtain ⟨st, hst⟩ := execAttach_result h
    exact ⟨st, hst, st.kind_mem⟩
  | detach => exact execDetach_result h

end Sys2Proof.Machine
end

section
/-! PROOF. The endpoint-scoped pseudo-operations (R63, R98, R99): under either shim mode the expansion comes to one
access that reaches the register, from a state that differs from the first in `INDEX` alone. -/

namespace Sys2Proof.Machine

/-! ## Registers at their offsets as operands -/

/-- A legal map aligns what lies in the register space, and keeps it inside the 16-bit offset space (R41, R49). -/
theorem spaceRanges_aligned {p : Params} {off w : Nat} (h : p.wf = true) (hm : (off, w) ∈ p.regMap.spaceRanges p) :
    off % w = 0 ∧ off + w ≤ 65536 := by
  have hr := wf_regMap h
  simp only [RegMap.wf, Bool.and_eq_true, List.all_eq_true, decide_eq_true_eq, and_assoc] at hr
  obtain ⟨-, hs, -⟩ := hr
  exact hs _ hm

theorem index_mem_spaceRanges (p : Params) : (p.regMap.index, 1) ∈ p.regMap.spaceRanges p := by
  simp [RegMap.spaceRanges]

theorem window_mem_spaceRanges {p : Params} {k : EpReg} (hk : k ∈ epRegs p) :
    ((k.off p.regMap).window, k.width) ∈ p.regMap.spaceRanges p := by
  rw [mem_epRegs] at hk
  cases k <;> simp_all [RegMap.spaceRanges, EpReg.off, EpReg.width]

theorem flat_mem_spaceRanges {p : Params} {k : EpReg} {e : EpIdx} {f : Vector Nat 16} (hk : k ∈ epRegs p)
    (he : e.val < p.numEps) (hf : (k.off p.regMap).flat = some f) : (tget f e, k.width) ∈ p.regMap.spaceRanges p := by
  have hm := mem_allEps.2 he
  simp only [RegMap.spaceRanges, List.mem_append]
  cases k with
  | fifosize =>
    simp only [EpReg.off] at hf
    exact .inl (.inr (List.mem_flatMap.2 ⟨e, hm, by simp [hf, EpReg.width]⟩))
  | _ =>
    simp only [EpReg.off] at hf
    have hdyn : p.hwDynFifo = true := by simpa [mem_epRegs] using hk
    rw [if_pos hdyn, List.mem_append]
    exact .inl (.inl (.inr (.inr (List.mem_flatMap.2 ⟨e, hm, by simp [hf, EpReg.width]⟩))))

theorem Reg.width_pos (r : Reg) : 0 < r.width := by
  cases r with
  | epReg k e => cases k <;> simp [Reg.width, EpReg.width]
  | _ => simp [Reg.width]

/-- An access in its own width at a home offset in the register space reaches the register (R103). -/
theorem reaches_of_home {s : State} {r : Reg} {off : Nat} (hw : s.dev.cfg.wf = true) (hp : r.present s.dev.cfg = true)
    (hr : ∀ e, r ≠ .fifo e) (hm : (off, r.width) ∈ s.dev.cfg.regMap.spaceRanges s.dev.cfg)
    (ho : off ∈ homeOffsets s.dev.cfg s.dev.regs.index r) : Reaches s (BitVec.ofNat 16 off) r.width r := by
  obtain ⟨hal, hlt⟩ := spaceRanges_aligned hw hm
  have hpos := r.width_pos
  have hoff : (BitVec.ofNat 16 off).toNat = off := by
    rw [BitVec.toNat_ofNat]
    omega
  rw [registersLieAtTheirOffsets s _ _ r hw, hoff, validAccess_iff]
  exact ⟨hp, ho, hal, (accepts_iff hr).2 rfl⟩

/-! ## Sequences of operations -/

theorem runOps_single (i : Instr) (s : State) : runOps [i] s = exec i s := by
  simp only [runOps]
  cases exec i s <;> rfl

theorem runOps_cons_next {i : Instr} {s t : State} (h : exec i s = .next t) (l : List Instr) :
    runOps (i :: l) s = runOps l t := by
  simp only [runOps, h]

/-! ## Selecting the endpoint (R98, R99) -/

/-- What `INDEX` holds after an endpoint-scoped access: the endpoint, if the sequence goes through `INDEX`. -/
def indexAfter (d : Dev) (k : EpReg) (e : EpIdx) : BitVec 8 :=
  if (flatAlias d.cfg k).isSome then d.regs.index else BitVec.ofNat 8 e.val

/-- State `u` is ready for the one access of register `k` of endpoint `e`, which goes to `off`, and has the device `d`
but for `INDEX` and the traces. -/
structure Selected (d : Dev) (k : EpReg) (e : EpIdx) (u : State) (off : BitVec 16) : Prop where
  configured : ∃ j, u.inst = some j ∧ j.configured = true
  regs : u.dev.regs = { d.regs with index := indexAfter d k e }
  cfg : u.dev.cfg = d.cfg
  reaches : Reaches u off k.width (.epReg k e)

/-- The state `SELEP e` leaves. -/
def selepDone (i : Inst) (d : Dev) (e : EpIdx) : State :=
  writeDone i d (BitVec.ofNat 16 d.cfg.regMap.index) 1 .index ((BitVec.ofNat 8 e.val).setWidth 32)

theorem exec_selep {s : State} {i : Inst} (hw : s.dev.cfg.wf = true) (hi : s.inst = some i)
    (hc : i.configured = true) (e : EpIdx) : exec (selep s.dev.cfg e) s = .next (selepDone i s.dev e) := by
  have hr : Reaches s (BitVec.ofNat 16 s.dev.cfg.regMap.index) 1 .index :=
    reaches_of_home (r := .index) hw rfl (by simp) (index_mem_spaceRanges _) (List.mem_singleton.2 rfl)
  exact (shimWrite_reached hi hc hr _).trans rfl

theorem selepDone_regs (i : Inst) (d : Dev) (e : EpIdx) :
    (selepDone i d e).dev.regs = { d.regs with index := BitVec.ofNat 8 e.val } := by
  simp [selepDone, writeDone, accessDone, regWriteEffect]

theorem flatAlias_some {p : Params} {k : EpReg} {f : Vector Nat 16} (h : flatAlias p k = some f) :
    (k.off p.regMap).flat = some f := by
  unfold flatAlias at h
  split at h
  · exact h
  · cases h

/-- An endpoint-scoped access comes to one operation, at the flat offset or, after `SELEP`, at the window. -/
theorem runOps_epExpansion {s : State} {i : Inst} {k : EpReg} {e : EpIdx} (hw : s.dev.cfg.wf = true)
    (hi : s.inst = some i) (hc : i.configured = true) (hp : (Reg.epReg k e).present s.dev.cfg = true) :
    ∃ u off, Selected s.dev k e u off ∧ ∀ op, runOps (epExpansion s.dev.cfg k e op) s = exec (op off) u := by
  obtain ⟨hk, he⟩ := present_epReg.1 hp
  cases hf : flatAlias s.dev.cfg k with
  | some f =>
    have hflat := flatAlias_some hf
    have hr : Reaches s (BitVec.ofNat 16 (tget f e)) k.width (.epReg k e) :=
      reaches_of_home hw hp (by simp) (flat_mem_spaceRanges hk he hflat) (by simp [homeOffsets, hflat])
    exact ⟨s, _, ⟨⟨i, hi, hc⟩, by simp [indexAfter, hf], rfl, hr⟩,
      fun op => by simp only [epExpansion, hf, runOps_single]⟩
  | none =>
    have hix : indexAfter s.dev k e = BitVec.ofNat 8 e.val := by simp [indexAfter, hf]
    have hsel : selectedEp (selepDone i s.dev e).dev.regs.index = e := by
      simp [selepDone_regs, selectedEp]
    have hr : Reaches (selepDone i s.dev e) (BitVec.ofNat 16 (k.off s.dev.cfg.regMap).window) k.width (.epReg k e) :=
      reaches_of_home (s := selepDone i s.dev e) (r := .epReg k e) hw hp (by simp) (window_mem_spaceRanges hk)
        (mem_homeOffsets.2 (.inr ⟨k, by rw [hsel], rfl⟩))
    exact ⟨selepDone i s.dev e, _, ⟨⟨_, rfl, hc⟩, by rw [selepDone_regs, hix], rfl, hr⟩,
      fun op => by simp only [epExpansion, hf, runOps_cons_next (exec_selep hw hi hc e), runOps_single]⟩

/-! ## The one access -/

section Access
variable {d : Dev} {u : State} {k : EpReg} {e : EpIdx} {off : BitVec 16} {v : Word}

/-- The content of an endpoint-scoped register does not depend on `INDEX`. -/
theorem Selected.content (h : Selected d k e u off) : scopedContent u.dev k e = scopedContent d k e := by
  cases k <;> simp [scopedContent, plainValue, h.regs, h.cfg]

/-- A write of a size or offset register leaves a value that fits it (R94, R95). -/
theorem Selected.write (h : Selected d k e u off) (hk : k ≠ .fifosize) (hv : v.toNat < 2 ^ (8 * k.width)) :
    ∃ t, shimWrite k.width off v u = .next t ∧ scopedContent t.dev k e = some v
      ∧ t.dev.regs.index = indexAfter d k e := by
  obtain ⟨j, hj, hc⟩ := h.configured
  refine ⟨_, (shimWrite_reached hj hc h.reaches v).trans rfl, ?_⟩
  have hv' := setWidth_setWidth_of_lt hv
  cases k with
  | fifosize => exact absurd rfl hk
  | txfifosz | rxfifosz | txfifoadd | rxfifoadd =>
    simp only [EpReg.width] at hv'
    simp [scopedContent, plainValue, writeDone, accessDone, regWriteEffect, h.regs, hv']

/-- A read returns the register's content and leaves it (R91, R92). -/
theorem Selected.read (h : Selected d k e u off) (hv : scopedContent d k e = some v) :
    ∃ t, shimRead k.width off u = .next t ∧ t.dev.result = .value v ∧ scopedContent t.dev k e = some v
      ∧ t.dev.regs.index = indexAfter d k e := by
  obtain ⟨j, hj, hc⟩ := h.configured
  have hv' := h.content.trans hv
  exact ⟨_, shimRead_plain hj hc hv' h.reaches, rfl, hv', congrArg Regs.index h.regs⟩

end Access

/-- Settles O25: the expansion comes to one access, whose width is the register's. -/
theorem endpointAccessIsModeIndependent : Obligations.EndpointAccessIsModeIndependent := by
  intro s i k e hw hi hc hp
  obtain ⟨u, off, hsel, hrun⟩ := runOps_epExpansion hw hi hc hp
  refine ⟨fun v hk => ?_, fun v hk => ?_, fun v hv => ?_⟩
  · rw [epwr8, hrun]
    obtain rfl | rfl := hk <;> exact hsel.write (by decide) (toNat_setWidth_lt v)
  · rw [epwr16, hrun]
    obtain rfl | rfl := hk <;> exact hsel.write (by decide) (toNat_setWidth_lt v)
  · have hr := hsel.read hv
    split
    · next hk1 =>
      rw [eprd8, hrun]
      rwa [hk1] at hr
    · next hk1 =>
      have hk2 : k.width = 2 := by cases k <;> simp_all [EpReg.width]
      rw [eprd16, hrun]
      rwa [hk2] at hr

end Sys2Proof.Machine
end

section
/-! PROOF. What the shim's accesses refuse and what its writes leave (R94 to R96, R103): an access that resolves to no
register, and a write of a register that is no port, each said once for every width. -/

namespace Sys2Proof.Machine

section Access
variable {s : State} {i : Inst} {off : BitVec 16} {n : Nat} {r : Reg}

/-! ## Accesses that reach no register (R103) -/

/-- An access valid for no register is resolved to a reason why it is bad (R41, R49, R103). -/
theorem resolve_bad (hw : s.dev.cfg.wf = true) (h : ∀ r, ¬ ValidAccess s off.toNat n r) :
    ∃ b, resolve s.dev.cfg s.dev.regs.index off.toNat n = .bad b := by
  cases hr : resolve s.dev.cfg s.dev.regs.index off.toNat n with
  | ok r => exact absurd ((registersLieAtTheirOffsets s off n r hw).1 hr) (h r)
  | bad b => exact ⟨b, rfl⟩

/-- Both directions of an access of any width are refused where it is valid for no register. -/
theorem shim_refused (hw : s.dev.cfg.wf = true) (hi : s.inst = some i) (hc : i.configured = true)
    (h : ∀ r, ¬ ValidAccess s off.toNat n r) :
    (∃ b, shimRead n off s = .refused (.badAccess b)) ∧ ∀ v, ∃ b, shimWrite n off v s = .refused (.badAccess b) := by
  obtain ⟨b, hb⟩ := resolve_bad hw h
  refine ⟨⟨b, ?_⟩, fun v => ⟨b, ?_⟩⟩
  · rw [shimRead, whenConfigured_eq hi hc]
    simp only [hb]
  · rw [shimWrite, whenConfigured_eq hi hc]
    simp only [hb]

/-! ## Writes of registers (R94 to R96) -/

/-- A write that is not refused for want of a length (R323; by definition only a port's can be) leaves what the
register's rule says. -/
theorem shimWrite_register (hi : s.inst = some i) (hc : i.configured = true) (h : Reaches s off n r)
    (hu : unprogrammedWrite s.dev r = false) {v : Word} {d : Dev} (hd : regWriteEffect r n v s.dev = d) :
    shimWrite n off v s = .next (accessDone i d (.regWrite (i.busAt off.toNat) n v) .none) := by
  simp [shimWrite_reached hi hc h, hu, writeDone, hd]

end Access

/-- Settles O17: the three widths of an access that reaches no register. -/
theorem invalidAccessRefused : Obligations.InvalidAccessRefused := by
  intro s i off hw hi hc
  have refused {n : Nat} := shim_refused (off := off) (n := n) hw hi hc
  exact ⟨fun h => ⟨(refused h).1, fun v => (refused h).2 _⟩, fun h => ⟨(refused h).1, fun v => (refused h).2 _⟩, refused⟩

/-- Settles O20: the registers of one and of two bytes, whose values the bus carries without loss. -/
theorem writeLeavesValue : Obligations.WriteLeavesValue := by
  intro s i off e hi hc
  have write {n r} := @shimWrite_register s i off n r hi hc
  refine ⟨fun v => ?_, fun v => ?_⟩
  · have hv : (v.setWidth 32).setWidth 8 = v := by simp
    refine ⟨fun h => h.elim (write · rfl rfl) (write · rfl rfl), ?_, ?_, ?_, ?_, ?_⟩ <;>
      exact fun h => write h rfl (by simp only [regWriteEffect, hv])
  · have hv : (v.setWidth 32).setWidth 16 = v := by simp
    refine ⟨fun h => h.elim (write · rfl rfl) (write · rfl rfl), ?_, ?_, ?_, ?_⟩ <;>
      exact fun h => write h rfl (by simp only [regWriteEffect, hv])

/-! ## Hardware-driven bits (R66, R94) -/

theorem getLsbD_bit {w k : Nat} (hk : k < w) (j : Nat) : (bit w j).getLsbD k = decide (k = j) := by
  rw [Bool.eq_iff_iff]
  simp only [bit, ← BitVec.twoPow_eq, BitVec.getLsbD_twoPow, Bool.and_eq_true, decide_eq_true_eq]
  omega

theorem getLsbD_mergeBits {w k : Nat} (hk : k < w) (mask old v : BitVec w) :
    (mergeBits mask old v).getLsbD k = if mask.getLsbD k then v.getLsbD k else old.getLsbD k := by
  simp only [mergeBits, BitVec.getLsbD_or, BitVec.getLsbD_and, BitVec.getLsbD_not, hk, decide_true, Bool.true_and]
  cases mask.getLsbD k <;> simp

/-- A write of `DEVCTL` changes the two software bits alone (R66, R94). -/
theorem getLsbD_devctlAfter {k : Nat} (hk : k < 8) (m : RegMap) (old v : BitVec 8) :
    (devctlAfter m old v).getLsbD k = if k = m.dc.session ∨ k = m.dc.hostreq then v.getLsbD k else old.getLsbD k := by
  simp only [devctlAfter, devctlSoft, getLsbD_mergeBits hk, BitVec.getLsbD_or, getLsbD_bit hk, Bool.or_eq_true,
    decide_eq_true_eq]

/-- A write of `POWER` changes all but the two hardware-driven bits (R66, log 13). -/
theorem getLsbD_powerAfter {k : Nat} (hk : k < 8) (m : RegMap) (old v : BitVec 8) :
    (powerAfter m old v).getLsbD k = if k = m.pw.reset ∨ k = m.pw.hsmode then old.getLsbD k else v.getLsbD k := by
  have hm : (powerHard m).getLsbD k = decide (k = m.pw.reset ∨ k = m.pw.hsmode) := by
    simp only [powerHard, BitVec.getLsbD_or, getLsbD_bit hk, Bool.decide_or]
  rw [powerAfter, getLsbD_mergeBits hk, BitVec.getLsbD_not, hm]
  by_cases h : k = m.pw.reset ∨ k = m.pw.hsmode <;> simp [h, hk]

/-- Settles O21: what is left is the old value merged with the written one through the mask of the software bits. -/
theorem hardwareBitsSurviveWrites : Obligations.HardwareBitsSurviveWrites := by
  intro s i off v hi hc
  have hv : (v.setWidth 32).setWidth 8 = v := by simp
  refine ⟨fun h => ⟨devctlAfter s.dev.cfg.regMap s.dev.regs.devctl v, ?_, fun k hk => getLsbD_devctlAfter hk ..⟩,
    fun h => ⟨powerAfter s.dev.cfg.regMap s.dev.regs.power v, ?_, fun k hk => getLsbD_powerAfter hk ..⟩⟩ <;>
    exact shimWrite_register hi hc h rfl (by simp only [regWriteEffect, hv])

/-- Settles O22: the bus carries 32 bits, and the length in force is the value's `XFR_SIZE` field (R70). -/
theorem lengthRegisterWrites : Obligations.LengthRegisterWrites := by
  intro s i off e v hi hc
  exact ⟨fun h => shimWrite_register hi hc h rfl rfl, fun h => shimWrite_register hi hc h rfl rfl,
    fun h => shimWrite_register hi hc h rfl rfl⟩

end Sys2Proof.Machine
end

section
/-! PROOF. The FIFO transfer engine (R110 to R121): when a transfer completes and what it leaves, said once for each
direction; then the statements about the bytes it moves, its frame, its bus transactions and its preconditions. -/

namespace Sys2Proof.Machine

/-! ## When a transfer completes (R44, R110, R114 to R116) -/

section Transfer
variable {s : State} {i : Inst} {e : EpIdx} {n : BitVec 16} {a : BitVec 32}

/-- A write transfer whose check finds nothing to refuse completes with what its pushes left. -/
theorem exec_wrfifo_ready (hr : Ready s i)
    (hc : transferCheck (Ctl.takeLock ⟨i, s.dev⟩) e (tget i.ep e).maxPacketTx n.toNat a.toNat = none) :
    exec (.wrfifo e n a) s
      = .next ((writeFifo e n.toNat a.toNat (Ctl.takeLock ⟨i, s.dev⟩)).dropLock.withResult .none).toState := by
  obtain ⟨hi, hconf, hl⟩ := hr
  show execWrfifo e n a s = _
  simp only [execWrfifo, whenReady_eq hi hconf hl, Ctl.takeLock_inst, hc, finish]

/-- A read transfer whose check finds nothing to refuse completes with what its pops left. -/
theorem exec_rdfifo_ready (hr : Ready s i)
    (hc : transferCheck (Ctl.takeLock ⟨i, s.dev⟩) e (tget i.ep e).maxPacketRx n.toNat a.toNat = none) :
    exec (.rdfifo e n a) s
      = .next ((readFifo e n.toNat a.toNat (Ctl.takeLock ⟨i, s.dev⟩)).dropLock.withResult .none).toState := by
  obtain ⟨hi, hconf, hl⟩ := hr
  show execRdfifo e n a s = _
  simp only [execRdfifo, whenReady_eq hi hconf hl, Ctl.takeLock_inst, hc, finish]

theorem exec_wrfifo_refused (hr : Ready s i)
    (hc : transferCheck (Ctl.takeLock ⟨i, s.dev⟩) e (tget i.ep e).maxPacketTx n.toNat a.toNat ≠ none) :
    ∃ r, exec (.wrfifo e n a) s = .refused r := by
  obtain ⟨hi, hconf, hl⟩ := hr
  obtain ⟨r, hc⟩ := Option.ne_none_iff_exists'.1 hc
  refine ⟨r, ?_⟩
  show execWrfifo e n a s = _
  simp only [execWrfifo, whenReady_eq hi hconf hl, Ctl.takeLock_inst, hc]

theorem exec_rdfifo_refused (hr : Ready s i)
    (hc : transferCheck (Ctl.takeLock ⟨i, s.dev⟩) e (tget i.ep e).maxPacketRx n.toNat a.toNat ≠ none) :
    ∃ r, exec (.rdfifo e n a) s = .refused r := by
  obtain ⟨hi, hconf, hl⟩ := hr
  obtain ⟨r, hc⟩ := Option.ne_none_iff_exists'.1 hc
  refine ⟨r, ?_⟩
  show execRdfifo e n a s = _
  simp only [execRdfifo, whenReady_eq hi hconf hl, Ctl.takeLock_inst, hc]

end Transfer

/-- Each violated precondition alone makes the check refuse. -/
theorem transferCheck_ne_none {c : Ctl} {e : EpIdx} {mps : BitVec 16} {n a : Nat}
    (h : c.dev.cfg.numEps ≤ e.val ∨ mps.toNat < n ∨ countFits c.dev.cfg e n = false
      ∨ allocated c.dev.regions a n = false) : transferCheck c e mps n a ≠ none := by
  intro hn
  obtain ⟨he, hmps, hfit, hal⟩ := transferCheck_none.1 hn
  obtain h | h | h | h := h
  · exact Nat.not_lt.2 h he
  · exact Nat.not_lt.2 hmps h
  · simp [hfit] at h
  · simp [hal] at h

/-- Settles O30: the check refuses on each of the four grounds. -/
theorem transferPreconditions : Obligations.TransferPreconditions := by
  intro s i e n a hr
  exact ⟨fun h => exec_wrfifo_refused hr (transferCheck_ne_none h),
    fun h => exec_rdfifo_refused hr (transferCheck_ne_none h)⟩

/-! ## The bytes a transfer moves (R117 to R119) -/

theorem Memory.readBytes_eq_map (m : Memory) (a n : Nat) :
    m.readBytes a n = (List.range n).map fun k => m.read (a + k) := by
  apply List.ext_getElem
  · simp
  · intro k h1 h2
    simp [Memory.readBytes_getElem]

section Bytes
variable {e : EpIdx} {n : Nat} {c : Ctl}

/-- After the side channel, the units of a write transfer fit the transmit counter. -/
theorem programTx_fit (hw : c.dev.cfg.wf = true) (hf : countFits c.dev.cfg e n = true) (a : Nat) :
    UnitsFit (programTx e n c).dev.cfg.fifoVariant (tget (programTx e n c).dev.brTxLeft e) n
      (fifoUnits c.dev.cfg.fifoVariant a n) := by
  rw [(programTx_frame e n c).2.1]
  exact fifoUnits_fit _ _ _ _ fun hv => programTx_counter hw hf hv

/-- After the side channel, the units of a read transfer fit the receive counter. -/
theorem programRx_fit (hw : c.dev.cfg.wf = true) (hf : countFits c.dev.cfg e n = true) (a : Nat) :
    UnitsFit (programRx e n c).dev.cfg.fifoVariant (tget (programRx e n c).dev.brRxLeft e) n
      (fifoUnits c.dev.cfg.fifoVariant a n) := by
  rw [(programRx_frame e n c).2.1]
  exact fifoUnits_fit _ _ _ _ fun hv => programRx_counter hw hf hv

/-- A write transfer appends the buffer's bytes. -/
theorem writeFifo_txq_same (hw : c.dev.cfg.wf = true) (hf : countFits c.dev.cfg e n = true) (a : Nat) :
    tget (writeFifo e n a c).dev.txq e = tget c.dev.txq e ++ c.dev.mem.readBytes a n := by
  rw [writeFifo, pushUnits_txq e _ a n _ _ (programTx_fit hw hf a) rfl, fifoUnits_sum, (programTx_frame e n c).2.1]

/-- A read transfer takes the first bytes off the queue and stores them in order; no other byte of memory changes. -/
theorem readFifo_bytes (hw : c.dev.cfg.wf = true) (hf : countFits c.dev.cfg e n = true) (hm : c.dev.mem.wf = true)
    {a : Nat} (ha : allocated c.dev.regions a n = true) :
    tget (readFifo e n a c).dev.rxq e = (tget c.dev.rxq e).drop n
    ∧ (∀ k b, k < n → (tget c.dev.rxq e)[k]? = some b → (readFifo e n a c).dev.mem.read (a + k) = b)
    ∧ ∀ x, ¬ (a ≤ x ∧ x < a + n) → (readFifo e n a c).dev.mem.read x = c.dev.mem.read x := by
  have hd := (programRx_frame e n c).2.1
  have hmem : (programRx e n c).dev.mem = c.dev.mem := by rw [hd]
  have hrxq : (programRx e n c).dev.rxq = c.dev.rxq := by rw [hd]
  have hspec := popUnits_spec e (fifoUnits c.dev.cfg.fifoVariant a n) a n _ (programRx e n c)
    (programRx_fit hw hf a) rfl (hmem ▸ hm)
  rw [fifoUnits_sum, hmem, hrxq] at hspec
  exact (hspec fun hn => allocated_bound ha hn).2

theorem writeFifo_txq_ne {f : EpIdx} (hf : f ≠ e) (n a : Nat) (c : Ctl) :
    tget (writeFifo e n a c).dev.txq f = tget c.dev.txq f := by
  rw [writeFifo, (pushUnits_frame ..).2 f hf, (programTx_frame e n c).2.1]

theorem readFifo_rxq_ne {f : EpIdx} (hf : f ≠ e) (n a : Nat) (c : Ctl) :
    tget (readFifo e n a c).dev.rxq f = tget c.dev.rxq f := by
  rw [readFifo, (popUnits_frame ..).2 f hf, (programRx_frame e n c).2.1]

end Bytes

/-! ## The frame of a transfer (R116, R121) -/

/-- Of a write transfer's device only the registers the side channel wrote, the transmit queues, the two counters and
the bus trace are not those of before. -/
theorem writeFifo_dev (e : EpIdx) (n a : Nat) (c : Ctl) :
    (writeFifo e n a c).dev = { c.dev with
      regs := (programTx e n c).dev.regs
      txq := (writeFifo e n a c).dev.txq
      brTxLeft := (writeFifo e n a c).dev.brTxLeft
      brRxLeft := (programTx e n c).dev.brRxLeft
      bus := (writeFifo e n a c).dev.bus } := by
  have hpush := (pushUnits_frame e (fifoUnits c.dev.cfg.fifoVariant a n) a n (programTx e n c)).1
  rw [← writeFifo, (programTx_frame e n c).2.1] at hpush
  exact hpush

/-- Of a read transfer's device only the registers the side channel wrote, the receive queues, the two counters, the
draw counter, host memory and the bus trace are not those of before. -/
theorem readFifo_dev (e : EpIdx) (n a : Nat) (c : Ctl) :
    (readFifo e n a c).dev = { c.dev with
      regs := (programRx e n c).dev.regs
      rxq := (readFifo e n a c).dev.rxq
      brTxLeft := (programRx e n c).dev.brTxLeft
      brRxLeft := (readFifo e n a c).dev.brRxLeft
      draws := (readFifo e n a c).dev.draws
      mem := (readFifo e n a c).dev.mem
      bus := (readFifo e n a c).dev.bus } := by
  have hpop := (popUnits_frame e (fifoUnits c.dev.cfg.fifoVariant a n) a n (programRx e n c)).1
  rw [← readFifo, (programRx_frame e n c).2.1] at hpop
  exact hpop

theorem writeFifo_rxq (e : EpIdx) (n a : Nat) (c : Ctl) : (writeFifo e n a c).dev.rxq = c.dev.rxq := by
  rw [writeFifo_dev]

theorem readFifo_txq (e : EpIdx) (n a : Nat) (c : Ctl) : (readFifo e n a c).dev.txq = c.dev.txq := by
  rw [readFifo_dev]

/-- Settles O26: on a ready controller the check passes, and the body moves the bytes. -/
theorem transfersMoveExactlyTheBytes : Obligations.TransfersMoveExactlyTheBytes := by
  intro s i e n a hw hm hr he hf ha
  refine ⟨fun hn => ⟨_, exec_wrfifo_ready hr (transferCheck_none.2 ⟨he, hn, hf, ha⟩), ?_⟩,
    fun hn => ⟨_, exec_rdfifo_ready hr (transferCheck_none.2 ⟨he, hn, hf, ha⟩), ?_⟩⟩
  · have hq := writeFifo_txq_same (c := Ctl.takeLock ⟨i, s.dev⟩) hw hf a.toNat
    rw [Memory.readBytes_eq_map] at hq
    exact ⟨hq, fun f hfe => writeFifo_txq_ne hfe n.toNat a.toNat (Ctl.takeLock ⟨i, s.dev⟩), writeFifo_rxq ..,
      fun x => congrArg (Memory.read · x) (writeFifo_mem e n.toNat a.toNat (Ctl.takeLock ⟨i, s.dev⟩))⟩
  · obtain ⟨hq, hmem, hframe⟩ := readFifo_bytes (c := Ctl.takeLock ⟨i, s.dev⟩) hw hf hm ha
    exact ⟨hmem, hframe, hq, fun f hfe => readFifo_rxq_ne hfe n.toNat a.toNat (Ctl.takeLock ⟨i, s.dev⟩),
      readFifo_txq ..⟩

section Frame
variable {s t : State} {i : Inst} {e : EpIdx} {n : BitVec 16} {a : BitVec 32}

/-- A lock taken and released again leaves the woken instance. -/
theorem woken_dropLock {c' : Ctl} {r : Result} (hl : i.lock = .free) (h : Woken (Ctl.takeLock ⟨i, s.dev⟩) c') :
    (c'.dropLock.withResult r).toState.inst
      = some { i with lowPower := lowPowerAfter s.dev.cfg.fifoVariant i.lowPower } := by
  simp [h.2, ← hl]

/-- `WRFIFO` leaves the woken instance, and the device as its body left it. -/
theorem exec_wrfifo_next (hi : s.inst = some i) (h : exec (.wrfifo e n a) s = .next t) :
    t.inst = some { i with lowPower := lowPowerAfter s.dev.cfg.fifoVariant i.lowPower }
    ∧ t.dev = { (writeFifo e n.toNat a.toNat (Ctl.takeLock ⟨i, s.dev⟩)).dev with result := .none } := by
  obtain ⟨j, hj, hl, -, rfl⟩ := execWrfifo_next h
  cases hi.symm.trans hj
  exact ⟨woken_dropLock hl (woken_writeFifo ..), rfl⟩

/-- `RDFIFO` leaves the woken instance, and the device as its body left it. -/
theorem exec_rdfifo_next (hi : s.inst = some i) (h : exec (.rdfifo e n a) s = .next t) :
    t.inst = some { i with lowPower := lowPowerAfter s.dev.cfg.fifoVariant i.lowPower }
    ∧ t.dev = { (readFifo e n.toNat a.toNat (Ctl.takeLock ⟨i, s.dev⟩)).dev with result := .none } := by
  obtain ⟨j, hj, hl, -, rfl⟩ := execRdfifo_next h
  cases hi.symm.trans hj
  exact ⟨woken_dropLock hl (woken_readFifo ..), rfl⟩

end Frame

/-- A byte count in a length register stands shifted to the field (R70). -/
theorem putField_count (f : BitField) (n : BitVec 16) : putField f n.toNat = n.setWidth 32 <<< f.low := by
  rw [putField, BitVec.ofNat_toNat]

/-- The length register a write transfer of the bridge variant leaves (R116). -/
theorem programTx_regs {c : Ctl} (hv : c.dev.cfg.fifoVariant = .bridgeWord) (e : EpIdx) (n : BitVec 16) :
    (programTx e n.toNat c).dev.regs =
      if e = 0 then { c.dev.regs with
        brEp0Conf := bit 32 c.dev.cfg.regMap.brEp0DirBit ||| n.setWidth 32 <<< c.dev.cfg.regMap.brEp0Len.low }
      else { c.dev.regs with
        brTxConf := tset c.dev.regs.brTxConf e (n.setWidth 32 <<< c.dev.cfg.regMap.brLen.low) } := by
  by_cases he : e = 0 <;> simp [programTx, hv, txProgram, he, regWriteEffect, ep0Program, putField_count]

/-- The length register a read transfer of the bridge variant leaves (R116). -/
theorem programRx_regs {c : Ctl} (hv : c.dev.cfg.fifoVariant = .bridgeWord) (e : EpIdx) (n : BitVec 16) :
    (programRx e n.toNat c).dev.regs =
      if e = 0 then { c.dev.regs with brEp0Conf := n.setWidth 32 <<< c.dev.cfg.regMap.brEp0Len.low }
      else { c.dev.regs with
        brRxConf := tset c.dev.regs.brRxConf e (n.setWidth 32 <<< c.dev.cfg.regMap.brLen.low) } := by
  by_cases he : e = 0 <;> simp [programRx, hv, rxProgram, he, regWriteEffect, ep0Program, putField_count]

/-- Settles O27: the bodies' frames, with the register the side channel leaves on either variant. -/
theorem fifoEngineFrame : Obligations.FifoEngineFrame := by
  intro s t i e n a hi
  refine ⟨fun h => ?_, fun h => ?_⟩
  · obtain ⟨hinst, hdev⟩ := exec_wrfifo_next hi h
    rw [writeFifo_dev] at hdev
    rw [hdev]
    exact ⟨hinst, rfl, rfl, fun hv => congrArg (·.dev.regs) ((programTx_frame ..).2.2 hv),
      fun hv => programTx_regs (c := Ctl.takeLock ⟨i, s.dev⟩) hv e n⟩
  · obtain ⟨hinst, hdev⟩ := exec_rdfifo_next hi h
    rw [readFifo_dev] at hdev
    rw [hdev]
    exact ⟨hinst, rfl, rfl, fun hv => congrArg (·.dev.regs) ((programRx_frame ..).2.2 hv),
      fun hv => programRx_regs (c := Ctl.takeLock ⟨i, s.dev⟩) hv e n⟩

/-! ## The bus transactions of a bridge transfer (R116 to R118) -/

/-- The side channel of a write transfer is one write of the record's configuration register. -/
theorem programTx_bus {c : Ctl} (hv : c.dev.cfg.fifoVariant = .bridgeWord) (e : EpIdx) (n : BitVec 16) :
    (programTx e n.toNat c).dev.bus = c.dev.bus ++ [.regWrite (c.inst.busAt (tget c.inst.ep e).brConfTx) 4
      (if e = 0 then bit 32 c.dev.cfg.regMap.brEp0DirBit ||| n.setWidth 32 <<< c.dev.cfg.regMap.brEp0Len.low
        else n.setWidth 32 <<< c.dev.cfg.regMap.brLen.low)] := by
  by_cases he : e = 0 <;> simp [programTx, hv, txProgram, he, putField_count]

/-- The side channel of a read transfer is one write of the record's configuration register. -/
theorem programRx_bus {c : Ctl} (hv : c.dev.cfg.fifoVariant = .bridgeWord) (e : EpIdx) (n : BitVec 16) :
    (programRx e n.toNat c).dev.bus = c.dev.bus ++ [.regWrite (c.inst.busAt (tget c.inst.ep e).brConfRx) 4
      (n.setWidth 32 <<< (if e = 0 then c.dev.cfg.regMap.brEp0Len.low else c.dev.cfg.regMap.brLen.low))] := by
  by_cases he : e = 0 <;> simp [programRx, hv, rxProgram, he, putField_count]

/-- One transaction, then the words of the engine. -/
theorem EngineTrace.after_write {p : Option BusAt} {n a : Nat} {c c1 c' : Ctl} {ev : BusEvent}
    (hv : c.dev.cfg.fifoVariant = .bridgeWord) (hb : c1.dev.bus = c.dev.bus ++ [ev])
    (h : EngineTrace p (fifoUnits c.dev.cfg.fifoVariant a n) c1 c') :
    ∃ new, c'.dev.bus = c.dev.bus ++ ev :: new
      ∧ new.map BusEvent.engineWidth = List.replicate ((n + 3) / 4) (some 4) := by
  obtain ⟨new, hbus, hwidth, -⟩ := h
  exact ⟨new, by simp [hbus, hb], by simpa [hv, fifoUnits, bridgeUnits] using hwidth⟩

/-- Settles O29: the side channel's write, then the trace of the unit loop. -/
theorem bridgeProgramsLengthFirst : Obligations.BridgeProgramsLengthFirst := by
  intro s t i e n a hi hv
  refine ⟨fun h => ?_, fun h => ?_⟩
  · rw [(exec_wrfifo_next hi h).2]
    exact EngineTrace.after_write (c := Ctl.takeLock ⟨i, s.dev⟩) hv (programTx_bus hv e n) (pushUnits_trace ..)
  · rw [(exec_rdfifo_next hi h).2]
    exact EngineTrace.after_write (c := Ctl.takeLock ⟨i, s.dev⟩) hv (programRx_bus hv e n) (popUnits_trace ..)

/-! ## Loopback (R120, R263) -/

@[simp] theorem envMove_loopback_dev (e : EpIdx) (s : State) : (envMove (.loopback e) s).dev =
    { s.dev with rxq := tset s.dev.rxq e (tget s.dev.rxq e ++ tget s.dev.txq e), txq := tset s.dev.txq e [] } := rfl

/-- A loopback leaves a ready controller ready. -/
theorem Ready.loopback {s : State} {i : Inst} (hr : Ready s i) (e : EpIdx) : Ready (envMove (.loopback e) s) i := hr

/-- A write transfer leaves the controller ready. -/
theorem Ready.exec_wrfifo {s t : State} {i : Inst} {e : EpIdx} {n : BitVec 16} {a : BitVec 32} (hr : Ready s i)
    (h : exec (.wrfifo e n a) s = .next t) :
    Ready t { i with lowPower := lowPowerAfter s.dev.cfg.fifoVariant i.lowPower } :=
  ⟨(exec_wrfifo_next hr.1 h).1, hr.2⟩

/-- A write transfer leaves what of host memory is allocated. -/
theorem exec_wrfifo_regions {s t : State} {i : Inst} {e : EpIdx} {n : BitVec 16} {a : BitVec 32} (hi : s.inst = some i)
    (h : exec (.wrfifo e n a) s = .next t) : t.dev.regions = s.dev.regions := by
  rw [(exec_wrfifo_next hi h).2, writeFifo_dev]
  rfl

/-- Settles O31: the write transfer of O26, then its read transfer from the state the loopback leaves. -/
theorem loopbackReturnsTheBytes : Obligations.LoopbackReturnsTheBytes := by
  intro s i e n a b hw hm hr he hf hnt hnr ha hb htx hrx
  obtain ⟨t, hwr, htq, -, hrq, -⟩ := (transfersMoveExactlyTheBytes s i e n a hw hm hr he hf ha).1 hnt
  have hloop : tget (envMove (.loopback e) t).dev.rxq e
      = (List.range n.toNat).map fun k => s.dev.mem.read (a.toNat + k) := by
    simp [htq, htx, hrq, hrx]
  rw [← exec_cfg hwr] at hw he hf
  rw [← exec_mem hwr nofun] at hm
  rw [← exec_wrfifo_regions hr.1 hwr] at hb
  obtain ⟨u, hrd, hbytes, -, hur, -, hut⟩ := (transfersMoveExactlyTheBytes (envMove (.loopback e) t) _ e n b hw hm
    ((hr.exec_wrfifo hwr).loopback e) he hf hb).2 hnr
  rw [hloop] at hbytes hur
  exact ⟨t, u, hwr, hrd, by simp [hut], by simp [hur], fun k hk => hbytes k _ hk (by simp [hk])⟩

end Sys2Proof.Machine
end

section
/-! PROOF. `CONFIGURE` whatever its mode (R130 to R149): the effective size, the frame, running it twice, and the bulk
endpoint of the table its pass left. -/

namespace Sys2Proof.Machine

/-! ## Sizes (R133, R148, R149) -/

theorem effSize_bounds (req : Nat) : effSize req ≤ max req 8 ∧ max req 8 < 2 * effSize req := by
  rw [effSize_eq, Nat.mul_comm, ← Nat.pow_succ]
  exact ⟨Nat.log2_self_le (by omega), Nat.lt_log2_self⟩

theorem effSize_two_pow {k : Nat} (h : 3 ≤ k) : effSize (2 ^ k) = 2 ^ k := by
  have h8 : 8 ≤ 2 ^ k := Nat.pow_le_pow_right (n := 2) (by omega) h
  rw [effSize_eq, max_eq_left h8, Nat.log2_two_pow]

theorem effSize_small {req : Nat} (h : req ≤ 8) : effSize req = 8 := by
  have h3 : effSize (2 ^ 3) = 2 ^ 3 := effSize_two_pow le_rfl
  rw [effSize_eq, max_eq_right h]
  rwa [effSize_eq] at h3

/-- The sizes the formula of R133 would have to round are those above 8 that are no power of two (R149). -/
theorem sizeOk_eq_false {req : BitVec 16} : sizeOk req = false ↔ 8 < req.toNat ∧ ∀ k, req.toNat ≠ 2 ^ k := by
  have hpow : req.toNat ≠ 2 ^ req.toNat.log2 ↔ ∀ k, req.toNat ≠ 2 ^ k :=
    ⟨fun h k hk => h (by rw [hk, Nat.log2_two_pow]), fun h => h _⟩
  simp only [sizeOk, Nat.one_shiftLeft, Bool.or_eq_false_iff, decide_eq_false_iff_not, not_le]
  exact and_congr_right fun _ => hpow

/-- Settles O32: the size is a power of two by definition, and the logarithm's bounds are the size's. -/
theorem effectiveSize : Obligations.EffectiveSize := by
  intro req
  obtain ⟨hle, hlt⟩ := effSize_bounds req.toNat
  exact ⟨⟨_, log2_ge_three _, log2_le_fifteen req, effSize_eq _⟩, hle, hlt, fun k hk hr => hr ▸ effSize_two_pow hk,
    fun h => effSize_small (Nat.le_of_lt h), sizeOk_eq_false⟩

/-! ## Frame and repetition (R130, R145, R146) -/

/-- Settles O40: the frame of configure, and the lock that was free before it is free again. -/
theorem configureFrame : Obligations.ConfigureFrame := by
  intro s t i h hi
  obtain ⟨j, c, r, hj, -, hl, hf, rfl⟩ := execConfigure_frame h
  cases hi.symm.trans hj
  obtain ⟨htx, hrx, hcalls, hdiags⟩ := hf.queues_traces
  refine ⟨⟨c.inst, ?_⟩, hf.regs, htx, hrx, hf.mem, hcalls, hdiags⟩
  rw [Ctl.toState_inst, Ctl.withResult_inst, Ctl.dropLock_inst, hf.inst]
  simp [← hl]

/-- Settles O39: what a successful configure leaves is where configure reproduces itself. -/
theorem configureTwiceIsTheSame : Obligations.ConfigureTwiceIsTheSame := by
  intro s t h hr
  obtain ⟨i, c1, -, -, hst, hu, hb, rfl⟩ := execConfigure_ok h hr
  have hs : c1.inst.started = i.started := by rw [(configureBody_done_frame hb).inst]; rfl
  exact execConfigure_again hb (hs.trans hst) hu

/-! ## The bulk endpoint (R144) -/

theorem bulkOk_iff {r : EpRec} : bulkOk r = true ↔ 512 ≤ r.maxPacketTx.toNat ∧ 512 ≤ r.maxPacketRx.toNat := by
  simp only [bulkOk, Bool.and_eq_true, decide_eq_true_eq]
  exact Iff.rfl

/-- The bulk check finds the lowest usable endpoint: none below it has both directions. -/
theorem firstBulk_least {i : Inst} {e f : EpIdx} (h : firstBulk i = some e) (hf : 1 ≤ f.val) (hlt : f.val < e.val) :
    bulkOk (tget i.ep f) = false := by
  have hnr : f.val < i.nrEndpoints := hlt.trans (firstBulk_some h).2.1
  rw [firstBulk, List.find?_eq_some_iff_getElem] at h
  obtain ⟨-, k, hk, rfl, hmin⟩ := h
  have hk' := hmin f.val (by simpa using hlt)
  simpa [hf, hnr] using hk'

/-- What the instance `j` of a configured state has from the pass that left `c`: its table and registers, and in a
host-capable role the first bulk endpoint of that table. -/
structure LeftByPass (c : Ctl) (t : State) (j : Inst) : Prop where
  cfgRole : j.cfgRole = c.inst.cfgRole
  ep : j.ep = c.inst.ep
  epMask : j.epMask = c.inst.epMask
  nrEndpoints : j.nrEndpoints = c.inst.nrEndpoints
  regs : t.dev.regs = c.dev.regs
  noBulk : c.inst.cfgRole.hostCapable = false → j.bulkEp = none
  bulk : c.inst.cfgRole.hostCapable = true → ∃ e, j.bulkEp = some e ∧ firstBulk c.inst = some e

/-- `CONFIGURE` that ends with `Ok` leaves what its pass left and the bulk endpoint (R130). -/
theorem execConfigure_ok_pass {s t : State} {j : Inst} (h : execConfigure s = .next t)
    (hr : t.dev.result = .status .ok) (hj : t.inst = some j) :
    ∃ i c, configurePass (clearTable (Ctl.takeLock ⟨i, s.dev⟩)) = .done c ∧ LeftByPass c t j := by
  obtain ⟨i, c1, -, -, -, -, hbody, rfl⟩ := execConfigure_ok h hr
  cases hj
  obtain ⟨c, hp, hb⟩ := configureBody_done hbody
  obtain ⟨hdev, hinst⟩ := bulkCheck_done hb
  obtain ⟨hno, hyes⟩ := bulkCheck_bulkEp hb
  exact ⟨i, c, hp, (congrArg Inst.cfgRole hinst :), (congrArg Inst.ep hinst :), (congrArg Inst.epMask hinst :),
    (congrArg Inst.nrEndpoints hinst :), (congrArg Dev.regs hdev :), hno, hyes⟩

/-- Settles O37: the bulk check records the endpoint `firstBulk` finds in the table the pass left. -/
theorem bulkEndpointIsTheFirst : Obligations.BulkEndpointIsTheFirst := by
  intro s t j h hr hj
  obtain ⟨i, c, -, hc⟩ := execConfigure_ok_pass h hr hj
  rw [hc.cfgRole, hc.ep, hc.nrEndpoints]
  refine ⟨hc.noBulk, fun hh => ?_⟩
  obtain ⟨e, he, hf⟩ := hc.bulk hh
  obtain ⟨h1, hnr, htx, hrx⟩ := firstBulk_some hf
  refine ⟨e, he, h1, hnr, htx, hrx, fun f hf1 hlt hboth => ?_⟩
  exact Bool.false_ne_true ((firstBulk_least hf hf1 hlt).symm.trans (bulkOk_iff.mpr hboth))

end Sys2Proof.Machine
end

section
/-! PROOF. The discovered pass of `CONFIGURE` (R140 to R142): what a size descriptor gives, where the pass stops, and that
of the registers it writes only the selector. -/

namespace Sys2Proof.Machine

/-! ## Size descriptors (R69, R141, U8) -/

theorem lowNibble_toNat (d : Byte) : (d.extractLsb' 0 4).toNat = d.toNat % 16 := by
  rw [BitVec.extractLsb'_toNat, Nat.shiftRight_zero]

theorem highNibble_toNat (d : Byte) : (d.extractLsb' 4 4).toNat = d.toNat / 16 := by
  have := d.isLt
  rw [BitVec.extractLsb'_toNat, Nat.shiftRight_eq_div_pow]
  omega

/-- A nibble codes its power of two in bytes (D27). -/
theorem nibbleBytes_toNat {k : Nat} (h : k ≤ 15) : (BitVec.ofNat 16 (1 <<< k)).toNat = 2 ^ k := by
  rw [BitVec.toNat_ofNat, Nat.one_shiftLeft, Nat.mod_eq_of_lt (Nat.pow_lt_pow_right (by omega) (by omega))]

theorem discoveredRec_tx (d : Byte) (r : EpRec) : (discoveredRec d r).maxPacketTx.toNat = 2 ^ (d.toNat % 16) := by
  unfold discoveredRec
  dsimp only
  rw [lowNibble_toNat]
  split <;> exact nibbleBytes_toNat (by omega)

theorem discoveredRec_rx (d : Byte) (r : EpRec) : (discoveredRec d r).maxPacketRx.toNat
    = if d.toNat / 16 = 15 then 2 ^ (d.toNat % 16) else 2 ^ (d.toNat / 16) := by
  have := d.isLt
  unfold discoveredRec
  dsimp only
  rw [lowNibble_toNat, highNibble_toNat]
  split <;> exact nibbleBytes_toNat (by omega)

theorem discoveredRec_shared (d : Byte) (r : EpRec) :
    (discoveredRec d r).sharedFifo = decide (d.toNat / 16 = 15) := by
  unfold discoveredRec
  dsimp only
  rw [highNibble_toNat]
  split <;> simp [*]

/-- A discovered record keeps its offsets and double flags. -/
theorem discoveredRec_rest (d : Byte) (r : EpRec) :
    (discoveredRec d r).fifoOffTx = r.fifoOffTx ∧ (discoveredRec d r).fifoOffRx = r.fifoOffRx
    ∧ (discoveredRec d r).txDouble = r.txDouble ∧ (discoveredRec d r).rxDouble = r.rxDouble := by
  unfold discoveredRec
  dsimp only
  split <;> exact ⟨rfl, rfl, rfl, rfl⟩

/-- A record usable for bulk comes from a descriptor whose two nibbles code at least 512 bytes (R144). -/
theorem descBulk_of_bulkOk {d : Byte} {r : EpRec} (h : bulkOk (discoveredRec d r) = true) : descBulk d = true := by
  have hpow : ∀ {k : Nat}, 512 ≤ 2 ^ k → 9 ≤ k := (Nat.pow_le_pow_iff_right (a := 2) (n := 9) (by omega)).mp
  rw [bulkOk_iff, discoveredRec_tx, discoveredRec_rx] at h
  obtain ⟨hlo, hhi⟩ := h
  have h9 : 9 ≤ d.toNat / 16 := by
    split at hhi
    · omega
    · exact hpow hhi
  simp only [descBulk, lowNibble_toNat, highNibble_toNat, hpow hlo, h9, decide_true, Bool.and_self]

/-! ## Where the pass stops (R140) -/

theorem discovered_iff {p : Params} {e : EpIdx} : discovered p e = true ↔ e ∈ epsFrom1 p ∧ Found p (epsFrom1 p) e := by
  refine ⟨discovered_found, fun ⟨hmem, hfound⟩ => ?_⟩
  obtain ⟨h1, h2⟩ := mem_epsFrom1.mp hmem
  simp only [discovered, h1, h2, decide_true, Bool.true_and, List.all_eq_true, Bool.or_eq_true, Bool.not_eq_true',
    decide_eq_false_iff_not, decide_eq_true_eq]
  exact fun f hf => (Nat.lt_or_ge e.val f.val).imp Nat.not_le.mpr (hfound f hf)

/-- Endpoint 0's part of the pass touches no other endpoint. -/
theorem discoverEp0_other {e : EpIdx} (he : e ≠ 0) (c : Ctl) :
    tget (discoverEp0 c).inst.ep e = tget c.inst.ep e
    ∧ (discoverEp0 c).inst.epMask.getLsbD e.val = c.inst.epMask.getLsbD e.val := by
  have hb := bit_endpoint 0 e
  rw [decide_eq_false he] at hb
  refine ⟨tget_tset_ne _ _ he, ?_⟩
  rw [discoverEp0, BitVec.getLsbD_or]
  exact (congrArg (_ || ·) hb).trans (Bool.or_false _)

/-- An endpoint from 1 on is found, and has the record its descriptor gives, or it is absent. -/
theorem configureDiscovered_spec {c d : Ctl} (h : configureDiscovered (clearTable c) = .done d) {e : EpIdx}
    (he : 1 ≤ e.val) :
    (discovered c.dev.cfg e = true ∧ e.val < d.inst.nrEndpoints ∧ d.inst.epMask.getLsbD e.val = true
      ∧ tget d.inst.ep e = discoveredRec (tget c.dev.cfg.hwSizeDesc e) (EpRec.reset c.dev.cfg e))
    ∨ (discovered c.dev.cfg e = false ∧ d.inst.nrEndpoints ≤ e.val ∧ d.inst.epMask.getLsbD e.val = false
      ∧ tget d.inst.ep e = EpRec.reset c.dev.cfg e) := by
  cases h
  have he0 : e ≠ 0 := fun hh => by simp [hh] at he
  obtain ⟨hrec, hmask⟩ := discoverEp0_other he0 (clearTable c)
  rw [show tget (clearTable c).inst.ep e = EpRec.reset c.dev.cfg e from tget_epTableReset _ _] at hrec
  rw [clearTable_mask] at hmask
  obtain ⟨hin, hout, -, hle⟩ := discoverAll_spec (nr := 1) (c := discoverEp0 (clearTable c)) (epsFrom1_sorted _)
    (zero_notMem_epsFrom1 c.dev.cfg) fun f hf => (mem_epsFrom1.mp hf).1
  by_cases hmem : e ∈ epsFrom1 c.dev.cfg
  · obtain ⟨hf, hlt, hm, hr⟩ | ⟨hf, hge, hm, hr⟩ := hin e hmem
    · exact .inl ⟨discovered_iff.mpr ⟨hmem, hf⟩, hlt, hm, hrec ▸ hr⟩
    · exact .inr ⟨Bool.eq_false_iff.mpr fun hd => hf (discovered_iff.mp hd).2, hge, hm.trans hmask, hr.trans hrec⟩
  · obtain ⟨hr, hm⟩ := hout e hmem
    have hge : max 1 c.dev.cfg.numEps ≤ e.val :=
      max_le he (Nat.not_lt.mp fun hlt => hmem (mem_epsFrom1.mpr ⟨he, hlt⟩))
    refine .inr ⟨Bool.eq_false_iff.mpr fun hd => hmem (discovered_iff.mp hd).1, ?_, hm.trans hmask, hr.trans hrec⟩
    exact (hle _ (le_max_left _ _) fun f hf => lt_of_lt_of_le (mem_epsFrom1.mp hf).2 (le_max_right _ _)).trans hge

/-! ## The registers of the discovered pass (R142) -/

theorem epRead_regs (k : EpReg) (e : EpIdx) (c : Ctl) :
    ∃ ix, (epRead k e c).dev.regs = { c.dev.regs with index := ix } := by
  have hr : ∀ off n b, (busRead off n (.epReg k e) b).dev.regs = b.dev.regs := fun off n b => by
    cases k <;> simp only [busRead_dev, Dev.logBus_regs, regReadEffect]
    split <;> rfl
  unfold epRead
  split
  · exact ⟨_, hr _ _ c⟩
  · exact ⟨_, hr _ _ (c.selectEp e)⟩

theorem discoverAll_regs (l : List EpIdx) (nr : Nat) (c : Ctl) :
    ∃ ix, (discoverAll l nr c).dev.regs = { c.dev.regs with index := ix } := by
  induction l generalizing nr c with
  | nil => exact ⟨_, rfl⟩
  | cons e l ih =>
    obtain ⟨ix, hread⟩ := epRead_regs .fifosize e c
    unfold discoverAll
    dsimp only
    split
    · exact ⟨ix, hread⟩
    · obtain ⟨iy, hrest⟩ := ih (e.val + 1)
        (discoverEp e ((epValue .fifosize e c).setWidth 8) (epRead .fifosize e c))
      refine ⟨iy, hrest.trans ?_⟩
      rw [show (discoverEp e _ (epRead .fifosize e c)).dev.regs = _ from hread]

/-- Of the registers the discovered pass writes only the selector. -/
theorem configureDiscovered_regs {c d : Ctl} (h : configureDiscovered c = .done d) :
    d.dev.regs = { c.dev.regs with index := d.dev.regs.index } := by
  cases h
  obtain ⟨ix, hregs⟩ := discoverAll_regs (epsFrom1 c.dev.cfg) 1 (discoverEp0 c)
  rw [hregs]
  rfl

theorem configurePass_discovered {c : Ctl} (hm : c.dev.cfg.allocMode = .discovered) :
    configurePass c = configureDiscovered c := by
  simp only [configurePass, hm]

/-- Settles O38: endpoint by endpoint, by whether the discovered pass found it. -/
theorem discoveryStopsAtZero : Obligations.DiscoveryStopsAtZero := by
  intro s t j hw hm h hr hj
  obtain ⟨i, c, hpass, hc⟩ := execConfigure_ok_pass h hr hj
  have hinv := configurePass_passInv (c := Ctl.takeLock ⟨i, s.dev⟩) hw hpass
  rw [configurePass_discovered hm] at hpass
  have hspec := fun (e : EpIdx) (he : 1 ≤ e.val) => configureDiscovered_spec (c := Ctl.takeLock ⟨i, s.dev⟩) hpass he
  rw [hc.ep, hc.epMask, hc.nrEndpoints, hc.regs]
  refine ⟨fun e he => ?_, fun e hd => ?_, fun e he hd => ?_, hinv.ep0Tx, hinv.ep0Rx, hinv.ep0Shared, ?_⟩
  · obtain ⟨hd, hlt, -⟩ | ⟨hd, hge, -⟩ := hspec e he
    · exact iff_of_true hlt hd
    · exact iff_of_false (Nat.not_lt.mpr hge) (Bool.eq_false_iff.mp hd)
  · obtain ⟨-, -, hmask, hrec⟩ | ⟨hn, -⟩ := hspec e (mem_epsFrom1.mp (discovered_found hd).1).1
    · obtain ⟨hot, hor, hdt, hdr⟩ := discoveredRec_rest (tget s.dev.cfg.hwSizeDesc e) (EpRec.reset s.dev.cfg e)
      rw [hrec]
      exact ⟨hmask, discoveredRec_tx _ _, discoveredRec_rx _ _, discoveredRec_shared _ _, hot, hor, hdt, hdr⟩
    · exact absurd hd (Bool.eq_false_iff.mp hn)
  · obtain ⟨hy, -⟩ | ⟨-, -, hmask, hrec⟩ := hspec e he
    · exact absurd hy (Bool.eq_false_iff.mp hd)
    · exact ⟨hrec, hmask⟩
  · exact configureDiscovered_regs hpass

end Sys2Proof.Machine
end

section
/-! PROOF. When `CONFIGURE` succeeds and what it reports when it does not (R134, R139, R144, R149): a pass that leaves a
bulk endpoint had parameters that give one, and a table that does not fit fails at its first entry that does not. -/

namespace Sys2Proof.Machine

/-! ## `CONFIGURE` by its body (R130) -/

section Exec
variable {s t : State} {i : Inst} {c1 : Ctl} {cause : ExhaustCause} {w : List FifoEntry}

theorem exec_configure_done (hr : Ready s i) (hst : i.started = false) (hu : layoutUsable s.dev.cfg = true)
    (hb : configureBody (Ctl.takeLock ⟨i, s.dev⟩) = .done c1) : exec .configure s = .next (configureDone c1) := by
  obtain ⟨hi, hconf, hl⟩ := hr
  show execConfigure s = _
  rw [execConfigure_eq hi hconf hl hst hu, hb]
  rfl

theorem exec_configure_failed (hr : Ready s i) (hst : i.started = false) (hu : layoutUsable s.dev.cfg = true)
    (hb : configureBody (Ctl.takeLock ⟨i, s.dev⟩) = .failed cause w c1) : exec .configure s
      = .next ((afterFailure w c1).dropLock.withResult (.status (.resourceExhausted cause))).toState := by
  obtain ⟨hi, hconf, hl⟩ := hr
  show execConfigure s = _
  rw [execConfigure_eq hi hconf hl hst hu, hb]
  rfl

theorem exec_configure_illFormed (hr : Ready s i) (hst : i.started = false) (hu : layoutUsable s.dev.cfg = false) :
    exec .configure s = .refused .illFormedLayout := by
  obtain ⟨hi, hconf, hl⟩ := hr
  show execConfigure s = _
  rw [execConfigure, whenReady_eq hi hconf hl]
  simp [hst, hu]

/-- `CONFIGURE` reports the cause its body failed with. -/
theorem exec_configure_cause (hi : s.inst = some i) (h : exec .configure s = .next t)
    (hb : configureBody (Ctl.takeLock ⟨i, s.dev⟩) = .failed cause w c1) :
    t.dev.result = .status (.resourceExhausted cause) := by
  obtain ⟨j, hj, -, -, -, -, ⟨d, hd, -⟩ | ⟨cause', w', d, hd, rfl⟩⟩ := execConfigure_next h <;>
    cases hi.symm.trans hj
  · cases hb.symm.trans hd
  · cases hb.symm.trans hd
    rfl

end Exec

/-! ## Parameters that give a bulk endpoint (R144) -/

/-- A direction of at least 512 bytes that a pass left in a cleared table is one the table gives. -/
theorem tableGives_of_half {T : List FifoEntry} {dir : Style → Bool} {e : EpIdx} {h : Half} {m : RegMap}
    (he : e ≠ 0) (hs : 512 ≤ h.size.toNat)
    (hp : h.size = 0 ∨ ∃ x ∈ ep0Entry :: T, e = x.ep ∧ dir x.style = true ∧ ∃ off, h = halfOf m x off) :
    tableGives T dir e = true := by
  obtain h0 | ⟨x, hx, hex, hd, off, rfl⟩ := hp
  · simp [h0] at hs
  · obtain rfl | hx := List.mem_cons.mp hx
    · exact absurd hex he
    · exact tableGives_iff.mpr ⟨x, hx, hex.symm, hd, hs.trans_eq (effSize_toNat x)⟩

section TableBulk
variable {T : List FifoEntry} {c d : Ctl} {w : List FifoEntry} {e : EpIdx} (hT : tableWf T = true)
  (h : placeAll (ep0Entry :: T) 0 1 w (clearTable c) = .done d) (he : e ≠ 0)
include hT h he

theorem placeAll_givesTx (hs : 512 ≤ (tget d.inst.ep e).maxPacketTx.toNat) : tableGives T Style.hasTx e = true := by
  refine tableGives_of_half (h := txHalf d e) (m := c.dev.cfg.regMap) he hs ?_
  obtain ⟨hx, -⟩ | ⟨pre, x, post, hl, hex, hd, hx⟩ := placeAll_tx hT h e
  · exact .inl (by rw [hx]; simp [txHalf, clearTable, EpRec.reset])
  · exact .inr ⟨x, by simp [hl], hex, hd, _, hx⟩

theorem placeAll_givesRx (hs : 512 ≤ (tget d.inst.ep e).maxPacketRx.toNat) : tableGives T Style.hasRx e = true := by
  refine tableGives_of_half (h := rxHalf d e) (m := c.dev.cfg.regMap) he hs ?_
  obtain ⟨hx, -⟩ | ⟨pre, x, post, hl, hex, hd, hx⟩ := placeAll_rx hT h e
  · exact .inl (by rw [hx]; simp [rxHalf, clearTable, EpRec.reset])
  · exact .inr ⟨x, by simp [hl], hex, hd, _, hx⟩

end TableBulk

theorem configurePass_table {c : Ctl} (hm : c.dev.cfg.allocMode = .table) :
    configurePass c = placeAll (ep0Entry :: c.dev.cfg.fifoTable) 0 1 [] c := by
  simp only [configurePass, hm, configureTable]

/-- Where a pass leaves an endpoint usable for bulk, the parameters give one. -/
theorem hasBulk_of_usable {c d : Ctl} {e : EpIdx} (hw : c.dev.cfg.wf = true)
    (h : configurePass (clearTable c) = .done d) (hu : BulkUsable d.inst e) : hasBulk c.dev.cfg = true := by
  obtain ⟨h1, hnr, hb⟩ := hu
  unfold hasBulk
  cases hm : c.dev.cfg.allocMode with
  | table =>
    rw [configurePass_table (c := clearTable c) hm] at h
    have hT := wf_tableWf hw hm
    have he : e ≠ 0 := fun hh => by simp [hh] at h1
    obtain ⟨htx, hrx⟩ := bulkOk_iff.mp hb
    refine List.any_eq_true.mpr ⟨e, List.mem_finRange e, ?_⟩
    rw [placeAll_givesTx hT h he htx, placeAll_givesRx hT h he hrx, Bool.and_self]
  | discovered =>
    rw [configurePass_discovered (c := clearTable c) hm] at h
    obtain ⟨hd, -, -, hrec⟩ | ⟨-, hge, -⟩ := configureDiscovered_spec h h1
    · rw [hrec] at hb
      exact List.any_eq_true.mpr ⟨e, List.mem_finRange e, by rw [hd, descBulk_of_bulkOk hb, Bool.and_self]⟩
    · exact absurd hnr (Nat.not_lt.mpr hge)

theorem firstBulk_usable {i : Inst} {e : EpIdx} (h : firstBulk i = some e) : BulkUsable i e := by
  obtain ⟨h1, hnr, hboth⟩ := firstBulk_some h
  exact ⟨h1, hnr, bulkOk_iff.mpr hboth⟩

/-! ## Parameters that fit (R134, R136) -/

theorem sum_ep0Entry (T : List FifoEntry) : ((ep0Entry :: T).map footprint).sum = tableBytes T := by
  have h64 : footprint ep0Entry = 64 := by decide
  rw [List.map_cons, List.sum_cons, h64, tableBytes]

/-- A table whose pass succeeds fits. -/
theorem tableFits_of_done {c d : Ctl} {w : List FifoEntry}
    (h : placeAll (ep0Entry :: c.dev.cfg.fifoTable) 0 1 w c = .done d) : tableFits c.dev.cfg = true := by
  obtain ⟨-, hlt, hsum, -⟩ := placeAll_done h
  have hle := hsum (List.cons_ne_nil _ _)
  rw [Nat.zero_add, sum_ep0Entry] at hle
  have h0 : 1 ≤ c.dev.cfg.numEps := hlt ep0Entry List.mem_cons_self
  simp only [tableFits, Bool.and_eq_true, decide_eq_true_eq, List.all_eq_true]
  exact ⟨⟨h0, fun x hx => hlt x (List.mem_cons_of_mem _ hx)⟩, hle⟩

/-- Configure succeeds on an instance of the configured role only with parameters that fit (R134, R144). -/
theorem configurable_of_done {c d : Ctl} (hw : c.dev.cfg.wf = true) (hr : c.inst.cfgRole = c.dev.cfg.cfgRole)
    (h : configureBody c = .done d) : configurable c.dev.cfg = true := by
  obtain ⟨c2, hp, hb⟩ := configureBody_done h
  simp only [configurable, Bool.and_eq_true, Bool.or_eq_true, Bool.not_eq_true']
  refine ⟨?_, ?_⟩
  · cases hm : c.dev.cfg.allocMode with
    | table =>
      rw [configurePass_table (c := clearTable c) hm] at hp
      exact tableFits_of_done (c := clearTable c) hp
    | discovered => rfl
  · rw [← hr, ← show c2.inst.cfgRole = c.inst.cfgRole from (configurePass_done_frame hp).base_role.2]
    refine (Bool.eq_false_or_eq_true c2.inst.cfgRole.hostCapable).symm.imp_right fun hh => ?_
    obtain ⟨e, -, hf⟩ := (bulkCheck_bulkEp hb).2 hh
    exact hasBulk_of_usable hw hp (firstBulk_usable hf)

/-- A non-zero size descriptor with a zero nibble is no layout (U8). -/
theorem layoutUsable_zeroNibble {p : Params} {e : EpIdx} (hm : p.allocMode = .discovered) (h1 : 1 ≤ e.val)
    (hn : e.val < p.numEps) (hd : (tget p.hwSizeDesc e).toNat ≠ 0)
    (hz : (tget p.hwSizeDesc e).toNat % 16 = 0 ∨ (tget p.hwSizeDesc e).toNat / 16 = 0) : layoutUsable p = false := by
  have hbad : descOk (tget p.hwSizeDesc e) = false := by
    rw [← lowNibble_toNat, ← highNibble_toNat] at hz
    simpa [descOk, ← BitVec.toNat_inj, hd] using hz.resolve_left
  simp only [layoutUsable, hm, descsWf, List.all_eq_false]
  exact ⟨e, mem_epsFrom1.mpr ⟨h1, hn⟩, by simp [hbad]⟩

/-- Settles O33: the body succeeds exactly where the parameters fit; an ill-formed layout never reaches it. -/
theorem configureSucceedsWhenItFits : Obligations.ConfigureSucceedsWhenItFits := by
  intro s i hr hst
  refine ⟨fun hw hrole => ?_, fun hm ht => exec_configure_illFormed hr hst (by simp only [layoutUsable, hm, ht]),
    fun e hm h1 hn hd hz => exec_configure_illFormed hr hst (layoutUsable_zeroNibble hm h1 hn hd hz)⟩
  have hu := wf_layoutUsable hw
  cases hb : configureBody (Ctl.takeLock ⟨i, s.dev⟩) with
  | done c1 =>
    have hfit := configurable_of_done (c := Ctl.takeLock ⟨i, s.dev⟩) hw hrole hb
    exact ⟨_, _, exec_configure_done hr hst hu hb, rfl, rfl, fun _ => ⟨rfl, rfl⟩,
      fun hn => absurd hfit (Bool.eq_false_iff.mp hn)⟩
  | failed cause w c1 =>
    refine ⟨_, _, exec_configure_failed hr hst hu hb, rfl, rfl, fun hfit => ?_, fun _ => ⟨⟨cause, rfl⟩, rfl⟩⟩
    obtain ⟨d, hd⟩ := configureBody_configurable (c := Ctl.takeLock ⟨i, s.dev⟩) hw hrole hfit
    cases hb.symm.trans hd

/-! ## The first failure (R134, R139, R284) -/

section Failure
variable {c : Ctl} {cause : ExhaustCause} (hm : c.dev.cfg.allocMode = .table)
include hm

/-- The body fails at the first entry of the table whose placement check fails. -/
theorem configureBody_failsAt {pre post : List FifoEntry} {x : FifoEntry} (h1 : 1 ≤ c.dev.cfg.numEps)
    (hl : c.dev.cfg.fifoTable = pre ++ x :: post) (hpre : ∀ y ∈ pre, y.ep.val < c.dev.cfg.numEps)
    (hfit : tableBytes pre ≤ c.dev.cfg.fifoRamBytes)
    (hx : placeCheck c.dev.cfg x (tableBytes pre) = some cause) :
    ∃ w d, configureBody c = .failed cause w d := by
  have hpre0 : ∀ y ∈ ep0Entry :: pre, y.ep.val < c.dev.cfg.numEps := List.forall_mem_cons.mpr ⟨h1, hpre⟩
  rw [← Nat.zero_add (tableBytes pre), ← sum_ep0Entry] at hfit hx
  obtain ⟨w, d, hfail⟩ := placeAll_failed (post := post) (nr := 1) (w := []) (c := clearTable c) hpre0 (fun _ => hfit) hx
  rw [List.cons_append, ← hl] at hfail
  have hp := (configurePass_table (c := clearTable c) hm).trans hfail
  exact ⟨w, d, by rw [configureBody, hp]⟩

/-- The body of a host-capable role whose table fits but gives no bulk endpoint fails after the pass. -/
theorem configureBody_noBulk (hw : c.dev.cfg.wf = true) (hfit : tableFits c.dev.cfg = true)
    (hr : c.inst.cfgRole.hostCapable = true) (hb : hasBulk c.dev.cfg = false) :
    ∃ w d, configureBody c = .failed .noBulkEndpoint w d := by
  obtain ⟨hlt, hsum⟩ := tableFits_placed hfit
  obtain ⟨d, hd⟩ := placeAll_fits (nr := 1) (w := []) (c := clearTable c) hlt hsum
  have hp := (configurePass_table (c := clearTable c) hm).trans hd
  have hnone : firstBulk d.inst = none := Option.eq_none_iff_forall_ne_some.mpr fun e he =>
    Bool.eq_false_iff.mp hb (hasBulk_of_usable hw hp (firstBulk_usable he))
  have hrole : d.inst.cfgRole.hostCapable = true :=
    (congrArg Role.hostCapable (configurePass_done_frame hp).base_role.2).trans hr
  refine ⟨writtenEntries c.dev.cfg, d, ?_⟩
  rw [configureBody, hp]
  simp only [bulkCheck, hrole, hnone, if_true]

end Failure

theorem wf_numEps_pos {p : Params} (h : p.wf = true) : 1 ≤ p.numEps := by
  simp only [Params.wf, Bool.and_eq_true, decide_eq_true_eq] at h
  tauto

theorem placeCheck_index {p : Params} {x : FifoEntry} {off : Nat} (h : p.numEps ≤ x.ep.val) :
    placeCheck p x off = some .invalidIndex := if_pos h

theorem placeCheck_overflow {p : Params} {x : FifoEntry} {off : Nat} (h : x.ep.val < p.numEps)
    (ho : p.fifoRamBytes < off + footprint x) : placeCheck p x off = some .tableOverflow := by
  rw [placeCheck, if_neg (Nat.not_le.mpr h), if_pos ho]

theorem tableBytes_append (pre : List FifoEntry) (x : FifoEntry) :
    tableBytes (pre ++ [x]) = tableBytes pre + footprint x := by
  simp [tableBytes, Nat.add_assoc]

/-- Settles O34: the body's failure, at the first failing entry or after the pass, is what is reported. -/
theorem configureReportsFirstFailure : Obligations.ConfigureReportsFirstFailure := by
  intro s t hw hm h
  obtain ⟨i, hi, -⟩ := execConfigure_next h
  refine ⟨fun pre x post hl hpre hfit => ?_, fun hfit ⟨j, hj, hr⟩ hb => ?_⟩
  · have hreport : ∀ cause, placeCheck s.dev.cfg x (tableBytes pre) = some cause →
        t.dev.result = .status (.resourceExhausted cause) := fun cause hx => by
      obtain ⟨w, d, hfail⟩ := configureBody_failsAt (c := Ctl.takeLock ⟨i, s.dev⟩) hm (wf_numEps_pos hw) hl hpre hfit hx
      exact exec_configure_cause hi h hfail
    exact ⟨fun hx => hreport _ (placeCheck_index hx),
      fun hx ho => hreport _ (placeCheck_overflow hx (tableBytes_append pre x ▸ ho))⟩
  · cases hi.symm.trans hj
    obtain ⟨w, d, hfail⟩ := configureBody_noBulk (c := Ctl.takeLock ⟨i, s.dev⟩) hm hw hfit hr hb
    exact exec_configure_cause hi h hfail

end Sys2Proof.Machine
end

section
/-! PROOF. Where a successful table-driven `CONFIGURE` puts each entry (R132 to R138): the codes of its size and offset in
the fields of a legal register map (R67, R68), and the count. -/

namespace Sys2Proof.Machine

/-! ## Size and offset codes (R67, R68) -/

/-- What a legal register map says of the fields of the size and offset registers (R67, R68). -/
theorem sizeFields_of_wf {p : Params} (h : p.wf = true) :
    p.regMap.szCode.low + p.regMap.szCode.width ≤ 8 ∧ 4 ≤ p.regMap.szCode.width
    ∧ p.regMap.szDouble < 8
    ∧ (p.regMap.szDouble < p.regMap.szCode.low
        ∨ p.regMap.szCode.low + p.regMap.szCode.width ≤ p.regMap.szDouble)
    ∧ p.regMap.addOff.low + p.regMap.addOff.width ≤ 16 ∧ 13 ≤ p.regMap.addOff.width := by
  have hm := wf_regMap h
  simp only [RegMap.wf, BitField.wf, BitField.leaves, Bool.and_eq_true, Bool.or_eq_true, decide_eq_true_eq] at hm
  obtain ⟨⟨⟨⟨⟨⟨⟨⟨-, hsz⟩, hszw⟩, hdbl⟩, hadd⟩, haddw⟩, -⟩, -⟩, -⟩ := hm
  exact ⟨hsz, hszw, hdbl.1, hdbl.2, hadd, haddw⟩

/-- A value put in a field of a register of `w` bits lies within the register. -/
theorem putField_lt {f : BitField} {n w : Nat} (hn : n < 2 ^ f.width) (hf : f.low + f.width ≤ w) (hw : w ≤ 32) :
    (putField f n).toNat < 2 ^ w := by
  rw [putField_toNat hn (hf.trans hw)]
  calc n * 2 ^ f.low < 2 ^ f.width * 2 ^ f.low := Nat.mul_lt_mul_of_pos_right hn (Nat.two_pow_pos _)
    _ = 2 ^ (f.low + f.width) := by rw [Nat.add_comm, Nat.pow_add]
    _ ≤ 2 ^ w := Nat.pow_le_pow_right (by omega) hf

theorem bit_toNat {w k : Nat} (h : k < w) : (bit w k).toNat = 2 ^ k := by
  have hlt : 2 ^ k < 2 ^ w := Nat.pow_lt_pow_right (by omega) h
  rw [bit, BitVec.toNat_shiftLeft, BitVec.toNat_one (by omega), Nat.one_shiftLeft, Nat.mod_eq_of_lt hlt]

/-- A flag outside a field adds its weight to the register of 8 bits that holds both. -/
theorem field_or_flag_toNat {f : BitField} {n k : Nat} (hn : n < 2 ^ f.width) (hf : f.low + f.width ≤ 8)
    (hk : k < 8) (hout : k < f.low ∨ f.low + f.width ≤ k) :
    ((putField f n ||| bit 32 k).setWidth 8).toNat = n * 2 ^ f.low + 2 ^ k := by
  have hbit : (bit 32 k).toNat = 2 ^ k := bit_toNat (by omega)
  have hfield := putField_lt hn hf (by omega)
  have hflag : (bit 32 k).toNat < 2 ^ 8 := hbit ▸ Nat.pow_lt_pow_right (by omega) hk
  have hapart : putField f n &&& bit 32 k = 0#32 := by
    apply BitVec.eq_of_getLsbD_eq
    intro j _
    by_cases hj : j = k
    · rw [hj, BitVec.getLsbD_and, putField_outside hn (by omega) hout, Bool.false_and, BitVec.getLsbD_zero]
    · have hclear : (bit 32 k).getLsbD j = false := by simp [bit]; omega
      rw [BitVec.getLsbD_and, hclear, Bool.and_false, BitVec.getLsbD_zero]
  have hsum : (putField f n ||| bit 32 k).toNat = (putField f n).toNat + (bit 32 k).toNat := by
    rw [← BitVec.add_eq_or_of_and_eq_zero _ _ hapart, BitVec.toNat_add, Nat.mod_eq_of_lt (by omega)]
  have hlt : (putField f n ||| bit 32 k).toNat < 2 ^ 8 := BitVec.toNat_or .. ▸ Nat.or_lt_two_pow hfield hflag
  rw [BitVec.toNat_setWidth, Nat.mod_eq_of_lt hlt, hsum, hbit, putField_toNat hn (by omega)]

theorem sizeCode_toNat {p : Params} (hw : p.wf = true) (x : FifoEntry) :
    ((sizeCode p.regMap x).setWidth 8).toNat = ((effSize x.maxpacket.toNat).log2 - 3) * 2 ^ p.regMap.szCode.low
      + (if x.depth = .double then 2 ^ p.regMap.szDouble else 0) := by
  obtain ⟨hsz, hszw, hdbl, hout, -, -⟩ := sizeFields_of_wf hw
  have hn : (effSize x.maxpacket.toNat).log2 - 3 < 2 ^ p.regMap.szCode.width := by
    have h15 := log2_le_fifteen x.maxpacket
    have h16 : 2 ^ 4 ≤ 2 ^ p.regMap.szCode.width := Nat.pow_le_pow_right (by omega) hszw
    rw [effSize_log2]
    omega
  unfold sizeCode
  split
  · exact field_or_flag_toNat hn hsz hdbl hout
  · rw [show ∀ v : Word, v ||| 0 = v from fun v => BitVec.or_zero, BitVec.toNat_setWidth,
      Nat.mod_eq_of_lt (putField_lt hn hsz (by omega)), putField_toNat hn (by omega), Nat.add_zero]

theorem addCode_toNat {p : Params} (hw : p.wf = true) {off : Nat} (h : off < 65536) :
    ((addCode p.regMap off).setWidth 16).toNat = off / 8 * 2 ^ p.regMap.addOff.low := by
  obtain ⟨-, -, -, -, hadd, haddw⟩ := sizeFields_of_wf hw
  have hn : off / 8 < 2 ^ p.regMap.addOff.width := by
    have h13 : 2 ^ 13 ≤ 2 ^ p.regMap.addOff.width := Nat.pow_le_pow_right (by omega) haddw
    omega
  have h8 : off >>> 3 = off / 8 := Nat.shiftRight_eq_div_pow off 3
  rw [addCode, h8, BitVec.toNat_setWidth, Nat.mod_eq_of_lt (putField_lt hn hadd (by omega)),
    putField_toNat hn (by omega)]

/-- The half of a placed entry as numbers: size, double flag, offset, and the codes in its two registers. -/
theorem placedHalf_toNat {p : Params} (hw : p.wf = true) {x : FifoEntry} {off : Nat} (ho : off < 65536) {h : Half}
    (hh : h = halfOf p.regMap x off) :
    h.size.toNat = effSize x.maxpacket.toNat ∧ h.double = decide (x.depth = .double) ∧ h.off.toNat = off
    ∧ h.sz.toNat = ((effSize x.maxpacket.toNat).log2 - 3) * 2 ^ p.regMap.szCode.low
        + (if x.depth = .double then 2 ^ p.regMap.szDouble else 0)
    ∧ h.add.toNat = off / 8 * 2 ^ p.regMap.addOff.low := by
  subst hh
  exact ⟨effSize_toNat x, rfl, (BitVec.toNat_ofNat _ _).trans (Nat.mod_eq_of_lt ho), sizeCode_toNat hw x,
    addCode_toNat hw ho⟩

/-! ## The pass over the table (R132, R138, R139) -/

theorem hasTx_iff {s : Style} : Style.hasTx s = true ↔ s = .rxtx ∨ s = .tx := by cases s <;> simp [Style.hasTx]

theorem hasRx_iff {s : Style} : Style.hasRx s = true ↔ s = .rxtx ∨ s = .rx := by cases s <;> simp [Style.hasRx]

/-- The count of a pass is where it began, or one more than the endpoint of some entry (R138). -/
theorem foldl_count_eq (l : List FifoEntry) (nr : Nat) :
    l.foldl (fun n x => max n (x.ep.val + 1)) nr = nr
    ∨ ∃ x ∈ l, l.foldl (fun n x => max n (x.ep.val + 1)) nr = x.ep.val + 1 := by
  induction l generalizing nr with
  | nil => exact .inl rfl
  | cons x l ih =>
    rw [List.foldl_cons]
    obtain h | ⟨y, hy, h⟩ := ih (max nr (x.ep.val + 1))
    · rw [h]
      exact (le_total (x.ep.val + 1) nr).imp max_eq_left fun hle => ⟨x, List.mem_cons_self, max_eq_right hle⟩
    · exact .inr ⟨y, List.mem_cons_of_mem _ hy, h⟩

section Places
variable {T : List FifoEntry} {c d : Ctl} {w : List FifoEntry}
  (h : placeAll (ep0Entry :: T) 0 1 w (clearTable c) = .done d)
include h

/-- The offset of an entry is a multiple of 8 inside the 16-bit space (R136). -/
theorem placeAll_offset {pre post : List FifoEntry} {x : FifoEntry} (hl : ep0Entry :: T = pre ++ x :: post)
    (hr : c.dev.cfg.fifoRamBytes ≤ 65536) : (pre.map footprint).sum < 65536 ∧ (pre.map footprint).sum % 8 = 0 := by
  have hsum : 0 + ((ep0Entry :: T).map footprint).sum ≤ c.dev.cfg.fifoRamBytes :=
    (placeAll_done h).2.2.1 (List.cons_ne_nil _ _)
  have hle : (pre.map footprint).sum + footprint x ≤ ((ep0Entry :: T).map footprint).sum := hl ▸ sum_split_le
  have hpos := footprint_pos x
  exact ⟨by omega, Nat.mod_eq_zero_of_dvd (footprints_dvd pre)⟩

/-- Every entry's endpoint is in the bitmask and below the count, and an entry of style `RXTX` shares its FIFO. -/
theorem placeAll_entry {x : FifoEntry} (hx : x ∈ ep0Entry :: T) :
    d.inst.epMask.getLsbD x.ep.val = true ∧ x.ep.val < d.inst.nrEndpoints
    ∧ (x.style = .rxtx → (tget d.inst.ep x.ep).sharedFifo = true) := by
  obtain ⟨-, -, -, -, hmask, hshared, -⟩ := placeAll_places h x.ep
  obtain ⟨-, -, -, hnr⟩ := placeAll_done h
  refine ⟨?_, hnr ▸ lt_foldl_count hx, fun hst => hshared ⟨x, hx, rfl, hst⟩⟩
  rw [hmask, List.any_eq_true.mpr ⟨x, hx, decide_eq_true rfl⟩, Bool.or_true]

/-- An endpoint no entry names is absent. -/
theorem placeAll_absent {e : EpIdx} (hn : ∀ x ∈ ep0Entry :: T, e ≠ x.ep) :
    tget d.inst.ep e = EpRec.reset c.dev.cfg e ∧ d.inst.epMask.getLsbD e.val = false := by
  obtain ⟨-, -, -, hrec, hmask, -⟩ := placeAll_places h e
  refine ⟨(hrec hn).trans (tget_epTableReset _ _), ?_⟩
  rw [hmask, clearTable_mask, Bool.false_or, List.any_eq_false]
  exact fun x hx => by simpa using hn x hx

/-- The count is one more than the endpoint of some entry (R138). -/
theorem placeAll_count : ∃ x ∈ ep0Entry :: T, d.inst.nrEndpoints = x.ep.val + 1 := by
  obtain ⟨-, -, -, hnr⟩ := placeAll_done h
  rw [hnr]
  exact (foldl_count_eq _ 1).elim (fun h1 => ⟨ep0Entry, List.mem_cons_self, h1⟩) id

end Places

/-- Settles O35: each entry's halves are where the pass put them, as numbers. -/
theorem configurePlacesEveryEntry : Obligations.ConfigurePlacesEveryEntry := by
  intro s t j hw hm h hr hj
  obtain ⟨i, d, hpass, hd⟩ := execConfigure_ok_pass h hr hj
  replace hpass := (configurePass_table (c := clearTable (Ctl.takeLock ⟨i, s.dev⟩)) hm).symm.trans hpass
  have hT := wf_tableWf hw hm
  rw [hd.ep, hd.epMask, hd.nrEndpoints, hd.regs]
  refine ⟨fun pre x post hl => ?_, fun e he hn => placeAll_absent hpass (List.forall_mem_cons.mpr
    ⟨he, fun x hx => (hn x hx).symm⟩), placeAll_count hpass⟩
  obtain ⟨hlt, h8⟩ := placeAll_offset hpass hl (wf_fifoRamBytes hw)
  obtain ⟨hmask, hnr, hshared⟩ := placeAll_entry hpass (x := x) (hl ▸ by simp)
  refine ⟨hmask, hnr, h8, hshared, fun hst => ?_, fun hst => ?_⟩
  · have htx := placeAll_txHalf hT hpass hl (hasTx_iff.mpr hst)
    rw [Nat.zero_add] at htx
    exact placedHalf_toNat hw hlt htx
  · have hrx := placeAll_rxHalf hT hpass hl (hasRx_iff.mpr hst)
    rw [Nat.zero_add] at hrx
    exact placedHalf_toNat hw hlt hrx

end Sys2Proof.Machine
end

section
/-! PROOF. One delivery while no collaborator acts, in closed form: `IRQ` by its snapshot, what each step of the three
stages leaves once the two traces and the bridge's mode are forgotten, and the exact next state up to those three. The
statements about the link state, the port status, the registers and the diagnostics read their fields off it. -/

namespace Sys2Proof.Machine

/-! ## `IRQ` by its snapshot (R160, R161) -/

/-- The controller the stages of a delivery start from: locked, and with the live source captured (R161). -/
def capturedCtl (s : State) (i : Inst) : SnapSource → Ctl
  | .live => captureReads (Ctl.takeLock ⟨i, s.dev⟩)
  | .synthetic _ => Ctl.takeLock ⟨i, s.dev⟩

/-- The state a delivery of `snap` on the locked controller `c` ends in (R76, R160). -/
def deliveredState (snap : Snapshot) (c : Ctl) : State :=
  ((deliver snap c).dropLock.withResult (.handled (handledBy snap c (beforeStage2 snap c)))).toState

section Irq
variable {s : State} {i : Inst} {src : SnapSource} {snap : Snapshot}

theorem exec_irq (hr : Ready s i) (h : snapshotOf s src = some snap) :
    exec (.irq src) s = .next (deliveredState snap (capturedCtl s i src)) := by
  obtain ⟨hi, hc, hl⟩ := hr
  refine (whenReady_eq hi hc hl _).trans ?_
  cases src with
  | live =>
    obtain rfl := Option.some.inj h
    rfl
  | synthetic a =>
    simp only [snapshotOf, Option.ite_none_right_eq_some, Option.some.injEq] at h
    obtain ⟨ha, rfl⟩ := h
    exact if_pos ha

theorem exec_irq_refused (hr : Ready s i) (h : snapshotOf s src = none) :
    exec (.irq src) s = .refused .notAllocated := by
  obtain ⟨hi, hc, hl⟩ := hr
  refine (whenReady_eq hi hc hl _).trans ?_
  cases src with
  | live => cases h
  | synthetic a =>
    simp only [snapshotOf, ite_eq_right_iff, reduceCtorEq, imp_false] at h
    exact if_neg h

/-- The capture changes the bridge's mode of the locked instance and nothing else of it (R161, R238). -/
theorem capturedCtl_inst : ∃ lp, (capturedCtl s i src).inst = { i with lock := .held, lowPower := lp } := by
  cases src with
  | live => exact ⟨lowPowerAfter s.dev.cfg.fifoVariant i.lowPower, by simp [capturedCtl, captureReads]⟩
  | synthetic a => exact ⟨i.lowPower, rfl⟩

/-- With the lock released the captured controller is what the capture leaves (R161). -/
theorem capturedCtl_done (hr : Ready s i) : (capturedCtl s i src).dropLock.toState = captureDone s i src := by
  obtain ⟨hi, -, hl⟩ := hr
  cases src with
  | live => simp [capturedCtl, captureReads, captureDone, Ctl.toState, Ctl.dropLock, Ctl.takeLock, Ctl.read,
      busRead, Dev.logBus, regReadEffect, busValue, regValue, Reg.width, Reg.offset, Ctl.wake, Inst.busAt, hl]
  | synthetic a =>
    have hi' : ({ i with lock := .free } : Inst) = i := by rw [← hl]
    calc (⟨some { i with lock := .free }, s.dev⟩ : State) = s := by rw [hi', ← hi]

theorem capturedCtl_dev (hr : Ready s i) : (capturedCtl s i src).dev = (captureDone s i src).dev :=
  congrArg State.dev (capturedCtl_done hr)

theorem captureDone_cfg : (captureDone s i src).dev.cfg = s.dev.cfg := by cases src <;> rfl
theorem captureDone_cbScript : (captureDone s i src).dev.cbScript = s.dev.cbScript := by cases src <;> rfl
theorem captureDone_calls : (captureDone s i src).dev.calls = s.dev.calls := by cases src <;> rfl
theorem captureDone_diags : (captureDone s i src).dev.diags = s.dev.diags := by cases src <;> rfl
theorem captureDone_power : (captureDone s i src).dev.regs.power = s.dev.regs.power := by cases src <;> rfl
theorem captureDone_devctl : (captureDone s i src).dev.regs.devctl = s.dev.regs.devctl := by cases src <;> rfl

end Irq

/-! ## What a quiet collaborator and the overlay cannot change -/

/-- The controller without its call and bus traces and the bridge's mode: what overlay site A and the callbacks of a
quiet collaborator leave alone (R221, R238, R250). -/
abbrev Ctl.core (c : Ctl) : Ctl := ⟨{ c.inst with lowPower := false }, { c.dev with bus := [], calls := [] }⟩

theorem Ctl.eq_of_core {c d : Ctl} (h : c.core = d.core) : ∃ lp bus calls,
    c = ⟨{ d.inst with lowPower := lp }, { d.dev with bus := bus, calls := calls }⟩ := by
  refine ⟨c.inst.lowPower, c.dev.bus, c.dev.calls, ?_⟩
  calc c = ⟨{ c.core.inst with lowPower := c.inst.lowPower },
        { c.core.dev with bus := c.dev.bus, calls := c.dev.calls }⟩ := rfl
    _ = _ := by rw [h]

theorem call_core {c : Ctl} (hq : c.dev.cbScript = []) (cb : Callback) : (c.call cb).core = c.core := by
  rw [Ctl.call_of_no_script hq]
  rfl

theorem siteA_core {c : Ctl} (hq : c.dev.cbScript = []) : (siteA c).core = c.core :=
  call_core (c := (c.read .devctl).read .power) hq _

theorem siteAIfActive_core {c : Ctl} (hq : c.dev.cbScript = []) : (siteAIfActive c).core = c.core := by
  unfold siteAIfActive
  split
  · exact siteA_core hq
  · rfl

theorem siteAExtra_core (t : TriggerPoint) {c : Ctl} (hq : c.dev.cbScript = []) : (siteAExtra t c).core = c.core := by
  unfold siteAExtra
  split
  · exact siteAIfActive_core hq
  · rfl

theorem callAll_core (l : List Callback) {c : Ctl} (hq : c.dev.cbScript = []) : (c.callAll l).core = c.core := by
  rw [callAll_quiet l c hq]

/-! ## The steps of stage 0 (R163 to R180) -/

section Steps
variable (b : Bool) (snap : Snapshot) {c : Ctl} (hq : c.dev.cbScript = [])
include hq

theorem resumeStep_core : (stepIf b (resumeStep snap) c).core =
    ⟨{ c.core.inst with
        isActive := c.core.inst.isActive || b
        hostActive := c.core.inst.hostActive || (b && snap.host c.core.dev.cfg.regMap)
        linkState := if b && snap.host c.core.dev.cfg.regMap then .aHost else c.core.inst.linkState },
      { c.core.dev with regs := { c.core.dev.regs with
          power := if b && snap.host c.core.dev.cfg.regMap
            then powerAfter c.core.dev.cfg.regMap c.core.dev.regs.power (resumePower c.core.dev.cfg.regMap snap.power)
            else c.core.dev.regs.power } }⟩ := by
  cases b with
  | false => simp [stepIf]
  | true =>
    cases hh : snap.host c.dev.cfg.regMap with
    | true =>
      have hv : ∀ v : BitVec 8, (v.setWidth 32).setWidth 8 = v := by simp
      simp only [stepIf, if_true, resumeStep, hh]
      rw [siteAExtra_core _ (by simpa using hq)]
      simp [Dev.logBus, regWriteEffect, hv]
    | false =>
      simp only [stepIf, if_true, resumeStep, hh]
      rw [siteAExtra_core _ (by simp [hq])]
      simp [hq]

theorem sessReqStep_core : (stepIf b sessReqStep c).core =
    ⟨{ c.core.inst with
        hostActive := c.core.inst.hostActive || b
        linkState := if b then .aIdle else c.core.inst.linkState
        ctrlSubstate := if b then .idle else c.core.inst.ctrlSubstate },
      { c.core.dev with regs := { c.core.dev.regs with
          devctl := if b then devctlAfter c.core.dev.cfg.regMap c.core.dev.regs.devctl
              (bit 8 c.core.dev.cfg.regMap.dc.session)
            else c.core.dev.regs.devctl } }⟩ := by
  cases b with
  | false => simp [stepIf]
  | true =>
    simp only [stepIf, if_true, sessReqStep]
    rw [siteAExtra_core _ (by simpa [Ctl.startSession] using hq)]
    simp [Ctl.startSession, Dev.logBus, regWriteEffect]

theorem vbusErrStep_core : (stepIf b vbusErrStep c).core =
    ⟨{ c.core.inst with
        linkState := if b then .aIdle else c.core.inst.linkState
        vbuserrRetry := if b then c.core.inst.vbuserrRetry - 1 else c.core.inst.vbuserrRetry },
      { c.core.dev with regs := { c.core.dev.regs with
          devctl := if b && decide (c.core.inst.vbuserrRetry ≠ 0)
            then devctlAfter c.core.dev.cfg.regMap c.core.dev.regs.devctl (bit 8 c.core.dev.cfg.regMap.dc.session)
            else c.core.dev.regs.devctl } }⟩ := by
  cases b with
  | false => simp [stepIf]
  | true =>
    simp only [stepIf, if_true, vbusErrStep]
    by_cases hz : c.inst.vbuserrRetry = 0
    · rw [if_neg (not_not.mpr hz), siteAExtra_core _ (by simpa using hq)]
      simp [hz]
    · rw [if_pos hz, siteAExtra_core _ (by simpa [Ctl.startSession] using hq)]
      simp [hz, Ctl.startSession, Dev.logBus, regWriteEffect]

omit hq in
/-- The connect transition writes the link state, and reports the seven states it does not expect (R174 to R176). -/
theorem connectTransition_eq (c : Ctl) : connectTransition c =
    ⟨{ c.inst with linkState := if c.inst.linkState = .bWaitAcon then .bHost else .aHost },
      { c.dev with diags := c.dev.diags
          ++ if c.inst.linkState ∉ [.bWaitAcon, .aWaitBcon, .aWaitVrise] then [.connectUnexpected] else [] }⟩ := by
  obtain ⟨i, d⟩ := c
  cases hl : i.linkState <;> simp [connectTransition, hl, Ctl.setLink, Ctl.diag]

theorem connectStep_core : (stepIf b (connectStep snap) c).core =
    ⟨{ c.core.inst with
        isActive := c.core.inst.isActive || b
        hostActive := c.core.inst.hostActive || b
        ctrlSubstate := if b then .idle else c.core.inst.ctrlSubstate
        provisionalLowSpeed := if b then snap.devctl.getLsbD c.core.dev.cfg.regMap.dc.lsdev
          else c.core.inst.provisionalLowSpeed
        portStatus := if b then connectPort c.core.dev.cfg.regMap c.core.inst.portStatus else c.core.inst.portStatus
        linkState := if b then (if c.core.inst.linkState = .bWaitAcon then .bHost else .aHost)
          else c.core.inst.linkState },
      { c.core.dev with diags := c.core.dev.diags
          ++ if b && decide (c.core.inst.linkState ∉ [.bWaitAcon, .aWaitBcon, .aWaitVrise]) then [.connectUnexpected]
            else [] }⟩ := by
  cases b with
  | false => simp [stepIf]
  | true =>
    simp only [stepIf, if_true, connectStep, connectTransition_eq]
    rw [siteAExtra_core _ (by simp [connectPortStep, hq])]
    simp [hq, connectPortStep, Dev.logCall, Ctl.call_of_no_script]

theorem resetStep_core : (stepIf b (resetStep snap) c).core =
    ⟨c.core.inst,
      { c.core.dev with diags := c.core.dev.diags
          ++ if b && snap.host c.core.dev.cfg.regMap then [.babble] else [] }⟩ := by
  cases b with
  | false => simp [stepIf]
  | true =>
    have hq' : (c.call .periphReset).dev.cbScript = [] := by simp [hq]
    simp only [stepIf, if_true, resetStep]
    cases hh : snap.host c.dev.cfg.regMap with
    | true =>
      rw [if_pos rfl, siteAExtra_core _ (by simpa using hq)]
      simp
    | false =>
      rw [if_neg (by simp)]
      split
      · rw [siteAExtra_core _ (by simp [siteB, hq]), siteB, call_core hq', call_core hq]
        simp
      · rw [siteAExtra_core _ hq', call_core hq]
        simp

omit hq in
theorem budgetReset_core : (budgetReset snap c).core =
    ⟨{ c.core.inst with
        vbuserrRetry := if otherNamed c.core.dev.cfg.regMap snap.usb then vbuserrRetryInit
          else c.core.inst.vbuserrRetry }, c.core.dev⟩ := by
  unfold budgetReset
  split <;> simp_all

end Steps

/-! ## Stage 0 as a whole (R160, R194) -/

/-- The link state a connect finds: what the steps before it leave (R194). -/
def linkAtConnect (m : RegMap) (i : Inst) (snap : Snapshot) : LinkState :=
  if snap.has m.usb.vbusErr || sessionRequested m i snap then .aIdle
  else if hostResumed m snap then .aHost else i.linkState

/-- The retry budget after stage 0 (R168, R180), tested on the masked byte as the machine does. -/
def budgetAfter (m : RegMap) (i : Inst) (snap : Snapshot) : Nat :=
  if otherNamed m snap.usb then vbuserrRetryInit
  else if snap.has m.usb.vbusErr then i.vbuserrRetry - 1 else i.vbuserrRetry

/-- The instance after stage 0 while no collaborator acts (R163 to R180). -/
def instAfterStage0 (m : RegMap) (i : Inst) (snap : Snapshot) : Inst :=
  { i with
    linkState := linkAfter m i snap
    isActive := activeAfterStage0 m i snap
    hostActive := hostAfter m i snap
    vbuserrRetry := budgetAfter m i snap
    ctrlSubstate := if snap.has m.usb.connect || sessionRequested m i snap then .idle else i.ctrlSubstate
    provisionalLowSpeed :=
      if snap.has m.usb.connect then snap.devctl.getLsbD m.dc.lsdev else i.provisionalLowSpeed
    portStatus := if snap.has m.usb.connect then connectPort m i.portStatus else i.portStatus }

/-- The registers after stage 0, and so after a delivery (R164, R195). -/
def regsAfter (m : RegMap) (i : Inst) (snap : Snapshot) (r : Regs) : Regs :=
  { r with
    power := if hostResumed m snap then powerAfter m r.power (resumePower m snap.power) else r.power
    devctl := if sessionWritten m i snap then devctlAfter m r.devctl (bit 8 m.dc.session) else r.devctl }

/-- The diagnostics of stage 0 (R176, R177). -/
def diagsOfStage0 (m : RegMap) (i : Inst) (snap : Snapshot) : List Diag :=
  (if snap.has m.usb.connect && decide (linkAtConnect m i snap ∉ [.bWaitAcon, .aWaitBcon, .aWaitVrise])
    then [.connectUnexpected] else [])
  ++ (if snap.has m.usb.reset && snap.host m then [.babble] else [])

/-- What stage 0 leaves but for the traces and the bridge's mode. -/
def afterStage0 (snap : Snapshot) (c : Ctl) : Ctl :=
  ⟨instAfterStage0 c.dev.cfg.regMap c.inst snap,
    { c.dev with
      regs := regsAfter c.dev.cfg.regMap c.inst snap c.dev.regs
      diags := c.dev.diags ++ diagsOfStage0 c.dev.cfg.regMap c.inst snap }⟩

/-- Two session writes leave what one leaves (R166, R168, R195). -/
theorem devctlAfter_twice (m : RegMap) (old v : BitVec 8) :
    devctlAfter m (devctlAfter m old v) v = devctlAfter m old v := by
  apply BitVec.eq_of_getLsbD_eq
  intro k hk
  simp only [getLsbD_devctlAfter hk]
  split <;> rfl

/-- Stage 0 in the terms statements about deliveries are made in (R160). -/
theorem stage0_eq (snap : Snapshot) (c : Ctl) : stage0 snap c =
    budgetReset snap (stepIf (snap.has c.dev.cfg.regMap.usb.reset) (resetStep snap)
      (stepIf (snap.has c.dev.cfg.regMap.usb.connect) (connectStep snap)
        (stepIf (snap.has c.dev.cfg.regMap.usb.vbusErr) vbusErrStep
          (stepIf (sessionRequested c.dev.cfg.regMap c.inst snap) sessReqStep
            (stepIf (snap.has c.dev.cfg.regMap.usb.resume) (resumeStep snap) c))))) := rfl

section Quiet
variable (snap : Snapshot) {c : Ctl} (hq : c.dev.cbScript = [])
include hq

/-- The five steps, whichever of them run (R163 to R178): the last that writes a field wins. -/
theorem stage0_steps_core (resume sessReq vbusErr connect reset : Bool) :
    (stepIf reset (resetStep snap) (stepIf connect (connectStep snap) (stepIf vbusErr vbusErrStep
      (stepIf sessReq sessReqStep (stepIf resume (resumeStep snap) c))))).core =
    let m := c.dev.cfg.regMap
    let l := if vbusErr || sessReq then .aIdle else if resume && snap.host m then .aHost else c.inst.linkState
    ⟨{ c.core.inst with
        linkState := if connect then (if l = .bWaitAcon then .bHost else .aHost) else l
        isActive := c.inst.isActive || resume || connect
        hostActive := c.inst.hostActive || (resume && snap.host m) || sessReq || connect
        vbuserrRetry := if vbusErr then c.inst.vbuserrRetry - 1 else c.inst.vbuserrRetry
        ctrlSubstate := if connect || sessReq then .idle else c.inst.ctrlSubstate
        provisionalLowSpeed :=
          if connect then snap.devctl.getLsbD m.dc.lsdev else c.inst.provisionalLowSpeed
        portStatus := if connect then connectPort m c.inst.portStatus else c.inst.portStatus },
      { c.core.dev with
        regs := { c.dev.regs with
          power := if resume && snap.host m then powerAfter m c.dev.regs.power (resumePower m snap.power)
            else c.dev.regs.power
          devctl := if sessReq || (vbusErr && decide (c.inst.vbuserrRetry ≠ 0))
            then devctlAfter m c.dev.regs.devctl (bit 8 m.dc.session) else c.dev.regs.devctl }
        diags := c.dev.diags
          ++ ((if connect && decide (l ∉ [.bWaitAcon, .aWaitBcon, .aWaitVrise]) then [.connectUnexpected] else [])
            ++ (if reset && snap.host m then [.babble] else [])) }⟩ := by
  have quiet {d e : Ctl} (h : d.core = e) (he : e.dev.cbScript = []) : d.dev.cbScript = [] :=
    (congrArg (fun x => x.dev.cbScript) h).trans he
  have h1 := resumeStep_core resume snap hq
  have q1 := quiet h1 hq
  have h2 := sessReqStep_core sessReq q1
  have q2 := quiet h2 q1
  have h3 := vbusErrStep_core vbusErr q2
  have q3 := quiet h3 q2
  have h4 := connectStep_core connect snap q3
  rw [resetStep_core reset snap (quiet h4 q3), h4, h3, h2, h1]
  clear h1 h2 h3 h4 q1 q2 q3 quiet
  cases sessReq <;> cases vbusErr <;> simp [devctlAfter_twice]

theorem stage0_core : (stage0 snap c).core = (afterStage0 snap c).core := by
  rw [stage0_eq, budgetReset_core, stage0_steps_core snap hq]
  rfl

end Quiet

/-! ## Stage 2 (R183 to R189, R193) -/

/-- Stage 2's first test is implied by its second: a set bit makes the global byte non-zero (R193). -/
theorem usb_ne_zero_and_has (snap : Snapshot) (k : Nat) :
    (decide (snap.usb ≠ 0) && snap.usb.getLsbD k) = snap.has k := by
  by_cases hz : snap.usb = 0
  · simp [Snapshot.has, hz]
  · rw [decide_eq_true hz, Bool.true_and, Snapshot.has]

theorem disconnectCond_eq (snap : Snapshot) (c : Ctl) :
    disconnectCond snap c = disconnected c.dev.cfg.regMap c.inst snap := by
  rw [disconnectCond, usb_ne_zero_and_has, disconnected]

theorem suspendCond_eq (snap : Snapshot) (m : RegMap) : suspendCond snap m = snap.has m.usb.suspend :=
  usb_ne_zero_and_has _ _

section Stage2
variable (b : Bool) (snap : Snapshot) {c : Ctl} (hq : c.dev.cbScript = [])
include hq

theorem disconnectStep_core : (stepIf b disconnectStep c).core =
    ⟨{ c.core.inst with isActive := if b then false else c.core.inst.isActive }, c.core.dev⟩ := by
  cases b with
  | false => rfl
  | true =>
    simp only [stepIf, if_true, disconnectStep]
    rw [siteAIfActive_core (by simp [hq])]
    simp [hq]

theorem suspendStep_core : (stepIf b suspendStep c).core =
    ⟨{ c.core.inst with
        isActive := if b then !c.core.inst.hostActive && decide (c.core.inst.cfgRole = .otg) && c.core.inst.hnpPermitted
          else c.core.inst.isActive }, c.core.dev⟩ := by
  cases b with
  | false => rfl
  | true =>
    simp only [stepIf, if_true, suspendStep]
    cases hh : c.inst.hostActive with
    | true =>
      rw [if_pos rfl, siteAExtra_core _ (by simpa using hq)]
      simp [hh]
    | false =>
      rw [if_neg (by simp), siteAExtra_core _ (by simp [hq])]
      simp [hq, hh]

theorem stage2_core : (stage2 snap c).core =
    ⟨{ c.core.inst with
        isActive := if snap.has c.core.dev.cfg.regMap.usb.suspend then
            !c.core.inst.hostActive && decide (c.core.inst.cfgRole = .otg) && c.core.inst.hnpPermitted
          else if disconnected c.core.dev.cfg.regMap c.core.inst snap then false else c.core.inst.isActive },
      c.core.dev⟩ := by
  have h := disconnectStep_core (disconnectCond snap c) hq
  have q : (stepIf (disconnectCond snap c) disconnectStep c).dev.cbScript = [] :=
    (congrArg (fun x => x.dev.cbScript) h).trans hq
  rw [stage2, suspendStep_core _ q, h, suspendCond_eq, disconnectCond_eq]
  rfl

end Stage2

/-! ## A whole delivery (R160 to R162) -/

theorem epCallbacks_isEmpty (snap : Snapshot) (host : Bool) (es : List EpIdx) :
    (epCallbacks snap host es).isEmpty = !es.any fun e => snap.rx.getLsbD e.val || snap.tx.getLsbD e.val := by
  induction es with
  | nil => rfl
  | cons e es ih =>
    rw [epCallbacks, List.any_cons, Bool.not_or, ← ih]
    cases snap.rx.getLsbD e.val <;> cases snap.tx.getLsbD e.val <;> simp

theorem stage1Callbacks_isEmpty (p : Params) (snap : Snapshot) : (stage1Callbacks p snap).isEmpty
    = !(snap.tx.getLsbD 0 || (epsFrom1 p).any fun e => snap.rx.getLsbD e.val || snap.tx.getLsbD e.val) := by
  rw [Bool.not_or, ← epCallbacks_isEmpty snap (snap.host p.regMap), stage1Callbacks]
  cases snap.tx.getLsbD 0 <;> simp

/-- A delivery is handled exactly where its event is recognised, if the suppression flag still stands when stage 2 is
reached (R162, R183). -/
theorem handledBy_eq {snap : Snapshot} {c d : Ctl} (hc : d.dev.cfg = c.dev.cfg)
    (hi : d.inst.ignoreDisconnect = c.inst.ignoreDisconnect) :
    handledBy snap c d = recognised c.dev.cfg c.inst snap := by
  have hd : disconnectCond snap d = disconnected c.dev.cfg.regMap c.inst snap := by
    rw [disconnectCond_eq, hc, disconnected, hi, disconnected]
  rw [handledBy, stage1Callbacks_isEmpty, hd, suspendCond_eq, Bool.not_not]
  simp only [recognised, stage0Handled, sessReqCond, Snapshot.has, sessionRequested, Bool.or_assoc]

/-- What a delivery leaves but for the traces and the bridge's mode (R194). -/
def afterDelivery (snap : Snapshot) (c : Ctl) : Ctl :=
  ⟨{ instAfterStage0 c.dev.cfg.regMap c.inst snap with isActive := activeAfter c.dev.cfg.regMap c.inst snap },
    { c.dev with
      regs := regsAfter c.dev.cfg.regMap c.inst snap c.dev.regs
      diags := c.dev.diags ++ deliveryDiags c.dev.cfg c.inst snap }⟩

section Quiet
variable (snap : Snapshot) {c : Ctl} (hq : c.dev.cbScript = [])
include hq

theorem beforeStage2_core : (beforeStage2 snap c).core = (afterStage0 snap c).core := by
  have h := stage0_core snap hq
  have q : (stage0 snap c).dev.cbScript = [] := (congrArg (fun x => x.dev.cbScript) h).trans hq
  rw [beforeStage2, stage1, callAll_core _ q, h]

theorem handledBy_quiet : handledBy snap c (beforeStage2 snap c) = recognised c.dev.cfg c.inst snap := by
  have h := beforeStage2_core snap hq
  exact handledBy_eq (congrArg (fun x => x.dev.cfg) h) (congrArg (fun x => x.inst.ignoreDisconnect) h)

theorem deliver_core : (deliver snap c).core = (afterDelivery snap c).core := by
  have h := beforeStage2_core snap hq
  have q : (beforeStage2 snap c).dev.cbScript = [] := (congrArg (fun x => x.dev.cbScript) h).trans hq
  have h2 := stage2_core snap q
  rw [h] at h2
  have hd : deliveryDiags c.dev.cfg c.inst snap = diagsOfStage0 c.dev.cfg.regMap c.inst snap
      ++ if recognised c.dev.cfg c.inst snap then [] else [.spurious] := rfl
  rw [deliver, handledBy_quiet snap hq, afterDelivery, hd]
  cases recognised c.dev.cfg c.inst snap with
  | true =>
    rw [if_pos rfl, if_pos rfl, List.append_nil]
    exact h2
  | false =>
    rw [if_neg Bool.false_ne_true, if_neg Bool.false_ne_true, ← List.append_assoc]
    exact congrArg (fun x : Ctl => (x.diag .spurious).core) h2

end Quiet

/-! ## The exact next state (R160) -/

/-- A quiet delivery on a ready controller, exactly but for the traces and the bridge's mode: the statements about
deliveries read their fields off it. -/
theorem deliveredState_quiet {s : State} {i : Inst} {src : SnapSource} (snap : Snapshot) (hr : Ready s i)
    (hq : Quiet s) : ∃ lp bus calls, deliveredState snap (capturedCtl s i src) =
      { inst := some { instAfterStage0 s.dev.cfg.regMap i snap with
          isActive := activeAfter s.dev.cfg.regMap i snap, lock := .free, lowPower := lp }
        dev := { (captureDone s i src).dev with
          regs := regsAfter s.dev.cfg.regMap i snap (captureDone s i src).dev.regs
          diags := s.dev.diags ++ deliveryDiags s.dev.cfg i snap
          bus := bus
          calls := calls
          result := .handled (recognised s.dev.cfg i snap) } } := by
  obtain ⟨lp, hi⟩ := capturedCtl_inst (s := s) (i := i) (src := src)
  have hd := capturedCtl_dev (src := src) hr
  have hq' : (capturedCtl s i src).dev.cbScript = [] := by rw [hd, captureDone_cbScript, hq]
  obtain ⟨lp', bus, calls, hc⟩ := Ctl.eq_of_core (deliver_core snap hq')
  refine ⟨lp', bus, calls, ?_⟩
  rw [deliveredState, handledBy_quiet snap hq', hc, afterDelivery, hd, hi, captureDone_cfg, captureDone_diags]
  rfl

/-! ## The statements -/

/-- Settles O42: three fields of the instance. -/
theorem deliveryLinkStateAndRole : Obligations.DeliveryLinkStateAndRole := by
  intro s i src snap hr hq h
  obtain ⟨lp, bus, calls, ht⟩ := deliveredState_quiet (src := src) snap hr hq
  exact ⟨_, _, (exec_irq hr h).trans (congrArg _ ht), rfl, rfl, rfl, rfl⟩

/-- Settles O46: the result and one trace of the device. -/
theorem deliveryDiagnostics : Obligations.DeliveryDiagnostics := by
  intro s i src snap hr hq h
  obtain ⟨lp, bus, calls, ht⟩ := deliveredState_quiet (src := src) snap hr hq
  exact ⟨_, (exec_irq hr h).trans (congrArg _ ht), rfl, rfl⟩

/-- Bit by bit, the port-status word after a connect (R71, R172). -/
theorem getLsbD_connectPort {k : Nat} (hk : k < 32) (m : RegMap) (p : BitVec 32) :
    (connectPort m p).getLsbD k =
      if k = m.port.connection ∨ k = m.port.cConnection then true
      else if k = m.port.enable ∨ k = m.port.lowSpeed ∨ k = m.port.highSpeed then false
      else p.getLsbD k := by
  have hm : (speedEnableMask m).getLsbD k
      = decide (k = m.port.enable ∨ k = m.port.lowSpeed ∨ k = m.port.highSpeed) := by
    simp only [speedEnableMask, BitVec.getLsbD_or, getLsbD_bit hk, Bool.decide_or, Bool.or_assoc]
  simp only [connectPort, BitVec.getLsbD_or, BitVec.getLsbD_and, BitVec.getLsbD_not, getLsbD_bit hk, hm, hk,
    decide_true, Bool.true_and, Bool.or_assoc, ← Bool.decide_or]
  by_cases hset : k = m.port.connection ∨ k = m.port.cConnection
  · simp only [hset, decide_true, Bool.or_true, if_true]
  · by_cases hclear : k = m.port.enable ∨ k = m.port.lowSpeed ∨ k = m.port.highSpeed <;> simp [hset, hclear]

/-- Settles O43: the port bits follow from the mask of the word; the other fields are read off. -/
theorem deliveryPortStatus : Obligations.DeliveryPortStatus := by
  intro s i src snap _ hr hq h m
  obtain ⟨lp, bus, calls, ht⟩ := deliveredState_quiet (src := src) snap hr hq
  refine ⟨_, _, (exec_irq hr h).trans (congrArg _ ht), rfl, fun k hk => ?_, rfl, rfl, rfl, rfl⟩
  rw [← getLsbD_connectPort hk]
  exact apply_ite (fun v : BitVec 32 => v.getLsbD k) _ _ _

/-- Bit by bit, the value a host-role resume writes (R164). -/
theorem getLsbD_resumePower {k : Nat} (hk : k < 8) (m : RegMap) (p : BitVec 8) :
    (resumePower m p).getLsbD k =
      if k = m.pw.resume then true else if k = m.pw.suspendm then false else p.getLsbD k := by
  simp only [resumePower, BitVec.getLsbD_or, BitVec.getLsbD_and, BitVec.getLsbD_not, getLsbD_bit hk, hk, decide_true,
    Bool.true_and]
  by_cases hset : k = m.pw.resume <;> by_cases hclear : k = m.pw.suspendm <;> simp [hset, hclear]

/-- Bit by bit, `DEVCTL` after the session write (R66, R195). -/
theorem getLsbD_sessionStarted {k : Nat} (hk : k < 8) (m : RegMap) (old : BitVec 8) :
    (devctlAfter m old (bit 8 m.dc.session)).getLsbD k =
      if k = m.dc.session then true else if k = m.dc.hostreq then false else old.getLsbD k := by
  rw [getLsbD_devctlAfter hk, getLsbD_bit hk]
  by_cases hs : k = m.dc.session <;> by_cases hh : k = m.dc.hostreq <;> simp [hs, hh]

/-- Settles O44: each register is written through the mask of its software bits. -/
theorem deliveryRegisters : Obligations.DeliveryRegisters := by
  intro s i src snap _ hr hq h m
  obtain ⟨lp, bus, calls, ht⟩ := deliveredState_quiet (src := src) snap hr hq
  refine ⟨_, (exec_irq hr h).trans (congrArg _ ht), rfl, fun k hk => ?_, fun k hk => ?_⟩
  · rw [← captureDone_power (s := s) (i := i) (src := src), ← getLsbD_resumePower hk, ← getLsbD_powerAfter hk]
    exact apply_ite (fun v : BitVec 8 => v.getLsbD k) _ _ _
  · rw [← captureDone_devctl (s := s) (i := i) (src := src), ← getLsbD_sessionStarted hk]
    exact apply_ite (fun v : BitVec 8 => v.getLsbD k) _ _ _

end Sys2Proof.Machine
end

section
/-! PROOF. A delivery as a sequence of small acts, whatever collaborators do in their callbacks: what every act keeps, a
delivery keeps. From it come the frame of `IRQ` and the place of the endpoint callbacks in the trace. -/

namespace Sys2Proof.Machine

/-! ## The acts of a delivery -/

/-- What the steps of a delivery are made of: writes of the instance, diagnostics, reads and writes of `DEVCTL` and
`POWER`, and callbacks, of which only those `ok` allows. -/
inductive DeliveryAct (ok : Callback → Prop) (c : Ctl) : Ctl → Prop
  | inst (i : Inst) : DeliveryAct ok c ⟨i, c.dev⟩
  | diags (l : List Diag) : DeliveryAct ok c ⟨c.inst, { c.dev with diags := l }⟩
  | readDevctl : DeliveryAct ok c (c.read .devctl)
  | readPower : DeliveryAct ok c (c.read .power)
  | writeDevctl (v : Word) : DeliveryAct ok c (c.write .devctl v)
  | writePower (v : Word) : DeliveryAct ok c (c.write .power v)
  | call (cb : Callback) (h : ok cb) : DeliveryAct ok c (c.call cb)

/-- Acts one after another. -/
abbrev Acts (ok : Callback → Prop) : Ctl → Ctl → Prop := Relation.ReflTransGen (DeliveryAct ok)

open Relation.ReflTransGen (single)

theorem DeliveryAct.mono {ok ok' : Callback → Prop} (h : ∀ cb, ok cb → ok' cb) {c d : Ctl}
    (a : DeliveryAct ok c d) : DeliveryAct ok' c d := by
  cases a with
  | inst i => exact .inst i
  | diags l => exact .diags l
  | readDevctl => exact .readDevctl
  | readPower => exact .readPower
  | writeDevctl v => exact .writeDevctl v
  | writePower v => exact .writePower v
  | call cb hc => exact .call cb (h cb hc)

/-- Stages 0 and 2 call no endpoint's callback (R181, R182). -/
def NotEndpoint (cb : Callback) : Prop := cb.isEndpoint = false

theorem acts_siteAIfActive (c : Ctl) : Acts NotEndpoint c (siteAIfActive c) := by
  unfold siteAIfActive
  split
  · exact ((single .readDevctl).tail .readPower).tail (.call (.inputsChanged _) rfl)
  · exact .refl

theorem acts_siteAExtra (t : TriggerPoint) (c : Ctl) : Acts NotEndpoint c (siteAExtra t c) := by
  unfold siteAExtra
  split
  · exact acts_siteAIfActive c
  · exact .refl

theorem acts_resumeStep (snap : Snapshot) (c : Ctl) : Acts NotEndpoint c (resumeStep snap c) := by
  unfold resumeStep
  refine .trans ?_ (acts_siteAExtra _ _)
  split
  · exact ((single (.inst _)).tail (.writePower _)).tail (.inst _)
  · exact (single (.inst _)).tail (.call _ rfl)

theorem acts_sessReqStep (c : Ctl) : Acts NotEndpoint c (sessReqStep c) :=
  ((single (.writeDevctl _)).tail (.inst _)).trans (acts_siteAExtra _ _)

theorem acts_vbusErrStep (c : Ctl) : Acts NotEndpoint c (vbusErrStep c) := by
  unfold vbusErrStep
  refine .trans ?_ (acts_siteAExtra _ _)
  split
  · exact (single (.inst _)).tail (.writeDevctl _)
  · exact single (.inst _)

theorem acts_connectTransition (c : Ctl) : Acts NotEndpoint c (connectTransition c) := by
  rw [connectTransition_eq]
  exact (single (.diags _)).tail (.inst _)

/-- The controller a connect calls the host collaborator on (R173). -/
def atRootPort (snap : Snapshot) (c : Ctl) : Ctl := connectPortStep snap (c.setActive true).resetCtrl

theorem acts_sinceRootPort (snap : Snapshot) (c : Ctl) :
    Acts NotEndpoint ((atRootPort snap c).call .hostRootPort) (connectStep snap c) :=
  ((single (.inst _)).trans (acts_connectTransition _)).trans (acts_siteAExtra _ _)

theorem acts_connectStep (snap : Snapshot) (c : Ctl) : Acts NotEndpoint c (connectStep snap c) :=
  ((single (.inst _)).tail (.call .hostRootPort rfl)).trans (acts_sinceRootPort snap c)

theorem acts_resetStep (snap : Snapshot) (c : Ctl) : Acts NotEndpoint c (resetStep snap c) := by
  unfold resetStep
  refine .trans ?_ (acts_siteAExtra _ _)
  split
  · exact single (.diags _)
  · dsimp only
    split
    · exact (single (.call .periphReset rfl)).tail (.call (.inputsChanged _) rfl)
    · exact single (.call .periphReset rfl)

theorem acts_budgetReset (snap : Snapshot) (c : Ctl) : Acts NotEndpoint c (budgetReset snap c) := by
  unfold budgetReset
  split
  · exact single (.inst _)
  · exact .refl

theorem acts_stepIf {ok : Callback → Prop} {f : Ctl → Ctl} (hf : ∀ c, Acts ok c (f c)) (b : Bool) (c : Ctl) :
    Acts ok c (stepIf b f c) := by
  cases b with
  | false => exact .refl
  | true => exact hf c

/-- Stage 0 up to the connect step. -/
def beforeConnect (snap : Snapshot) (c : Ctl) : Ctl :=
  stepIf (snap.has c.dev.cfg.regMap.usb.vbusErr) vbusErrStep
    (stepIf (sessionRequested c.dev.cfg.regMap c.inst snap) sessReqStep
      (stepIf (snap.has c.dev.cfg.regMap.usb.resume) (resumeStep snap) c))

theorem acts_beforeConnect (snap : Snapshot) (c : Ctl) : Acts NotEndpoint c (beforeConnect snap c) :=
  ((acts_stepIf (acts_resumeStep snap) _ c).trans (acts_stepIf acts_sessReqStep _ _)).trans
    (acts_stepIf acts_vbusErrStep _ _)

theorem acts_sinceConnect (snap : Snapshot) (c : Ctl) :
    Acts NotEndpoint (stepIf (snap.has c.dev.cfg.regMap.usb.connect) (connectStep snap) (beforeConnect snap c))
      (stage0 snap c) :=
  (acts_stepIf (acts_resetStep snap) _ _).trans (acts_budgetReset snap _)

theorem acts_stage0 (snap : Snapshot) (c : Ctl) : Acts NotEndpoint c (stage0 snap c) :=
  ((acts_beforeConnect snap c).trans (acts_stepIf (acts_connectStep snap) _ _)).trans (acts_sinceConnect snap c)

theorem acts_callAll (l : List Callback) (c : Ctl) : Acts (fun _ => True) c (c.callAll l) := by
  induction l generalizing c with
  | nil => exact .refl
  | cons cb l ih => exact .head (.call cb trivial) (ih _)

theorem acts_disconnectStep (c : Ctl) : Acts NotEndpoint c (disconnectStep c) := by
  refine .trans ((single (.inst _)).tail (.call _ ?_)) (acts_siteAIfActive _)
  unfold NotEndpoint
  split <;> rfl

theorem acts_suspendStep (c : Ctl) : Acts NotEndpoint c (suspendStep c) := by
  unfold suspendStep
  refine .trans ?_ (acts_siteAExtra _ _)
  split
  · exact single (.inst _)
  · exact (single (.call _ rfl)).tail (.inst _)

theorem acts_stage2 (snap : Snapshot) (c : Ctl) : Acts NotEndpoint c (stage2 snap c) :=
  (acts_stepIf acts_disconnectStep _ c).trans (acts_stepIf acts_suspendStep _ _)

theorem Acts.any {ok : Callback → Prop} {c d : Ctl} (h : Acts ok c d) : Acts (fun _ => True) c d :=
  Relation.ReflTransGen.mono (fun _ _ => DeliveryAct.mono fun _ _ => trivial) _ _ h

theorem acts_deliver (snap : Snapshot) (c : Ctl) : Acts (fun _ => True) c (deliver snap c) := by
  have h : Acts (fun _ => True) c (stage2 snap (beforeStage2 snap c)) :=
    ((acts_stage0 snap c).any.trans (acts_callAll _ _)).trans (acts_stage2 snap _).any
  unfold deliver
  dsimp only
  split
  · exact h
  · exact h.tail (.diags _)

/-! ## The registers (R161, R164, R195, R261) -/

/-- The registers `r'` are `r` but for `POWER` and `DEVCTL`. -/
def RegsKept (r r' : Regs) : Prop := r' = { r with power := r'.power, devctl := r'.devctl }

theorem RegsKept.trans {a b c : Regs} (h : RegsKept a b) (k : RegsKept b c) : RegsKept a c := by
  unfold RegsKept at *
  rw [k, h]

theorem regsKept_collabMoves (l : List CollabMove) (c : Ctl) : RegsKept c.dev.regs (collabMoves l c).dev.regs := by
  induction l generalizing c with
  | nil => rfl
  | cons m l ih => exact .trans (by cases m <;> rfl) (ih _)

theorem regsKept_call (cb : Callback) (c : Ctl) : RegsKept c.dev.regs (c.call cb).dev.regs := by
  unfold Ctl.call
  dsimp only
  split
  · rfl
  · exact regsKept_collabMoves _ _

theorem Acts.regs {ok : Callback → Prop} {c d : Ctl} (h : Acts ok c d) : RegsKept c.dev.regs d.dev.regs := by
  induction h with
  | refl => rfl
  | tail _ a ih =>
    refine ih.trans ?_
    cases a with
    | inst i => rfl
    | diags l => rfl
    | readDevctl => rfl
    | readPower => rfl
    | writeDevctl v => rfl
    | writePower v => rfl
    | call cb hc => exact regsKept_call cb _

/-! ## The retry budget (R14, R168, R180) -/

theorem vbusErrStep_retry_eq (c : Ctl) : (vbusErrStep c).inst.vbuserrRetry = c.inst.vbuserrRetry - 1 := by
  unfold vbusErrStep
  split
  · simp [Ctl.startSession]
  · have hz : c.inst.vbuserrRetry = 0 := by omega
    simp [hz]

theorem stepIf_retry {f : Ctl → Ctl} (hf : ∀ c, (f c).inst.vbuserrRetry = c.inst.vbuserrRetry) (b : Bool)
    (c : Ctl) : (stepIf b f c).inst.vbuserrRetry = c.inst.vbuserrRetry := by
  cases b with
  | false => rfl
  | true => exact hf c

theorem budgetReset_retry (snap : Snapshot) (c : Ctl) : (budgetReset snap c).inst.vbuserrRetry =
    if otherNamed c.dev.cfg.regMap snap.usb then vbuserrRetryInit else c.inst.vbuserrRetry := by
  unfold budgetReset
  split <;> rfl

/-- Stage 0 leaves the budget the rules give whatever collaborators do: no move of theirs reaches it. -/
theorem stage0_retry (snap : Snapshot) (c : Ctl) :
    (stage0 snap c).inst.vbuserrRetry = budgetAfter c.dev.cfg.regMap c.inst snap := by
  have hv (b : Bool) (d : Ctl) : (stepIf b vbusErrStep d).inst.vbuserrRetry
      = if b then d.inst.vbuserrRetry - 1 else d.inst.vbuserrRetry := by
    cases b with
    | false => rfl
    | true => exact vbusErrStep_retry_eq d
  have hc := (((((keeps_stepIf (keeps_resumeStep snap) (snap.has c.dev.cfg.regMap.usb.resume) c).trans
    (keeps_stepIf keeps_sessReqStep (sessionRequested c.dev.cfg.regMap c.inst snap) _)).trans
    (keeps_stepIf keeps_vbusErrStep (snap.has c.dev.cfg.regMap.usb.vbusErr) _)).trans
    (keeps_stepIf (keeps_connectStep snap) (snap.has c.dev.cfg.regMap.usb.connect) _)).trans
    (keeps_stepIf (keeps_resetStep snap) (snap.has c.dev.cfg.regMap.usb.reset) _)).cfg
  rw [stage0_eq, budgetReset_retry, hc, stepIf_retry (resetStep_retry snap), stepIf_retry (connectStep_retry snap), hv,
    stepIf_retry sessReqStep_retry, stepIf_retry (resumeStep_retry snap), budgetAfter]

theorem callAll_retry (l : List Callback) (c : Ctl) : (c.callAll l).inst.vbuserrRetry = c.inst.vbuserrRetry := by
  induction l generalizing c with
  | nil => rfl
  | cons cb l ih => rw [Ctl.callAll, ih, Ctl.call_vbuserrRetry]

theorem deliver_retry (snap : Snapshot) (c : Ctl) :
    (deliver snap c).inst.vbuserrRetry = budgetAfter c.dev.cfg.regMap c.inst snap := by
  have h : (stage2 snap (beforeStage2 snap c)).inst.vbuserrRetry = budgetAfter c.dev.cfg.regMap c.inst snap := by
    rw [stage2, stepIf_retry suspendStep_retry, stepIf_retry disconnectStep_retry, beforeStage2, stage1, callAll_retry,
      stage0_retry]
  unfold deliver
  dsimp only
  split
  · exact h
  · exact h

/-! ## The other named events (R180) -/

/-- The named bits of `INTRUSB` but VBUS-error's (R65, R180). -/
def otherBits (m : RegMap) : List Nat :=
  [m.usb.suspend, m.usb.resume, m.usb.reset, m.usb.connect, m.usb.disconnect, m.usb.sessReq]

/-- The named bits of `INTRUSB` (R65). -/
def usbBits (m : RegMap) : List Nat := otherBits m ++ [m.usb.vbusErr]

theorem namedBits_of_wf {p : Params} (h : p.wf = true) :
    (∀ k ∈ usbBits p.regMap, k < 8) ∧ (usbBits p.regMap).Nodup ∧ p.regMap.dc.session < 8 := by
  simp only [Params.wf, RegMap.wf, Bool.and_eq_true, and_assoc] at h
  obtain ⟨-, -, -, -, -, -, -, -, -, -, husb, hdc, -⟩ := h
  simp only [bitsWf, Bool.and_eq_true, List.all_eq_true, decide_eq_true_eq] at husb hdc
  exact ⟨husb.1, husb.2, hdc.1 _ (by simp)⟩

theorem ne_zero_iff_getLsbD {w : Nat} (v : BitVec w) : (v != 0#w) = true ↔ ∃ k < w, v.getLsbD k = true := by
  rw [bne_iff_ne]
  constructor
  · intro h
    by_contra hn
    push Not at hn
    exact h (BitVec.eq_of_getLsbD_eq fun k hk => by simpa using hn k hk)
  · rintro ⟨k, -, hk⟩ rfl
    simp at hk

theorem getLsbD_namedUsb {k : Nat} (hk : k < 8) (m : RegMap) : (namedUsb m).getLsbD k = decide (k ∈ usbBits m) := by
  simp only [namedUsb, BitVec.getLsbD_or, getLsbD_bit hk, usbBits, otherBits, List.mem_append, List.mem_cons,
    List.not_mem_nil, or_false, Bool.decide_or, Bool.or_assoc]

theorem otherEvent_eq_any (m : RegMap) (snap : Snapshot) : otherEvent m snap = (otherBits m).any snap.has := by
  simp only [otherEvent, otherBits, List.any_cons, List.any_nil, Bool.or_false]
  ac_rfl

/-- With distinct bits the machine's test on the masked byte is the list of the named events (R180). -/
theorem otherNamed_eq {p : Params} (hw : p.wf = true) (snap : Snapshot) :
    otherNamed p.regMap snap.usb = otherEvent p.regMap snap := by
  obtain ⟨hlt, hnd, -⟩ := namedBits_of_wf hw
  have hvbus {k : Nat} (hk : k ∈ otherBits p.regMap) : k ≠ p.regMap.usb.vbusErr := by
    rintro rfl
    exact List.disjoint_of_nodup_append hnd hk (List.mem_singleton_self _)
  rw [Bool.eq_iff_iff, otherEvent_eq_any, List.any_eq_true]
  refine (ne_zero_iff_getLsbD _).trans ⟨fun ⟨k, hk, h⟩ => ?_, fun ⟨k, hk, h⟩ => ⟨k, hlt k ?_, ?_⟩⟩
  · simp only [BitVec.getLsbD_and, BitVec.getLsbD_not, getLsbD_namedUsb hk, getLsbD_bit hk, Bool.and_eq_true,
      decide_eq_true_eq, Bool.not_eq_true', decide_eq_false_iff_not, usbBits, List.mem_append, List.mem_singleton] at h
    obtain ⟨⟨hu, hm⟩, -, hv⟩ := h
    exact ⟨k, hm.resolve_right hv, hu⟩
  · exact List.mem_append_left _ hk
  · have hk8 := hlt k (List.mem_append_left _ hk)
    have hm : k ∈ usbBits p.regMap := List.mem_append_left _ hk
    simp only [BitVec.getLsbD_and, BitVec.getLsbD_not, getLsbD_namedUsb hk8, getLsbD_bit hk8, hm, hvbus hk, hk8]
    simpa [Snapshot.has] using h

theorem budgetAfter_eq {p : Params} (hw : p.wf = true) (i : Inst) (snap : Snapshot) :
    budgetAfter p.regMap i snap = retryAfter p.regMap i snap := by
  rw [budgetAfter, otherNamed_eq hw, vbuserrRetryInit, retryAfter]

theorem keeps_capturedCtl (s : State) (i : Inst) (src : SnapSource) :
    Keeps (Ctl.takeLock ⟨i, s.dev⟩) (capturedCtl s i src) := by
  cases src with
  | live => exact keeps_captureReads _
  | synthetic a => exact .refl _

/-- Settles O41: what a delivery keeps (`Keeps`), the registers its acts leave, and the budget along its steps. -/
theorem deliveryCompletes : Obligations.DeliveryCompletes := by
  intro s i src hw hr
  refine ⟨exec_irq_refused hr, fun snap h => ⟨_, _, _, exec_irq hr h, rfl, rfl, rfl, ?_⟩⟩
  have hk := (keeps_capturedCtl s i src).trans (keeps_deliver snap _)
  have hregs := (acts_deliver snap (capturedCtl s i src)).regs
  rw [capturedCtl_dev hr] at hregs
  have hbudget := deliver_retry snap (capturedCtl s i src)
  obtain ⟨lp, hi⟩ := capturedCtl_inst (s := s) (i := i) (src := src)
  rw [capturedCtl_dev hr, captureDone_cfg, budgetAfter_eq hw, hi] at hbudget
  exact ⟨hbudget, hk.ep, hk.epMask, hk.nrEndpoints, hk.bulkEp, hk.configured, hk.started, hk.otgOverlayActive,
    hk.idleTimer, hk.wakeEnables, hregs, hk.txq, hk.rxq, hk.mem⟩

/-! ## Endpoint callbacks in the trace (R181, R182, R192) -/

/-- The trace gains callbacks, none of them an endpoint's. -/
def NoEndpointCalls (c c' : Ctl) : Prop :=
  ∃ l, c'.dev.calls = c.dev.calls ++ l ∧ ∀ r ∈ l, NotEndpoint r.call

theorem Acts.noEndpointCalls {c d : Ctl} (h : Acts NotEndpoint c d) : NoEndpointCalls c d := by
  induction h with
  | refl => exact ⟨[], by simp, by simp⟩
  | @tail b d _ a ih =>
    obtain ⟨l, hl, hn⟩ := ih
    cases a with
    | inst i => exact ⟨l, hl, hn⟩
    | diags x => exact ⟨l, hl, hn⟩
    | readDevctl => exact ⟨l, hl, hn⟩
    | readPower => exact ⟨l, hl, hn⟩
    | writeDevctl v => exact ⟨l, hl, hn⟩
    | writePower v => exact ⟨l, hl, hn⟩
    | call cb hc =>
      refine ⟨l ++ [⟨cb, some b.inst.view⟩], by rw [Ctl.call_calls, hl, List.append_assoc], fun r hr => ?_⟩
      rcases List.mem_append.mp hr with hr | hr
      · exact hn r hr
      · rw [List.mem_singleton.mp hr]
        exact hc

/-- Stage 0 calls no endpoint, and with a connect it calls the host collaborator's root port (R173, R192). -/
theorem stage0_calls (snap : Snapshot) (c : Ctl) : ∃ l, (stage0 snap c).dev.calls = c.dev.calls ++ l
    ∧ (∀ r ∈ l, NotEndpoint r.call)
    ∧ (snap.has c.dev.cfg.regMap.usb.connect = true → Callback.hostRootPort ∈ l.map CallRecord.call) := by
  cases hk : snap.has c.dev.cfg.regMap.usb.connect with
  | false =>
    obtain ⟨l, hl, hn⟩ := (acts_stage0 snap c).noEndpointCalls
    exact ⟨l, hl, hn, fun h => absurd h Bool.false_ne_true⟩
  | true =>
    have hsince := acts_sinceConnect snap c
    rw [hk] at hsince
    obtain ⟨l1, hl1, hn1⟩ := (acts_beforeConnect snap c).noEndpointCalls
    obtain ⟨l2, hl2, hn2⟩ := Acts.noEndpointCalls ((acts_sinceRootPort snap (beforeConnect snap c)).trans hsince)
    rw [Ctl.call_calls, show (atRootPort snap (beforeConnect snap c)).dev.calls = _ from hl1] at hl2
    refine ⟨l1 ++ ([⟨.hostRootPort, _⟩] ++ l2), by rw [hl2, List.append_assoc, List.append_assoc], fun r hr => ?_,
      fun _ => by simp⟩
    simp only [List.mem_append, List.mem_singleton] at hr
    rcases hr with hr | rfl | hr
    · exact hn1 r hr
    · rfl
    · exact hn2 r hr

/-- An element that a prefix does not have lies behind it. -/
theorem split_behind {α : Type} {P : α → Prop} {l₁ l₂ pre post : List α} {x : α}
    (h : l₁ ++ l₂ = pre ++ x :: post) (hl : ∀ y ∈ l₁, ¬ P y) (hx : P x) :
    ∃ mid, pre = l₁ ++ mid ∧ l₂ = mid ++ x :: post := by
  rcases List.append_eq_append_iff.mp h with ⟨mid, hp, hm⟩ | ⟨mid, hp, hm⟩
  · exact ⟨mid, hp, hm⟩
  · cases mid with
    | nil => exact ⟨[], by simpa using hp.symm, by simpa using hm.symm⟩
    | cons y mid =>
      obtain ⟨rfl, -⟩ := List.cons.inj hm
      exact absurd hx (hl x (by simp [hp]))

/-- What the trace gains: a part of stage 0, the endpoints' callbacks, and a part of stage 2; the endpoints are called
with the view stage 0 left (R160, R192). -/
theorem deliver_calls (snap : Snapshot) {c : Ctl} (hq : c.dev.cbScript = []) : ∃ l0 l2,
    (deliver snap c).dev.calls = c.dev.calls ++ (l0 ++ ((stage1Callbacks c.dev.cfg snap).map
      (fun cb => ⟨cb, some (afterStage0 snap c).inst.view⟩) ++ l2))
    ∧ (∀ r ∈ l0, NotEndpoint r.call) ∧ (∀ r ∈ l2, NotEndpoint r.call)
    ∧ (snap.has c.dev.cfg.regMap.usb.connect = true → Callback.hostRootPort ∈ l0.map CallRecord.call) := by
  have hcore := stage0_core snap hq
  have hq0 : (stage0 snap c).dev.cbScript = [] := (congrArg (fun x => x.dev.cbScript) hcore).trans hq
  have hview : (stage0 snap c).inst.view = (afterStage0 snap c).inst.view := congrArg (fun x => x.inst.view) hcore
  have hcfg : (stage0 snap c).dev.cfg = c.dev.cfg := (keeps_stage0 snap c).cfg
  obtain ⟨l0, h0, hn0, hroot⟩ := stage0_calls snap c
  obtain ⟨l2, h2, hn2⟩ := (acts_stage2 snap (beforeStage2 snap c)).noEndpointCalls
  have hd : (deliver snap c).dev.calls = (stage2 snap (beforeStage2 snap c)).dev.calls := by
    unfold deliver
    dsimp only
    split <;> rfl
  have h1 : (beforeStage2 snap c).dev.calls = _ := congrArg (fun x => x.dev.calls) (callAll_quiet _ _ hq0)
  refine ⟨l0, l2, ?_, hn0, hn2, hroot⟩
  rw [hd, h2, h1, h0, hview, hcfg]
  simp only [List.append_assoc]

/-- Settles O47: an endpoint's callback lies behind stage 0's part of the trace, in the part with stage 0's view. -/
theorem roleIsAppliedBeforeEndpointDispatch : Obligations.RoleIsAppliedBeforeEndpointDispatch := by
  intro s t i src snap hr hq h ht pre r post hcalls hep
  cases (exec_irq hr h).symm.trans ht
  have hd := capturedCtl_dev (src := src) hr
  have hq' : (capturedCtl s i src).dev.cbScript = [] := by rw [hd, captureDone_cbScript, hq]
  obtain ⟨l0, l2, hl, hn0, hn2, hroot⟩ := deliver_calls snap hq'
  replace hcalls := hl.symm.trans hcalls
  obtain ⟨lp, hi⟩ := capturedCtl_inst (s := s) (i := i) (src := src)
  rw [hd, captureDone_calls, captureDone_cfg, List.append_assoc] at hcalls
  rw [hd, captureDone_cfg] at hroot
  obtain ⟨mid, rfl, hmid⟩ := split_behind (P := fun x => x.call.isEndpoint = true) (List.append_cancel_left hcalls)
    (fun x hx => by simpa [NotEndpoint] using hn0 x hx) hep
  have hmem : r ∈ mid ++ r :: post := by simp
  rw [← hmid, List.mem_append, List.mem_map] at hmem
  obtain ⟨cb, -, rfl⟩ | hmem := hmem
  · refine ⟨⟨_, rfl, ?_⟩, fun hk => ?_⟩
    · rw [afterStage0, hd, captureDone_cfg, hi]
      exact ⟨rfl, rfl, rfl, rfl⟩
    · rw [List.map_append]
      exact List.mem_append_left _ (hroot hk)
  · exact absurd (hn2 r hmem) (by simp [NotEndpoint, hep])

end Sys2Proof.Machine
end

section
/-! PROOF. The callbacks of a delivery in their order, without extra overlay points and while no collaborator acts: what
each step adds to the trace, and that stage 1's callbacks are what R181 and R182 say. -/

namespace Sys2Proof.Machine

/-! ## What each step adds (R173, R178, R179, R184, R186, R188) -/

/-- The callbacks made so far. -/
def Ctl.called (c : Ctl) : List Callback := c.dev.calls.map CallRecord.call

@[simp] theorem call_called (cb : Callback) (c : Ctl) : (c.call cb).called = c.called ++ [cb] := by
  simp [Ctl.called]

theorem callAll_called (l : List Callback) (c : Ctl) : (c.callAll l).called = c.called ++ l := by
  induction l generalizing c with
  | nil => rw [Ctl.callAll, List.append_nil]
  | cons cb l ih => rw [Ctl.callAll, ih, call_called, List.append_assoc, List.singleton_append]

/-- Overlay site A reads `DEVCTL` and `POWER` live (R221). -/
theorem siteAIfActive_called (c : Ctl) : (siteAIfActive c).called = c.called ++
    if c.inst.otgOverlayActive then
      [.inputsChanged (siteAInputs c.dev.cfg.regMap c.dev.regs.devctl c.dev.regs.power)] else [] := by
  have hv : ∀ v : BitVec 8, (v.setWidth 32).setWidth 8 = v := by simp
  unfold siteAIfActive
  split
  · rw [siteA, call_called]
    simp [Ctl.called, busValue, regValue, regReadEffect, hv]
  · rw [List.append_nil]

section Steps
variable (b : Bool) (snap : Snapshot) {c : Ctl} (hx : c.dev.cfg.siteAExtra = [])
include hx

theorem siteAExtra_none (t : TriggerPoint) : siteAExtra t c = c := by
  simp [siteAExtra, hx]

theorem resumeStep_called : (stepIf b (resumeStep snap) c).called =
    c.called ++ if b && !snap.host c.dev.cfg.regMap then [.periphResume] else [] := by
  cases b with
  | false => simp [stepIf]
  | true =>
    simp only [stepIf, if_true, resumeStep]
    cases hh : snap.host c.dev.cfg.regMap with
    | true =>
      rw [siteAExtra_none (by simpa using hx)]
      simp [Ctl.called]
    | false =>
      rw [siteAExtra_none (by simpa using hx)]
      simp [Ctl.called]

theorem sessReqStep_called : (stepIf b sessReqStep c).called = c.called := by
  cases b with
  | false => rfl
  | true =>
    simp only [stepIf, if_true, sessReqStep]
    rw [siteAExtra_none (by exact hx)]
    rfl

theorem vbusErrStep_called : (stepIf b vbusErrStep c).called = c.called := by
  cases b with
  | false => rfl
  | true =>
    simp only [stepIf, if_true, vbusErrStep]
    split
    · rw [siteAExtra_none (by exact hx)]
      rfl
    · rw [siteAExtra_none (by exact hx)]
      rfl

theorem connectStep_called : (stepIf b (connectStep snap) c).called =
    c.called ++ if b then [.hostRootPort] else [] := by
  cases b with
  | false => simp [stepIf]
  | true =>
    simp only [stepIf, if_true, connectStep, connectTransition_eq]
    rw [siteAExtra_none (by simpa [connectPortStep] using hx)]
    simp [Ctl.called, connectPortStep]

theorem resetStep_called : (stepIf b (resetStep snap) c).called =
    c.called ++ if b && !snap.host c.dev.cfg.regMap then
      .periphReset :: (if c.inst.otgOverlayActive then
        [.inputsChanged ⟨snap.devctl.getLsbD c.dev.cfg.regMap.dc.session,
          snap.devctl.getLsbD c.dev.cfg.regMap.dc.bdevice, true,
          snap.power.getLsbD c.dev.cfg.regMap.pw.suspendm, snap.has c.dev.cfg.regMap.usb.connect,
          snap.has c.dev.cfg.regMap.usb.vbusErr⟩] else [])
      else [] := by
  cases b with
  | false => simp [stepIf]
  | true =>
    simp only [stepIf, if_true, resetStep]
    cases hh : snap.host c.dev.cfg.regMap with
    | true =>
      rw [siteAExtra_none (by simpa using hx)]
      simp [Ctl.called]
    | false =>
      rw [Ctl.call_otgOverlayActive]
      cases c.inst.otgOverlayActive with
      | true =>
        rw [siteAExtra_none (by simpa [siteB] using hx)]
        simp [siteB, Snapshot.has]
      | false =>
        rw [siteAExtra_none (by simpa using hx)]
        simp

/-- Stage 0 and endpoint 0's callback (R284). -/
theorem stage0_called : (stage0 snap c).called
      ++ (if snap.tx.getLsbD 0 then [ep0Callback (snap.host c.dev.cfg.regMap)] else [])
    = c.called ++ callsBefore c.dev.cfg c.inst snap := by
  have k1 := keeps_stepIf (keeps_resumeStep snap) (snap.has c.dev.cfg.regMap.usb.resume) c
  have k2 := k1.trans (keeps_stepIf keeps_sessReqStep (sessionRequested c.dev.cfg.regMap c.inst snap) _)
  have k3 := k2.trans (keeps_stepIf keeps_vbusErrStep (snap.has c.dev.cfg.regMap.usb.vbusErr) _)
  have k4 := k3.trans (keeps_stepIf (keeps_connectStep snap) (snap.has c.dev.cfg.regMap.usb.connect) _)
  have hb (d : Ctl) : (budgetReset snap d).called = d.called := by
    unfold budgetReset
    split <;> rfl
  rw [stage0_eq, hb, resetStep_called _ _ (by rw [k4.cfg, hx]), k4.cfg, k4.otgOverlayActive,
    connectStep_called _ _ (by rw [k3.cfg, hx]), vbusErrStep_called _ (by rw [k2.cfg, hx]),
    sessReqStep_called _ (by rw [k1.cfg, hx]), resumeStep_called _ _ hx, callsBefore]
  simp only [List.append_assoc]
  rfl

end Steps

/-- Stage 2 (R284): disconnect by the latch with overlay site A, then suspend. -/
theorem stage2_called (snap : Snapshot) {c : Ctl} (hq : c.dev.cbScript = []) (hx : c.dev.cfg.siteAExtra = []) :
    (stage2 snap c).called = c.called
      ++ ((if disconnected c.dev.cfg.regMap c.inst snap then
          (if c.inst.hostActive then .hostDisconnect else .periphDisconnect) ::
            (if c.inst.otgOverlayActive then
              [.inputsChanged (siteAInputs c.dev.cfg.regMap c.dev.regs.devctl c.dev.regs.power)] else [])
        else [])
      ++ (if snap.has c.dev.cfg.regMap.usb.suspend && !c.inst.hostActive then [.periphSuspend] else [])) := by
  have hdisc (b : Bool) : (stepIf b disconnectStep c).called = c.called ++
      if b then (if c.inst.hostActive then .hostDisconnect else .periphDisconnect) ::
          (if c.inst.otgOverlayActive then
            [.inputsChanged (siteAInputs c.dev.cfg.regMap c.dev.regs.devctl c.dev.regs.power)] else [])
        else [] := by
    cases b with
    | false => simp [stepIf]
    | true =>
      simp only [stepIf, if_true, disconnectStep]
      rw [siteAIfActive_called, call_called, Ctl.call_inst_quiet _ _ (by exact hq),
        Ctl.call_regs_quiet _ _ (by exact hq), Ctl.call_cfg, List.append_assoc, List.singleton_append]
      rfl
  have hsusp (b : Bool) (d : Ctl) (hd : d.dev.cfg.siteAExtra = []) : (stepIf b suspendStep d).called = d.called ++
      if b && !d.inst.hostActive then [.periphSuspend] else [] := by
    cases b with
    | false => simp [stepIf]
    | true =>
      simp only [stepIf, if_true, suspendStep]
      cases hh : d.inst.hostActive with
      | true =>
        rw [if_pos rfl, siteAExtra_none (by simpa using hd)]
        simp [Ctl.called]
      | false =>
        rw [if_neg Bool.false_ne_true, siteAExtra_none (by simpa using hd)]
        simp [Ctl.called]
  have hcore := disconnectStep_core (disconnected c.dev.cfg.regMap c.inst snap) hq
  have hcfg : (stepIf (disconnected c.dev.cfg.regMap c.inst snap) disconnectStep c).dev.cfg = c.dev.cfg :=
    congrArg (fun x => x.dev.cfg) hcore
  have hhost : (stepIf (disconnected c.dev.cfg.regMap c.inst snap) disconnectStep c).inst.hostActive
      = c.inst.hostActive := congrArg (fun x => x.inst.hostActive) hcore
  rw [stage2, suspendCond_eq, disconnectCond_eq, hsusp _ _ (by rw [hcfg, hx]), hhost, hdisc, List.append_assoc]

/-! ## The callbacks of endpoints 1 to N-1 (R182) -/

section Endpoints
variable (snap : Snapshot) (host : Bool)

@[simp] theorem rxOf_rxCallback (e : EpIdx) : (rxCallback host e).rxOf = some e := by cases host <;> rfl
@[simp] theorem txOf_rxCallback (e : EpIdx) : (rxCallback host e).txOf = none := by cases host <;> rfl
@[simp] theorem rxOf_txCallback (e : EpIdx) : (txCallback host e).rxOf = none := by cases host <;> rfl
@[simp] theorem txOf_txCallback (e : EpIdx) : (txCallback host e).txOf = some e := by cases host <;> rfl

theorem mem_epCallbacks {es : List EpIdx} {cb : Callback} (h : cb ∈ epCallbacks snap host es) :
    ∃ e ∈ es, cb = rxCallback host e ∨ cb = txCallback host e := by
  induction es with
  | nil => cases h
  | cons e es ih =>
    simp only [epCallbacks, List.mem_append] at h
    obtain (h | h) | h := h
    · exact ⟨e, List.mem_cons_self, .inl (by split at h <;> simp_all)⟩
    · exact ⟨e, List.mem_cons_self, .inr (by split at h <;> simp_all)⟩
    · obtain ⟨f, hf, hcb⟩ := ih h
      exact ⟨f, List.mem_cons_of_mem _ hf, hcb⟩

theorem epCallbacks_rx (es : List EpIdx) :
    (epCallbacks snap host es).filterMap Callback.rxOf = es.filter fun e => snap.rx.getLsbD e.val := by
  induction es with
  | nil => rfl
  | cons e es ih =>
    rw [epCallbacks, List.filterMap_append, ih, List.filter_cons]
    cases snap.rx.getLsbD e.val <;> cases snap.tx.getLsbD e.val <;> simp

theorem epCallbacks_tx (es : List EpIdx) :
    (epCallbacks snap host es).filterMap Callback.txOf = es.filter fun e => snap.tx.getLsbD e.val := by
  induction es with
  | nil => rfl
  | cons e es ih =>
    rw [epCallbacks, List.filterMap_append, ih, List.filter_cons]
    cases snap.rx.getLsbD e.val <;> cases snap.tx.getLsbD e.val <;> simp

/-- `d` before `cb` is no transmit call before a receive call of one endpoint (R182). -/
def ReceiveFirst (d cb : Callback) : Prop := ∀ e, cb.rxOf = some e → d.txOf ≠ some e

theorem epCallbacks_receiveFirst {es : List EpIdx} (h : es.Nodup) :
    (epCallbacks snap host es).Pairwise ReceiveFirst := by
  induction es with
  | nil => exact .nil
  | cons e es ih =>
    obtain ⟨hn, hes⟩ := List.nodup_cons.mp h
    have hlater {d cb : Callback} (hd : d = rxCallback host e ∨ d = txCallback host e)
        (hcb : cb ∈ epCallbacks snap host es) : ReceiveFirst d cb := by
      obtain ⟨f, hf, rfl | rfl⟩ := mem_epCallbacks snap host hcb
      · intro x hx
        have hne : e ≠ f := fun he => hn (he ▸ hf)
        rcases hd with rfl | rfl <;> simp_all
      · intro x hx
        simp at hx
    have hblock : ReceiveFirst (rxCallback host e) (txCallback host e) := fun x hx => by simp at hx
    rw [epCallbacks, List.pairwise_append]
    refine ⟨?_, ih hes, fun d hd cb hcb => hlater ?_ hcb⟩
    · cases snap.rx.getLsbD e.val <;> cases snap.tx.getLsbD e.val <;> simp [hblock]
    · cases hr : snap.rx.getLsbD e.val <;> cases ht : snap.tx.getLsbD e.val <;> simp_all

end Endpoints

/-- The machine's order, endpoint by endpoint, is one R182 allows. -/
theorem endpointCallsOf_epCallbacks (p : Params) (snap : Snapshot) :
    EndpointCallsOf p snap (epCallbacks snap (snap.host p.regMap) (epsFrom1 p)) := by
  refine ⟨fun cb hcb => ?_, epCallbacks_rx _ _ _, epCallbacks_tx _ _ _, fun pre cb post hl e he d hd => ?_⟩
  · obtain ⟨e, hmem, hcb⟩ := mem_epCallbacks _ _ hcb
    obtain ⟨h1, h2⟩ := mem_epsFrom1.mp hmem
    refine ⟨e, h1, h2, ?_⟩
    cases hh : snap.host p.regMap <;> simpa [hh, rxCallback, txCallback] using hcb
  · have hp := epCallbacks_receiveFirst snap (snap.host p.regMap) ((epsFrom1_sorted p).imp fun h => h.ne)
    rw [hl, List.pairwise_append] at hp
    exact hp.2.2 d hd cb List.mem_cons_self e he

/-- The whole delivery (R284); site A reads the registers stage 0 left, which stage 2 leaves alone (R221). -/
theorem deliver_called (snap : Snapshot) {c : Ctl} (hq : c.dev.cbScript = []) (hx : c.dev.cfg.siteAExtra = []) :
    (deliver snap c).called = c.called ++ callsBefore c.dev.cfg c.inst snap
      ++ epCallbacks snap (snap.host c.dev.cfg.regMap) (epsFrom1 c.dev.cfg)
      ++ callsAfter c.dev.cfg c.inst snap (deliver snap c).dev.regs.devctl (deliver snap c).dev.regs.power := by
  have hend : (deliver snap c).called = (stage2 snap (beforeStage2 snap c)).called := by
    unfold deliver
    dsimp only
    split <;> rfl
  have hregs : (deliver snap c).dev.regs = (afterStage0 snap c).dev.regs :=
    congrArg (fun x => x.dev.regs) (deliver_core snap hq)
  have hbefore : (beforeStage2 snap c).called = c.called ++ callsBefore c.dev.cfg c.inst snap
      ++ epCallbacks snap (snap.host c.dev.cfg.regMap) (epsFrom1 c.dev.cfg) := by
    rw [← stage0_called snap hx, beforeStage2, stage1, callAll_called, (keeps_stage0 snap c).cfg, stage1Callbacks,
      List.append_assoc]
  obtain ⟨lp, bus, calls, hb⟩ := Ctl.eq_of_core (beforeStage2_core snap hq)
  have hquiet : (beforeStage2 snap c).dev.cbScript = [] := by rw [hb]; exact hq
  have hextra : (beforeStage2 snap c).dev.cfg.siteAExtra = [] := by rw [hb]; exact hx
  rw [hend, stage2_called snap hquiet hextra, hbefore, hregs, hb]
  rfl

/-- Settles O45: the machine's own order of the endpoints' callbacks is the witness. -/
theorem deliveryCallbacks : Obligations.DeliveryCallbacks := by
  intro s i src snap _ hr hq hx h
  refine ⟨_, _, exec_irq hr h, endpointCallsOf_epCallbacks s.dev.cfg snap, ?_⟩
  have hd := capturedCtl_dev (src := src) hr
  have hq' : (capturedCtl s i src).dev.cbScript = [] := by rw [hd, captureDone_cbScript, hq]
  have hx' : (capturedCtl s i src).dev.cfg.siteAExtra = [] := by rw [hd, captureDone_cfg, hx]
  obtain ⟨lp, hi⟩ := capturedCtl_inst (s := s) (i := i) (src := src)
  have hcalled := deliver_called snap hq' hx'
  rw [hi, Ctl.called, Ctl.called, hd, captureDone_cfg, captureDone_calls] at hcalled
  exact hcalled

end Sys2Proof.Machine
end

section
/-! PROOF. Deliveries whose second and third stage have nothing to do: an unrecognised snapshot and a babble leave
exactly what the capture left but for a diagnostic and the budget. -/

namespace Sys2Proof.Machine

/-! ## Deliveries that make no callback (R162, R177) -/

/-- A delivery whose second and third stage have nothing to do ends with what stage 0 left. -/
theorem deliver_of_stage0 {snap : Snapshot} {c d : Ctl} (h0 : stage0 snap c = d) (hcfg : d.dev.cfg = c.dev.cfg)
    (hcalls : stage1Callbacks c.dev.cfg snap = []) (hdisc : disconnected c.dev.cfg.regMap d.inst snap = false)
    (hsusp : snap.has c.dev.cfg.regMap.usb.suspend = false) :
    beforeStage2 snap c = d ∧ deliver snap c = if handledBy snap c d then d else d.diag .spurious := by
  have hbefore : beforeStage2 snap c = d := by
    rw [beforeStage2, h0, stage1, hcfg, hcalls, Ctl.callAll]
  refine ⟨hbefore, ?_⟩
  rw [deliver, hbefore, stage2, disconnectCond_eq, suspendCond_eq, hcfg, hdisc, hsusp]
  rfl

theorem stage1Callbacks_nil {p : Params} {snap : Snapshot} (h0 : snap.tx.getLsbD 0 = false)
    (h : ((epsFrom1 p).any fun e => snap.rx.getLsbD e.val || snap.tx.getLsbD e.val) = false) :
    stage1Callbacks p snap = [] := by
  rw [← List.isEmpty_iff, stage1Callbacks_isEmpty, h0, h]
  rfl

/-- Stage 0 where none of its five steps runs (R163 to R180). -/
theorem stage0_of_no_step {snap : Snapshot} {c : Ctl} (hresume : snap.has c.dev.cfg.regMap.usb.resume = false)
    (hsess : sessionRequested c.dev.cfg.regMap c.inst snap = false)
    (hvbus : snap.has c.dev.cfg.regMap.usb.vbusErr = false) (hconnect : snap.has c.dev.cfg.regMap.usb.connect = false)
    (hreset : snap.has c.dev.cfg.regMap.usb.reset = false) : stage0 snap c = budgetReset snap c := by
  rw [stage0_eq, hresume, hsess, hvbus, hconnect, hreset]
  rfl

/-- The budget reset is a write of the budget alone (R180). -/
theorem budgetReset_eq (snap : Snapshot) (c : Ctl) : budgetReset snap c =
    ⟨{ c.inst with
        vbuserrRetry := if otherNamed c.dev.cfg.regMap snap.usb then vbuserrRetryInit else c.inst.vbuserrRetry },
      c.dev⟩ := by
  unfold budgetReset
  split <;> rfl

/-- Settles O50: no step's condition holds, so only the budget reset runs. -/
theorem spuriousDeliveryIsIgnored : Obligations.SpuriousDeliveryIsIgnored := by
  intro s i src snap hw hr h hrec
  refine ⟨(capturedCtl s i src).dropLock.inst, congrArg State.inst (capturedCtl_done hr).symm, ?_⟩
  have hd := capturedCtl_dev (src := src) hr
  obtain ⟨lp, hi⟩ := capturedCtl_inst (s := s) (i := i) (src := src)
  have hcfg : (capturedCtl s i src).dev.cfg = s.dev.cfg := by rw [hd, captureDone_cfg]
  rw [exec_irq hr h, deliveredState, ← capturedCtl_done hr, ← captureDone_diags (i := i) (src := src), ← hd]
  have hrec' : recognised (capturedCtl s i src).dev.cfg (capturedCtl s i src).inst snap = false := by
    rw [hcfg, hi]
    exact hrec
  have hretry : retryAfter s.dev.cfg.regMap i snap =
      retryAfter (capturedCtl s i src).dev.cfg.regMap (capturedCtl s i src).inst snap := by
    rw [hcfg, hi]
    rfl
  rw [← hcfg] at hw
  rw [hretry]
  generalize capturedCtl s i src = c at hw hrec'
  have hbits := hrec'
  simp only [recognised, Bool.or_eq_false_iff] at hbits
  obtain ⟨⟨⟨⟨⟨⟨⟨⟨hresume, hsess⟩, hvbus⟩, hconnect⟩, hreset⟩, htx⟩, heps⟩, hdisc⟩, hsusp⟩ := hbits
  obtain ⟨hbefore, hdel⟩ := deliver_of_stage0 (stage0_of_no_step hresume hsess hvbus hconnect hreset)
    (by rw [budgetReset_eq]) (stage1Callbacks_nil htx heps) (by rw [budgetReset_eq]; exact hdisc) hsusp
  have hhandled : handledBy snap c (budgetReset snap c) = false := by
    rw [handledBy_eq (by rw [budgetReset_eq]) (by rw [budgetReset_eq]), hrec']
  rw [hdel, hbefore, hhandled, budgetReset_eq, ← budgetAfter_eq hw, budgetAfter, hvbus]
  rfl

/-! ## A global byte of one bit (R168, R177) -/

section OneBit
variable {p : Params} {snap : Snapshot} (hw : p.wf = true)
include hw

/-- With one bit in the global byte, each named bit is that bit or clear (R65). -/
theorem has_of_one_bit {e k : Nat} (husb : snap.usb = bit 8 e) (hk : k ∈ usbBits p.regMap) :
    snap.has k = decide (k = e) := by
  rw [Snapshot.has, husb, getLsbD_bit ((namedBits_of_wf hw).1 k hk)]

/-- A babble's or a bus reset's global byte: of the events stage 0 and stage 2 look at, the reset alone. -/
theorem has_of_reset_alone (husb : snap.usb = bit 8 p.regMap.usb.reset) :
    snap.has p.regMap.usb.resume = false ∧ snap.has p.regMap.usb.sessReq = false
    ∧ snap.has p.regMap.usb.vbusErr = false ∧ snap.has p.regMap.usb.connect = false
    ∧ snap.has p.regMap.usb.reset = true ∧ snap.has p.regMap.usb.disconnect = false
    ∧ snap.has p.regMap.usb.suspend = false := by
  obtain ⟨-, hnd, -⟩ := namedBits_of_wf hw
  have hhas := fun k => has_of_one_bit (k := k) hw husb
  simp only [usbBits, otherBits, List.cons_append, List.nil_append, List.nodup_cons, List.mem_cons, List.not_mem_nil,
    not_or, or_false] at hnd hhas
  simp only [hhas, true_or, or_true, decide_eq_false_iff_not, decide_eq_true_eq]
  refine ⟨?_, ?_, ?_, ?_, trivial, ?_, ?_⟩ <;> omega

theorem has_of_vbusErr_alone (husb : snap.usb = bit 8 p.regMap.usb.vbusErr) :
    snap.has p.regMap.usb.vbusErr = true ∧ otherEvent p.regMap snap = false := by
  obtain ⟨-, hnd, -⟩ := namedBits_of_wf hw
  refine ⟨by rw [has_of_one_bit hw husb (by simp [usbBits])]; simp, ?_⟩
  rw [otherEvent_eq_any, List.any_eq_false]
  intro k hk
  rw [has_of_one_bit hw husb (List.mem_append_left _ hk), decide_eq_true_eq]
  rintro rfl
  exact List.disjoint_of_nodup_append hnd hk (List.mem_singleton_self _)

end OneBit

/-- Settles O49: of the steps only the reset's runs, as a babble. -/
theorem babbleIsOnlyLogged : Obligations.BabbleIsOnlyLogged := by
  intro s i src snap hw hr h husb htx hrx hhost hx hretry
  have hd := capturedCtl_dev (src := src) hr
  obtain ⟨lp, hi⟩ := capturedCtl_inst (s := s) (i := i) (src := src)
  have hcfg : (capturedCtl s i src).dev.cfg = s.dev.cfg := by rw [hd, captureDone_cfg]
  rw [exec_irq hr h, deliveredState, ← capturedCtl_done hr, ← captureDone_diags (i := i) (src := src), ← hd]
  replace hretry : (capturedCtl s i src).inst.vbuserrRetry = vbuserrRetryInit := by rw [hi]; exact hretry
  rw [← hcfg] at hw husb hhost hx
  generalize capturedCtl s i src = c at hw husb hhost hx hretry
  obtain ⟨hresume, hsess, hvbus, hconnect, hreset, hdisc, hsusp⟩ := has_of_reset_alone hw husb
  have h0 : stage0 snap c = c.diag .babble := by
    rw [stage0_eq, sessionRequested, hresume, hsess, hvbus, hconnect, hreset]
    simp only [stepIf, Bool.false_and, Bool.false_eq_true, if_false, if_true, resetStep, hhost]
    rw [siteAExtra_none (by exact hx), budgetReset_eq, show (c.diag .babble).inst.vbuserrRetry = _ from hretry,
      ite_self, ← hretry]
    rfl
  obtain ⟨hbefore, hdel⟩ := deliver_of_stage0 h0 rfl (stage1Callbacks_nil (by simp [htx]) (by simp [htx, hrx]))
    (by rw [disconnected, hdisc, Bool.false_and]) hsusp
  have hhandled : handledBy snap c (c.diag .babble) = true := by
    rw [handledBy_eq (c := c) (d := c.diag .babble) rfl rfl, recognised, hreset]
    simp
  rw [hdel, hbefore, hhandled]
  rfl

end Sys2Proof.Machine
end

section
/-! PROOF. Deliveries of a VBUS-error alone: each writes the session bit while the budget lasts, and after it the
next one finds a controller that is ready for it. -/

namespace Sys2Proof.Machine

/-! ## The register writes of a delivery (R35, R168) -/

/-- The bus trace gains entries, of which `ws` are the register writes (R35). -/
def WritesGained (ws : List BusEvent) (c d : Ctl) : Prop :=
  ∃ l, d.dev.bus = c.dev.bus ++ l ∧ l.filter BusEvent.isWrite = ws

/-- The bus event of `start_session()` (R195). -/
def sessionStart (m : RegMap) (i : Inst) : BusEvent := .regWrite (i.busAt m.devctl) 1 ((bit 8 m.dc.session).setWidth 32)

theorem WritesGained.of_bus {ws : List BusEvent} {c d e : Ctl} (h : WritesGained ws c d) (he : e.dev.bus = d.dev.bus) :
    WritesGained ws c e := by
  rw [WritesGained, he]
  exact h

theorem WritesGained.read {ws : List BusEvent} {c d : Ctl} (h : WritesGained ws c d) (r : Reg) :
    WritesGained ws c (d.read r) := by
  obtain ⟨l, hl, hw⟩ := h
  exact ⟨l ++ [.regRead (d.inst.busAt (r.offset d.dev.cfg.regMap)) r.width (busValue r r.width d)],
    by simp [Ctl.read, busRead, Dev.logBus, hl], by simp [hw, BusEvent.isWrite]⟩

/-- Overlay site A makes no register write (R221). -/
theorem WritesGained.siteAExtra {ws : List BusEvent} {c d : Ctl} (h : WritesGained ws c d) (hq : d.dev.cbScript = [])
    (t : TriggerPoint) : WritesGained ws c (siteAExtra t d) := by
  unfold Machine.siteAExtra siteAIfActive
  split
  · split
    · exact ((h.read .devctl).read .power).of_bus (Ctl.call_bus_quiet _ ((d.read .devctl).read .power) hq)
    · exact h
  · exact h

theorem vbusErrStep_writes {c : Ctl} (hq : c.dev.cbScript = []) : WritesGained
    (if c.inst.vbuserrRetry ≠ 0 then [sessionStart c.dev.cfg.regMap c.inst] else []) c (vbusErrStep c) := by
  unfold vbusErrStep
  split
  · have h : WritesGained [sessionStart c.dev.cfg.regMap c.inst] c
        ((c.setLink .aIdle).setRetry (c.inst.vbuserrRetry - 1)).startSession := ⟨[_], rfl, rfl⟩
    exact h.siteAExtra hq _
  · have h : WritesGained [] c (c.setLink .aIdle) := ⟨[], (List.append_nil _).symm, rfl⟩
    exact h.siteAExtra hq _

/-- Of the register writes a delivery of a VBUS-error alone can make, there is only the session bit's. -/
theorem deliver_writes_of_vbusErr_alone {snap : Snapshot} {c : Ctl} (hw : c.dev.cfg.wf = true)
    (hq : c.dev.cbScript = []) (husb : snap.usb = bit 8 c.dev.cfg.regMap.usb.vbusErr) : WritesGained
    (if c.inst.vbuserrRetry ≠ 0 then [sessionStart c.dev.cfg.regMap c.inst] else []) c (deliver snap c) := by
  obtain ⟨hvbus, hother⟩ := has_of_vbusErr_alone hw husb
  simp only [otherEvent, Bool.or_eq_false_iff, and_assoc] at hother
  obtain ⟨hresume, hsess, hconnect, hdisc, hsusp, hreset⟩ := hother
  have h0 : stage0 snap c = budgetReset snap (vbusErrStep c) := by
    rw [stage0_eq, sessionRequested, hresume, hsess, hvbus, hconnect, hreset]
    rfl
  have hq0 : (stage0 snap c).dev.cbScript = [] := (congrArg (fun x => x.dev.cbScript) (stage0_core snap hq)).trans hq
  have hcfg : (beforeStage2 snap c).dev.cfg = c.dev.cfg := congrArg (fun x => x.dev.cfg) (beforeStage2_core snap hq)
  have hbefore : (beforeStage2 snap c).dev.bus = (vbusErrStep c).dev.bus :=
    (congrArg (fun x => x.dev.bus) (callAll_quiet _ _ hq0)).trans (by rw [h0, budgetReset_eq])
  have h2 : stage2 snap (beforeStage2 snap c) = beforeStage2 snap c := by
    rw [stage2, disconnectCond_eq, suspendCond_eq, disconnected, hcfg, hdisc, hsusp]
    rfl
  refine (vbusErrStep_writes hq).of_bus (Eq.trans ?_ hbefore)
  rw [deliver, h2]
  split <;> rfl

/-! ## One delivery after another (R168, R169, R180) -/

section Vbus
variable (a : BitVec 32) (snap : Snapshot) (p : Params)

/-- A controller with the retry budget `n` for which the record at `a` is the snapshot `snap`, no collaborator acting. -/
structure Awaits (n : Nat) (s : State) (i : Inst) : Prop where
  ready : Ready s i
  quiet : Quiet s
  cfg : s.dev.cfg = p
  snapshot : snapshotOf s (.synthetic a) = some snap
  retry : i.vbuserrRetry = n

/-- What a delivery of a VBUS-error alone does with the budget `n` (R168, R169). -/
structure VbusErrStepped (n : Nat) (s : State) (i : Inst) (t : State) (j : Inst) : Prop where
  steps : exec (.irq (.synthetic a)) s = .next t
  awaits : Awaits a snap p (n - 1) t j
  link : j.linkState = .aIdle
  base : j.base = i.base
  regs : t.dev.regs = { s.dev.regs with
    devctl := if n = 0 then s.dev.regs.devctl
      else devctlAfter p.regMap s.dev.regs.devctl (bit 8 p.regMap.dc.session) }
  writes : ∃ l, t.dev.bus = s.dev.bus ++ l
    ∧ l.filter BusEvent.isWrite = if n = 0 then [] else [sessionStart p.regMap i]

variable {a snap p}

theorem vbusErr_stepped {n : Nat} {s : State} {i : Inst} (hw : p.wf = true) (h : Awaits a snap p n s i)
    (husb : snap.usb = bit 8 p.regMap.usb.vbusErr) : ∃ t j, VbusErrStepped a snap p n s i t j := by
  obtain ⟨hr, hq, rfl, hsnap, rfl⟩ := h
  obtain ⟨hvbus, hother⟩ := has_of_vbusErr_alone hw husb
  obtain ⟨lp, bus, calls, ht⟩ := deliveredState_quiet (src := .synthetic a) snap hr hq
  have hwrites := deliver_writes_of_vbusErr_alone (c := capturedCtl s i (.synthetic a)) hw hq husb
  have hbus : (deliver snap (capturedCtl s i (.synthetic a))).dev.bus = bus := congrArg (fun x => x.dev.bus) ht
  have hbudget : budgetAfter s.dev.cfg.regMap i snap = i.vbuserrRetry - 1 := by
    rw [budgetAfter_eq hw, retryAfter, hother, hvbus]
    rfl
  simp only [otherEvent, Bool.or_eq_false_iff, and_assoc] at hother
  obtain ⟨hresume, hsess, hconnect, -⟩ := hother
  obtain ⟨-, hconfigured, -⟩ := id hr
  refine ⟨_, _, (exec_irq hr hsnap).trans (congrArg _ ht), ⟨⟨rfl, hconfigured, rfl⟩, hq, rfl, hsnap, hbudget⟩, ?_,
    rfl, ?_, ?_⟩
  · show linkAfter _ _ _ = _
    rw [linkAfter, hvbus, hconnect]
    rfl
  · show regsAfter _ _ _ _ = _
    rw [regsAfter, hostResumed, sessionWritten, sessionRequested, hresume, hsess, hvbus]
    by_cases hz : i.vbuserrRetry = 0 <;> simp [hz, captureDone]
  · rw [WritesGained, hbus, ite_not] at hwrites
    exact hwrites

end Vbus

/-- Settles O48: three deliveries, each on what the one before it left. -/
theorem threeVbusErrorsDepleteTheBudget : Obligations.ThreeVbusErrorsDepleteTheBudget := by
  intro s i a snap hw hr hq hsnap husb hretry start
  obtain ⟨-, -, hsession⟩ := namedBits_of_wf hw
  obtain ⟨t, i1, h1⟩ := vbusErr_stepped hw ⟨hr, hq, rfl, hsnap, hretry⟩ husb
  obtain ⟨u, i2, h2⟩ := vbusErr_stepped hw h1.awaits husb
  obtain ⟨v, i3, h3⟩ := vbusErr_stepped hw h2.awaits husb
  have hstart : sessionStart s.dev.cfg.regMap i1 = start := by
    rw [sessionStart, Inst.busAt, h1.base]
    rfl
  obtain ⟨bt, hbt, hwt⟩ := h1.writes
  obtain ⟨bu, hbu, hwu⟩ := h2.writes
  obtain ⟨bv, hbv, hwv⟩ := h3.writes
  have hset (r : BitVec 8) : (devctlAfter s.dev.cfg.regMap r (bit 8 s.dev.cfg.regMap.dc.session)).getLsbD
      s.dev.cfg.regMap.dc.session = true := by
    rw [getLsbD_sessionStarted hsession, if_pos rfl]
  refine ⟨t, u, v, i1, i2, i3, bt, bu, bv, h1.steps, h2.steps, h3.steps, hbt, hwt, hbu, hwu.trans (by rw [hstart]; rfl),
    hbv, hwv, h1.awaits.ready.1, h1.awaits.retry, h1.link, ?_, h2.awaits.ready.1, h2.awaits.retry, h2.link, ?_,
    h3.awaits.ready.1, h3.awaits.retry, h3.link, h3.regs⟩
  · rw [h1.regs]
    exact hset _
  · rw [h2.regs]
    exact hset _

end Sys2Proof.Machine
end

section
/-! PROOF. Start, stop and the queries: what `START` and `STOP` leave in the registers and in the instance, whatever
collaborators do in the board callback and while they do nothing. The rest of their frame is `keeps_startProgram` and
`keeps_stopProgram`. -/

namespace Sys2Proof.Machine

/-! ## Queries (R210, R211) -/

/-- A locked operation that only returns a result changes nothing else of a ready controller: the lock it took is free
again (R19). -/
theorem whenReady_finish {s : State} {i : Inst} (hr : Ready s i) (r : Ctl → Result) :
    whenReady s (fun c => finish (r c) c)
      = .next { s with dev := { s.dev with result := r (Ctl.takeLock ⟨i, s.dev⟩) } } := by
  obtain ⟨hi, hc, hl⟩ := hr
  have hfree : { i with lock := .free } = i := by rw [← hl]
  rw [whenReady_eq hi hc hl, finish_next, hi, ← hfree]
  rfl

/-- The codes of R75. -/
theorem roleCode_mem (r : Role) : (r, roleCode r) ∈ [(Role.hostOnly, 0), (.peripheralOnly, 1), (.otg, 2)] := by
  cases r <;> decide

/-- The names of R11. -/
theorem LinkState.name_mem (l : LinkState) : (l, l.name) ∈ [(LinkState.aIdle, "A-IDLE"), (.aWaitVrise, "A-WAIT-VRISE"),
    (.aWaitBcon, "A-WAIT-BCON"), (.aHost, "A-HOST"), (.aSuspend, "A-SUSPEND"), (.bIdle, "B-IDLE"),
    (.bPeripheral, "B-PERIPHERAL"), (.bHost, "B-HOST"), (.bWaitAcon, "B-WAIT-ACON"), (.error, "ERROR")] := by
  cases l <;> simp [LinkState.name]

/-- Settles O54: both queries are locked operations that only return a result. -/
theorem queriesReturnRoleAndState : Obligations.QueriesReturnRoleAndState := fun _ _ hr =>
  ⟨⟨_, whenReady_finish hr fun c => .value (roleCode c.inst.cfgRole), roleCode_mem _⟩,
    ⟨_, whenReady_finish hr fun c => .text c.inst.linkState.name, LinkState.name_mem _⟩⟩

/-! ## `START` (R200 to R204) -/

/-- Bit by bit, the session by the configured role in `DEVCTL` (R203). -/
theorem getLsbD_startDevctl {k : Nat} (hk : k < 8) (m : RegMap) (r : Role) (old : BitVec 8) :
    (devctlAfter m old (startDevctl m r old)).getLsbD k =
      if k = m.dc.session then r.hostCapable else old.getLsbD k := by
  have hv : (startDevctl m r old).getLsbD k = if k = m.dc.session then r.hostCapable else old.getLsbD k := by
    unfold startDevctl
    split <;> rename_i hcap
    · simp only [BitVec.getLsbD_or, getLsbD_bit hk]
      by_cases hs : k = m.dc.session <;> simp [hs, hcap]
    · simp only [BitVec.getLsbD_and, BitVec.getLsbD_not, getLsbD_bit hk, hk, decide_true, Bool.true_and]
      by_cases hs : k = m.dc.session <;> simp [hs, hcap]
  rw [getLsbD_devctlAfter hk, hv]
  by_cases hs : k = m.dc.session <;> simp [hs]

/-- The two bits of `POWER` that `START` sets are none of those hardware drives (R64, R66). -/
theorem startBits_of_wf {p : Params} (h : p.wf = true) {k : Nat}
    (hset : k = p.regMap.pw.softconn ∨ k = p.regMap.pw.hsenab) :
    ¬(k = p.regMap.pw.reset ∨ k = p.regMap.pw.hsmode) := by
  have hm := wf_regMap h
  simp only [RegMap.wf, Bool.and_eq_true, and_assoc] at hm
  obtain ⟨-, -, -, -, hpw, -⟩ := hm
  simp only [bitsWf, Bool.and_eq_true, decide_eq_true_eq, List.nodup_cons, List.mem_cons, not_or] at hpw
  obtain ⟨-, -, -, -, ⟨-, hresetHs, hresetSoft, -⟩, ⟨hmodeHs, hmodeSoft, -⟩, -⟩ := hpw
  rcases hset with rfl | rfl
  · exact not_or.mpr ⟨Ne.symm hresetSoft, Ne.symm hmodeSoft⟩
  · exact not_or.mpr ⟨Ne.symm hresetHs, Ne.symm hmodeHs⟩

/-- Bit by bit, soft-connect and the high-speed bit in `POWER` (R202). -/
theorem getLsbD_startPower {p : Params} (hw : p.wf = true) {k : Nat} (hk : k < 8) (old : BitVec 8) :
    (powerAfter p.regMap old (startPower p.regMap old)).getLsbD k =
      if k = p.regMap.pw.softconn ∨ k = p.regMap.pw.hsenab then true else old.getLsbD k := by
  have hv : (startPower p.regMap old).getLsbD k =
      if k = p.regMap.pw.softconn ∨ k = p.regMap.pw.hsenab then true else old.getLsbD k := by
    simp only [startPower, BitVec.getLsbD_or, getLsbD_bit hk]
    by_cases hs : k = p.regMap.pw.softconn <;> by_cases hh : k = p.regMap.pw.hsenab <;> simp [hs, hh]
  rw [getLsbD_powerAfter hk, hv]
  by_cases hset : k = p.regMap.pw.softconn ∨ k = p.regMap.pw.hsenab
  · rw [if_neg (startBits_of_wf hw hset)]
  · rw [if_neg hset, ite_self]

theorem enablePower_regs (c : Ctl) : (enablePower c).dev.regs = { c.dev.regs with
    power := powerAfter c.dev.cfg.regMap c.dev.regs.power (startPower c.dev.cfg.regMap c.dev.regs.power) } := by
  simp [enablePower, regReadEffect, regWriteEffect, busValue, regValue]

theorem sessionByRole_regs (c : Ctl) : (sessionByRole c).dev.regs = { c.dev.regs with
    devctl := devctlAfter c.dev.cfg.regMap c.dev.regs.devctl
      (startDevctl c.dev.cfg.regMap c.inst.cfgRole c.dev.regs.devctl) } := by
  simp [sessionByRole, regReadEffect, regWriteEffect, busValue, regValue]

/-- `START` when `board.enable()` has returned and test mode is left (R200, R202). -/
def boardEnabled (c : Ctl) : Ctl := ((programEnables c).call .boardEnable).write .testmode 0

theorem keeps_boardEnabled (c : Ctl) : Keeps c (boardEnabled c) :=
  ((keeps_programEnables c).trans (keeps_call _ _)).trans (keeps_write rfl (by decide) _ _)

/-- Of the registers the board callback can change `POWER` alone (R261). -/
theorem boardEnabled_regs (c : Ctl) : (boardEnabled c).dev.regs = { c.dev.regs with
    intrtxe := c.inst.epMask, intrrxe := c.inst.epMask &&& 0xFFFE#16, intrusbe := c.dev.cfg.defaultUsbIntr
    testmode := 0, power := (boardEnabled c).dev.regs.power } := by
  simp [boardEnabled, programEnables, regWriteEffect]

theorem boardEnabled_power_quiet {c : Ctl} (hq : c.dev.cbScript = []) :
    (boardEnabled c).dev.regs.power = c.dev.regs.power := by
  simp [boardEnabled, programEnables, regWriteEffect, hq]

/-- The registers after `START`: `POWER` is modified as `board.enable()` left it (R201 to R203, R261). -/
theorem startBody_regs (c : Ctl) : (startBody c).dev.regs = { c.dev.regs with
    intrtxe := c.inst.epMask, intrrxe := c.inst.epMask &&& 0xFFFE#16, intrusbe := c.dev.cfg.defaultUsbIntr
    testmode := 0
    power := powerAfter c.dev.cfg.regMap (boardEnabled c).dev.regs.power
      (startPower c.dev.cfg.regMap (boardEnabled c).dev.regs.power)
    devctl := devctlAfter c.dev.cfg.regMap c.dev.regs.devctl
      (startDevctl c.dev.cfg.regMap c.inst.cfgRole c.dev.regs.devctl) } := by
  have hkeeps := keeps_boardEnabled c
  have hpower := hkeeps.trans (keeps_enablePower _)
  have hbody : (startBody c).dev.regs = (sessionByRole (enablePower (boardEnabled c))).dev.regs := rfl
  rw [hbody, sessionByRole_regs, hpower.cfg, hpower.cfgRole, enablePower_regs, hkeeps.cfg, boardEnabled_regs]

/-- While the board callback does nothing, `START` writes its two flags and wakes a bridge (R204, R238). -/
theorem startBody_inst_quiet {c : Ctl} (hq : c.dev.cbScript = []) : (startBody c).inst = { c.inst with
    otgOverlayActive := c.dev.cfg.otgOverlayPresent && decide (c.inst.cfgRole = .otg), started := true
    lowPower := lowPowerAfter c.dev.cfg.fifoVariant c.inst.lowPower } := by
  simp [startBody, markStarted, sessionByRole, enablePower, programEnables, hq]

/-- What `START` leaves of the instance and the callbacks whatever the board callback does (R200, R204). -/
theorem startBody_bookkeeping (c : Ctl) :
    (startBody c).inst.otgOverlayActive = (c.dev.cfg.otgOverlayPresent && decide (c.inst.cfgRole = .otg))
    ∧ (startBody c).inst.isActive = c.inst.isActive ∧ (startBody c).inst.vbuserrRetry = c.inst.vbuserrRetry
    ∧ (startBody c).called = c.called ++ [.boardEnable] := by
  refine ⟨?_, ?_, ?_, ?_⟩ <;> simp [startBody, markStarted, sessionByRole, enablePower, programEnables, Ctl.called]

theorem startBody_queues (c : Ctl) : (startBody c).dev.txq = c.dev.txq ∧ (startBody c).dev.rxq = c.dev.rxq := by
  have hkeeps := keeps_startProgram c
  rw [startBody, markStarted]
  exact ⟨hkeeps.txq, hkeeps.rxq⟩

theorem exec_start {s : State} {i : Inst} (hr : Ready s i) : exec .start s
    = .next ((startBody (Ctl.takeLock ⟨i, s.dev⟩)).dropLock.withResult .none).toState :=
  whenReady_eq hr.1 hr.2.1 hr.2.2 fun c => finish .none (startBody c)

/-- Settles O52: the frame is that of the register part of `START`. -/
theorem startProgramsTheController : Obligations.StartProgramsTheController := by
  intro s i hw hr
  have hsteady := steady_startBody (Ctl.takeLock ⟨i, s.dev⟩)
  obtain ⟨htx, hrx⟩ := startBody_queues (Ctl.takeLock ⟨i, s.dev⟩)
  have hregs := startBody_regs (Ctl.takeLock ⟨i, s.dev⟩)
  obtain ⟨hoverlay, hactive, hretry, hcalled⟩ := startBody_bookkeeping (Ctl.takeLock ⟨i, s.dev⟩)
  refine ⟨_, _, exec_start hr, rfl, ?_, fun k hk => ?_, fun hq => ⟨fun k hk => ?_, ?_⟩, rfl, hoverlay, rfl, hactive,
    hretry, hsteady.ep, hcalled, htx, hrx, startBody_mem (Ctl.takeLock ⟨i, s.dev⟩), rfl⟩
  · simp [hregs]
  · rw [← getLsbD_startDevctl hk]
    exact congrArg (fun r : Regs => r.devctl.getLsbD k) hregs
  · have hpower := boardEnabled_power_quiet (c := Ctl.takeLock ⟨i, s.dev⟩) hq
    rw [hpower] at hregs
    rw [← getLsbD_startPower hw hk]
    exact congrArg (fun r : Regs => r.power.getLsbD k) hregs
  · have hinst := startBody_inst_quiet (c := Ctl.takeLock ⟨i, s.dev⟩) hq
    rw [Ctl.withResult_inst, Ctl.dropLock_inst, hinst, ← hr.2.2]
    rfl

/-! ## `STOP` (R205 to R207, R281) -/

/-- A masked status word asserts the line exactly while some latched bit is enabled (R281). -/
theorem masked_ne_zero_iff {w : Nat} (status enable : BitVec w) :
    (status &&& enable != 0) = true ↔ ∃ k, status.getLsbD k = true ∧ enable.getLsbD k = true := by
  rw [BitVec.ofNat_eq_ofNat, ne_zero_iff_getLsbD]
  simp only [BitVec.getLsbD_and, Bool.and_eq_true]
  exact ⟨fun ⟨k, _, h⟩ => ⟨k, h⟩, fun ⟨k, h⟩ => ⟨k, BitVec.lt_of_getLsbD h.1, h⟩⟩

theorem irqLine_iff (r : Regs) : irqLine r = true ↔ ∃ k,
    (r.intrusb.getLsbD k = true ∧ r.intrusbe.getLsbD k = true)
    ∨ (r.intrtx.getLsbD k = true ∧ r.intrtxe.getLsbD k = true)
    ∨ (r.intrrx.getLsbD k = true ∧ r.intrrxe.getLsbD k = true) := by
  simp only [irqLine, Bool.or_eq_true, masked_ne_zero_iff, exists_or, or_assoc]

/-- The registers after `STOP`: of them the board callback can change `POWER` alone (R205, R206, R261). -/
theorem stopBody_regs (c : Ctl) : (stopBody c).dev.regs = { c.dev.regs with
    intrusbe := 0, intrtxe := 0, intrrxe := 0, intrusb := 0, intrtx := 0, intrrx := 0
    power := (c.call .boardDisable).dev.regs.power
    devctl := devctlAfter c.dev.cfg.regMap c.dev.regs.devctl 0 } := by
  simp [stopBody, regReadEffect, regWriteEffect]

/-- While the board callback does nothing, `STOP` clears its two flags and wakes a bridge (R205, R238). -/
theorem stopBody_inst_quiet {c : Ctl} (hq : c.dev.cbScript = []) : (stopBody c).inst = { c.inst with
    otgOverlayActive := false, started := false
    lowPower := lowPowerAfter c.dev.cfg.fifoVariant c.inst.lowPower } := by
  simp [stopBody, hq]

theorem stopBody_called (c : Ctl) : (stopBody c).called = c.called ++ [.boardDisable] := by
  simp [stopBody, Ctl.called]

theorem stopBody_queues (c : Ctl) : (stopBody c).dev.txq = c.dev.txq ∧ (stopBody c).dev.rxq = c.dev.rxq := by
  have hkeeps := keeps_stopProgram c
  rw [stopBody]
  exact ⟨hkeeps.txq, hkeeps.rxq⟩

theorem exec_stop {s : State} {i : Inst} (hi : s.inst = some i) (hc : i.configured = true) :
    exec .stop s = .next ((stopBody ⟨i, s.dev⟩).withResult .none).toState :=
  whenConfigured_eq hi hc fun c => finishUnlocked .none (stopBody c)

/-- Settles O53: the frame is that of the register part of `STOP`. -/
theorem stopQuietsTheController : Obligations.StopQuietsTheController := by
  refine ⟨irqLine_iff, fun s i hi hc => ?_⟩
  have hsteady := steady_stopBody ⟨i, s.dev⟩
  obtain ⟨htx, hrx⟩ := stopBody_queues ⟨i, s.dev⟩
  have hregs := stopBody_regs ⟨i, s.dev⟩
  refine ⟨_, _, exec_stop hi hc, rfl, ?_, fun k hk => ?_, ?_, fun hq => ⟨?_, ?_⟩, rfl, rfl, hsteady.lock, hsteady.ep,
    stopBody_called ⟨i, s.dev⟩, htx, hrx, stopBody_mem ⟨i, s.dev⟩, rfl⟩
  · simp [hregs]
  · simpa [hregs] using getLsbD_devctlAfter hk s.dev.cfg.regMap s.dev.regs.devctl 0
  · simp [irqLine, hregs]
  · have hpower := Ctl.call_regs_quiet .boardDisable ⟨i, s.dev⟩ hq
    simp [hregs, hpower]
  · exact stopBody_inst_quiet (c := ⟨i, s.dev⟩) hq

end Sys2Proof.Machine
end

section
/-! PROOF. Low power on the bridge variant (R235, R238): the mode and the bus trace move together. `AccessWakes` says so
of two controllers; every part of an operation is in it, so it is proved of an operation by chaining. -/

namespace Sys2Proof.Machine

/-! ## The mode and the trace together (R238) -/

/-- `c'` extends the bus trace of `c`, and on the bridge variant it is in low power exactly if `c` was and the new
entries hold no register transaction. -/
structure AccessWakes (c c' : Ctl) : Prop where
  cfg : c'.dev.cfg = c.dev.cfg
  trace : ∃ new, c'.dev.bus = c.dev.bus ++ new ∧ (c.dev.cfg.fifoVariant = .bridgeWord →
    c'.inst.lowPower = (c.inst.lowPower && new.all fun ev => ev.engineWidth.isSome))

theorem AccessWakes.of_no_access {c c' : Ctl} (hcfg : c'.dev.cfg = c.dev.cfg) (hbus : c'.dev.bus = c.dev.bus)
    (hlow : c'.inst.lowPower = c.inst.lowPower) : AccessWakes c c' :=
  ⟨hcfg, [], by simp [hbus], fun _ => by simp [hlow]⟩

theorem AccessWakes.refl (c : Ctl) : AccessWakes c c := .of_no_access rfl rfl rfl

theorem AccessWakes.trans {a b c : Ctl} (h : AccessWakes a b) (k : AccessWakes b c) : AccessWakes a c := by
  obtain ⟨hcfg, new, hbus, hlow⟩ := h
  obtain ⟨kcfg, more, kbus, klow⟩ := k
  refine ⟨kcfg.trans hcfg, new ++ more, by rw [kbus, hbus, List.append_assoc], fun hv => ?_⟩
  rw [klow (hcfg ▸ hv), hlow hv, List.all_append, Bool.and_assoc]

theorem accessWakes_busRead (off n : Nat) (r : Reg) (c : Ctl) : AccessWakes c (busRead off n r c) :=
  ⟨by simp, [.regRead (c.inst.busAt off) n (busValue r n c)], by simp, fun hv => by simp [hv, BusEvent.engineWidth]⟩

theorem accessWakes_busWrite (off n : Nat) (r : Reg) (v : Word) (c : Ctl) : AccessWakes c (busWrite off n r v c) :=
  ⟨by simp, [.regWrite (c.inst.busAt off) n v], by simp, fun hv => by simp [hv, BusEvent.engineWidth]⟩

/-- The transactions of the FIFO engine do not end low power (log 37). -/
theorem EngineTrace.accessWakes {p : Option BusAt} {ws : List Nat} {c c' : Ctl} (h : EngineTrace p ws c c')
    (hcfg : c'.dev.cfg = c.dev.cfg) (hlow : c'.inst.lowPower = c.inst.lowPower) : AccessWakes c c' := by
  obtain ⟨new, hbus, hwidth, -⟩ := h
  have hall : new.all (fun ev => ev.engineWidth.isSome) = true := by
    rw [List.all_eq_true]
    intro ev hev
    have hmem := List.mem_map_of_mem (f := BusEvent.engineWidth) hev
    rw [hwidth, List.mem_map] at hmem
    obtain ⟨w, -, hw⟩ := hmem
    rw [← hw, Option.isSome_some]
  exact ⟨hcfg, new, hbus, fun _ => by rw [hlow, hall, Bool.and_true]⟩

/-! ## One more act -/

section OneMore
variable {c d : Ctl} (h : AccessWakes c d)
include h

theorem AccessWakes.read (r : Reg) : AccessWakes c (d.read r) := h.trans (accessWakes_busRead _ _ r d)

theorem AccessWakes.write (r : Reg) (v : Word) : AccessWakes c (d.write r v) := h.trans (accessWakes_busWrite _ _ r v d)

/-- A write of the instance that leaves the mode alone. -/
theorem AccessWakes.inst (i : Inst) (hlow : i.lowPower = d.inst.lowPower := by rfl) : AccessWakes c ⟨i, d.dev⟩ :=
  h.trans (.of_no_access rfl rfl hlow)

theorem AccessWakes.diag (t : Diag) : AccessWakes c (d.diag t) := h.trans (.of_no_access rfl rfl rfl)

end OneMore

/-! ## FIFO transfers (R114 to R118) -/

theorem accessWakes_programTx (e : EpIdx) (n : Nat) (c : Ctl) : AccessWakes c (programTx e n c) := by
  unfold programTx
  split
  · exact .refl c
  · exact accessWakes_busWrite _ _ _ _ c

theorem accessWakes_programRx (e : EpIdx) (n : Nat) (c : Ctl) : AccessWakes c (programRx e n c) := by
  unfold programRx
  split
  · exact .refl c
  · exact accessWakes_busWrite _ _ _ _ c

theorem accessWakes_writeFifo (e : EpIdx) (n a : Nat) (c : Ctl) : AccessWakes c (writeFifo e n a c) :=
  (accessWakes_programTx e n c).trans
    ((pushUnits_trace ..).accessWakes (by rw [(pushUnits_frame ..).1]) (by rw [pushUnits_inst]))

theorem accessWakes_readFifo (e : EpIdx) (n a : Nat) (c : Ctl) : AccessWakes c (readFifo e n a c) :=
  (accessWakes_programRx e n c).trans
    ((popUnits_trace ..).accessWakes (by rw [(popUnits_frame ..).1]) (by rw [popUnits_inst]))

/-! ## Configure (R98, R99, R130 to R145) -/

theorem accessWakes_epWrite (k : EpReg) (e : EpIdx) (v : Word) (c : Ctl) : AccessWakes c (epWrite k e v c) := by
  unfold epWrite
  split
  · exact accessWakes_busWrite _ _ _ _ c
  · exact ((AccessWakes.refl c).write .index _).write _ _

theorem accessWakes_epRead (k : EpReg) (e : EpIdx) (c : Ctl) : AccessWakes c (epRead k e c) := by
  unfold epRead
  split
  · exact accessWakes_busRead _ _ _ c
  · exact ((AccessWakes.refl c).write .index _).read _

theorem accessWakes_placeWrites (x : FifoEntry) (off : Nat) (c : Ctl) : AccessWakes c (placeWrites x off c) := by
  have two (k k' : EpReg) (v v' : Word) (d : Ctl) : AccessWakes d (epWrite k' x.ep v' (epWrite k x.ep v d)) :=
    (accessWakes_epWrite k x.ep v d).trans (accessWakes_epWrite k' x.ep v' _)
  unfold placeWrites
  dsimp only
  split <;> split
  · exact (two ..).trans (two ..)
  · exact two ..
  · exact two ..
  · exact .refl c

theorem accessWakes_placeEntry (x : FifoEntry) (off : Nat) (c : Ctl) : AccessWakes c (placeEntry x off c) :=
  (accessWakes_placeWrites x off c).inst _

theorem accessWakes_placeAll (l : List FifoEntry) (off nr : Nat) (w : List FifoEntry) (c : Ctl) :
    AccessWakes c (placeAll l off nr w c).ctl := by
  induction l generalizing off nr w c with
  | nil => exact (AccessWakes.refl c).inst _
  | cons x l ih =>
    unfold placeAll
    split
    · exact .refl c
    · exact (accessWakes_placeEntry x off c).trans (ih ..)

theorem accessWakes_discoverAll (l : List EpIdx) (nr : Nat) (c : Ctl) : AccessWakes c (discoverAll l nr c) := by
  induction l generalizing nr c with
  | nil => exact (AccessWakes.refl c).inst _
  | cons e l ih =>
    have hread := accessWakes_epRead .fifosize e c
    unfold discoverAll
    dsimp only
    split
    · exact hread.inst _
    · exact (hread.inst _).trans (ih ..)

theorem accessWakes_configurePass (c : Ctl) : AccessWakes c (configurePass c).ctl := by
  unfold configurePass
  split
  · exact accessWakes_placeAll ..
  · exact ((AccessWakes.refl c).inst _).trans (accessWakes_discoverAll ..)

theorem accessWakes_bulkCheck (w : List FifoEntry) (c : Ctl) : AccessWakes c (bulkCheck w c).ctl := by
  unfold bulkCheck
  split
  · split
    · exact (AccessWakes.refl c).inst _
    · exact .refl c
  · exact (AccessWakes.refl c).inst _

theorem accessWakes_configureBody (c : Ctl) : AccessWakes c (configureBody c).ctl := by
  have hpass : AccessWakes c (configurePass (clearTable c)).ctl :=
    ((AccessWakes.refl c).inst _).trans (accessWakes_configurePass _)
  unfold configureBody
  split <;> rename_i hp <;> rw [hp] at hpass
  · exact hpass
  · exact hpass.trans (accessWakes_bulkCheck ..)

theorem accessWakes_afterFailure (w : List FifoEntry) (c : Ctl) : AccessWakes c (afterFailure w c) := by
  refine .of_no_access ?_ ?_ ?_ <;> rw [afterFailure]

/-! ## Callbacks (R250, R256 to R261) -/

theorem accessWakes_collabMove (m : CollabMove) (c : Ctl) : AccessWakes c (collabMove m c) := by
  cases m with
  | clearResume => exact ((AccessWakes.refl c).read .power).write .power _
  | _ => exact (AccessWakes.refl c).inst _

theorem accessWakes_collabMoves (l : List CollabMove) (c : Ctl) : AccessWakes c (collabMoves l c) := by
  induction l generalizing c with
  | nil => exact .refl c
  | cons m l ih => exact (accessWakes_collabMove m c).trans (ih _)

theorem accessWakes_call (cb : Callback) (c : Ctl) : AccessWakes c (c.call cb) := by
  unfold Ctl.call
  dsimp only
  split
  · exact .of_no_access rfl rfl rfl
  · refine .trans ?_ (accessWakes_collabMoves _ _)
    exact .of_no_access rfl rfl rfl

theorem AccessWakes.call {c d : Ctl} (h : AccessWakes c d) (cb : Callback) : AccessWakes c (d.call cb) :=
  h.trans (accessWakes_call cb d)

theorem accessWakes_callAll (l : List Callback) (c : Ctl) : AccessWakes c (c.callAll l) := by
  induction l generalizing c with
  | nil => exact .refl c
  | cons cb l ih => exact (accessWakes_call cb c).trans (ih _)

/-! ## The steps of a delivery (R160 to R193) -/

theorem accessWakes_siteAIfActive (c : Ctl) : AccessWakes c (siteAIfActive c) := by
  unfold siteAIfActive
  split
  · exact (((AccessWakes.refl c).read .devctl).read .power).call (.inputsChanged _)
  · exact .refl c

theorem accessWakes_siteAExtra (t : TriggerPoint) (c : Ctl) : AccessWakes c (siteAExtra t c) := by
  unfold siteAExtra
  split
  · exact accessWakes_siteAIfActive c
  · exact .refl c

theorem accessWakes_resumeStep (snap : Snapshot) (c : Ctl) : AccessWakes c (resumeStep snap c) := by
  unfold resumeStep
  refine .trans ?_ (accessWakes_siteAExtra _ _)
  split
  · exact (((AccessWakes.refl c).inst _).write .power _).inst _
  · exact ((AccessWakes.refl c).inst _).call _

theorem accessWakes_sessReqStep (c : Ctl) : AccessWakes c (sessReqStep c) :=
  (((AccessWakes.refl c).write .devctl _).inst _).trans (accessWakes_siteAExtra _ _)

theorem accessWakes_vbusErrStep (c : Ctl) : AccessWakes c (vbusErrStep c) := by
  unfold vbusErrStep
  refine .trans ?_ (accessWakes_siteAExtra _ _)
  split
  · exact ((AccessWakes.refl c).inst _).write .devctl _
  · exact (AccessWakes.refl c).inst _

theorem accessWakes_connectTransition (c : Ctl) : AccessWakes c (connectTransition c) := by
  rw [connectTransition_eq]
  exact .of_no_access rfl rfl rfl

theorem accessWakes_connectStep (snap : Snapshot) (c : Ctl) : AccessWakes c (connectStep snap c) :=
  (((((AccessWakes.refl c).inst _).call .hostRootPort).inst _).trans (accessWakes_connectTransition _)).trans
    (accessWakes_siteAExtra _ _)

theorem accessWakes_resetStep (snap : Snapshot) (c : Ctl) : AccessWakes c (resetStep snap c) := by
  unfold resetStep
  refine .trans ?_ (accessWakes_siteAExtra _ _)
  split
  · exact (AccessWakes.refl c).diag _
  · dsimp only
    split
    · exact ((AccessWakes.refl c).call .periphReset).call (.inputsChanged _)
    · exact (AccessWakes.refl c).call .periphReset

theorem accessWakes_budgetReset (snap : Snapshot) (c : Ctl) : AccessWakes c (budgetReset snap c) := by
  rw [budgetReset_eq]
  exact (AccessWakes.refl c).inst _

theorem accessWakes_stepIf {f : Ctl → Ctl} (hf : ∀ c, AccessWakes c (f c)) (b : Bool) (c : Ctl) :
    AccessWakes c (stepIf b f c) := by
  cases b with
  | false => exact .refl c
  | true => exact hf c

theorem accessWakes_stage0 (snap : Snapshot) (c : Ctl) : AccessWakes c (stage0 snap c) :=
  (((((accessWakes_stepIf (accessWakes_resumeStep snap) _ c).trans
    (accessWakes_stepIf accessWakes_sessReqStep _ _)).trans
    (accessWakes_stepIf accessWakes_vbusErrStep _ _)).trans
    (accessWakes_stepIf (accessWakes_connectStep snap) _ _)).trans
    (accessWakes_stepIf (accessWakes_resetStep snap) _ _)).trans (accessWakes_budgetReset snap _)

theorem accessWakes_disconnectStep (c : Ctl) : AccessWakes c (disconnectStep c) :=
  (((AccessWakes.refl c).inst _).call _).trans (accessWakes_siteAIfActive _)

theorem accessWakes_suspendStep (c : Ctl) : AccessWakes c (suspendStep c) := by
  unfold suspendStep
  refine .trans ?_ (accessWakes_siteAExtra _ _)
  split
  · exact (AccessWakes.refl c).inst _
  · exact ((AccessWakes.refl c).call .periphSuspend).inst _

theorem accessWakes_stage2 (snap : Snapshot) (c : Ctl) : AccessWakes c (stage2 snap c) :=
  (accessWakes_stepIf accessWakes_disconnectStep _ c).trans (accessWakes_stepIf accessWakes_suspendStep _ _)

theorem accessWakes_deliver (snap : Snapshot) (c : Ctl) : AccessWakes c (deliver snap c) := by
  have hstages : AccessWakes c (stage2 snap (beforeStage2 snap c)) :=
    ((accessWakes_stage0 snap c).trans (accessWakes_callAll _ _)).trans (accessWakes_stage2 snap _)
  unfold deliver
  dsimp only
  split
  · exact hstages
  · exact hstages.diag _

theorem accessWakes_captureReads (c : Ctl) : AccessWakes c (captureReads c) :=
  (((((AccessWakes.refl c).read .intrusb).read .intrtx).read .intrrx).read .devctl).read .power

/-! ## Start, stop and `TRYIDLE` (R200 to R206, R230) -/

theorem accessWakes_startBody (c : Ctl) : AccessWakes c (startBody c) := by
  have henables : AccessWakes c (programEnables c) :=
    (((AccessWakes.refl c).write .intrtxe _).write .intrrxe _).write .intrusbe _
  have hboard : AccessWakes c (boardEnabled c) := (henables.call .boardEnable).write .testmode _
  have hpower : AccessWakes c (enablePower (boardEnabled c)) := (hboard.read .power).write .power _
  exact ((hpower.read .devctl).write .devctl _).inst _

theorem accessWakes_stopBody (c : Ctl) : AccessWakes c (stopBody c) :=
  (((((((((AccessWakes.refl c).call .boardDisable).write .intrusbe _).write .intrtxe _).write .intrrxe _).write .devctl
    _).read .intrusb).read .intrtx).read .intrrx).inst _

theorem accessWakes_tryIdle (c : Ctl) : AccessWakes c (tryIdle c) := by
  obtain ⟨x, hx, -⟩ := tryIdle_eq c
  rw [hx]
  exact (AccessWakes.refl c).inst _

/-! ## Whole operations -/

/-- What `AccessWakes` says, of the instances of two states. -/
def OpWakes (s t : State) : Prop :=
  ∀ a b, s.inst = some a → t.inst = some b → AccessWakes ⟨a, s.dev⟩ ⟨b, t.dev⟩

theorem opWakes_of_none {s t : State} (h : s.inst = none ∨ t.inst = none) : OpWakes s t := by
  intro a b ha hb
  obtain h | h := h
  · cases h.symm.trans ha
  · cases h.symm.trans hb

theorem opWakes_lockless {s t : State} {a : Inst} {c : Ctl} {r : Result} (ha : s.inst = some a)
    (h : AccessWakes ⟨a, s.dev⟩ c) (ht : t = (c.withResult r).toState) : OpWakes s t := by
  rintro a' b ha' hb
  cases ha.symm.trans ha'
  subst ht
  cases hb
  exact h.trans (.of_no_access rfl rfl rfl)

theorem opWakes_locked {s t : State} {a : Inst} {c : Ctl} {r : Result} (ha : s.inst = some a)
    (h : AccessWakes (Ctl.takeLock ⟨a, s.dev⟩) c) (ht : t = (c.dropLock.withResult r).toState) : OpWakes s t :=
  opWakes_lockless ha (((AccessWakes.refl _).inst _).trans (h.inst _)) ht

theorem opWakes_whenReady {s t : State} {r : Ctl → Result} {f : Ctl → Ctl} (hf : ∀ c, AccessWakes c (f c))
    (h : whenReady s (fun c => finish (r c) (f c)) = .next t) : OpWakes s t := by
  obtain ⟨a, ha, -, -, h⟩ := whenReady_next h
  exact opWakes_locked ha (hf _) ((finish_next ..).mp h)

theorem shimRead_opWakes {n : Nat} {off : BitVec 16} {s t : State} (h : shimRead n off s = .next t) : OpWakes s t := by
  obtain ⟨a, ha, -, h⟩ := whenConfigured_next h
  split at h
  · cases h
  · split at h
    · cases h
    · exact opWakes_lockless ha (accessWakes_busRead ..) ((finishUnlocked_next ..).mp h)

theorem shimWrite_opWakes {n : Nat} {off : BitVec 16} {v : Word} {s t : State} (h : shimWrite n off v s = .next t) :
    OpWakes s t := by
  obtain ⟨a, ha, -, h⟩ := whenConfigured_next h
  split at h
  · cases h
  · split at h
    · cases h
    · exact opWakes_lockless ha (accessWakes_busWrite ..) ((finishUnlocked_next ..).mp h)

theorem execConfigure_opWakes {s t : State} (h : execConfigure s = .next t) : OpWakes s t := by
  obtain ⟨a, ha, -, -, -, -, ⟨c, hb, ht⟩ | ⟨cause, w, c, hb, ht⟩⟩ := execConfigure_next h
  all_goals
    have hbody := accessWakes_configureBody (Ctl.takeLock ⟨a, s.dev⟩)
    rw [hb] at hbody
  · exact opWakes_locked ha (hbody.inst _) ht
  · exact opWakes_locked ha (hbody.trans (accessWakes_afterFailure w c)) ht

theorem execIrq_opWakes {src : SnapSource} {s t : State} (h : execIrq src s = .next t) : OpWakes s t := by
  obtain ⟨a, ha, -, -, h⟩ := whenReady_next h
  cases src with
  | live =>
    exact opWakes_locked ha ((accessWakes_captureReads _).trans (accessWakes_deliver _ _)) ((finish_next ..).mp h)
  | synthetic addr =>
    simp only [irqSynthetic] at h
    split at h
    · exact opWakes_locked ha (accessWakes_deliver _ _) ((finish_next ..).mp h)
    · cases h

theorem exec_opWakes {i : Instr} {s t : State} (h : exec i s = .next t) : OpWakes s t := by
  cases i with
  | rd8 off => exact shimRead_opWakes h
  | rd16 off => exact shimRead_opWakes h
  | rd32 off => exact shimRead_opWakes h
  | wr8 off v => exact shimWrite_opWakes h
  | wr16 off v => exact shimWrite_opWakes h
  | wr32 off v => exact shimWrite_opWakes h
  | wrfifo e n src =>
    obtain ⟨a, ha, -, -, ht⟩ := execWrfifo_next h
    exact opWakes_locked ha (accessWakes_writeFifo ..) ht
  | rdfifo e n dst =>
    obtain ⟨a, ha, -, -, ht⟩ := execRdfifo_next h
    exact opWakes_locked ha (accessWakes_readFifo ..) ht
  | configure => exact execConfigure_opWakes h
  | irq src => exact execIrq_opWakes h
  | start => exact opWakes_whenReady accessWakes_startBody h
  | stop =>
    replace h : execStop s = .next t := h
    obtain ⟨a, ha, -, h⟩ := whenConfigured_next h
    exact opWakes_lockless ha (accessWakes_stopBody _) ((finishUnlocked_next ..).mp h)
  | getmode => exact opWakes_whenReady (f := id) AccessWakes.refl h
  | getcable => exact opWakes_whenReady (f := id) AccessWakes.refl h
  | tryidle => exact opWakes_whenReady accessWakes_tryIdle h
  | attach =>
    obtain ⟨hs, -⟩ := execAttach_next h
    exact opWakes_of_none (.inl hs)
  | detach =>
    obtain ⟨-, -, -, ht, -⟩ := execDetach_next h
    exact opWakes_of_none (.inr ht)

/-- Settles O13: every part of every operation moves the mode and the trace together. -/
theorem registerAccessWakes : Obligations.RegisterAccessWakes := by
  intro i s t a b h ha hb hv
  obtain ⟨-, new, hbus, hlow⟩ := exec_opWakes h a b ha hb
  exact ⟨new, hbus, hlow hv⟩

end Sys2Proof.Machine
end

section
/-! PROOF. The idle timer (R230 to R239): what `TRYIDLE` leaves of it, and the steps of the environment that end it and
that wake the controller. -/

namespace Sys2Proof.Machine

/-! ## `TRYIDLE` (R230 to R232, R239) -/

/-- What `TRYIDLE` makes of an instance: the timer of an active link disarmed, that of an inactive one armed (R231,
R232); nothing on the direct variant (R239). -/
def Inst.triedIdle (p : Params) (i : Inst) : Inst :=
  if p.fifoVariant = .directBurst then i
  else { i with idleTimer := if i.isActive then none else if i.hostActive then some 0 else some p.idleDelay }

theorem tryIdle_eq_triedIdle (c : Ctl) : tryIdle c = ⟨c.inst.triedIdle c.dev.cfg, c.dev⟩ := by
  unfold tryIdle
  split <;> rename_i hv
  · simp [Inst.triedIdle, hv]
  · simp [Inst.triedIdle, hv, idleDelayOf, apply_ite some]

/-- The lock plays no part in it: taken and released, it is free again. -/
theorem Inst.triedIdle_locked {i : Inst} (p : Params) (hl : i.lock = .free) :
    { Inst.triedIdle p { i with lock := .held } with lock := .free } = i.triedIdle p := by
  unfold Inst.triedIdle
  split <;> simp [← hl]

/-- Settles O55: the locked operation's body writes the timer alone. -/
theorem tryIdleArmsTheTimer : Obligations.TryIdleArmsTheTimer := by
  rintro s i ⟨hi, hc, hl⟩
  have hrun : exec .tryidle s = .next ((tryIdle (Ctl.takeLock ⟨i, s.dev⟩)).dropLock.withResult .none).toState :=
    whenReady_eq hi hc hl fun c => finish .none (tryIdle c)
  have hfree := Inst.triedIdle_locked s.dev.cfg hl
  rw [hrun, tryIdle_eq_triedIdle]
  exact congrArg (fun j => Host.Outcome.next (State.mk (some j) { s.dev with result := .none })) hfree

/-! ## Expiry and wake-up events (R233 to R237) -/

/-- A step that takes a move of the environment on the instance (R54). -/
theorem step_onInst {s : State} {i : Inst} {m : EnvMove} {f : Ctl → Ctl} {rest : List Input}
    (hm : envMove m = onInst f) (hi : s.inst = some i) (hbox : s.dev.inbox = .env m :: rest) :
    step s = .next (f ⟨i, { s.dev with inbox := rest }⟩).toState := by
  obtain ⟨-, -, henv, -⟩ := stepRunsDecodedOperation
  rw [henv s m rest hbox, hm, onInst, hi]

theorem timerExpiry_armed {c : Ctl} {d : Nat} (hv : c.dev.cfg.fifoVariant = .bridgeWord)
    (ht : c.inst.idleTimer = some d) (hl : c.inst.lock = .free) : timerExpiry c =
      ⟨{ c.inst with idleTimer := none, wakeEnables := wakeFor c.inst.cfgRole, lowPower := true }, c.dev⟩ := by
  rw [timerExpiry, hv, ht, hl]

/-- An event ends the mode exactly if its source is enabled (R237). -/
theorem wakeEvent_bridge {c : Ctl} (hv : c.dev.cfg.fifoVariant = .bridgeWord) (w : WakeSource) : wakeEvent w c =
    ⟨{ c.inst with lowPower := c.inst.lowPower && !c.inst.wakeEnables.has w }, c.dev⟩ := by
  rw [wakeEvent, hv]
  cases c.inst.wakeEnables.has w <;> simp

/-- Settles O56: each is one move of the environment on the instance. -/
theorem timerExpiryAndWakeEvents : Obligations.TimerExpiryAndWakeEvents := by
  intro s i rest hi hv
  refine ⟨fun d ht hl hbox => ?_, fun w hbox => ?_⟩
  · have hexpiry := timerExpiry_armed (c := ⟨i, { s.dev with inbox := rest }⟩) hv ht hl
    rw [step_onInst (f := timerExpiry) rfl hi hbox, hexpiry]
    rfl
  · have hwake := wakeEvent_bridge (c := ⟨i, { s.dev with inbox := rest }⟩) hv w
    rw [step_onInst (f := wakeEvent w) rfl hi hbox, hwake]
    cases w <;> rfl

end Sys2Proof.Machine
end

section
/-! PROOF. Requests outside their lifecycle phase (R277, R311): how each operation begins decides its refusal. -/

namespace Sys2Proof.Machine

/-! ## Beginnings that refuse (R277, R311) -/

theorem whenConfigured_none {s : State} (h : s.inst = none) (k : Ctl → Out) :
    whenConfigured s k = .refused .noInstance := withInst_none h _

theorem whenConfigured_unconfigured {s : State} {i : Inst} (hi : s.inst = some i) (hc : i.configured = false)
    (k : Ctl → Out) : whenConfigured s k = .refused .notConfigured := by
  rw [whenConfigured, withInst_some hi]
  exact if_neg (by simp [hc])

/-- Every operation but `ATTACH` and `DETACH` begins by asking for a configured instance (R311). -/
theorem exec_eq_whenConfigured {i : Instr} (ha : i ≠ .attach) (hd : i ≠ .detach) :
    ∃ k, ∀ s, exec i s = whenConfigured s k := by
  cases i
  case attach => exact absurd rfl ha
  case detach => exact absurd rfl hd
  all_goals
    dsimp only [exec, execRd8, execRd16, execRd32, execWr8, execWr16, execWr32, shimRead, shimWrite, execWrfifo,
      execRdfifo, execConfigure, execIrq, execStart, execStop, execGetmode, execGetcable, execTryidle, whenReady]
    exact ⟨_, fun _ => rfl⟩

theorem exec_noInstance {i : Instr} {s : State} (hs : s.inst = none) (ha : i ≠ .attach) :
    exec i s = .refused .noInstance := by
  by_cases hd : i = .detach
  · subst hd
    show execDetach s = _
    exact withInst_none hs _
  · obtain ⟨k, hk⟩ := exec_eq_whenConfigured ha hd
    rw [hk, whenConfigured_none hs]

theorem exec_notConfigured {i : Instr} {s : State} {a : Inst} (hs : s.inst = some a) (hc : a.configured = false)
    (hd : i ≠ .detach) (ha : i ≠ .attach) : exec i s = .refused .notConfigured := by
  obtain ⟨k, hk⟩ := exec_eq_whenConfigured ha hd
  rw [hk, whenConfigured_unconfigured hs hc]

theorem exec_attach_instanceExists {s : State} {a : Inst} (hs : s.inst = some a) :
    exec .attach s = .refused .instanceExists := by
  show execAttach s = _
  rw [execAttach, hs]

theorem exec_configure_started {s : State} {a : Inst} (hr : Ready s a) (hst : a.started = true) :
    exec .configure s = .refused .startedConfigure := by
  obtain ⟨hi, hc, hl⟩ := hr
  exact (whenReady_eq hi hc hl _).trans (if_pos hst)

/-- Settles O15: one refusal for each phase an operation can be outside of. -/
theorem requestsOutsideTheirPhaseRefused : Obligations.RequestsOutsideTheirPhaseRefused := by
  intro i s
  refine ⟨exec_noInstance, fun a hs hi => ?_, fun a hr hst hi => ?_, fun a => exec_notConfigured⟩
  · rw [hi, exec_attach_instanceExists hs]
  · rw [hi, exec_configure_started hr hst]

end Sys2Proof.Machine
end

section
/-! PROOF. A delivery does not look at the interrupt enables (R283, D37): every step of it commutes with replacing the
three enable registers, whatever collaborators do in their callbacks. -/

namespace Sys2Proof.Machine

/-! ## Enables replaced (R25) -/

/-- The three enable registers of a controller replaced, as `State.withEnables` does of a state. -/
def Ctl.withEnables (c : Ctl) (a : BitVec 8) (b x : BitVec 16) : Ctl :=
  { c with dev := { c.dev with regs := { c.dev.regs with intrusbe := a, intrtxe := b, intrrxe := x } } }

/-- A call of a collaborator that is no stub makes the moves its script holds (R256). -/
theorem Ctl.call_of_not_stub {cb : Callback} {c : Ctl} (h : stubCall c.inst.cfgRole cb = false) :
    c.call cb = collabMoves (c.dev.cbScript.head?.getD [])
      { c with dev := { c.dev.logCall cb (some c.inst.view) with cbScript := c.dev.cbScript.tail } } := by
  simp [Ctl.call, h]

section Enables
variable (a : BitVec 8) (b x : BitVec 16) (snap : Snapshot) (c : Ctl)

@[simp] theorem Ctl.withEnables_inst : (c.withEnables a b x).inst = c.inst := rfl
@[simp] theorem Ctl.withEnables_cfg : (c.withEnables a b x).dev.cfg = c.dev.cfg := rfl

/-- Both branches of a test commute, so the test does. -/
@[simp] theorem ite_withEnables (p : Prop) [Decidable p] (d e : Ctl) :
    (if p then d.withEnables a b x else e.withEnables a b x) = (if p then d else e).withEnables a b x :=
  (apply_ite (fun y : Ctl => y.withEnables a b x) p d e).symm

/-! ## The acts of a delivery -/

@[simp] theorem setLink_withEnables (l : LinkState) :
    (c.withEnables a b x).setLink l = (c.setLink l).withEnables a b x := rfl
@[simp] theorem setActive_withEnables (v : Bool) :
    (c.withEnables a b x).setActive v = (c.setActive v).withEnables a b x := rfl
@[simp] theorem setRetry_withEnables (n : Nat) :
    (c.withEnables a b x).setRetry n = (c.setRetry n).withEnables a b x := rfl
@[simp] theorem forceHost_withEnables : (c.withEnables a b x).forceHost = c.forceHost.withEnables a b x := rfl
@[simp] theorem resetCtrl_withEnables : (c.withEnables a b x).resetCtrl = c.resetCtrl.withEnables a b x := rfl
@[simp] theorem diag_withEnables (t : Diag) : (c.withEnables a b x).diag t = (c.diag t).withEnables a b x := rfl
@[simp] theorem startSession_withEnables : (c.withEnables a b x).startSession = c.startSession.withEnables a b x := rfl
@[simp] theorem writePower_withEnables (v : Word) :
    (c.withEnables a b x).write .power v = (c.write .power v).withEnables a b x := rfl

theorem captureReads_withEnables : captureReads (c.withEnables a b x) = (captureReads c).withEnables a b x := rfl

theorem collabMove_withEnables (m : CollabMove) :
    collabMove m (c.withEnables a b x) = (collabMove m c).withEnables a b x := by
  cases m <;> rfl

theorem collabMoves_withEnables (l : List CollabMove) :
    collabMoves l (c.withEnables a b x) = (collabMoves l c).withEnables a b x := by
  induction l generalizing c with
  | nil => rfl
  | cons m l ih => rw [collabMoves, collabMove_withEnables, ih, collabMoves]

@[simp] theorem call_withEnables (cb : Callback) : (c.withEnables a b x).call cb = (c.call cb).withEnables a b x := by
  cases h : stubCall c.inst.cfgRole cb with
  | true =>
    rw [Ctl.call_of_stub h, Ctl.call_of_stub (c := c.withEnables a b x) h]
    rfl
  | false =>
    rw [Ctl.call_of_not_stub h, Ctl.call_of_not_stub (c := c.withEnables a b x) h, ← collabMoves_withEnables]
    rfl

@[simp] theorem callAll_withEnables (l : List Callback) :
    (c.withEnables a b x).callAll l = (c.callAll l).withEnables a b x := by
  induction l generalizing c with
  | nil => rfl
  | cons cb l ih => rw [Ctl.callAll, call_withEnables, ih, Ctl.callAll]

/-! ## The overlay (R220 to R224) -/

theorem siteA_withEnables : siteA (c.withEnables a b x) = (siteA c).withEnables a b x :=
  call_withEnables a b x ((c.read .devctl).read .power) (.inputsChanged _)

@[simp] theorem siteAIfActive_withEnables :
    siteAIfActive (c.withEnables a b x) = (siteAIfActive c).withEnables a b x := by
  simp [siteAIfActive, siteA_withEnables]

@[simp] theorem siteAExtra_withEnables (t : TriggerPoint) :
    siteAExtra t (c.withEnables a b x) = (siteAExtra t c).withEnables a b x := by
  simp [siteAExtra]

@[simp] theorem siteB_withEnables (v : BitVec 8) (r p k e : Bool) :
    siteB v r p k e (c.withEnables a b x) = (siteB v r p k e c).withEnables a b x := by
  simp [siteB]

/-! ## The three stages (R160 to R193) -/

theorem resumeStep_withEnables : resumeStep snap (c.withEnables a b x) = (resumeStep snap c).withEnables a b x := by
  simp [resumeStep]

theorem sessReqStep_withEnables : sessReqStep (c.withEnables a b x) = (sessReqStep c).withEnables a b x := by
  simp [sessReqStep]

theorem vbusErrStep_withEnables : vbusErrStep (c.withEnables a b x) = (vbusErrStep c).withEnables a b x := by
  by_cases h : c.inst.vbuserrRetry = 0 <;> simp [vbusErrStep, h]

@[simp] theorem connectTransition_withEnables :
    connectTransition (c.withEnables a b x) = (connectTransition c).withEnables a b x := by
  rw [connectTransition_eq, connectTransition_eq]
  rfl

@[simp] theorem connectPortStep_withEnables :
    connectPortStep snap (c.withEnables a b x) = (connectPortStep snap c).withEnables a b x := rfl

theorem connectStep_withEnables : connectStep snap (c.withEnables a b x) = (connectStep snap c).withEnables a b x := by
  simp [connectStep]

theorem resetStep_withEnables : resetStep snap (c.withEnables a b x) = (resetStep snap c).withEnables a b x := by
  simp [resetStep]

theorem budgetReset_withEnables : budgetReset snap (c.withEnables a b x) = (budgetReset snap c).withEnables a b x := by
  by_cases h : otherNamed c.dev.cfg.regMap snap.usb = true <;> simp [budgetReset, h]

theorem disconnectStep_withEnables : disconnectStep (c.withEnables a b x) = (disconnectStep c).withEnables a b x := by
  by_cases h : c.inst.hostActive = true <;> simp [disconnectStep, h]

theorem suspendStep_withEnables : suspendStep (c.withEnables a b x) = (suspendStep c).withEnables a b x := by
  simp [suspendStep]

variable {a b x} in
theorem stepIf_withEnables {f : Ctl → Ctl} (hf : ∀ d, f (d.withEnables a b x) = (f d).withEnables a b x) (v : Bool) :
    stepIf v f (c.withEnables a b x) = (stepIf v f c).withEnables a b x := by
  cases v with
  | false => rfl
  | true => exact hf c

theorem stage0_withEnables : stage0 snap (c.withEnables a b x) = (stage0 snap c).withEnables a b x := by
  simp only [stage0, Ctl.withEnables_cfg, Ctl.withEnables_inst, stepIf_withEnables _ (resumeStep_withEnables a b x snap),
    stepIf_withEnables _ (sessReqStep_withEnables a b x), stepIf_withEnables _ (vbusErrStep_withEnables a b x),
    stepIf_withEnables _ (connectStep_withEnables a b x snap), stepIf_withEnables _ (resetStep_withEnables a b x snap),
    budgetReset_withEnables]

theorem beforeStage2_withEnables :
    beforeStage2 snap (c.withEnables a b x) = (beforeStage2 snap c).withEnables a b x := by
  simp [beforeStage2, stage1, stage0_withEnables]

theorem stage2_withEnables : stage2 snap (c.withEnables a b x) = (stage2 snap c).withEnables a b x := by
  simp only [stage2, disconnectCond, Ctl.withEnables_cfg, Ctl.withEnables_inst,
    stepIf_withEnables _ (disconnectStep_withEnables a b x), stepIf_withEnables _ (suspendStep_withEnables a b x)]

theorem handledBy_withEnables (d : Ctl) :
    handledBy snap (c.withEnables a b x) (d.withEnables a b x) = handledBy snap c d := rfl

theorem deliver_withEnables : deliver snap (c.withEnables a b x) = (deliver snap c).withEnables a b x := by
  simp [deliver, beforeStage2_withEnables, stage2_withEnables, handledBy_withEnables]

theorem deliveredState_withEnables :
    deliveredState snap (c.withEnables a b x) = (deliveredState snap c).withEnables a b x := by
  rw [deliveredState, deliver_withEnables, beforeStage2_withEnables, handledBy_withEnables]
  rfl

/-! ## The capture (R161) -/

theorem snapshotOf_withEnables (s : State) (src : SnapSource) :
    snapshotOf (s.withEnables a b x) src = snapshotOf s src := by
  cases src <;> rfl

theorem capturedCtl_withEnables (s : State) (i : Inst) (src : SnapSource) :
    capturedCtl (s.withEnables a b x) i src = (capturedCtl s i src).withEnables a b x := by
  cases src <;> rfl

end Enables

/-- Settles O51: the capture takes the same snapshot, and delivering it commutes with replacing the enables. -/
theorem deliveryIgnoresEnables : Obligations.DeliveryIgnoresEnables := by
  intro s t src a b x h
  obtain ⟨i, hi, hc, hl, -⟩ := whenReady_next h
  have hr : Ready s i := ⟨hi, hc, hl⟩
  have hr' : Ready (s.withEnables a b x) i := ⟨hi, hc, hl⟩
  cases hs : snapshotOf s src with
  | none => cases (exec_irq_refused hr hs).symm.trans h
  | some snap =>
    cases (exec_irq hr hs).symm.trans h
    rw [exec_irq hr' ((snapshotOf_withEnables ..).trans hs), capturedCtl_withEnables, deliveredState_withEnables]

end Sys2Proof.Machine
end

section
/-! PROOF. `ATTACH` that creates no instance, and `DETACH` (R300 to R305): one equation for each place where `ATTACH`
can end and one for `DETACH`. The `ATTACH` that succeeds is `execAttach_eq`. -/

namespace Sys2Proof.Machine

/-! ## Support (R301) -/

theorem checkSupported_role {p : Params} (hr : p.cfgRole ∉ p.rolesCompiled) :
    checkSupported p = some .roleNotCompiled := if_pos hr

theorem checkSupported_allocator {p : Params} (hr : p.cfgRole ∈ p.rolesCompiled)
    (hm : (p.allocMode = .table ∧ p.hwDynFifo = false) ∨ (p.allocMode = .discovered ∧ p.hwDynFifo = true)) :
    checkSupported p = some .allocatorMismatch := by
  rw [checkSupported, if_neg (not_not.mpr hr)]
  obtain ⟨ha, hd⟩ | ⟨ha, hd⟩ := hm <;> rw [ha, hd]

/-- An unsupported configuration is reported and nothing else changes (R301). -/
theorem exec_attach_unsupported {s : State} (hi : s.inst = none) {cause : UnsupportedCause}
    (hc : checkSupported s.dev.cfg = some cause) : exec .attach s
      = .next { s with dev := { s.dev with result := .status (.unsupportedConfiguration cause) } } := by
  show execAttach s = _
  simp only [execAttach, hi, hc, raiseError]

/-- A supported configuration goes on to acquire its resources (R300, R302). -/
theorem exec_attach_supported {s : State} (hi : s.inst = none) (hc : checkSupported s.dev.cfg = none) :
    exec .attach s = attachAcquire s.dev := by
  show execAttach s = _
  simp only [execAttach, hi, hc]

/-! ## Acquired resources and their release (R302) -/

/-- A refused memory map leaves nothing to release (R302). -/
theorem attachAcquire_noMemmap {d : Dev} (hm : d.memmapOk = false) : attachAcquire d
    = raiseError .resourceUnavailable ⟨none, d.logCall .requestMemmap none⟩ :=
  if_pos (by simp [hm])

/-- A refused interrupt line is followed by the release of the memory map (R302). -/
theorem attachAcquire_noIrq {d : Dev} (hm : d.memmapOk = true) (hq : d.irqOk = false) : attachAcquire d
    = raiseError .resourceUnavailable ⟨none, d.granted.logCall .releaseMemmap none⟩ :=
  (if_neg (by simp [hm])).trans (if_pos (by simp [hq]))

theorem attachAcquire_granted {d : Dev} (hm : d.memmapOk = true) (hq : d.irqOk = true) :
    attachAcquire d = attachConfigure d.granted :=
  (if_neg (by simp [hm])).trans (if_neg (by simp [hq]))

theorem attachConfigure_failed {d : Dev} {cause : ExhaustCause} {w : List FifoEntry} {c : Ctl}
    (hu : layoutUsable d.cfg = true) (hb : configureBody (createInst d).takeLock = .failed cause w c) :
    attachConfigure d = raiseError (.resourceExhausted cause) ⟨none, releaseAll (afterFailure w c)⟩ := by
  rw [attachConfigure, if_neg (not_not.mpr hu), hb]

/-- Releasing both resources is two calls, the interrupt line first (R302, R305). -/
theorem releaseAll_called (c : Ctl) : (releaseAll c).calls.map CallRecord.call
    = c.dev.calls.map CallRecord.call ++ [.releaseIrq, .releaseMemmap] := by
  simp [releaseAll]

/-- A configure step that fails leaves the two requests and both releases in the trace (R300, R302). -/
theorem attachConfigure_notConfigurable {d : Dev} (hw : d.cfg.wf = true) (hn : configurable d.cfg = false) :
    ∃ t c, attachConfigure d = .next t ∧ t.inst = none ∧ t.dev.result = .status (.resourceExhausted c)
      ∧ t.dev.calls.map CallRecord.call = d.calls.map CallRecord.call ++ [.releaseIrq, .releaseMemmap] := by
  cases hb : configureBody (createInst d).takeLock with
  | done c =>
    have hfit := configurable_of_done (c := (createInst d).takeLock) hw rfl hb
    exact absurd hfit (Bool.eq_false_iff.mp hn)
  | failed cause w c =>
    have hframe := (configureBody_failed_frame hb).trans (afterFailure_frame w c)
    obtain ⟨-, -, hcalls, -⟩ := hframe.queues_traces
    refine ⟨_, cause, attachConfigure_failed (wf_layoutUsable hw) hb, rfl, rfl, ?_⟩
    exact (releaseAll_called _).trans (congrArg (fun l => l.map CallRecord.call ++ _) hcalls)

/-- Settles O57: the role is tested before the allocator, and nothing is acquired before either test. -/
theorem attachChecksSupport : Obligations.AttachChecksSupport := fun _ hi =>
  ⟨fun hr => exec_attach_unsupported hi (checkSupported_role hr),
    fun hr hm => exec_attach_unsupported hi (checkSupported_allocator hr hm)⟩

/-- Settles O58: where both the interrupt line and configure would fail, the model reports the interrupt line. -/
theorem attachReleasesInReverse : Obligations.AttachReleasesInReverse := by
  intro s hw hi hr hm
  rw [exec_attach_supported hi (checkSupported_none hr hm)]
  refine ⟨fun hmem => ?_, fun hmem hirq _ => ?_, fun hmem hirq _ => ?_, fun hmem hirq hn => ?_⟩
  · rw [attachAcquire_noMemmap hmem, hi]
    rfl
  · rw [attachAcquire_noIrq hmem hirq, hi]
    simp [raiseError, Dev.granted, Dev.logCall]
  · refine ⟨_, .resourceUnavailable, attachAcquire_noIrq hmem hirq, rfl, rfl, by decide, ?_⟩
    simp
  · obtain ⟨t, c, ht, hinst, hres, hcalls⟩ := attachConfigure_notConfigurable (d := s.dev.granted) hw hn
    refine ⟨t, c, (attachAcquire_granted hmem hirq).trans ht, hinst, hres, hcalls.trans ?_⟩
    simp [Dev.granted]

/-! ## `DETACH` (R305) -/

theorem all_isEmpty_iff {α : Type} (v : Vector (List α) 16) :
    v.toList.all List.isEmpty = true ↔ ∀ e, tget v e = [] := by
  simp only [List.all_eq_true, List.isEmpty_iff, Vector.mem_toList_iff, Vector.forall_mem_iff_forall_getElem]
  exact ⟨fun h e => h e.val e.isLt, fun h k hk => h ⟨k, hk⟩⟩

theorem idleEndpoints_iff (d : Dev) :
    idleEndpoints d = true ↔ d.midTransfer = false ∧ ∀ e, tget d.txq e = [] ∧ tget d.rxq e = [] := by
  simp only [idleEndpoints, Bool.and_eq_true, Bool.not_eq_true', all_isEmpty_iff, forall_and, and_assoc]

/-- `DETACH` on an instance whose lock is free: the endpoints decide whether it is destroyed (R305). -/
theorem exec_detach {s : State} {i : Inst} (hi : s.inst = some i) (hl : i.lock = .free) : exec .detach s
    = if idleEndpoints s.dev then .next ⟨none, { releaseAll ⟨i, s.dev⟩ with result := .none }⟩
      else .refused .midTransfer := by
  show execDetach s = _
  rw [execDetach, withInst_some hi, underLock_eq hl]
  rfl

/-- Settles O60: the test of the endpoints, read both ways. -/
theorem detachDestroysTheInstance : Obligations.DetachDestroysTheInstance := by
  intro s i hi hl
  rw [exec_detach hi hl]
  refine ⟨fun hmid hq => ?_, fun hbusy => ?_⟩
  · rw [if_pos ((idleEndpoints_iff _).mpr ⟨hmid, hq⟩)]
    exact ⟨_, rfl, releaseAll_called ⟨i, s.dev⟩, rfl⟩
  · refine if_neg fun hidle => ?_
    obtain ⟨hmid, hq⟩ := (idleEndpoints_iff _).mp hidle
    obtain hmid' | ⟨e, htx | hrx⟩ := hbusy
    · exact Bool.eq_false_iff.mp hmid hmid'
    · exact htx (hq e).1
    · exact hrx (hq e).2

end Sys2Proof.Machine
end

section
/-! PROOF. `POWER` while no collaborator acts (R27, R164, R324): after `ATTACH` only a byte write, `START` and a delivery
write it, and the last two leave a set resume bit set. -/

namespace Sys2Proof.Machine

/-! ## Accesses of the shim (R94 to R96) -/

theorem regReadEffect_power (r : Reg) (n : Nat) (d : Dev) : (regReadEffect r n d).regs.power = d.regs.power := by
  cases r with
  | epReg k e =>
    cases k with
    | fifosize =>
      simp only [regReadEffect]
      split <;> rfl
    | _ => rfl
  | _ => rfl

theorem regWriteEffect_power {r : Reg} (hr : r ≠ .power) (n : Nat) (v : Word) (d : Dev) :
    (regWriteEffect r n v d).regs.power = d.regs.power := by
  cases r with
  | power => exact absurd rfl hr
  | epReg k e => cases k <;> rfl
  | _ => rfl

section Shim
variable {n : Nat} {off : BitVec 16} {s t : State}

theorem shimRead_power (h : shimRead n off s = .next t) : t.dev.regs.power = s.dev.regs.power := by
  obtain ⟨i, -, -, h⟩ := whenConfigured_next h
  split at h
  · cases h
  split at h <;> cases h
  exact regReadEffect_power ..

/-- `POWER` is one byte wide, so a wider write does not reach it (R103). -/
theorem shimWrite_power (hn : n ≠ 1) {v : Word} (h : shimWrite n off v s = .next t) :
    t.dev.regs.power = s.dev.regs.power := by
  obtain ⟨i, -, -, h⟩ := whenConfigured_next h
  split at h
  · cases h
  rename_i r hr
  have hp : r ≠ .power := by
    rintro rfl
    have ha : Reg.power.accepts s.dev.cfg.fifoVariant n = true := Reaches.accepts (off := off) hr
    exact hn ((accepts_iff (by simp)).mp ha)
  split at h <;> cases h
  exact regWriteEffect_power hp ..

end Shim

/-! ## Operations that do not write `POWER` -/

theorem programTx_power (e : EpIdx) (n : Nat) (c : Ctl) :
    (programTx e n c).dev.regs.power = c.dev.regs.power := by
  unfold programTx
  split
  · rfl
  · exact regWriteEffect_power (by unfold txProgram; split <;> simp) ..

theorem programRx_power (e : EpIdx) (n : Nat) (c : Ctl) :
    (programRx e n c).dev.regs.power = c.dev.regs.power := by
  unfold programRx
  split
  · rfl
  · exact regWriteEffect_power (by unfold rxProgram; split <;> simp) ..

theorem AllocFrame.power {c c' : Ctl} (h : AllocFrame c c') : c'.dev.regs.power = c.dev.regs.power := by
  rw [h.regs]

theorem stopBody_power {c : Ctl} (hq : c.dev.cbScript = []) :
    (stopBody c).dev.regs.power = c.dev.regs.power := by
  rw [stopBody_regs, Ctl.call_regs_quiet _ _ hq]

theorem exec_detach_power {s t : State} (h : exec .detach s = .next t) : t.dev.regs.power = s.dev.regs.power := by
  obtain ⟨i, hi, hl, -⟩ := execDetach_next h
  rw [exec_detach hi hl] at h
  split at h <;> cases h
  rfl

/-! ## Operations that write `POWER` and keep its resume bit -/

/-- Bit `k` of `POWER` is set in `t` if it is in `s`. -/
def PowerBitStays (k : Nat) (s t : State) : Prop :=
  s.dev.regs.power.getLsbD k = true → t.dev.regs.power.getLsbD k = true

theorem PowerBitStays.of_eq {k : Nat} {s t : State} (h : t.dev.regs.power = s.dev.regs.power) :
    PowerBitStays k s t := fun hk => by rw [h, hk]

/-- `START` clears no bit of `POWER` (R202). -/
theorem exec_start_powerBitStays {k : Nat} {s t : State} (hw : s.dev.cfg.wf = true) (hq : Quiet s)
    (h : exec .start s = .next t) : PowerBitStays k s t := by
  intro hk
  obtain ⟨i, hi, hc, hl, -⟩ := whenReady_next h
  obtain ⟨u, j, hu, -, -, -, hquiet, -⟩ := startProgramsTheController s i hw ⟨hi, hc, hl⟩
  obtain ⟨hpower, -⟩ := hquiet hq
  cases hu.symm.trans h
  rw [hpower k (BitVec.lt_of_getLsbD hk), hk, ite_self]

/-- A delivery writes `POWER` for a host-role resume alone, with the resume bit set (R164). -/
theorem exec_irq_powerBitStays {src : SnapSource} {s t : State} (hw : s.dev.cfg.wf = true) (hq : Quiet s)
    (h : exec (.irq src) s = .next t) : PowerBitStays s.dev.cfg.regMap.pw.resume s t := by
  intro hk
  obtain ⟨i, hi, hc, hl, -⟩ := whenReady_next h
  have hr : Ready s i := ⟨hi, hc, hl⟩
  cases hs : snapshotOf s src with
  | none => cases (exec_irq_refused hr hs).symm.trans h
  | some snap =>
    obtain ⟨u, hu, -, hpower, -⟩ := deliveryRegisters s i src snap hw hr hq hs
    cases hu.symm.trans h
    rw [hpower _ (BitVec.lt_of_getLsbD hk), hk, if_pos rfl, ite_self, ite_self]

/-- Settles O11: `START` and a delivery keep the bit if it is set, and the other operations leave `POWER` alone. -/
theorem onlySoftwareClearsResume : Obligations.OnlySoftwareClearsResume := by
  intro i s t hw h hq hwr hat
  change PowerBitStays _ s t
  cases i with
  | rd8 off | rd16 off | rd32 off => exact .of_eq (shimRead_power h)
  | wr8 off v => exact absurd rfl (hwr off v)
  | wr16 off v => exact .of_eq (shimWrite_power (n := 2) (by decide) h)
  | wr32 off v => exact .of_eq (shimWrite_power (n := 4) (by decide) h)
  | wrfifo e n src =>
    obtain ⟨a, -, -, -, rfl⟩ := execWrfifo_next h
    refine .of_eq (.trans ?_ (programTx_power e n.toNat (Ctl.takeLock ⟨a, s.dev⟩)))
    exact congrArg (·.regs.power) (writeFifo_dev ..)
  | rdfifo e n dst =>
    obtain ⟨a, -, -, -, rfl⟩ := execRdfifo_next h
    refine .of_eq (.trans ?_ (programRx_power e n.toNat (Ctl.takeLock ⟨a, s.dev⟩)))
    exact congrArg (·.regs.power) (readFifo_dev ..)
  | configure =>
    obtain ⟨a, c, r, -, -, -, hf, rfl⟩ := execConfigure_frame h
    exact .of_eq hf.power
  | irq src => exact exec_irq_powerBitStays hw hq h
  | start => exact exec_start_powerBitStays hw hq h
  | stop =>
    obtain ⟨a, -, -, h⟩ := whenConfigured_next (k := fun c => finishUnlocked .none (stopBody c)) h
    cases h
    exact .of_eq (stopBody_power (c := ⟨a, s.dev⟩) hq)
  | getmode | getcable =>
    obtain ⟨a, -, -, -, h⟩ := whenReady_next h
    cases h
    exact .of_eq rfl
  | tryidle =>
    obtain ⟨a, -, -, -, h⟩ := whenReady_next h
    cases h
    obtain ⟨x, hx, -⟩ := tryIdle_eq (Ctl.takeLock ⟨a, s.dev⟩)
    exact .of_eq (congrArg (·.dev.regs.power) hx)
  | attach => exact absurd rfl hat
  | detach => exact .of_eq (exec_detach_power h)

end Sys2Proof.Machine
end
